-- ==== Sys2Proof/Word.lean ====
section
/-! DEFINITION. The word types of the block: a stream byte (10_state.md R21), a token nibble (30_encoding.md R82),
the 16-bit offset (R86) and the 32-bit host-visible register (10_state.md R23 to R26). -/

namespace Sys2Proof

/-- One byte of a stream or of a buffer (R21, R22). -/
abbrev Byte := BitVec 8

/-- One half of a token (R82). -/
abbrev Nibble := BitVec 4

/-- A match offset (R86), and one entry of the chain ring (R32). -/
abbrev Half := BitVec 16

/-- A host-visible register (R23 to R26). -/
abbrev Word := BitVec 32

end Sys2Proof
end

