-- ==== Sys2Proof/Config.lean ====
section
/-! DEFINITION. The parameters of 00_scope.md R7, and the two things the spec leaves open: HASH_LOG_LARGE and the
"any value" bytes of 10_state.md R33. Those that R7 grounds on a decision are the fields of `Parameters`, at the values
the spec chose (log 9); those the document gives are plain constants. -/

namespace Sys2Proof.Config

/-! ## Grounded on the document -/

/-- MIN_MATCH. -/
def minMatch : Nat := 4

/-- MAX_OFFSET, also the cap of a chain delta (R32). -/
def maxOffset : Nat := 65535

/-- RUN_MASK and ML_MASK: the cap of a token nibble. -/
def nibbleCap : Nat := 15

/-- LAST_LITERALS. -/
def lastLiterals : Nat := 5

/-- HASH_LOG. -/
def hashLog : Nat := 12

/-- SLOT_W_SMALL: the position width of a small-mode HT slot (R30). -/
def slotWSmall : Nat := 16

/-- MAX_ATTEMPTS. -/
def maxAttempts : Nat := 256

/-! ## Grounded on a decision -/

/-- The decision-grounded parameters, one field each. SMALL_LIMIT and LAZY_MIN_GAP are document numbers whose reading is
a decision. -/
structure Parameters where
  /-- SMALL_LIMIT (D11: 64KB is 65536). -/
  smallLimit : Nat
  /-- HASH_LOG_LARGE (D12). -/
  hashLogLarge : Nat
  /-- SLOT_W_LARGE: the position width of a large-mode HT slot and of a HEAD slot (D11). -/
  slotWLarge : Nat
  /-- HASH_MULT (D9). -/
  hashMult : Nat
  /-- SKIP_STRENGTH (D13). -/
  skipStrength : Nat
  /-- MF_LIMIT (D14). -/
  mfLimit : Nat
  /-- COPY_LENGTH: the stride of wide copies (D14); no rule depends on it. -/
  copyLength : Nat
  /-- HASH_LOG_HC (D17). -/
  hashLogHc : Nat
  /-- CHAIN_SIZE (D17). -/
  chainSize : Nat
  /-- OPTIMAL_ML (D18). -/
  optimalMl : Nat
  /-- LAZY_MIN_GAP (D19). -/
  lazyMinGap : Nat
  /-- MAX_INPUT_SIZE (D7). -/
  maxInputSize : Nat
  /-- REG_W: the width of every host-visible register (D3). -/
  regW : Nat
deriving DecidableEq, Repr

/-- UNVERIFIED, safe (log 8): how far HASH_LOG_LARGE lies above 13. It has no body, so a claim holds for every value. -/
opaque hashLogLargeAbove13 : Fin 12

/-- The values of R7; HASH_LOG_LARGE is open, an integer in [13, 24] (D12; log 8). A claim that rests on one of these
values rests on this definition. -/
def parameters : Parameters :=
  { smallLimit := 65536
    hashLogLarge := 13 + hashLogLargeAbove13.val
    slotWLarge := 32
    hashMult := 2654435761
    skipStrength := 6
    mfLimit := 12
    copyLength := 8
    hashLogHc := 15
    chainSize := 65536
    optimalMl := 18
    lazyMinGap := 3
    maxInputSize := 0x7E000000
    regW := 32 }

/-- SMALL_LIMIT. -/
def smallLimit : Nat := parameters.smallLimit

/-- HASH_LOG_LARGE. -/
def hashLogLarge : Nat := parameters.hashLogLarge

/-- SLOT_W_LARGE. -/
def slotWLarge : Nat := parameters.slotWLarge

/-- HASH_MULT. -/
def hashMult : Nat := parameters.hashMult

/-- SKIP_STRENGTH. -/
def skipStrength : Nat := parameters.skipStrength

/-- MF_LIMIT. -/
def mfLimit : Nat := parameters.mfLimit

/-- HASH_LOG_HC. -/
def hashLogHc : Nat := parameters.hashLogHc

/-- CHAIN_SIZE. -/
def chainSize : Nat := parameters.chainSize

/-- OPTIMAL_ML. -/
def optimalMl : Nat := parameters.optimalMl

/-- LAZY_MIN_GAP. -/
def lazyMinGap : Nat := parameters.lazyMinGap

/-- MAX_INPUT_SIZE. -/
def maxInputSize : Nat := parameters.maxInputSize

/-- UNVERIFIED, safe (log 7): the byte at a DST address that the rules leave at "any value" (R33), for the n-th time
that a region was left so. It has no body, so a claim holds for every value. -/
opaque freeByte : Nat → Nat → Byte

end Sys2Proof.Config
end

