-- ==== Sys2Proof/Syntax.lean ====
section
/-! DEFINITION. The instructions: one constructor per row of spec/opcode_table.json (host commands of 30_encoding.md
R92, stream instructions of R94), the contexts a decoder stands in (R88), and the listing lines of R93. -/

namespace Sys2Proof

/-- The two instruction levels of 00_scope.md R2. A stream constructor holds the fields of its token or extension byte;
the bytes that follow the token are data in SRC, fetched through S_POS (10_state.md R34). -/
inductive Instr where
  /-- CLEAR (R219). -/
  | clear
  /-- MAXLEN (R212). -/
  | maxlen
  /-- COMPRESS_FAST (R213). -/
  | compressFast
  /-- COMPRESS_HC (R214). -/
  | compressHc
  /-- DECOMPRESS_TRUST (R215). -/
  | decompressTrust
  /-- DECOMPRESS_SAFE (R216). -/
  | decompressSafe
  /-- ILLEGAL: every command code from 6 on (R217). -/
  | illegal (code : Word)
  /-- SEQ.ss: token `llllmmmm` (R199). -/
  | seqSS (l m : Nibble)
  /-- SEQ.xs: token `1111mmmm` (R200). -/
  | seqXS (m : Nibble)
  /-- SEQ.sx: token `llll1111` (R201). -/
  | seqSX (l : Nibble)
  /-- SEQ.xx: token `11111111` (R202). -/
  | seqXX
  /-- LAST.s: token `llll----` (R203); the low nibble is kept because TOKEN holds it. -/
  | lastS (l ignored : Nibble)
  /-- LAST.x: token `1111----` (R204). -/
  | lastX (ignored : Nibble)
  /-- EXT.more: extension byte FF (R205). -/
  | extMore
  /-- EXT.end: extension byte 00 to FE (R206). -/
  | extEnd (e : Byte)
deriving DecidableEq, Repr

/-- What the decoder is reading: a CMD value, the token of a sequence with the answer of the final test of R88, or a byte
of a length extension. -/
inductive Context where
  | command
  | token (final : Bool)
  | extension
deriving DecidableEq, Repr

/-- The encoded form of one instruction: a 32-bit CMD value (R92) or one stream byte (R94). -/
inductive Code where
  | command (value : Word)
  | byte (value : Byte)
deriving DecidableEq, Repr

/-- Why a decoder answers no instruction or no listing line. -/
inductive Reject where
  /-- A stream byte where a CMD value is due, or the other way round. -/
  | wrongWidth
  /-- No byte where a token is due. -/
  | noToken
  /-- The bytes end inside a length extension. -/
  | openExtension
  /-- Fewer bytes than the literal run holds. -/
  | shortLiterals
  /-- Fewer than two bytes where the offset is due. -/
  | shortOffset
deriving DecidableEq, Repr

/-- One line of the listing syntax of R93: a non-final or a final sequence. -/
inductive Line where
  | seq (lits : List Byte) (off : Half) (len : Nat)
  | last (lits : List Byte)
deriving DecidableEq, Repr

end Sys2Proof
end

