-- ==== Sys2Proof/WellFormed.lean ====
section
/-! DEFINITION. Which instructions and listing lines the encodings of 30_encoding.md can express: the constraints of
spec/opcode_table.json (R92, R94) and the operand ranges of R93. -/

namespace Sys2Proof

/-- The constraints column of the opcode table. -/
def Instr.wf : Instr → Bool
  | .clear => true
  | .maxlen => true
  | .compressFast => true
  | .compressHc => true
  | .decompressTrust => true
  | .decompressSafe => true
  | .illegal code => decide (6 ≤ code.toNat)
  | .seqSS l m => l != 15#4 && m != 15#4
  | .seqXS m => m != 15#4
  | .seqSX l => l != 15#4
  | .seqXX => true
  | .lastS l _ => l != 15#4
  | .lastX _ => true
  | .extMore => true
  | .extEnd e => e != 255#8

/-- R93: `off` in 1 to 65535, `len` at least 4. -/
def Line.wf : Line → Bool
  | .seq _ off len => off != 0#16 && decide (Config.minMatch ≤ len)
  | .last _ => true

end Sys2Proof
end

