-- ==== Sys2Proof/Decode.lean ====
section
/-! DEFINITION. The decoder and the encoder of both instruction levels, from 30_encoding.md: command codes (R92), token
classes (R82, R94), extension bytes (R83, R94); and the byte forms of length fields, sequences and listing lines (R81 to
R89, R93). -/

namespace Sys2Proof

/-- `b[7:4]` (R9). -/
def highNibble (b : Byte) : Nibble := b.extractLsb' 4 4

/-- `b[3:0]` (R9). -/
def lowNibble (b : Byte) : Nibble := b.extractLsb' 0 4

/-- `token = 16*L + M` (R82). -/
def tokenByte (l m : Nibble) : Byte := l ++ m

/-- The command table of R92. -/
def decodeCommand (code : Word) : Instr :=
  match code.toNat with
  | 0 => .clear
  | 1 => .maxlen
  | 2 => .compressFast
  | 3 => .compressHc
  | 4 => .decompressTrust
  | 5 => .decompressSafe
  | _ => .illegal code

/-- The token rows of R94; `final` is the answer of the test of R88. -/
def decodeToken (final : Bool) (t : Byte) : Instr :=
  match final with
  | true => if highNibble t = 15#4 then .lastX (lowNibble t) else .lastS (highNibble t) (lowNibble t)
  | false =>
    if highNibble t = 15#4 then (if lowNibble t = 15#4 then .seqXX else .seqXS (lowNibble t))
    else if lowNibble t = 15#4 then .seqSX (highNibble t) else .seqSS (highNibble t) (lowNibble t)

/-- The extension rows of R94 (R83: FF continues, every other byte ends). -/
def decodeExtension (b : Byte) : Instr := if b = 255#8 then .extMore else .extEnd b

/-- The whole decoder: total, and rejecting by name a code of the wrong width for its context. -/
def decode (context : Context) (code : Code) : Except Reject Instr :=
  match context, code with
  | .command, .command value => .ok (decodeCommand value)
  | .token final, .byte t => .ok (decodeToken final t)
  | .extension, .byte b => .ok (decodeExtension b)
  | .command, .byte _ => .error .wrongWidth
  | .token _, .command _ => .error .wrongWidth
  | .extension, .command _ => .error .wrongWidth

/-- The encoder, from the same rows. -/
def encode : Instr → Code
  | .clear => .command 0#32
  | .maxlen => .command 1#32
  | .compressFast => .command 2#32
  | .compressHc => .command 3#32
  | .decompressTrust => .command 4#32
  | .decompressSafe => .command 5#32
  | .illegal code => .command code
  | .seqSS l m => .byte (tokenByte l m)
  | .seqXS m => .byte (tokenByte 15#4 m)
  | .seqSX l => .byte (tokenByte l 15#4)
  | .seqXX => .byte 0xFF#8
  | .lastS l ignored => .byte (tokenByte l ignored)
  | .lastX ignored => .byte (tokenByte 15#4 ignored)
  | .extMore => .byte 0xFF#8
  | .extEnd e => .byte e

/-- The context in which an instruction is read (the constraints column of the opcode table). -/
def contextOf : Instr → Context
  | .clear => .command
  | .maxlen => .command
  | .compressFast => .command
  | .compressHc => .command
  | .decompressTrust => .command
  | .decompressSafe => .command
  | .illegal _ => .command
  | .seqSS _ _ => .token false
  | .seqXS _ => .token false
  | .seqSX _ => .token false
  | .seqXX => .token false
  | .lastS _ _ => .token true
  | .lastX _ => .token true
  | .extMore => .extension
  | .extEnd _ => .extension

/-- The decoder on a word of the opcode table. DESIGN CHOICE, log 16: a table word carries no decoder state, so an 8-bit
word is read as the token of a sequence that is not final. -/
def decodeTableWord (nbits w : Nat) : Option Instr :=
  let answer :=
    if nbits = 32 then decode .command (.command (BitVec.ofNat 32 w))
    else if nbits = 8 then decode (.token false) (.byte (BitVec.ofNat 8 w))
    else .error .wrongWidth
  match answer with
  | .ok i => some i
  | .error _ => none

/-! ## Length fields (R83 to R85, R89) -/

/-- `ext(x)`: the number of extension bytes of a field value (R89). -/
def extSize (x : Nat) : Nat := if x < Config.nibbleCap then 0 else 1 + (x - Config.nibbleCap) / 255

/-- The nibble of a field value (R84, R85). -/
def fieldNibble (x : Nat) : Nibble := BitVec.ofNat 4 (min x Config.nibbleCap)

/-- The bytes WRITE_LEN writes for `x ≥ 15` (R111, in the closed form of R84). -/
def writeLen (x : Nat) : List Byte :=
  List.replicate ((x - Config.nibbleCap) / 255) 0xFF#8 ++ [BitVec.ofNat 8 ((x - Config.nibbleCap) % 255)]

/-- The extension of a field value: absent below 15 (R81). -/
def extensionBytes (x : Nat) : List Byte := if x < Config.nibbleCap then [] else writeLen x

/-- The two offset bytes, low byte first (R86). -/
def offsetBytes (off : Half) : List Byte := [off.extractLsb' 0 8, off.extractLsb' 8 8]

/-- The offset of its two bytes (R86, R187). -/
def offsetOf (lo hi : Byte) : Half := hi ++ lo

/-- `seqSize(l, m)` (R89). -/
def seqSize (l m : Nat) : Nat := 1 + extSize l + l + 2 + extSize (m - Config.minMatch)

/-- `lastSize(l)` (R89). -/
def lastSize (l : Nat) : Nat := 1 + extSize l + l

/-! ## Listing lines (R81, R87, R93) -/

/-- Format LAST (R87): the low nibble of its token carries no information, so a final sequence may hold any. -/
def finalBytes (ignored : Nibble) (lits : List Byte) : List Byte :=
  tokenByte (fieldNibble lits.length) ignored :: (extensionBytes lits.length ++ lits)

/-- The one encoding of a listing line: format SEQ (R81) or LAST as the encoder writes it, its low nibble 0 (R87). -/
def assemble : Line → List Byte
  | .seq lits off len =>
    tokenByte (fieldNibble lits.length) (fieldNibble (len - Config.minMatch)) ::
      (extensionBytes lits.length ++ lits ++ offsetBytes off ++ extensionBytes (len - Config.minMatch))
  | .last lits => finalBytes 0#4 lits

/-- Read a length extension: add bytes until one is below 255 (R83). -/
def readExtension : Nat → List Byte → Except Reject (Nat × List Byte)
  | _, [] => .error .openExtension
  | acc, b :: rest =>
    if b = 255#8 then readExtension (acc + 255) rest else .ok (acc + b.toNat, rest)

/-- Read the field value a nibble starts (R84, R85). -/
def readField (nibble : Nibble) (bytes : List Byte) : Except Reject (Nat × List Byte) :=
  if nibble = 15#4 then readExtension Config.nibbleCap bytes else .ok (nibble.toNat, bytes)

/-- The fields of format SEQ that follow the literals: offset, then match length (R81). -/
def readMatch (m : Nibble) (lits : List Byte) : List Byte → Except Reject (Line × List Byte)
  | lo :: hi :: rest =>
    match readField m rest with
    | .ok (field, rest') => .ok (.seq lits (offsetOf lo hi) (field + Config.minMatch), rest')
    | .error e => .error e
  | _ => .error .shortOffset

/-- The listing line at the head of a byte string, and the bytes after it; `final` is the answer of the test of R88. -/
def disassemble (final : Bool) : List Byte → Except Reject (Line × List Byte)
  | [] => .error .noToken
  | t :: rest =>
    match readField (highNibble t) rest with
    | .error e => .error e
    | .ok (litLen, rest') =>
      if rest'.length < litLen then .error .shortLiterals
      else if final then .ok (.last (rest'.take litLen), rest'.drop litLen)
      else readMatch (lowNibble t) (rest'.take litLen) (rest'.drop litLen)

end Sys2Proof
end

