-- ==== Sys2Proof/Machine/State.lean ====
section
/-! DEFINITION. The state of the block, all of 10_state.md (R20 to R37) as plain data, with the host agent's pending moves
(R20, R262), the reasons a step can stop, and the state after reset (R36, R260). -/

namespace Sys2Proof.Machine

/-- STATUS.STATE (R25). -/
inductive RunState where
  | idle
  | busy
  | done
  | fault
deriving DecidableEq, Repr

/-- STATUS.CAUSE (R25, R231). -/
inductive Cause where
  | none
  | invalidArgument
  | destinationTooSmall
  | corruptInput
deriving DecidableEq, Repr

/-- The two fields of STATUS (R25); the 32-bit word is computed from them in Flags.lean. -/
structure Status where
  run : RunState
  cause : Cause
deriving DecidableEq, Repr

/-- BD_STATE (R27). -/
inductive BdState where
  | readToken
  | readLiteralLenExtension
  | copyLiterals
  | readOffset
  | readMatchLenExtension
  | copyMatch
  | done
  | faulted
deriving DecidableEq, Repr

/-- The control state of MF-HT (DEDUCED, log 10): the labels of R135 to R140; `searchLoop` is the label `loop` of SEARCH. -/
inductive HtState where
  | search
  | searchLoop
  | catchup
  | extend
  | emit
  | reprobe
  | tail
deriving DecidableEq, Repr

/-- HC_STATE (R29). -/
inductive HcState where
  | main
  | search2
  | search3
  | tail
deriving DecidableEq, Repr

/-- The block decoder's registers (R27) but for D_POS and D_END, which it shares with the compressors (log 11).
Positions and lengths are exact naturals (R9); their widths are an invariant (log 12). -/
structure DecoderRegs where
  sPos : Nat
  sEnd : Nat
  token : Byte
  litLen : Nat
  matchLen : Nat
  offset : Half
  offAt : Nat
  bdState : BdState
deriving DecidableEq, Repr

/-- The registers common to MF-HT, MF-HC and SE (R28) but for D_POS and D_END; MFLIMIT and MATCHLIMIT are signed. -/
structure FinderRegs where
  n : Nat
  mfLimit : Int
  matchLimit : Int
  anchor : Nat
  ip : Nat
  cand : Option Nat
  mlen : Nat
  attempts : Nat
  htState : HtState
deriving DecidableEq, Repr

/-- A match register (R29), its fields signed (R162). -/
structure MatchReg where
  start : Int
  ref : Int
  len : Int
deriving DecidableEq, Repr

/-- The MF-HC registers (R29). -/
structure ChainRegs where
  m0 : MatchReg
  m1 : MatchReg
  m2 : MatchReg
  m3 : MatchReg
  next : Nat
  hcState : HcState
deriving DecidableEq, Repr

/-- A range `[lo, hi)` of DST addresses that hold any value (R33), and which draw of free values it is (log 7). -/
structure OpenRange where
  lo : Nat
  hi : Nat
  draw : Nat
deriving DecidableEq, Repr

/-- What the host can do to the block (R20, R262, R265; log 2). -/
inductive HostMove where
  /-- A 32-bit write at a register byte offset. -/
  | writeReg (offset : Nat) (value : Word)
  /-- A 32-bit read at a register byte offset. -/
  | readReg (offset : Nat)
  /-- The host's own access to its source buffer. -/
  | writeSrc (addr : Nat) (value : Byte)
  | readSrc (addr : Nat)
  /-- The host's own access to its destination buffer. -/
  | writeDst (addr : Nat) (value : Byte)
  | readDst (addr : Nat)
  /-- Poll STATUS until STATE is not BUSY (R262). -/
  | poll
  /-- The host does nothing while the core makes one step. -/
  | tick
  /-- The reset of R260, applied from outside. -/
  | reset
deriving DecidableEq, Repr

/-- The state. A slot of `ht` or `head` that is not listed is none; an entry of `chain` and a byte of `src` or `dst` that
is not listed is 0 (log 5, log 6). -/
structure State where
  cmd : Word
  status : Status
  srcCap : Word
  srcOff : Word
  srcLen : Word
  dstCap : Word
  dstOff : Word
  dstLen : Word
  result : Word
  faultOff : Word
  dPos : Nat
  dEnd : Nat
  bd : DecoderRegs
  mf : FinderRegs
  hc : ChainRegs
  ht : List (Nat × Option Nat)
  head : List (Nat × Option Nat)
  chain : List (Nat × Half)
  src : List Host.Cell
  dst : List Host.Cell
  dstOpen : List OpenRange
  draws : Nat
  host : List HostMove
  hostData : Word
deriving DecidableEq, Repr

/-- The reasons the model stops. None of them is a fault of the block: the three faults of R230 are NEXT states. -/
inductive Fault where
  /-- Safe (log 13): a unit read SRC outside the region its command may read (R21, R198). Raised by `srcByte`; no command
  started by R210 reaches it. -/
  | srcAccess
  /-- Safe (log 13): a unit accessed DST outside the region its command may write (R22, R198). Raised by `dstGet` and
  `dstPut`; no command started by R210 reaches it. -/
  | dstAccess
  /-- Safe (log 22): the block is BUSY and no unit has a transition. Raised by `coreFetch` and the unit steps; no command
  started by R210 reaches it. -/
  | noTransition
  /-- Safe (log 23): the host accesses a buffer address that no capacity can cover. Raised by the host moves. -/
  | hostAddress
deriving DecidableEq, Repr

/-- The reasons the model answers no meaning. -/
inductive Refusal where
  /-- Safe: `exec` has no meaning yet for this instruction. Raised by `exec` only. -/
  | notModelled (mnemonic : String)
  /-- Safe (log 14): the host accesses SRC or DST while BUSY, to which the spec gives no meaning (R264, U8). Raised by the
  host moves. -/
  | hostMemoryWhileBusy
  /-- Safe (log 15): the host accesses a register offset that the spec does not define (U14). Raised by the host moves. -/
  | noSuchRegister
  /-- Safe (log 18): an extension byte is executed outside a length extension, where the opcode table has no such row.
  Raised by EXT.more and EXT.end; no step reaches it. -/
  | extensionOutsideLength
deriving DecidableEq, Repr

/-- One outcome of this machine. -/
abbrev Result := Host.Outcome State Fault Refusal

/-- A computation inside a step: it goes on with a value, or it has ended the step with an outcome (a `raise` of R11, or a
model fault). -/
inductive Flow (α : Type) where
  | go (value : α)
  | stop (result : Result)

/-- What a step is about to do: run a decoded instruction, or an outcome that needs no instruction (a host move, a step of
a match finder, a fetch fault). -/
inductive Fetched where
  | run (i : Instr) (s : State)
  | outcome (r : Result)

/-- DESIGN CHOICE, unsafe (log 4): R260 leaves the decoder's registers unspecified; they are 0. -/
def DecoderRegs.reset : DecoderRegs :=
  { sPos := 0, sEnd := 0, token := 0, litLen := 0, matchLen := 0, offset := 0, offAt := 0, bdState := .readToken }

/-- DESIGN CHOICE, unsafe (log 4): R260 leaves the finders' registers unspecified; they are 0 or none. -/
def FinderRegs.reset : FinderRegs :=
  { n := 0, mfLimit := 0, matchLimit := 0, anchor := 0, ip := 0, cand := none, mlen := 0, attempts := 0,
    htState := .search }

/-- DESIGN CHOICE, unsafe (log 4). -/
def MatchReg.reset : MatchReg := { start := 0, ref := 0, len := 0 }

/-- DESIGN CHOICE, unsafe (log 4). -/
def ChainRegs.reset : ChainRegs :=
  { m0 := .reset, m1 := .reset, m2 := .reset, m3 := .reset, next := 0, hcState := .main }

/-- The state after reset (R36, R260): every host-visible register 0, STATE idle, every HT and HEAD slot none. -/
def State.reset : State :=
  { cmd := 0, status := { run := .idle, cause := .none }
    srcCap := 0, srcOff := 0, srcLen := 0, dstCap := 0, dstOff := 0, dstLen := 0
    result := 0, faultOff := 0
    dPos := 0, dEnd := 0, bd := .reset, mf := .reset, hc := .reset
    ht := [], head := [], chain := [], src := [], dst := []
    dstOpen := [], draws := 0, host := [], hostData := 0 }

end Sys2Proof.Machine
end

