-- ==== Sys2Proof/Machine/Flags.lean ====
section
/-! DEFINITION. STATUS: its field codes and its 32-bit word (10_state.md R25, 60_exceptions.md R231), and the values the
rules store in it. The block has no other flags (R25). -/

namespace Sys2Proof.Machine

/-- The code of STATUS.STATE, bits 1:0 (R25). -/
def RunState.code : RunState → Word
  | .idle => 0
  | .busy => 1
  | .done => 2
  | .fault => 3

/-- The code of STATUS.CAUSE, bits 7:4 (R25, R231). -/
def Cause.code : Cause → Word
  | .none => 0
  | .invalidArgument => 1
  | .destinationTooSmall => 2
  | .corruptInput => 3

/-- The STATUS register as the host reads it: the reserved bits read as 0 (R25). -/
def Status.word (st : Status) : Word := (st.cause.code <<< 4) ||| st.run.code

/-- STATUS after reset and after CLEAR (R36, R219). -/
def Status.idle : Status := { run := .idle, cause := .none }

/-- STATUS after a command start (R210). -/
def Status.busy : Status := { run := .busy, cause := .none }

/-- STATUS after a completion (R218). -/
def Status.done : Status := { run := .done, cause := .none }

/-- STATUS after a fault (R236 to R238). -/
def Status.faulted (cause : Cause) : Status := { run := .fault, cause := cause }

/-- `STATUS.STATE = BUSY`. -/
def State.isBusy (s : State) : Bool := s.status.run == .busy

end Sys2Proof.Machine
end

