-- ==== Sys2Proof/Machine/Operands.lean ====
section
/-! DEFINITION. Operands: the signed argument registers (10_state.md R23) and their checks K1 to K7 (44_host_commands.md
R211), the addresses of relative positions (00_scope.md R10), the hash (41_match_finder_hash_table.md R131), the mode of
MF-HT (R130) and the worst-case bound (00_scope.md R8). -/

namespace Sys2Proof.Machine

/-! ## Argument checks (R211) -/

/-- K1: a negative capacity. -/
def checkK1 (s : State) : Bool := decide (s.srcCap.toInt < 0 ∨ s.dstCap.toInt < 0)

/-- K2: a negative offset or destination length. -/
def checkK2 (s : State) : Bool := decide (s.srcOff.toInt < 0 ∨ s.dstOff.toInt < 0 ∨ s.dstLen.toInt < 0)

/-- K3: a negative source length. -/
def checkK3 (s : State) : Bool := decide (s.srcLen.toInt < 0)

/-- K4: the source region passes its buffer; the sum is exact. -/
def checkK4 (s : State) : Bool := decide (s.srcOff.toInt + s.srcLen.toInt > s.srcCap.toInt)

/-- K5: the source offset passes its buffer. -/
def checkK5 (s : State) : Bool := decide (s.srcOff.toInt > s.srcCap.toInt)

/-- K6: the destination region passes its buffer; the sum is exact. -/
def checkK6 (s : State) : Bool := decide (s.dstOff.toInt + s.dstLen.toInt > s.dstCap.toInt)

/-- K7: the source is longer than MAX_INPUT_SIZE. -/
def checkK7 (s : State) : Bool := decide (s.srcLen.toInt > Config.maxInputSize)

/-- The MAXLEN column of R211: some check fails. -/
def badMaxlenArgs (s : State) : Bool := checkK3 s || checkK7 s

/-- The COMPRESS_FAST and COMPRESS_HC column of R211 (K5 is implied by K4). -/
def badCompressArgs (s : State) : Bool :=
  checkK1 s || checkK2 s || checkK3 s || checkK4 s || checkK6 s || checkK7 s

/-- The DECOMPRESS_TRUST column of R211: SRC_LEN is ignored. -/
def badTrustArgs (s : State) : Bool := checkK1 s || checkK2 s || checkK5 s || checkK6 s

/-- The DECOMPRESS_SAFE column of R211 (K5 is implied by K4). -/
def badSafeArgs (s : State) : Bool := checkK1 s || checkK2 s || checkK3 s || checkK4 s || checkK6 s

/-- `maxCompressedLength(n)` (R8). -/
def maxCompressedLength (n : Nat) : Nat := n + n / 255 + 16

/-! ## Positions (R10) -/

/-- The SRC address of source position `p`. -/
def srcAddr (s : State) (p : Int) : Int := s.srcOff.toInt + p

/-- The DST address of destination position `q`. -/
def dstAddr (s : State) (q : Nat) : Int := s.dstOff.toInt + q

/-- DST_OFF and DST_LEN as naturals, for an accepted command. -/
def dstBase (s : State) : Nat := s.dstOff.toInt.toNat

/-- The first DST address after the destination region (R51). -/
def dstLimit (s : State) : Nat := s.dstOff.toInt.toNat + s.dstLen.toInt.toNat

/-! ## Hashing (R130, R131) -/

/-- `rd32` of four bytes, little-endian (R11, R52). -/
def word32 (b0 b1 b2 b3 : Byte) : Nat :=
  b0.toNat + 256 * b1.toNat + 65536 * b2.toNat + 16777216 * b3.toNat

/-- `HASH(v, LOG)` (R131). -/
def hash (v log : Nat) : Nat := ((v * Config.hashMult) % 2 ^ 32) >>> (32 - log)

/-- Large mode of MF-HT (R130). -/
def largeMode (s : State) : Bool := decide (Config.smallLimit ≤ s.mf.n)

/-- LOG of MF-HT's table in the current mode (R130). -/
def htLog (s : State) : Nat := if largeMode s then Config.hashLogLarge else Config.hashLog

/-- The width of the position in an HT slot in the current mode (R30, R130). -/
def htSlotWidth (s : State) : Nat := if largeMode s then Config.slotWLarge else Config.slotWSmall

end Sys2Proof.Machine
end

