-- ==== Sys2Proof/Machine/Ops.lean ====
section
/-! DEFINITION. The shared operations: the canonical store behind every memory and table (20_memory.md R50), the bytes
that hold any value (10_state.md R33), byte access to SRC and DST inside a command's regions (R21, R22, R56), raising the
three faults (60_exceptions.md R236 to R238), starting and completing a command (44_host_commands.md R210, R218). -/

namespace Sys2Proof.Machine

/-! ## The canonical store -/

/-- What a key reads as: its entry, or the value of an unlisted key. -/
def storeGet {α : Type} (unlisted : α) : List (Nat × α) → Nat → α
  | [], _ => unlisted
  | (k, v) :: rest, a => if k = a then v else storeGet unlisted rest a

/-- Write one key, keeping the keys rising and no entry equal to the unlisted value. -/
def storeSet {α : Type} [DecidableEq α] (unlisted : α) : List (Nat × α) → Nat → α → List (Nat × α)
  | [], a, v => if v = unlisted then [] else [(a, v)]
  | (k, w) :: rest, a, v =>
    if k = a then (if v = unlisted then rest else (a, v) :: rest)
    else if a < k then (if v = unlisted then (k, w) :: rest else (a, v) :: (k, w) :: rest)
    else (k, w) :: storeSet unlisted rest a v

/-- Forget the keys of `[lo, hi)`. -/
def storeErase {α : Type} (lo hi : Nat) (l : List (Nat × α)) : List (Nat × α) :=
  l.filter fun e => !(decide (lo ≤ e.1) && decide (e.1 < hi))

/-- The canonical form: keys strictly rising, no entry equal to the unlisted value. -/
def storeWf {α : Type} [DecidableEq α] (unlisted : α) : List (Nat × α) → Bool
  | [] => true
  | (k, v) :: rest =>
    decide (v ≠ unlisted) && rest.all (fun e => decide (k < e.1)) && storeWf unlisted rest

/-- A byte memory (R21, R22). -/
abbrev Memory := List Host.Cell

/-- What an unlisted byte reads as. DESIGN CHOICE, unsafe (log 6): the spec gives SRC and DST no contents of their own. -/
def unwrittenByte : Byte := 0

/-- One byte of a memory. -/
def Memory.read (m : Memory) (a : Nat) : Byte := storeGet unwrittenByte m a

/-- Write one byte of a memory. -/
def Memory.write (m : Memory) (a : Nat) (b : Byte) : Memory := storeSet unwrittenByte m a b

/-- The canonical form of a memory. -/
def Memory.wf (m : Memory) : Bool := storeWf unwrittenByte m

/-! ## Bytes that hold any value (R33) -/

/-- The parts of a range outside `[lo, hi)`. -/
def cutRange (lo hi : Nat) (r : OpenRange) : List OpenRange :=
  (if r.lo < min r.hi lo then [{ r with hi := min r.hi lo }] else []) ++
    (if max r.lo hi < r.hi then [{ r with lo := max r.lo hi }] else [])

/-- The parts of every range outside `[lo, hi)`. -/
def cutRanges (lo hi : Nat) (rs : List OpenRange) : List OpenRange := rs.flatMap (cutRange lo hi)

/-- The draw an address belongs to, if it holds any value. -/
def openDraw : List OpenRange → Nat → Option Nat
  | [], _ => none
  | r :: rest, a => if r.lo ≤ a ∧ a < r.hi then some r.draw else openDraw rest a

/-- One byte of DST: a free value where the rules leave any value, the stored byte elsewhere. -/
def dstRead (s : State) (a : Nat) : Byte :=
  match openDraw s.dstOpen a with
  | some k => Config.freeByte k a
  | none => Memory.read s.dst a

/-- Write one byte of DST. -/
def dstWrite (s : State) (a : Nat) (b : Byte) : State :=
  { s with dst := Memory.write s.dst a b, dstOpen := cutRanges a (a + 1) s.dstOpen }

/-- Leave the DST addresses `[lo, hi)` at any value (R33 (c), (d); free value, log 7). -/
def openDst (lo hi : Nat) (s : State) : State :=
  if lo < hi then
    { s with
      dst := storeErase lo hi s.dst
      dstOpen := { lo := lo, hi := hi, draw := s.draws } :: cutRanges lo hi s.dstOpen
      draws := s.draws + 1 }
  else s

/-- Leave the destination region from position `q` on at any value. -/
def openRegionFrom (q : Nat) (s : State) : State := openDst (dstBase s + q) (dstLimit s) s

/-! ## Sequencing -/

/-- Go on with the value, or stay stopped. -/
@[inline] def Flow.andThen {α β : Type} (x : Flow α) (f : α → Flow β) : Flow β :=
  match x with
  | .go a => f a
  | .stop r => .stop r

/-- End a step: a computation that goes on with a state answers it as the next state. -/
def Flow.finish (x : Flow State) : Result :=
  match x with
  | .go s => .next s
  | .stop r => r

/-! ## Byte access of the units (R21, R22, R56) -/

/-- `src[p]` inside the region `[0, limit)` of the command and inside the buffer (R21, R198; log 13). -/
def srcByte (limit : Nat) (p : Int) (s : State) : Flow Byte :=
  if 0 ≤ p ∧ p < limit ∧ 0 ≤ srcAddr s p ∧ srcAddr s p < s.srcCap.toInt then
    .go (Memory.read s.src (srcAddr s p).toNat)
  else .stop (.fault .srcAccess)

/-- `src[p], src[p+1], …`, `count` bytes (MemRead of R11). -/
def srcBytes (limit : Nat) (s : State) : Nat → Nat → Flow (List Byte)
  | _, 0 => .go []
  | p, count + 1 =>
    (srcByte limit p s).andThen fun b =>
      (srcBytes limit s (p + 1) count).andThen fun bs => .go (b :: bs)

/-- Position `q` lies in the destination region and in the buffer (R22, R198; log 13). -/
def dstReachable (q : Nat) (s : State) : Bool :=
  decide (q < s.dEnd ∧ 0 ≤ dstAddr s q ∧ dstAddr s q < s.dstCap.toInt)

/-- `dst[q]`. -/
def dstGet (q : Nat) (s : State) : Flow Byte :=
  if dstReachable q s then .go (dstRead s (dstAddr s q).toNat) else .stop (.fault .dstAccess)

/-- `dst[q] <- b`. -/
def dstPut (q : Nat) (b : Byte) (s : State) : Flow State :=
  if dstReachable q s then .go (dstWrite s (dstAddr s q).toNat b) else .stop (.fault .dstAccess)

/-- `dst[q], dst[q+1], … <- bytes`, in ascending order (MemWrite of R11). -/
def dstPutList : Nat → List Byte → State → Flow State
  | _, [], s => .go s
  | q, b :: bs, s => (dstPut q b s).andThen fun s => dstPutList (q + 1) bs s

/-- `src[p]` for a compress command: the region is `[0, N)` (R21). -/
def mfByte (p : Int) (s : State) : Flow Byte := srcByte s.mf.n p s

/-- `rd32(p)` of a compress command (R11, R52). -/
def rd32 (p : Int) (s : State) : Flow Nat :=
  (mfByte p s).andThen fun b0 =>
    (mfByte (p + 1) s).andThen fun b1 =>
      (mfByte (p + 2) s).andThen fun b2 =>
        (mfByte (p + 3) s).andThen fun b3 => .go (word32 b0 b1 b2 b3)

/-! ## Taking a fault (R236 to R239): nothing is saved but FAULT_OFF, and control goes nowhere -/

/-- `raise InvalidArgument` (R236): no memory is touched. -/
def raiseInvalidArgument (s : State) : Result :=
  .next { s with status := .faulted .invalidArgument }

/-- `raise DestinationTooSmall` (R237): the destination region holds any value. -/
def raiseDestinationTooSmall (s : State) : Result :=
  .next (openRegionFrom 0 { s with status := .faulted .destinationTooSmall })

/-- `raise CorruptInput(p)` (R238): FAULT_OFF is the absolute SRC index; the destination region holds any value. -/
def raiseCorruptInput (p : Nat) (s : State) : Result :=
  .next (openRegionFrom 0
    { s with
      faultOff := s.srcOff + BitVec.ofNat 32 p
      status := .faulted .corruptInput
      bd := { s.bd with bdState := .faulted } })

/-! ## Starting and completing a command -/

/-- The register writes of a command start (R210). -/
def startCommand (code : Word) (s : State) : State :=
  { s with cmd := code, status := .busy, result := 0, faultOff := 0 }

/-- A host write of `code` to CMD: ignored while BUSY (R24, R265), a command start otherwise (R210). -/
def hostCommand (code : Word) (body : State → Result) (s : State) : Result :=
  if s.isBusy then .next s else body (startCommand code s)

/-- Command completion (R218). -/
def complete (result : Nat) (s : State) : State :=
  { s with result := BitVec.ofNat 32 result, status := .done }

/-- Completion of a command that has produced `[0, D_POS)`: the rest of the destination region holds any value
(R33 (c), R218). -/
def completeRegion (result : Nat) (s : State) : State := openRegionFrom s.dPos (complete result s)

end Sys2Proof.Machine
end

