-- ==== Sys2Proof/Machine/Encoder.lean ====
section
/-! DEFINITION. The sequence encoder SE (40_sequence_encoder.md R110 to R118). The bytes of a sequence are those of the
listing assembler of Decode.lean, which follows the same rules R81 to R87 and R111. -/

namespace Sys2Proof.Machine

/-- Write one encoded sequence at D_POS if it fits, else raise before any byte is written (R113, R114, R233). -/
def emitBytes (bytes : List Byte) (s : State) : Flow State :=
  if s.dPos + bytes.length > s.dEnd then .stop (raiseDestinationTooSmall s)
  else (dstPutList s.dPos bytes s).andThen fun t => .go { t with dPos := s.dPos + bytes.length }

/-- EMIT_SEQ(start, ref, len) (R113). -/
def emitSeq (start ref len : Nat) (s : State) : Flow State :=
  (srcBytes s.mf.n s s.mf.anchor (start - s.mf.anchor)).andThen fun lits =>
    emitBytes (assemble (.seq lits (BitVec.ofNat 16 (start - ref)) len)) s

/-- EMIT_LAST() (R114). -/
def emitLast (s : State) : Flow State :=
  (srcBytes s.mf.n s s.mf.anchor (s.mf.n - s.mf.anchor)).andThen fun lits =>
    emitBytes (assemble (.last lits)) s

/-- TAIL of both match finders (R140, R163): the final sequence, then completion with `RESULT <- D_POS`. -/
def finishCompress (s : State) : Result :=
  ((emitLast s).andThen fun s => .go (completeRegion s.dPos s)).finish

end Sys2Proof.Machine
end

