-- ==== Sys2Proof/Machine/FastFinder.lean ====
section
/-! DEFINITION. The hash-table match finder MF-HT (41_match_finder_hash_table.md R130 to R145): one labelled block of
R135 to R140 a step (70_reset_and_hazards.md R269). -/

namespace Sys2Proof.Machine

/-- Equal bytes from `a + k` and `b + k` on, at most `count` more; the count so far is `k` (R137, R154). -/
def commonFwdFrom (a b : Int) (s : State) : Nat → Nat → Flow Nat
  | k, 0 => .go k
  | k, count + 1 =>
    (mfByte (a + k) s).andThen fun x =>
      (mfByte (b + k) s).andThen fun y =>
        if x = y then commonFwdFrom a b s (k + 1) count else .go k

/-- COMMON_FWD(a, b, limit) (R154); EXTEND uses it too (R137). -/
def commonFwd (a b limit : Int) (s : State) : Flow Nat := commonFwdFrom a b s 0 (limit - b).toNat

/-- PROBE(p) (R133): the slot is always replaced by p. -/
def probe (p : Nat) (s : State) : Flow (Option Nat × State) :=
  (rd32 p s).andThen fun v =>
    let h := hash v (htLog s)
    let t := { s with ht := storeSet none s.ht h (some p) }
    match storeGet none s.ht h with
    | none => .go (none, t)
    | some c =>
      if largeMode s && decide (p - c > Config.maxOffset) then .go (none, t)
      else (rd32 c s).andThen fun w => if w = v then .go (some c, t) else .go (none, t)

/-- The walk of CATCHUP (R136): step both positions back while the bytes before them are equal. -/
def catchupFrom (anchor : Nat) (s : State) : Nat → Nat → Flow (Nat × Nat)
  | ip + 1, cand + 1 =>
    if ip + 1 > anchor then
      (mfByte ip s).andThen fun x =>
        (mfByte cand s).andThen fun y =>
          if x = y then catchupFrom anchor s ip cand else .go (ip + 1, cand + 1)
    else .go (ip + 1, cand + 1)
  | ip, cand => .go (ip, cand)

/-- One pass of the loop of SEARCH (R135). -/
def searchPass (s : State) : Flow State :=
  if (s.mf.ip : Int) > s.mf.mfLimit then .go { s with mf := { s.mf with htState := .tail } }
  else
    (probe s.mf.ip s).andThen fun (found, t) =>
      match found with
      | some c => .go { t with mf := { t.mf with cand := some c, htState := .catchup } }
      | none =>
        .go { t with
          mf := { t.mf with
            cand := none
            ip := t.mf.ip + t.mf.attempts >>> Config.skipStrength
            attempts := t.mf.attempts + 1 } }

/-- CATCHUP (R136). -/
def catchup (s : State) : Flow State :=
  match s.mf.cand with
  | none => .stop (.fault .noTransition)
  | some c =>
    (catchupFrom s.mf.anchor s s.mf.ip c).andThen fun (ip, cand) =>
      .go { s with mf := { s.mf with ip := ip, cand := some cand, htState := .extend } }

/-- EXTEND (R137). -/
def extend (s : State) : Flow State :=
  match s.mf.cand with
  | none => .stop (.fault .noTransition)
  | some c =>
    (commonFwd (c + Config.minMatch) (s.mf.ip + Config.minMatch) s.mf.matchLimit s).andThen fun k =>
      .go { s with mf := { s.mf with mlen := Config.minMatch + k, htState := .emit } }

/-- EMIT (R138). -/
def emit (s : State) : Flow State :=
  match s.mf.cand with
  | none => .stop (.fault .noTransition)
  | some c =>
    (emitSeq s.mf.ip c s.mf.mlen s).andThen fun t =>
      let ip := s.mf.ip + s.mf.mlen
      .go { t with
        mf := { t.mf with
          ip := ip
          anchor := ip
          htState := if (ip : Int) > s.mf.mfLimit then .tail else .reprobe } }

/-- REPROBE (R139). -/
def reprobe (s : State) : Flow State :=
  (probe s.mf.ip s).andThen fun (found, t) =>
    match found with
    | some c => .go { t with mf := { t.mf with cand := some c, htState := .extend } }
    | none => .go { t with mf := { t.mf with cand := none, ip := t.mf.ip + 1, htState := .search } }

/-- One step of MF-HT. -/
def fastStep (s : State) : Result :=
  match s.mf.htState with
  | .search =>
    .next { s with mf := { s.mf with attempts := 2 ^ Config.skipStrength, htState := .searchLoop } }
  | .searchLoop => (searchPass s).finish
  | .catchup => (catchup s).finish
  | .extend => (extend s).finish
  | .emit => (emit s).finish
  | .reprobe => (reprobe s).finish
  | .tail => finishCompress s

/-- N, MFLIMIT, MATCHLIMIT, D_POS, D_END, ANCHOR and IP at the start of a compress command (R141, R163). -/
def setupFinder (s : State) : State :=
  let n := s.srcLen.toInt.toNat
  { s with
    dPos := 0
    dEnd := s.dstLen.toInt.toNat
    mf := { s.mf with
      n := n
      mfLimit := (n : Int) - Config.mfLimit
      matchLimit := (n : Int) - Config.lastLiterals
      anchor := 0
      ip := 0 } }

/-- The start of the COMPRESS_FAST body (R141): every HT slot none, then SEARCH. -/
def setupFast (s : State) : State :=
  let t := setupFinder s
  { t with ht := [], mf := { t.mf with htState := .search } }

end Sys2Proof.Machine
end

