-- ==== Sys2Proof/Machine/ChainFinder.lean ====
section
/-! DEFINITION. The hash-chain match finder MF-HC (42_match_finder_hash_chain.md R150 to R167): one pass of MAIN, SEARCH2
or SEARCH3 a step (70_reset_and_hazards.md R269). -/

namespace Sys2Proof.Machine

/-- `M.end` (R157). -/
def MatchReg.stop (m : MatchReg) : Int := m.start + m.len

/-- `FIX(M, c)`: drop the first c bytes of the match (R157). -/
def MatchReg.fix (m : MatchReg) (c : Int) : MatchReg :=
  { start := m.start + c, ref := m.ref + c, len := m.len - c }

/-- The HEAD slot of a position (R150). -/
def headSlot (p : Int) (s : State) : Flow Nat := (rd32 p s).andThen fun v => .go (hash v Config.hashLogHc)

/-- The delta ADD_HASH stores for `p` when HEAD held `slot` (R151). -/
def chainDelta (p : Nat) (slot : Option Nat) : Nat :=
  match slot with
  | none => Config.maxOffset
  | some q => min (p - q) Config.maxOffset

/-- ADD_HASH(p) (R151). -/
def addHash (p : Nat) (s : State) : Flow State :=
  (headSlot p s).andThen fun h =>
    .go { s with
      chain := storeSet 0 s.chain (p % Config.chainSize)
        (BitVec.ofNat 16 (chainDelta p (storeGet none s.head h)))
      head := storeSet none s.head h (some p) }

/-- Insert `count` positions from NEXT on (R152). -/
def insertCount : Nat → State → Flow State
  | 0, s => .go s
  | count + 1, s =>
    (addHash s.hc.next s).andThen fun t =>
      insertCount count { t with hc := { t.hc with next := t.hc.next + 1 } }

/-- INSERT_UPTO(off) (R152). -/
def insertUpto (off : Int) (s : State) : Flow State := insertCount (off - s.hc.next).toNat s

/-- The candidates of the chain walk that are still to visit: at most `budget`, from `c` on; each admissible one is given
to `visit` (R153). -/
def walkFrom (off : Int) (visit : Int → MatchReg → Flow MatchReg) (s : State) : Nat → Int → MatchReg → Flow MatchReg
  | 0, _, m => .go m
  | budget + 1, c, m =>
    if c < 0 ∨ c ≥ off ∨ off - c > Config.maxOffset then .go m
    else
      (visit c m).andThen fun m' =>
        walkFrom off visit s budget (c - (storeGet 0 s.chain (c.toNat % Config.chainSize)).toNat) m'

/-- The chain walk at `off`, from the position HEAD holds, with the budget MAX_ATTEMPTS (R153). -/
def walk (off : Int) (visit : Int → MatchReg → Flow MatchReg) (m : MatchReg) (s : State) : Flow MatchReg :=
  (headSlot off s).andThen fun h =>
    match storeGet none s.head h with
    | none => .go m
    | some c => walkFrom off visit s Config.maxAttempts c m

/-- Equal bytes before `a - k` and `b - k`, at most `count` more; the count so far is `k` (R154). -/
def commonBwdFrom (a b amin bmin : Int) (s : State) : Nat → Nat → Flow Nat
  | k, 0 => .go k
  | k, count + 1 =>
    if a - k > amin ∧ b - k > bmin then
      (mfByte (a - k - 1) s).andThen fun x =>
        (mfByte (b - k - 1) s).andThen fun y =>
          if x = y then commonBwdFrom a b amin bmin s (k + 1) count else .go k
    else .go k

/-- COMMON_BWD(a, b, amin, bmin) (R154). -/
def commonBwd (a b amin bmin : Int) (s : State) : Flow Nat := commonBwdFrom a b amin bmin s 0 (a - amin).toNat

/-- The body of the candidate loop of FIND_BEST (R155): a strictly longer match is taken. -/
def visitBest (off : Int) (s : State) (c : Int) (m : MatchReg) : Flow MatchReg :=
  (rd32 c s).andThen fun v =>
    (rd32 off s).andThen fun w =>
      if v = w then
        (commonFwd (c + 4) (off + 4) s.mf.matchLimit s).andThen fun k =>
          let ml : Int := 4 + k
          if ml > m.len then .go { m with ref := c, len := ml } else .go m
      else .go m

/-- FIND_BEST(off, M) (R155): the state after the insertions, and the match register; a match was found when its length
is not 0. -/
def findBest (off : Int) (s : State) : Flow (State × MatchReg) :=
  (insertUpto off s).andThen fun t =>
    (walk off (visitBest off t) { start := off, ref := 0, len := 0 } t).andThen fun m => .go (t, m)

/-- The body of the candidate loop of FIND_WIDER (R156): a candidate grows forward and backward. -/
def visitWider (off startLimit : Int) (s : State) (c : Int) (m : MatchReg) : Flow MatchReg :=
  (rd32 c s).andThen fun v =>
    (rd32 off s).andThen fun w =>
      if v = w then
        (commonFwd (c + 4) (off + 4) s.mf.matchLimit s).andThen fun k =>
          (commonBwd c off 0 startLimit s).andThen fun bwd =>
            let total : Int := 4 + k + bwd
            if total > m.len then .go { start := off - bwd, ref := c - bwd, len := total } else .go m
      else .go m

/-- FIND_WIDER(off, startLimit, minLen, M) (R156): the state after the insertions, and the match register; a wider match
was found when its length is above minLen. -/
def findWider (off startLimit minLen : Int) (m : MatchReg) (s : State) : Flow (State × MatchReg) :=
  (insertUpto off s).andThen fun t =>
    (walk off (visitWider off startLimit t) { m with len := minLen } t).andThen fun m' => .go (t, m')

/-- ENCODE(M) (R158): a match that cannot be emitted is dropped. -/
def encodeMatch (m : MatchReg) (s : State) : Flow State :=
  if m.start > s.mf.mfLimit ∨ m.len < 4 ∨ m.start < s.mf.anchor then
    .go { s with mf := { s.mf with ip := (max (s.mf.anchor : Int) m.stop).toNat } }
  else
    (emitSeq m.start.toNat m.ref.toNat m.len.toNat s).andThen fun t =>
      .go { t with mf := { t.mf with anchor := m.stop.toNat, ip := m.stop.toNat } }

/-- Enter a state of MF-HC. -/
def goHc (x : HcState) (s : State) : State := { s with hc := { s.hc with hcState := x } }

/-- State MAIN (R160). -/
def chainMain (s : State) : Flow State :=
  if (s.mf.ip : Int) > s.mf.mfLimit then .go (goHc .tail s)
  else
    (findBest s.mf.ip s).andThen fun (t, m1) =>
      if m1.len ≠ 0 then .go { t with hc := { t.hc with m1 := m1, m0 := m1, hcState := .search2 } }
      else .go { t with hc := { t.hc with m1 := m1, hcState := .main }, mf := { t.mf with ip := t.mf.ip + 1 } }

/-- SEARCH2 without a wider match: M1 is encoded (R161). -/
def takeM1 (s : State) : Flow State := (encodeMatch s.hc.m1 s).andThen fun t => .go (goHc .main t)

/-- SEARCH2 with a wider match M2 (R161): M0 may be restored, and an M1 that would keep fewer than LAZY_MIN_GAP bytes is
dropped. -/
def weighM2 (s : State) : State :=
  let m1 := if s.hc.m0.start < s.hc.m1.start ∧ s.hc.m2.start < s.hc.m1.start + s.hc.m0.len then s.hc.m0 else s.hc.m1
  if s.hc.m2.start - m1.start < Config.lazyMinGap then
    { s with hc := { s.hc with m1 := s.hc.m2, hcState := .search2 } }
  else { s with hc := { s.hc with m1 := m1, hcState := .search3 } }

/-- State SEARCH2 (R161). -/
def chainSearch2 (s : State) : Flow State :=
  let m1 := s.hc.m1
  if m1.stop - 2 > s.mf.mfLimit then takeM1 s
  else
    (findWider (m1.stop - 2) (m1.start + 1) m1.len s.hc.m2 s).andThen fun (t, m2) =>
      let t := { t with hc := { t.hc with m2 := m2 } }
      if m2.len > m1.len then .go (weighM2 t) else takeM1 t

/-- Part (a) of SEARCH3 (R162): move the start of an M2 that begins inside the first OPTIMAL_ML bytes of M1. -/
def trimM2 (m1 m2 : MatchReg) : MatchReg :=
  if m2.start - m1.start < Config.optimalMl then
    let capped := min m1.len Config.optimalMl
    let newLen := if m1.start + capped > m2.stop - 4 then m2.start - m1.start + m2.len - 4 else capped
    let corr := newLen - (m2.start - m1.start)
    if corr > 0 then m2.fix corr else m2
  else m2

/-- Part (b) of SEARCH3 without a third match (R162): M1, trimmed to end where M2 starts, and M2 are encoded. -/
def takeBoth (s : State) : Flow State :=
  let m1 := s.hc.m1
  let m2 := s.hc.m2
  let m1 := if m2.start < m1.stop then { m1 with len := m2.start - m1.start } else m1
  (encodeMatch m1 { s with hc := { s.hc with m1 := m1 } }).andThen fun t =>
    (encodeMatch m2 t).andThen fun u => .go (goHc .main u)

/-- Part (c) of SEARCH3 when M1 can be written now (R162): M3 becomes M1, and M2 or M3 is saved in M0. -/
def dropM2 (s : State) : Flow State :=
  let m1 := s.hc.m1
  let m2 := s.hc.m2
  let m3 := s.hc.m3
  let m2 :=
    if m2.start < m1.stop then
      let fixed := m2.fix (m1.stop - m2.start)
      if fixed.len < 4 then m3 else fixed
    else m2
  (encodeMatch m1 { s with hc := { s.hc with m2 := m2 } }).andThen fun t =>
    .go { t with hc := { t.hc with m1 := m3, m0 := m2, hcState := .search2 } }

/-- The trimming of part (d) of SEARCH3 (R162): M1 and M2 so that M1 ends where M2 starts. -/
def trimAscending (m1 m2 : MatchReg) : MatchReg × MatchReg :=
  if m2.start < m1.stop then
    if m2.start - m1.start < Config.nibbleCap then
      let a : MatchReg := if m1.len > Config.optimalMl then { m1 with len := Config.optimalMl } else m1
      let b : MatchReg := if a.stop > m2.stop - 4 then { a with len := m2.stop - a.start - 4 } else a
      (b, m2.fix (b.stop - m2.start))
    else ({ m1 with len := m2.start - m1.start }, m2)
  else (m1, m2)

/-- Part (d) of SEARCH3 (R162): the first of three ascending matches is written, the others shift down. -/
def shiftDown (s : State) : Flow State :=
  let trimmed := trimAscending s.hc.m1 s.hc.m2
  (encodeMatch trimmed.1 { s with hc := { s.hc with m1 := trimmed.1, m2 := trimmed.2 } }).andThen fun t =>
    .go { t with hc := { t.hc with m1 := trimmed.2, m2 := t.hc.m3, hcState := .search3 } }

/-- Parts (c) and (d) of SEARCH3, with a third match M3 (R162). -/
def weighM3 (s : State) : Flow State :=
  if s.hc.m3.start < s.hc.m1.stop + 3 then
    if s.hc.m3.start ≥ s.hc.m1.stop then dropM2 s
    else .go { s with hc := { s.hc with m2 := s.hc.m3, hcState := .search3 } }
  else shiftDown s

/-- State SEARCH3 (R162). -/
def chainSearch3 (s : State) : Flow State :=
  let m2 := trimM2 s.hc.m1 s.hc.m2
  let s := { s with hc := { s.hc with m2 := m2 } }
  if m2.stop - 3 > s.mf.mfLimit then takeBoth s
  else
    (findWider (m2.stop - 3) m2.start m2.len s.hc.m3 s).andThen fun (t, m3) =>
      let t := { t with hc := { t.hc with m3 := m3 } }
      if m3.len > m2.len then weighM3 t else takeBoth t

/-- One step of MF-HC. -/
def chainStep (s : State) : Result :=
  match s.hc.hcState with
  | .main => (chainMain s).finish
  | .search2 => (chainSearch2 s).finish
  | .search3 => (chainSearch3 s).finish
  | .tail => finishCompress s

/-- The start of the COMPRESS_HC body (R163): every HEAD slot none, NEXT 0, then MAIN. -/
def setupChain (s : State) : State :=
  let t := setupFinder s
  { t with head := [], hc := { t.hc with next := 0, hcState := .main } }

end Sys2Proof.Machine
end

