-- ==== Sys2Proof/Machine/Decoder.lean ====
section
/-! DEFINITION. The block decoder BD (43_block_decoder.md R180 to R198): its setup, its states R183 to R189 as operations,
and the walk through them one state at a time (70_reset_and_hazards.md R269). -/

namespace Sys2Proof.Machine

/-- The two decode commands by their codes (R92). -/
def trustCode : Word := 4

def safeCode : Word := 5

/-- Setup (R181) with the source bound of the command. -/
def setupDecoder (sEnd : Nat) (s : State) : State :=
  { s with
    dPos := 0
    dEnd := s.dstLen.toInt.toNat
    bd := { s.bd with sPos := 0, sEnd := sEnd, bdState := .readToken } }

/-- `src[p]` for the decoder: the region is `[0, S_END)` (R182). -/
def bdByte (p : Nat) (s : State) : Flow Byte := srcByte s.bd.sEnd p s

/-- The bound test of FETCH (R182). -/
def fetchGuard (s : State) : Flow State :=
  if s.bd.sPos ≥ s.bd.sEnd then .stop (raiseCorruptInput s.bd.sPos s) else .go s

/-- FETCH without its effect on S_POS (R182): the byte at S_POS, or the fault of an exhausted source. -/
def peek (s : State) : Flow Byte := (fetchGuard s).andThen fun s => bdByte s.bd.sPos s

/-- ReadToken once the token byte is known (R183). -/
def takeToken (t : Byte) (s : State) : Flow State :=
  (fetchGuard s).andThen fun s =>
    .go { s with
      bd := { s.bd with
        token := t
        litLen := (highNibble t).toNat
        sPos := s.bd.sPos + 1
        bdState := if highNibble t = 15#4 then .readLiteralLenExtension else .copyLiterals } }

/-- The effect of one extension byte on the length being read: FF continues, any other byte ends the extension, after
which a match length grows by 4 (R184, R188, R205, R206). -/
def addExtension (b : Byte) (s : State) : Flow State :=
  let more := b == 255#8
  match s.bd.bdState with
  | .readLiteralLenExtension =>
    .go { s with
      bd := { s.bd with
        sPos := s.bd.sPos + 1
        litLen := s.bd.litLen + b.toNat
        bdState := if more then .readLiteralLenExtension else .copyLiterals } }
  | .readMatchLenExtension =>
    .go { s with
      bd := { s.bd with
        sPos := s.bd.sPos + 1
        matchLen := s.bd.matchLen + b.toNat + (if more then 0 else Config.minMatch)
        bdState := if more then .readMatchLenExtension else .copyMatch } }
  | .readToken => .stop (.refused .extensionOutsideLength)
  | .copyLiterals => .stop (.refused .extensionOutsideLength)
  | .readOffset => .stop (.refused .extensionOutsideLength)
  | .copyMatch => .stop (.refused .extensionOutsideLength)
  | .done => .stop (.refused .extensionOutsideLength)
  | .faulted => .stop (.refused .extensionOutsideLength)

/-- One extension byte: the bound test of FETCH, then its effect. -/
def takeExtension (b : Byte) (s : State) : Flow State := (fetchGuard s).andThen fun s => addExtension b s

/-- A whole length extension, EXT.more* EXT.end, with `budget` source bytes left; when none is left FETCH raises
(R184, R188). -/
def runExtension : Nat → State → Flow State
  | 0, s => .stop (raiseCorruptInput s.bd.sPos s)
  | budget + 1, s =>
    (peek s).andThen fun b =>
      (takeExtension b s).andThen fun t => if b = 255#8 then runExtension budget t else .go t

/-- The length extension at S_POS. -/
def readExtensionAt (s : State) : Flow State := runExtension (s.bd.sEnd - s.bd.sPos) s

/-- CopyLiterals up to the terminal test (R185): both tests come before the first byte is copied. -/
def copyLiterals (s : State) : Flow State :=
  if s.bd.sPos + s.bd.litLen > s.bd.sEnd then .stop (raiseCorruptInput s.bd.sPos s)
  else if s.dPos + s.bd.litLen > s.dEnd then .stop (raiseCorruptInput s.bd.sPos s)
  else
    (srcBytes s.bd.sEnd s s.bd.sPos s.bd.litLen).andThen fun lits =>
      (dstPutList s.dPos lits s).andThen fun t =>
        .go { t with dPos := s.dPos + s.bd.litLen, bd := { t.bd with sPos := s.bd.sPos + s.bd.litLen } }

/-- The terminal test (R186): the sequence is final. -/
def terminal (s : State) : Bool :=
  (s.cmd == trustCode && s.dPos == s.dEnd) || (s.cmd == safeCode && s.bd.sPos == s.bd.sEnd)

/-- The goto of the terminal test when the sequence is not final (R186). -/
def toReadOffset (s : State) : State := { s with bd := { s.bd with bdState := .readOffset } }

/-- Done (R191, R196): RESULT is the source bytes consumed in trusting mode, the bytes produced in defensive mode. -/
def finishDecode (s : State) : State :=
  let t := { s with bd := { s.bd with bdState := .done } }
  completeRegion (if t.cmd = trustCode then t.bd.sPos else t.dPos) t

/-- The register writes of ReadOffset before its offset tests (R187). -/
def takeOffset (off : Half) (s : State) : State :=
  { s with bd := { s.bd with offset := off, offAt := s.bd.sPos, sPos := s.bd.sPos + 2 } }

/-- The end of ReadOffset, once the offset is accepted: MATCH_LEN and the next state from the low nibble of TOKEN (R187). -/
def takeMatchNibble (s : State) : State :=
  let m := lowNibble s.bd.token
  { s with
    bd := { s.bd with
      matchLen := if m = 15#4 then Config.nibbleCap else m.toNat + Config.minMatch
      bdState := if m = 15#4 then .readMatchLenExtension else .copyMatch } }

/-- ReadOffset (R187): both offset tests come before MATCH_LEN is written and before its extension is read. -/
def readOffset (s : State) : Flow State :=
  if s.bd.sPos + 2 > s.bd.sEnd then .stop (raiseCorruptInput s.bd.sPos s)
  else
    (bdByte s.bd.sPos s).andThen fun lo =>
      (bdByte (s.bd.sPos + 1) s).andThen fun hi =>
        let t := takeOffset (offsetOf lo hi) s
        if t.bd.offset = 0#16 then .stop (raiseCorruptInput t.bd.offAt t)
        else if t.bd.offset.toNat > t.dPos then .stop (raiseCorruptInput t.bd.offAt t)
        else .go (takeMatchNibble t)

/-- The byte loop of CopyMatch, in ascending order (R189, R190). -/
def copyBytes : Nat → Nat → Nat → State → Flow State
  | _, _, 0, s => .go s
  | source, target, count + 1, s =>
    (dstGet source s).andThen fun b =>
      (dstPut target b s).andThen fun t => copyBytes (source + 1) (target + 1) count t

/-- CopyMatch (R189). -/
def copyMatch (s : State) : Flow State :=
  if s.dPos + s.bd.matchLen > s.dEnd then .stop (raiseCorruptInput s.bd.offAt s)
  else
    (copyBytes (s.dPos - s.bd.offset.toNat) s.dPos s.bd.matchLen s).andThen fun t =>
      .go { t with dPos := s.dPos + s.bd.matchLen, bd := { t.bd with bdState := .readToken } }

/-- The decoder one state at a time (R183 to R189, R191). -/
def decoderUnitStep (s : State) : Result :=
  match s.bd.bdState with
  | .readToken => ((peek s).andThen fun t => takeToken t s).finish
  | .readLiteralLenExtension => ((peek s).andThen fun b => takeExtension b s).finish
  | .copyLiterals =>
    ((copyLiterals s).andThen fun t =>
      .go (if terminal t then finishDecode t else toReadOffset t)).finish
  | .readOffset => (readOffset s).finish
  | .readMatchLenExtension => ((peek s).andThen fun b => takeExtension b s).finish
  | .copyMatch => (copyMatch s).finish
  | .done => .next (finishDecode s)
  | .faulted => .fault .noTransition

/-- `k` single states of the decoder. -/
def decoderUnitRun : Nat → State → Result
  | 0, s => .next s
  | k + 1, s =>
    match decoderUnitStep s with
    | .next t => decoderUnitRun k t
    | .fault r => .fault r
    | .refused r => .refused r

/-- The rest of ReadToken for a token with an extended literal length. -/
def literalLength (t : Byte) (s : State) : Flow State :=
  (takeToken t s).andThen fun s =>
    if s.bd.bdState = .readLiteralLenExtension then readExtensionAt s else .go s

/-- The answer the terminal test (R88, R186) will give for the sequence that token `t` starts; a sequence that faults
before the test is not final (DEDUCED, log 17). -/
def isFinal (t : Byte) (s : State) : Bool :=
  match literalLength t s with
  | .go u =>
    decide (u.bd.sPos + u.bd.litLen ≤ u.bd.sEnd ∧ u.dPos + u.bd.litLen ≤ u.dEnd) &&
      terminal { u with dPos := u.dPos + u.bd.litLen, bd := { u.bd with sPos := u.bd.sPos + u.bd.litLen } }
  | .stop _ => false

end Sys2Proof.Machine
end

