-- ==== Sys2Proof/Machine/Commands.lean ====
section
/-! DEFINITION. The host commands (44_host_commands.md R210 to R219). A compress or decode command that passes its checks
is set up and stays BUSY; its unit then runs it, one unit step or one stream instruction a step (70_reset_and_hazards.md
R269; log 1). -/

namespace Sys2Proof.Machine

/-- CLEAR, code 0 (R219). -/
def execClear (s : State) : Host.Outcome State Fault Refusal :=
  hostCommand 0 (fun s => .next { s with status := .idle }) s

/-- MAXLEN, code 1 (R212). -/
def execMaxlen (s : State) : Host.Outcome State Fault Refusal :=
  hostCommand 1 (fun s =>
    if badMaxlenArgs s then raiseInvalidArgument s
    else .next (complete (maxCompressedLength s.srcLen.toInt.toNat) s)) s

/-- COMPRESS_FAST, code 2 (R213): the checks, then the program of R141. -/
def execCompressFast (s : State) : Host.Outcome State Fault Refusal :=
  hostCommand 2 (fun s => if badCompressArgs s then raiseInvalidArgument s else .next (setupFast s)) s

/-- COMPRESS_HC, code 3 (R214): the checks, then the program of R163. -/
def execCompressHc (s : State) : Host.Outcome State Fault Refusal :=
  hostCommand 3 (fun s => if badCompressArgs s then raiseInvalidArgument s else .next (setupChain s)) s

/-- DECOMPRESS_TRUST, code 4 (R215): the checks, then the decoder with `S_END = SRC_CAP - SRC_OFF` (R181). -/
def execDecompressTrust (s : State) : Host.Outcome State Fault Refusal :=
  hostCommand 4 (fun s =>
    if badTrustArgs s then raiseInvalidArgument s
    else .next (setupDecoder (s.srcCap.toInt - s.srcOff.toInt).toNat s)) s

/-- DECOMPRESS_SAFE, code 5 (R216): the checks, then the decoder with `S_END = SRC_LEN` (R181). -/
def execDecompressSafe (s : State) : Host.Outcome State Fault Refusal :=
  hostCommand 5 (fun s =>
    if badSafeArgs s then raiseInvalidArgument s
    else .next (setupDecoder s.srcLen.toInt.toNat s)) s

/-- The illegal command, code 6 and above (R217). -/
def execIllegal (code : Word) (s : State) : Host.Outcome State Fault Refusal :=
  hostCommand code raiseInvalidArgument s

end Sys2Proof.Machine
end

