-- ==== Sys2Proof/Machine/Stream.lean ====
section
/-! DEFINITION. The stream instructions (43_block_decoder.md R199 to R206), each as the sequence of decoder states its
rule gives. The choice between SEQ and LAST is the decoder's (30_encoding.md R88), so no terminal test is made here. -/

namespace Sys2Proof.Machine

/-- The states every SEQ ends with: CopyLiterals, then ReadOffset (R199 to R202). -/
def literalsThenOffset (s : State) : Flow State :=
  (copyLiterals s).andThen fun s => readOffset (toReadOffset s)

/-- The states every LAST ends with: CopyLiterals, then Done (R203, R204). -/
def literalsThenDone (s : State) : Flow State := (copyLiterals s).andThen fun s => .go (finishDecode s)

/-- SEQ.ss (R199): ReadToken, CopyLiterals, ReadOffset, CopyMatch. -/
def execSeqSS (l m : Nibble) (s : State) : Host.Outcome State Fault Refusal :=
  ((takeToken (tokenByte l m) s).andThen fun s =>
    (literalsThenOffset s).andThen fun s => copyMatch s).finish

/-- SEQ.xs (R200): ReadToken, ReadLiteralLenExtension, CopyLiterals, ReadOffset, CopyMatch. -/
def execSeqXS (m : Nibble) (s : State) : Host.Outcome State Fault Refusal :=
  ((takeToken (tokenByte 15 m) s).andThen fun s =>
    (readExtensionAt s).andThen fun s =>
      (literalsThenOffset s).andThen fun s => copyMatch s).finish

/-- SEQ.sx (R201): ReadToken, CopyLiterals, ReadOffset, ReadMatchLenExtension, CopyMatch. -/
def execSeqSX (l : Nibble) (s : State) : Host.Outcome State Fault Refusal :=
  ((takeToken (tokenByte l 15) s).andThen fun s =>
    (literalsThenOffset s).andThen fun s =>
      (readExtensionAt s).andThen fun s => copyMatch s).finish

/-- SEQ.xx (R202): both extensions. -/
def execSeqXX (s : State) : Host.Outcome State Fault Refusal :=
  ((takeToken 0xFF s).andThen fun s =>
    (readExtensionAt s).andThen fun s =>
      (literalsThenOffset s).andThen fun s =>
        (readExtensionAt s).andThen fun s => copyMatch s).finish

/-- LAST.s (R203): ReadToken, CopyLiterals, Done. -/
def execLastS (l ignored : Nibble) (s : State) : Host.Outcome State Fault Refusal :=
  ((takeToken (tokenByte l ignored) s).andThen fun s => literalsThenDone s).finish

/-- LAST.x (R204): ReadToken, ReadLiteralLenExtension, CopyLiterals, Done. -/
def execLastX (ignored : Nibble) (s : State) : Host.Outcome State Fault Refusal :=
  ((takeToken (tokenByte 15 ignored) s).andThen fun s =>
    (readExtensionAt s).andThen fun s => literalsThenDone s).finish

/-- EXT.more (R205): the length grows by 255 and the extension goes on. -/
def execExtMore (s : State) : Host.Outcome State Fault Refusal := (takeExtension 0xFF s).finish

/-- EXT.end (R206): the length grows by `e` and the extension ends. -/
def execExtEnd (e : Byte) (s : State) : Host.Outcome State Fault Refusal := (takeExtension e s).finish

end Sys2Proof.Machine
end

