-- ==== Sys2Proof/Machine/Dispatch.lean ====
section
/-! DEFINITION. The meaning of every instruction, one arm a constructor. -/

namespace Sys2Proof.Machine

def exec (i : Instr) (s : State) : Host.Outcome State Fault Refusal :=
  match i with
  | .clear => Sys2Proof.Machine.execClear s
  | .maxlen => Sys2Proof.Machine.execMaxlen s
  | .compressFast => Sys2Proof.Machine.execCompressFast s
  | .compressHc => Sys2Proof.Machine.execCompressHc s
  | .decompressTrust => Sys2Proof.Machine.execDecompressTrust s
  | .decompressSafe => Sys2Proof.Machine.execDecompressSafe s
  | .illegal code => Sys2Proof.Machine.execIllegal code s
  | .seqSS l m => Sys2Proof.Machine.execSeqSS l m s
  | .seqXS m => Sys2Proof.Machine.execSeqXS m s
  | .seqSX l => Sys2Proof.Machine.execSeqSX l s
  | .seqXX => Sys2Proof.Machine.execSeqXX s
  | .lastS l ignored => Sys2Proof.Machine.execLastS l ignored s
  | .lastX ignored => Sys2Proof.Machine.execLastX ignored s
  | .extMore => Sys2Proof.Machine.execExtMore s
  | .extEnd e => Sys2Proof.Machine.execExtEnd e s

end Sys2Proof.Machine
end

