-- ==== Sys2Proof/Machine/HostPort.lean ====
section
/-! DEFINITION. The host's side of the block: the register space (10_state.md R23 to R26, 20_memory.md R50), register
access while BUSY (70_reset_and_hazards.md R265), the host's own access to SRC and DST (R264) and reset (R260, R261). -/

namespace Sys2Proof.Machine

/-- A 32-bit read at a register byte offset (R23 to R26); none where the spec defines no register. -/
def readRegister (offset : Nat) (s : State) : Option Word :=
  match offset with
  | 0x00 => some s.cmd
  | 0x04 => some s.status.word
  | 0x08 => some s.srcCap
  | 0x0C => some s.srcOff
  | 0x10 => some s.srcLen
  | 0x14 => some s.dstCap
  | 0x18 => some s.dstOff
  | 0x1C => some s.dstLen
  | 0x20 => some s.result
  | 0x24 => some s.faultOff
  | _ => none

/-- A 32-bit write at a register byte offset other than CMD's: an argument register takes the value unless BUSY, a
read-only register ignores it (R23, R25, R26, R265). -/
def writeRegister (offset : Nat) (value : Word) (s : State) : Option State :=
  match offset with
  | 0x04 => some s
  | 0x08 => some (if s.isBusy then s else { s with srcCap := value })
  | 0x0C => some (if s.isBusy then s else { s with srcOff := value })
  | 0x10 => some (if s.isBusy then s else { s with srcLen := value })
  | 0x14 => some (if s.isBusy then s else { s with dstCap := value })
  | 0x18 => some (if s.isBusy then s else { s with dstOff := value })
  | 0x1C => some (if s.isBusy then s else { s with dstLen := value })
  | 0x20 => some s
  | 0x24 => some s
  | _ => none

/-- The number of buffer addresses a capacity can cover: SRC_CAP and DST_CAP are signed 32-bit values (R23; log 23). -/
def hostAddressLimit : Nat := 2 ^ 31 - 1

/-- The host's own access to a buffer: refused while BUSY (R264; log 14), else carried out. -/
def hostMemory (addr : Nat) (s : State) (access : State) : Result :=
  if s.isBusy then .refused .hostMemoryWhileBusy
  else if addr < hostAddressLimit then .next access
  else .fault .hostAddress

/-- Reset (R260): the registers and tables of `State.reset`; SRC and DST keep their contents, but a reset while BUSY
leaves the destination region at any value (R261). The host's queue and its read data are not the block's (log 20). -/
def applyReset (s : State) : State :=
  let t := if s.isBusy then openRegionFrom 0 s else s
  { State.reset with
    src := t.src
    dst := t.dst
    dstOpen := t.dstOpen
    draws := t.draws
    host := t.host
    hostData := t.hostData }

end Sys2Proof.Machine
end

