-- ==== Sys2Proof/Machine/Fetch.lean ====
section
/-! DEFINITION. What the next step does: the host's next move, a step of the running match finder, or the stream
instruction at S_POS (10_state.md R20, R27, 70_reset_and_hazards.md R269; log 1, log 2). -/

namespace Sys2Proof.Machine

/-- The stream instruction at S_POS. In ReadToken it is the sequence the token starts, in a length extension the extension
byte; the other decoder states read no instruction and run on their own (R183 to R189). -/
def decoderFetch (s : State) : Fetched :=
  match s.bd.bdState with
  | .readToken =>
    match peek s with
    | .go t => .run (decodeToken (isFinal t s) t) s
    | .stop r => .outcome r
  | .readLiteralLenExtension =>
    match peek s with
    | .go b => .run (decodeExtension b) s
    | .stop r => .outcome r
  | .readMatchLenExtension =>
    match peek s with
    | .go b => .run (decodeExtension b) s
    | .stop r => .outcome r
  | .copyLiterals => .outcome (decoderUnitStep s)
  | .readOffset => .outcome (decoderUnitStep s)
  | .copyMatch => .outcome (decoderUnitStep s)
  | .done => .outcome (decoderUnitStep s)
  | .faulted => .outcome (decoderUnitStep s)

/-- The core's next step: nothing unless BUSY (R248), else a step of the unit the command code chose (R34). -/
def coreFetch (s : State) : Fetched :=
  if s.isBusy then
    match s.cmd.toNat with
    | 2 => .outcome (fastStep s)
    | 3 => .outcome (chainStep s)
    | 4 => decoderFetch s
    | 5 => decoderFetch s
    | _ => .outcome (.fault .noTransition)
  else .outcome (.next s)

/-- A register write of the host: a write to CMD is a host command (R24, R210). -/
def writeMove (offset : Nat) (value : Word) (s : State) : Fetched :=
  if offset = 0 then .run (decodeCommand value) s
  else
    match writeRegister offset value s with
    | some t => .outcome (.next t)
    | none => .outcome (.refused .noSuchRegister)

/-- A register read of the host: always allowed, without effect on the block (R265); the value is the host's (log 21). -/
def readMove (offset : Nat) (s : State) : Result :=
  match readRegister offset s with
  | some v => .next { s with hostData := v }
  | none => .refused .noSuchRegister

/-- One move of the host, already taken from the queue of `s`; `poll` keeps its place while BUSY. -/
def hostMove (m : HostMove) (s : State) : Fetched :=
  match m with
  | .writeReg offset value => writeMove offset value s
  | .readReg offset => .outcome (readMove offset s)
  | .writeSrc addr value => .outcome (hostMemory addr s { s with src := Memory.write s.src addr value })
  | .readSrc addr => .outcome (hostMemory addr s { s with hostData := (Memory.read s.src addr).setWidth 32 })
  | .writeDst addr value => .outcome (hostMemory addr s (dstWrite s addr value))
  | .readDst addr => .outcome (hostMemory addr s { s with hostData := (dstRead s addr).setWidth 32 })
  | .poll => if s.isBusy then coreFetch { s with host := .poll :: s.host } else .outcome (readMove 4 s)
  | .tick => coreFetch s
  | .reset => .outcome (.next (applyReset s))

/-- What the next step does: the host's pending move if there is one, else the core's step. -/
def fetch (s : State) : Fetched :=
  match s.host with
  | [] => coreFetch s
  | m :: rest => hostMove m { s with host := rest }

end Sys2Proof.Machine
end

