-- ==== Sys2Proof/Machine/Step.lean ====
section
/-! DEFINITION. One step of the machine, and how a table word comes to be the next instruction. -/

namespace Sys2Proof.Machine

/-- One step: what `fetch` finds, an instruction being run by `exec`. -/
def step (s : State) : Host.Outcome State Fault Refusal :=
  match fetch s with
  | .run i t => exec i t
  | .outcome r => r

/-- `s` with a table word placed where the next step fetches its instruction (log 3, log 16). A 32-bit word is the host's
pending write to CMD. An 8-bit word is the token at position 0 of a 32-byte source, zeros after it, under a running
DECOMPRESS_SAFE with 64 bytes of room. -/
def State.withFetchWord (s : State) (nbits w : Nat) : State :=
  if nbits = 32 then
    { s with
      status := if s.isBusy then .idle else s.status
      host := [.writeReg 0 (BitVec.ofNat 32 w)] }
  else
    { s with
      cmd := safeCode
      status := .busy
      srcCap := 32
      srcOff := 0
      srcLen := 32
      dstCap := 64
      dstOff := 0
      dstLen := 64
      result := 0
      faultOff := 0
      dPos := 0
      dEnd := 64
      bd := { s.bd with sPos := 0, sEnd := 32, bdState := .readToken }
      src := Memory.write [] 0 (BitVec.ofNat 8 w)
      host := [] }

end Sys2Proof.Machine
end

