-- ==== Sys2Proof/Safety.lean ====
section
/-! DEFINITION. What a safe run is, in the terms the statements use: canonical storage, the status rules of 10_state.md
R25 and R26, the register widths of R27 to R29, the invariants of the three units (43_block_decoder.md R198,
41_match_finder_hash_table.md R142, 42_match_finder_hash_chain.md R165), and what a block is (30_encoding.md R80). -/

namespace Sys2Proof.Machine

/-! ## Runs -/

/-- `k` steps, stopping at the first fault or refusal. -/
def steps : Nat → State → Result
  | 0, s => .next s
  | k + 1, s =>
    match step s with
    | .next t => steps k t
    | .fault r => .fault r
    | .refused r => .refused r

/-- The block is running one of the two decode commands, and the host leaves it alone. -/
structure Decoding (s : State) : Prop where
  busy : s.isBusy = true
  code : s.cmd = trustCode ∨ s.cmd = safeCode
  quiet : s.host = []

/-- The block is running COMPRESS_FAST or COMPRESS_HC, by its code, and the host leaves it alone. -/
structure Compressing (code : Word) (s : State) : Prop where
  busy : s.isBusy = true
  code : s.cmd = code
  quiet : s.host = []

/-- All of a state but its DST bytes. -/
def State.blind (s : State) : State := { s with dst := [], dstOpen := [] }

/-! ## Storage -/

/-- Two ranges share no address. -/
def OpenRange.apart (r q : OpenRange) : Bool := decide (r.hi ≤ q.lo ∨ q.hi ≤ r.lo)

/-- Every range holds an address and no two share one. -/
def rangesWf : List OpenRange → Bool
  | [] => true
  | r :: rest => decide (r.lo < r.hi) && rest.all r.apart && rangesWf rest

/-- COMPRESS_FAST is running: HT is the table of the current mode. After the command its contents are open (U5). -/
def State.htInUse (s : State) : Bool := s.isBusy && s.cmd == 2#32

/-- The number of HT slots: that of the mode while COMPRESS_FAST runs, at most that of the largest table at other times
(R30). -/
def htSlots (s : State) : Nat := if s.htInUse then 2 ^ htLog s else 2 ^ 24

/-- Every memory and table is canonical, every table index is one of its slots (R30 to R32), and no stored DST byte lies
where DST holds any value. -/
def State.storageWf (s : State) : Bool :=
  Memory.wf s.src && Memory.wf s.dst && storeWf none s.ht && storeWf none s.head && storeWf 0 s.chain &&
    s.ht.all (fun e => decide (e.1 < htSlots s)) && s.head.all (fun e => decide (e.1 < 2 ^ Config.hashLogHc)) &&
    s.chain.all (fun e => decide (e.1 < Config.chainSize)) &&
    rangesWf s.dstOpen && s.dst.all (fun c => (openDraw s.dstOpen c.1).isNone)

/-! ## Status (R25, R26) -/

/-- CAUSE is set exactly with FAULT; RESULT is 0 unless DONE; FAULT_OFF is 0 unless FAULT with CorruptInput. -/
structure StatusRules (s : State) : Prop where
  cause_iff_fault : s.status.cause ≠ .none ↔ s.status.run = .fault
  result_zero : s.status.run ≠ .done → s.result = 0
  fault_off_zero : s.status.cause ≠ .corruptInput → s.faultOff = 0

/-! ## Regions of a running command (R21, R22, R51) -/

/-- `src[p]` as a plain value. -/
def srcAt (s : State) (p : Int) : Byte := Memory.read s.src (srcAddr s p).toNat

/-- `dst[q]` as a plain value. -/
def dstAt (s : State) (q : Nat) : Byte := dstRead s (dstAddr s q).toNat

/-- The source bytes at positions `[p, p + k)`. -/
def srcRun (s : State) (p k : Nat) : List Byte := (List.range k).map fun i => srcAt s ((p + i : Nat) : Int)

/-- The destination bytes at positions `[q, q + k)`. -/
def dstRun (s : State) (q k : Nat) : List Byte := (List.range k).map fun i => dstAt s (q + i)

/-- The source region `[0, limit)` lies in SRC. -/
structure SrcRegion (limit : Nat) (s : State) : Prop where
  off_nonneg : 0 ≤ s.srcOff.toInt
  fits : s.srcOff.toInt + limit ≤ s.srcCap.toInt

/-- The destination region is `[DST_OFF, DST_OFF + DST_LEN)`, lies in DST, and D_POS is in it. -/
structure DstRegion (s : State) : Prop where
  off_nonneg : 0 ≤ s.dstOff.toInt
  end_is_len : (s.dEnd : Int) = s.dstLen.toInt
  fits : s.dstOff.toInt + s.dEnd ≤ s.dstCap.toInt
  pos_le : s.dPos ≤ s.dEnd

/-! ## The decoder (R27, R181 to R189) -/

/-- What holds between two steps of a decode command. -/
structure DecoderRules (s : State) : Prop where
  src : SrcRegion s.bd.sEnd s
  dst : DstRegion s
  bound : (s.bd.sEnd : Int) = if s.cmd = trustCode then s.srcCap.toInt - s.srcOff.toInt else s.srcLen.toInt
  pos_le : s.bd.sPos ≤ s.bd.sEnd
  not_faulted : s.bd.bdState ≠ .faulted
  literal : s.bd.bdState = .readLiteralLenExtension ∨ s.bd.bdState = .copyLiterals →
    s.bd.litLen ≤ 15 + 255 * s.bd.sPos
  match_extension : s.bd.bdState = .readMatchLenExtension → s.bd.matchLen ≤ 15 + 255 * s.bd.sPos
  match_length : s.bd.bdState = .copyMatch → s.bd.matchLen ≤ 19 + 255 * s.bd.sPos
  match_source : s.bd.bdState = .readMatchLenExtension ∨ s.bd.bdState = .copyMatch →
    1 ≤ s.bd.offset.toNat ∧ s.bd.offset.toNat ≤ s.dPos ∧ s.bd.offAt + 2 ≤ s.bd.sPos

/-! ## The match finders (R112, R142, R165) -/

/-- What holds between two steps of a compress command, whichever finder runs it. -/
structure FinderRules (s : State) : Prop where
  src : SrcRegion s.mf.n s
  dst : DstRegion s
  length : (s.mf.n : Int) = s.srcLen.toInt
  mf_limit : s.mf.mfLimit = s.mf.n - 12
  match_limit : s.mf.matchLimit = s.mf.n - 5
  anchor_le : s.mf.anchor ≤ s.mf.n

/-- `k` source bytes from `a` and from `b` on are equal (P5 of R112). -/
def SameBytes (s : State) (a b : Int) (k : Nat) : Prop := ∀ i : Nat, i < k → srcAt s (a + i) = srcAt s (b + i)

/-- Every position in HT lies below `p` and is one that may be probed (R142 (b)). -/
def SlotsBelow (s : State) (p : Nat) : Prop :=
  ∀ e ∈ s.ht, ∀ q, e.2 = some q → q < p ∧ q + 12 ≤ s.mf.n

/-- The candidate of MF-HT is an earlier position in the window whose first `k` bytes are those at IP (P2, P3, P5, P7). -/
def CandidateOk (s : State) (k : Nat) : Prop :=
  ∃ c, s.mf.cand = some c ∧ c < s.mf.ip ∧ s.mf.ip - c ≤ 65535 ∧ s.mf.anchor ≤ s.mf.ip ∧ s.mf.ip + 12 ≤ s.mf.n ∧
    SameBytes s c s.mf.ip k

/-- What holds at each label of MF-HT (R142 (a) to (d)). -/
def FastRules (s : State) : Prop :=
  match s.mf.htState with
  | .search => s.mf.anchor ≤ s.mf.ip ∧ SlotsBelow s s.mf.ip
  | .searchLoop =>
    s.mf.anchor ≤ s.mf.ip ∧ SlotsBelow s s.mf.ip ∧ 64 ≤ s.mf.attempts ∧ s.mf.attempts ≤ 64 + s.mf.ip
  | .catchup => CandidateOk s 4 ∧ SlotsBelow s (s.mf.ip + 1)
  | .extend =>
    ∃ p, s.mf.ip ≤ p ∧ p + 12 ≤ s.mf.n ∧ CandidateOk s (p + 4 - s.mf.ip) ∧ SlotsBelow s (p + 1)
  | .emit =>
    4 ≤ s.mf.mlen ∧ s.mf.ip + s.mf.mlen + 5 ≤ s.mf.n ∧ CandidateOk s s.mf.mlen ∧
      SlotsBelow s (s.mf.ip + s.mf.mlen)
  | .reprobe => s.mf.anchor = s.mf.ip ∧ s.mf.ip + 12 ≤ s.mf.n ∧ SlotsBelow s s.mf.ip
  | .tail => True

/-- A filled match register: P2, P3, P4, P5 and P6 of R112 (R165 (c), (d)). -/
structure MatchOk (s : State) (m : MatchReg) : Prop where
  ref_nonneg : 0 ≤ m.ref
  ref_lt : m.ref < m.start
  window : m.start - m.ref ≤ 65535
  long : 4 ≤ m.len
  stop_le : m.stop ≤ s.mf.matchLimit
  same : SameBytes s m.ref m.start m.len.toNat

/-- What holds in each state of MF-HC (R165). -/
def ChainRules (s : State) : Prop :=
  match s.hc.hcState with
  | .main => True
  | .search2 => MatchOk s s.hc.m0 ∧ MatchOk s s.hc.m1
  | .search3 => MatchOk s s.hc.m1 ∧ MatchOk s s.hc.m2
  | .tail => True

/-- The invariant of the whole block: a BUSY block runs one of the four commands that have a unit, under that unit's
rules. -/
structure Safe (s : State) : Prop where
  unit : s.isBusy = true → s.cmd = 2 ∨ s.cmd = 3 ∨ s.cmd = 4 ∨ s.cmd = 5
  decoder : s.isBusy = true → s.cmd = 4 ∨ s.cmd = 5 → DecoderRules s
  finder : s.isBusy = true → s.cmd = 2 ∨ s.cmd = 3 → FinderRules s
  fast : s.isBusy = true → s.cmd = 2 → FastRules s
  chain : s.isBusy = true → s.cmd = 3 → ChainRules s

/-! ## Register and slot widths (R9, R27 to R31) -/

/-- The three fields of a match register are signed 32-bit values (R162). -/
def MatchReg.narrow (m : MatchReg) : Bool :=
  decide (-2 ^ 31 ≤ m.start ∧ m.start < 2 ^ 31 ∧ -2 ^ 31 ≤ m.ref ∧ m.ref < 2 ^ 31 ∧ -2 ^ 31 ≤ m.len ∧
    m.len < 2 ^ 31)

/-- Every position in a table's slots is below `2 ^ width`. -/
def slotsFit (width : Nat) (table : List (Nat × Option Nat)) : Bool :=
  table.all fun e => e.2.all fun q => decide (q < 2 ^ width)

/-- Every working register, and every HT and HEAD slot, that is held as an exact number lies in the width the spec gives
it. -/
def WidthsHold (s : State) : Prop :=
  (s.bd.sPos < 2 ^ 32 ∧ s.bd.sEnd < 2 ^ 32 ∧ s.dPos < 2 ^ 32 ∧ s.dEnd < 2 ^ 32 ∧ s.bd.offAt < 2 ^ 32) ∧
    (s.bd.litLen < 2 ^ 40 ∧ s.bd.matchLen < 2 ^ 40) ∧
    (s.mf.n < 2 ^ 32 ∧ s.mf.anchor < 2 ^ 32 ∧ s.mf.ip < 2 ^ 32 ∧ s.mf.mlen < 2 ^ 32 ∧ s.mf.attempts < 2 ^ 32 ∧
      s.hc.next < 2 ^ 32 ∧ (∀ c, s.mf.cand = some c → c < 2 ^ 32)) ∧
    (-2 ^ 32 ≤ s.mf.mfLimit ∧ s.mf.mfLimit < 2 ^ 32 ∧ -2 ^ 32 ≤ s.mf.matchLimit ∧ s.mf.matchLimit < 2 ^ 32) ∧
    (s.hc.m0.narrow = true ∧ s.hc.m1.narrow = true ∧ s.hc.m2.narrow = true ∧ s.hc.m3.narrow = true) ∧
    (slotsFit Config.slotWLarge s.ht = true ∧ (s.htInUse = true → slotsFit (htSlotWidth s) s.ht = true) ∧
      slotsFit Config.slotWLarge s.head = true)

/-! ## Blocks (R80, R90, R117) -/

/-- The output after a match copy of `len` bytes at distance `off`, byte by byte (R189, R190). -/
def copyBack (off : Nat) : Nat → List Byte → List Byte
  | 0, out => out
  | len + 1, out => copyBack off len (out ++ [out.getD (out.length - off) 0])

/-- `bytes` are non-final sequences that produce `out` (R80, R81, R90), each with a match that starts at an output
position and has a length that `allowed` takes. -/
inductive Expands (allowed : Nat → Nat → Prop) : List Byte → List Byte → Prop where
  | nil : Expands allowed [] []
  | seq (bytes out lits : List Byte) (off : Half) (len : Nat) :
    Expands allowed bytes out → (Line.seq lits off len).wf = true → off.toNat ≤ (out ++ lits).length →
    allowed (out ++ lits).length len →
    Expands allowed (bytes ++ assemble (.seq lits off len)) (copyBack off.toNat len (out ++ lits))

/-- `bytes` are a block that decodes to `out`: non-final sequences, then one final sequence with any low nibble (R80,
R87). -/
def IsBlock (bytes out : List Byte) : Prop :=
  ∃ front produced lits ignored, Expands (fun _ _ => True) front produced ∧ bytes = front ++ finalBytes ignored lits ∧
    out = produced ++ lits

/-- The matches an encoder may write into a block for `n` bytes: they start at least MF_LIMIT and end at least
LAST_LITERALS bytes before the end (R91). -/
def encoderAllows (n start len : Nat) : Prop := start + Config.mfLimit ≤ n ∧ start + len + Config.lastLiterals ≤ n

/-- `bytes` are a block for `out` as this hardware writes one: its matches keep R91 and the low nibble of its final token
is 0 (R87). -/
def IsWrittenBlock (bytes out : List Byte) : Prop :=
  ∃ front produced lits, Expands (encoderAllows out.length) front produced ∧ bytes = front ++ assemble (.last lits) ∧
    out = produced ++ lits

/-- What a running compress command has written so far decodes to the source bytes before ANCHOR, with matches that keep
R91 (the induction of R117). -/
def BlockSoFar (s : State) : Prop :=
  s.isBusy = true → s.cmd = 2 ∨ s.cmd = 3 →
    Expands (encoderAllows s.mf.n) (dstRun s 0 s.dPos) (srcRun s 0 s.mf.anchor)

end Sys2Proof.Machine
end

