-- ==== Sys2Proof/Certificates/Slice0/Obligations.lean ====
section
/-! DEFINITION. The statements for the provers, from the numbered rules of spec/. -/

open Sys2Proof Sys2Proof.Machine

/-! ## Encodings -/

/-- R82, R92, R94: the command each code selects, the fields of a token, and the class each token value selects; every value
selects one. -/
def Obligations.EncodingTables : Prop :=
  (decodeCommand 0 = .clear ∧ decodeCommand 1 = .maxlen ∧ decodeCommand 2 = .compressFast ∧
    decodeCommand 3 = .compressHc ∧ decodeCommand 4 = .decompressTrust ∧ decodeCommand 5 = .decompressSafe ∧
    ∀ c : Word, 6 ≤ c.toNat → decodeCommand c = .illegal c) ∧
    (∀ l m : Nibble, (tokenByte l m).toNat = 16 * l.toNat + m.toNat ∧
      highNibble (tokenByte l m) = l ∧ lowNibble (tokenByte l m) = m ∧
      decodeToken false (tokenByte l m) =
        (if l = 15 then (if m = 15 then .seqXX else .seqXS m) else if m = 15 then .seqSX l else .seqSS l m) ∧
      decodeToken true (tokenByte l m) = (if l = 15 then .lastX m else .lastS l m)) ∧
    ∀ t : Byte, ∃ l m : Nibble, t = tokenByte l m

/-- R92, R94: in every context, decoding and encoding are inverse to each other on the well-formed instructions. -/
def Obligations.DecodeEncodeInverse : Prop :=
  (∀ i : Instr, i.wf = true → decode (contextOf i) (encode i) = .ok i) ∧
    ∀ (context : Context) (code : Code) (i : Instr), decode context code = .ok i →
      i.wf = true ∧ contextOf i = context ∧ encode i = code

/-- R92, R94: words written out from the tables decode to the instructions they stand for. -/
def Obligations.WrittenWordsDecode : Prop :=
  decode .command (.command 0x00000003#32) = .ok .compressHc ∧
    decode .command (.command 0xFFFFFFFF#32) = .ok (.illegal 0xFFFFFFFF#32) ∧
    decode (.token false) (.byte 0b00100010#8) = .ok (.seqSS 2 2) ∧
    decode (.token false) (.byte 0b11110100#8) = .ok (.seqXS 4) ∧
    decode (.token false) (.byte 0b00011111#8) = .ok (.seqSX 1) ∧
    decode (.token false) (.byte 0b11111111#8) = .ok .seqXX ∧
    decode (.token true) (.byte 0b01011010#8) = .ok (.lastS 5 10) ∧
    decode (.token true) (.byte 0b11110000#8) = .ok (.lastX 0) ∧
    decode .extension (.byte 0b11111111#8) = .ok .extMore ∧
    decode .extension (.byte 0b11010010#8) = .ok (.extEnd 0xD2#8)

/-- R83: a length extension is a run of FF bytes and one byte below 255, and contributes their sum; FF is the row EXT.more,
every other byte the row EXT.end. -/
def Obligations.LengthExtensionIsSum : Prop :=
  (∀ b : Byte, decodeExtension b = if b = 255 then .extMore else .extEnd b) ∧
  (∀ (acc k : Nat) (e : Byte) (rest : List Byte), e ≠ 255 →
    readExtension acc (List.replicate k 255 ++ e :: rest) = .ok (acc + 255 * k + e.toNat, rest)) ∧
    ∀ (acc n : Nat) (bytes rest : List Byte), readExtension acc bytes = .ok (n, rest) →
      ∃ (k : Nat) (e : Byte), e ≠ 255 ∧ bytes = List.replicate k 255 ++ e :: rest ∧ n = acc + 255 * k + e.toNat

/-- R111: the bytes WRITE_LEN writes: `ext(x)` of them, summing to `x - 15`, only the last below 255. -/
def Obligations.WriteLenBytes : Prop :=
  ∀ x : Nat, 15 ≤ x → (writeLen x).length = extSize x ∧ ((writeLen x).map BitVec.toNat).sum = x - 15 ∧
    ∃ front last, writeLen x = front ++ [last] ∧ (∀ b ∈ front, b = 255) ∧ last ≠ 255

/-- R89: encoded sizes. -/
def Obligations.EncodedSizes : Prop :=
  (∀ x : Nat, extSize x = (if x < 15 then 0 else 1 + (x - 15) / 255) ∧ extSize x = (x + 240) / 255) ∧
    (∀ (lits : List Byte) (off : Half) (len : Nat),
      (assemble (.seq lits off len)).length = 1 + extSize lits.length + lits.length + 2 + extSize (len - 4)) ∧
    (∀ lits : List Byte, (assemble (.last lits)).length = 1 + extSize lits.length + lits.length) ∧
    (∀ l m : Nat, 3 ≤ seqSize l m ∧ (seqSize l m = 3 ↔ l = 0 ∧ m ≤ 18)) ∧
    ∀ l : Nat, 1 ≤ lastSize l ∧ (lastSize l = 1 ↔ l = 0)

/-- R81, R84 to R87, R93: every listing line has one encoding, and reading it back gives the line, whatever follows; a
final sequence reads back whatever the low nibble of its token. -/
def Obligations.AssembleDisassembleAgree : Prop :=
  (∀ (lits : List Byte) (off : Half) (len : Nat) (rest : List Byte), (Line.seq lits off len).wf = true →
    disassemble false (assemble (.seq lits off len) ++ rest) = .ok (.seq lits off len, rest)) ∧
    (∀ lits rest : List Byte, disassemble true (assemble (.last lits) ++ rest) = .ok (.last lits, rest)) ∧
    ∀ (ignored : Nibble) (lits rest : List Byte),
      disassemble true (finalBytes ignored lits ++ rest) = .ok (.last lits, rest)

/-- R116: a block, whatever the low nibble of its final token, is at most `N + N/255 + 2` bytes long, hence at most the
worst-case bound. -/
def Obligations.BlockSizeBound : Prop :=
  ∀ bytes out : List Byte, IsBlock bytes out →
    bytes.length ≤ out.length + out.length / 255 + 2 ∧ bytes.length ≤ maxCompressedLength out.length

/-! ## Status and reset -/

/-- R25, R231: the fields of the STATUS word, the reserved bits, and its values. -/
def Obligations.StatusWord : Prop :=
  (∀ st : Status, st.word.extractLsb' 0 2 = (st.run.code).setWidth 2 ∧ st.word.extractLsb' 2 2 = 0 ∧
    st.word.extractLsb' 4 4 = (st.cause.code).setWidth 4 ∧ st.word.extractLsb' 8 24 = 0) ∧
    Status.idle.word = 0 ∧ Status.busy.word = 1 ∧ Status.done.word = 2 ∧
    (Status.faulted .invalidArgument).word = 0x13 ∧ (Status.faulted .destinationTooSmall).word = 0x23 ∧
    (Status.faulted .corruptInput).word = 0x33

/-- R36: what reset leaves in the host-visible registers and in the tables. -/
def Obligations.ResetState : Prop :=
  (∀ offset ∈ [0x00, 0x04, 0x08, 0x0C, 0x10, 0x14, 0x18, 0x1C, 0x20, 0x24],
    readRegister offset State.reset = some 0) ∧
    (∀ h, storeGet none State.reset.ht h = none) ∧ ∀ h, storeGet none State.reset.head h = none

/-- The invariants of Safety.lean hold after reset. -/
def Obligations.ResetMeetsInvariants : Prop :=
  Safe State.reset ∧ State.reset.storageWf = true ∧ StatusRules State.reset ∧ WidthsHold State.reset ∧
    BlockSoFar State.reset

/-- R260, R261: a reset at any time; a reset while BUSY leaves the destination region at any value. -/
def Obligations.ResetAtAnyTime : Prop :=
  ∀ (s : State) (rest : List HostMove), s.host = .reset :: rest →
    ∃ t, step s = .next t ∧ t.host = rest ∧
      (∀ offset ∈ [0x00, 0x04, 0x08, 0x0C, 0x10, 0x14, 0x18, 0x1C, 0x20, 0x24], readRegister offset t = some 0) ∧
      (∀ h, storeGet none t.ht h = none) ∧ (∀ h, storeGet none t.head h = none) ∧ t.src = s.src ∧
      ∀ a, (s.isBusy = true ∧ dstBase s ≤ a ∧ a < dstLimit s → ∃ k, dstRead t a = Config.freeByte k a) ∧
        (¬(s.isBusy = true ∧ dstBase s ≤ a ∧ a < dstLimit s) → dstRead t a = dstRead s a)

/-- R25, R26: CAUSE goes with FAULT, RESULT is 0 unless DONE, FAULT_OFF is 0 unless CorruptInput; every step keeps it. -/
def Obligations.StatusRulesKept : Prop :=
  ∀ s t : State, StatusRules s → step s = .next t → StatusRules t

/-! ## The host -/

/-- R23: outside BUSY the host writes an argument register, all 32 bits, and nothing else changes. -/
def Obligations.ArgumentWriteReadsBack : Prop :=
  ∀ (s : State) (offset : Nat) (v : Word) (rest : List HostMove),
    offset ∈ [0x08, 0x0C, 0x10, 0x14, 0x18, 0x1C] → s.isBusy = false → s.host = .writeReg offset v :: rest →
    ∃ t, step s = .next t ∧ readRegister offset t = some v ∧
      (∀ other, other ≠ offset → readRegister other t = readRegister other s) ∧
      t = { s with
        host := rest, srcCap := t.srcCap, srcOff := t.srcOff, srcLen := t.srcLen, dstCap := t.dstCap
        dstOff := t.dstOff, dstLen := t.dstLen }

/-- R265: register writes while BUSY and writes to the read-only registers are ignored; register reads are always allowed
and have no effect on the block, and while BUSY they return STATUS 1, RESULT 0 and FAULT_OFF 0. -/
def Obligations.RegisterAccessWhileBusy : Prop :=
  ∀ (s : State) (rest : List HostMove),
    (∀ offset v, s.host = .writeReg offset v :: rest →
      offset ∈ [0x00, 0x08, 0x0C, 0x10, 0x14, 0x18, 0x1C] → s.isBusy = true → step s = .next { s with host := rest }) ∧
    (∀ offset v, s.host = .writeReg offset v :: rest → offset ∈ [0x04, 0x20, 0x24] →
      step s = .next { s with host := rest }) ∧
    (∀ offset, s.host = .readReg offset :: rest →
      offset ∈ [0x00, 0x04, 0x08, 0x0C, 0x10, 0x14, 0x18, 0x1C, 0x20, 0x24] →
      ∃ v, readRegister offset s = some v ∧ step s = .next { s with host := rest, hostData := v }) ∧
    (s.isBusy = true → StatusRules s →
      readRegister 0x04 s = some 1 ∧ readRegister 0x20 s = some 0 ∧ readRegister 0x24 s = some 0)

/-- R264 (refused while BUSY is the model's reading of it, log 14): the host's own access to SRC and DST outside BUSY. -/
def Obligations.HostMemoryAccess : Prop :=
  ∀ (s : State) (rest : List HostMove) (a : Nat) (b : Byte), a < 2 ^ 31 - 1 →
    (s.isBusy = true →
      (s.host = .writeSrc a b :: rest ∨ s.host = .readSrc a :: rest ∨ s.host = .writeDst a b :: rest ∨
        s.host = .readDst a :: rest) → step s = .refused .hostMemoryWhileBusy) ∧
    (s.isBusy = false → s.storageWf = true → s.host = .writeSrc a b :: rest →
      ∃ t, step s = .next t ∧ t = { s with host := rest, src := t.src } ∧
        ∀ x, Memory.read t.src x = if x = a then b else Memory.read s.src x) ∧
    (s.isBusy = false → s.storageWf = true → s.host = .writeDst a b :: rest →
      ∃ t, step s = .next t ∧ t = { s with host := rest, dst := t.dst, dstOpen := t.dstOpen } ∧
        ∀ x, dstRead t x = if x = a then b else dstRead s x) ∧
    (s.isBusy = false → s.host = .readDst a :: rest →
      step s = .next { s with host := rest, hostData := (dstRead s a).setWidth 32 }) ∧
    (s.isBusy = false → s.host = .readSrc a :: rest →
      step s = .next { s with host := rest, hostData := (Memory.read s.src a).setWidth 32 })

/-- R248, R262: a block that is not BUSY waits, and a poll ends with the STATUS word. -/
def Obligations.IdleWaitsAndPollEnds : Prop :=
  ∀ s : State, s.isBusy = false →
    (s.host = [] → step s = .next s) ∧
    ∀ rest, s.host = .poll :: rest → step s = .next { s with host := rest, hostData := s.status.word }

/-! ## A step runs the decoded instruction -/

/-- R24, R27, R88, R182, R210: a step runs the decoded instruction: a CMD write the host command, the byte at S_POS the
stream instruction it decodes to, a token in ReadToken and an extension byte in a length extension; where no byte is left
the step is the CorruptInput fault of FETCH. -/
def Obligations.StepRunsDecodedInstruction : Prop :=
  (∀ (s : State) (v : Word) (rest : List HostMove), s.host = .writeReg 0 v :: rest →
    step s = exec (decodeCommand v) { s with host := rest }) ∧
  ∀ s : State, Decoding s → SrcRegion s.bd.sEnd s →
    (s.bd.bdState = .readToken → s.bd.sPos < s.bd.sEnd →
      step s = exec (decodeToken (isFinal (srcAt s s.bd.sPos) s) (srcAt s s.bd.sPos)) s) ∧
    (s.bd.bdState = .readLiteralLenExtension ∨ s.bd.bdState = .readMatchLenExtension → s.bd.sPos < s.bd.sEnd →
      step s = exec (decodeExtension (srcAt s s.bd.sPos)) s) ∧
    (s.bd.bdState = .readToken ∨ s.bd.bdState = .readLiteralLenExtension ∨
        s.bd.bdState = .readMatchLenExtension → s.bd.sEnd ≤ s.bd.sPos →
      step s = raiseCorruptInput s.bd.sPos s)

/-- R88, R186: the choice between SEQ and LAST that the fetch makes is the answer of the terminal test after the literal
run; a sequence that faults before the test is fetched as SEQ (log 17). -/
def Obligations.FinalChoiceIsTerminalTest : Prop :=
  ∀ (s : State) (t : Byte),
    (∀ u v, literalLength t s = .go u → copyLiterals u = .go v → isFinal t s = terminal v) ∧
    (∀ r, literalLength t s = .stop r → isFinal t s = false) ∧
    (∀ u, literalLength t s = .go u → SrcRegion u.bd.sEnd u → DstRegion u →
      (∀ v, copyLiterals u ≠ .go v) → isFinal t s = false)

/-! ## Host commands -/

/-- R219: CLEAR. -/
def Obligations.ClearReturnsToIdle : Prop :=
  ∀ s : State, s.isBusy = false →
    exec .clear s = .next { s with cmd := 0, status := .idle, result := 0, faultOff := 0 }

/-- R8, R212: MAXLEN answers the bound, which is a non-negative signed value, or InvalidArgument. -/
def Obligations.MaxlenResult : Prop :=
  ∀ s : State, s.isBusy = false →
    (∀ n : Nat, s.srcLen.toInt = n → n ≤ 2113929216 →
      ∃ r : Word, r.toInt = n + n / 255 + 16 ∧ r.toNat = n + n / 255 + 16 ∧
        exec .maxlen s = .next { s with cmd := 1, status := .done, result := r, faultOff := 0 }) ∧
    (s.srcLen.toInt < 0 ∨ s.srcLen.toInt > 2113929216 →
      exec .maxlen s =
        .next { s with cmd := 1, status := .faulted .invalidArgument, result := 0, faultOff := 0 })

/-- R141, R163, R210, R213, R214: COMPRESS_FAST and COMPRESS_HC with accepted arguments start their match finders. -/
def Obligations.CompressCommandsStart : Prop :=
  ∀ (s : State) (n d : Nat), s.isBusy = false → s.srcLen.toInt = n → s.dstLen.toInt = d →
    0 ≤ s.srcOff.toInt → 0 ≤ s.dstOff.toInt → s.srcOff.toInt + n ≤ s.srcCap.toInt →
    s.dstOff.toInt + d ≤ s.dstCap.toInt → n ≤ 2113929216 →
    exec .compressFast s = .next
      { s with
        cmd := 2, status := .busy, result := 0, faultOff := 0, dPos := 0, dEnd := d, ht := []
        mf := { s.mf with
          n := n, mfLimit := n - 12, matchLimit := n - 5, anchor := 0, ip := 0, htState := .search } } ∧
    exec .compressHc s = .next
      { s with
        cmd := 3, status := .busy, result := 0, faultOff := 0, dPos := 0, dEnd := d, head := []
        mf := { s.mf with n := n, mfLimit := n - 12, matchLimit := n - 5, anchor := 0, ip := 0 }
        hc := { s.hc with next := 0, hcState := .main } }

/-- R181, R210, R215, R216: DECOMPRESS_TRUST and DECOMPRESS_SAFE with accepted arguments start the decoder, the first
bounded by the end of the buffer with SRC_LEN ignored, the second by SRC_LEN. -/
def Obligations.DecompressCommandsStart : Prop :=
  ∀ (s : State) (e d : Nat), s.isBusy = false → s.dstLen.toInt = d → 0 ≤ s.srcOff.toInt → 0 ≤ s.dstOff.toInt →
    s.dstOff.toInt + d ≤ s.dstCap.toInt →
    let started (code : Word) : State :=
      { s with
        cmd := code, status := .busy, result := 0, faultOff := 0, dPos := 0, dEnd := d
        bd := { s.bd with sPos := 0, sEnd := e, bdState := .readToken } }
    (s.srcCap.toInt - s.srcOff.toInt = e → exec .decompressTrust s = .next (started 4)) ∧
    (s.srcLen.toInt = e → s.srcOff.toInt + e ≤ s.srcCap.toInt → exec .decompressSafe s = .next (started 5))

/-- R211, R236: the argument checks, on exact integers, are exactly the ways a compress or decode command ends at once
with InvalidArgument; no memory is touched. -/
def Obligations.ArgumentChecks : Prop :=
  ∀ s : State, s.isBusy = false →
    let refused (code : Word) : State :=
      { s with cmd := code, status := .faulted .invalidArgument, result := 0, faultOff := 0 }
    let k1 := s.srcCap.toInt < 0 ∨ s.dstCap.toInt < 0
    let k2 := s.srcOff.toInt < 0 ∨ s.dstOff.toInt < 0 ∨ s.dstLen.toInt < 0
    let k3 := s.srcLen.toInt < 0
    let k4 := s.srcOff.toInt + s.srcLen.toInt > s.srcCap.toInt
    let k5 := s.srcOff.toInt > s.srcCap.toInt
    let k6 := s.dstOff.toInt + s.dstLen.toInt > s.dstCap.toInt
    let k7 := s.srcLen.toInt > 2113929216
    (exec .maxlen s = .next (refused 1) ↔ k3 ∨ k7) ∧
    (exec .compressFast s = .next (refused 2) ↔ k1 ∨ k2 ∨ k3 ∨ k4 ∨ k6 ∨ k7) ∧
    (exec .compressHc s = .next (refused 3) ↔ k1 ∨ k2 ∨ k3 ∨ k4 ∨ k6 ∨ k7) ∧
    (exec .decompressTrust s = .next (refused 4) ↔ k1 ∨ k2 ∨ k5 ∨ k6) ∧
    (exec .decompressSafe s = .next (refused 5) ↔ k1 ∨ k2 ∨ k3 ∨ k4 ∨ k6)

/-- R217: the illegal command. -/
def Obligations.IllegalCommandFaults : Prop :=
  ∀ (s : State) (c : Word), s.isBusy = false → 6 ≤ c.toNat →
    exec (decodeCommand c) s =
      .next { s with cmd := c, status := .faulted .invalidArgument, result := 0, faultOff := 0 } ∧
    exec (.illegal c) s = exec (decodeCommand c) s

/-! ## Stream instructions -/

/-- R190, R199 to R202: a non-final sequence of any of the four classes, encoded at S_POS and inside its bounds, copies
its literals and then the bytes `offset` back, moves S_POS over its encoding, and changes nothing else. -/
def Obligations.SequencesExecute : Prop :=
  ∀ (s : State) (lits : List Byte) (off : Half) (len : Nat),
    let l := lits.length
    let token := tokenByte (fieldNibble l) (fieldNibble (len - 4))
    (Line.seq lits off len).wf = true → SrcRegion s.bd.sEnd s → DstRegion s → Memory.wf s.dst = true →
    srcRun s s.bd.sPos (seqSize l len) = assemble (.seq lits off len) → s.bd.sPos + seqSize l len ≤ s.bd.sEnd →
    off.toNat ≤ s.dPos + l → s.dPos + l + len ≤ s.dEnd →
    ∃ t, exec (decodeToken false token) s = .next t ∧
      t = { s with
        dPos := s.dPos + l + len, dst := t.dst, dstOpen := t.dstOpen
        bd := { s.bd with
          sPos := s.bd.sPos + seqSize l len, token := token, litLen := l, matchLen := len, offset := off
          offAt := s.bd.sPos + 1 + extSize l + l, bdState := .readToken } } ∧
      (∀ (i : Nat) (hi : i < l), dstAt t (s.dPos + i) = lits[i]) ∧
      (∀ i, i < len → dstAt t (s.dPos + l + i) = dstAt t (s.dPos + l - off.toNat + i % off.toNat)) ∧
      ∀ a : Nat, (a : Int) < dstAddr s s.dPos ∨ dstAddr s (s.dPos + l + len) ≤ a → dstRead t a = dstRead s a

/-- R196, R203, R204, R218: a final sequence, whatever its low nibble, copies its literals and completes the command:
RESULT is the source bytes consumed in trusting mode and the bytes produced in defensive mode. -/
def Obligations.FinalSequencesExecute : Prop :=
  ∀ (s : State) (lits : List Byte) (ignored : Nibble),
    let l := lits.length
    let token := tokenByte (fieldNibble l) ignored
    SrcRegion s.bd.sEnd s → DstRegion s → Memory.wf s.dst = true →
    srcRun s s.bd.sPos (lastSize l) = token :: (extensionBytes l ++ lits) → s.bd.sPos + lastSize l ≤ s.bd.sEnd →
    s.dPos + l ≤ s.dEnd →
    ∃ t, exec (decodeToken true token) s = .next t ∧
      t = { s with
        status := .done
        result := BitVec.ofNat 32 (if s.cmd = 4 then s.bd.sPos + lastSize l else s.dPos + l)
        dPos := s.dPos + l, dst := t.dst, dstOpen := t.dstOpen, draws := t.draws
        bd := { s.bd with sPos := s.bd.sPos + lastSize l, token := token, litLen := l, bdState := .done } } ∧
      (∀ (i : Nat) (hi : i < l), dstAt t (s.dPos + i) = lits[i]) ∧
      ∀ a : Nat, (a : Int) < dstAddr s s.dPos ∨ (dstLimit s : Int) ≤ a → dstRead t a = dstRead s a

/-- R205: EXT.more adds 255 to the length being read and the extension goes on; with no next byte the next step is
CorruptInput(S_END). -/
def Obligations.ExtMoreAdds255 : Prop :=
  ∀ s : State, s.bd.sPos < s.bd.sEnd →
    (s.bd.bdState = .readLiteralLenExtension →
      exec .extMore s =
        .next { s with bd := { s.bd with sPos := s.bd.sPos + 1, litLen := s.bd.litLen + 255 } }) ∧
    (s.bd.bdState = .readMatchLenExtension →
      exec .extMore s =
        .next { s with bd := { s.bd with sPos := s.bd.sPos + 1, matchLen := s.bd.matchLen + 255 } }) ∧
    ∀ t, Decoding s → s.bd.sPos + 1 = s.bd.sEnd → exec .extMore s = .next t →
      step t = raiseCorruptInput s.bd.sEnd t

/-- R206: EXT.end adds its byte and ends the extension, to CopyLiterals or, after adding 4, to CopyMatch. -/
def Obligations.ExtEndAddsByte : Prop :=
  ∀ (s : State) (e : Byte), e ≠ 255 → s.bd.sPos < s.bd.sEnd →
    (s.bd.bdState = .readLiteralLenExtension →
      exec (.extEnd e) s = .next
        { s with
          bd := { s.bd with
            sPos := s.bd.sPos + 1, litLen := s.bd.litLen + e.toNat, bdState := .copyLiterals } }) ∧
    (s.bd.bdState = .readMatchLenExtension →
      exec (.extEnd e) s = .next
        { s with
          bd := { s.bd with
            sPos := s.bd.sPos + 1, matchLen := s.bd.matchLen + e.toNat + 4, bdState := .copyMatch } })

/-- R185, R186: CopyLiterals: the source test, the destination test, then the copy, then the terminal test. -/
def Obligations.CopyLiteralsState : Prop :=
  ∀ s : State, Decoding s → SrcRegion s.bd.sEnd s → DstRegion s → Memory.wf s.dst = true →
    s.bd.bdState = .copyLiterals → s.bd.sPos ≤ s.bd.sEnd →
    (s.bd.litLen > s.bd.sEnd - s.bd.sPos ∨ s.bd.litLen > s.dEnd - s.dPos →
      step s = raiseCorruptInput s.bd.sPos s) ∧
    (s.bd.litLen ≤ s.bd.sEnd - s.bd.sPos → s.bd.litLen ≤ s.dEnd - s.dPos →
      ∃ t, step s = .next t ∧ t.dPos = s.dPos + s.bd.litLen ∧ t.bd.sPos = s.bd.sPos + s.bd.litLen ∧
        (∀ i, i < s.bd.litLen → dstAt t (s.dPos + i) = srcAt s (s.bd.sPos + i)) ∧
        (∀ a : Nat, (a : Int) < dstAddr s s.dPos ∨ (dstLimit s : Int) ≤ a → dstRead t a = dstRead s a) ∧
        (s.cmd = trustCode ∧ t.dPos = s.dEnd ∨ s.cmd = safeCode ∧ t.bd.sPos = s.bd.sEnd →
          t.status = .done ∧ t.bd.bdState = .done) ∧
        (¬(s.cmd = trustCode ∧ t.dPos = s.dEnd ∨ s.cmd = safeCode ∧ t.bd.sPos = s.bd.sEnd) →
          t.status = s.status ∧ t.bd.bdState = .readOffset))

/-- R187: ReadOffset: the offset cut short, offset 0, an offset beyond what was produced, and otherwise the next state. The
two offset faults come after OFFSET, OFF_AT and S_POS are written; the statement leaves open what MATCH_LEN then holds. -/
def Obligations.ReadOffsetState : Prop :=
  ∀ s : State, Decoding s → SrcRegion s.bd.sEnd s → s.bd.bdState = .readOffset → s.bd.sPos ≤ s.bd.sEnd →
    (s.bd.sEnd - s.bd.sPos < 2 → step s = raiseCorruptInput s.bd.sPos s) ∧
    (2 ≤ s.bd.sEnd - s.bd.sPos →
      let value := (srcAt s s.bd.sPos).toNat + 256 * (srcAt s (s.bd.sPos + 1)).toNat
      let m := (lowNibble s.bd.token).toNat
      let read : State := { s with
        bd := { s.bd with offset := BitVec.ofNat 16 value, offAt := s.bd.sPos, sPos := s.bd.sPos + 2 } }
      (value = 0 ∨ value > s.dPos →
        ∃ matchLen, step s =
          raiseCorruptInput s.bd.sPos { read with bd := { read.bd with matchLen := matchLen } }) ∧
      (value ≠ 0 → value ≤ s.dPos →
        step s = .next { read with
          bd := { read.bd with
            matchLen := if m = 15 then 15 else m + 4
            bdState := if m = 15 then .readMatchLenExtension else .copyMatch } }))

/-- R189, R190: CopyMatch: the destination test at OFF_AT, then the ascending byte loop, in which a byte read may be one
the same copy wrote; so an overlapping copy repeats the `OFFSET` bytes before D_POS. -/
def Obligations.CopyMatchState : Prop :=
  ∀ s : State, Decoding s → DstRegion s → Memory.wf s.dst = true → s.bd.bdState = .copyMatch →
    1 ≤ s.bd.offset.toNat → s.bd.offset.toNat ≤ s.dPos →
    (s.bd.matchLen > s.dEnd - s.dPos → step s = raiseCorruptInput s.bd.offAt s) ∧
    (s.bd.matchLen ≤ s.dEnd - s.dPos →
      ∃ t, step s = .next t ∧
        t = { s with
          dPos := s.dPos + s.bd.matchLen, dst := t.dst, dstOpen := t.dstOpen
          bd := { s.bd with bdState := .readToken } } ∧
        (∀ i, i < s.bd.matchLen →
          dstAt t (s.dPos + i) = dstAt t (s.dPos - s.bd.offset.toNat + i) ∧
          dstAt t (s.dPos + i) = dstAt s (s.dPos - s.bd.offset.toNat + i % s.bd.offset.toNat)) ∧
        ∀ a : Nat, (a : Int) < dstAddr s s.dPos ∨ dstAddr s (s.dPos + s.bd.matchLen) ≤ a →
          dstRead t a = dstRead s a)

/-- R237, R238: raising DestinationTooSmall and CorruptInput(p): CAUSE and FAULT_OFF, and the destination region left at any
value. -/
def Obligations.FaultsLeaveRegionOpen : Prop :=
  ∀ (s : State) (p : Nat),
    (∃ t, raiseCorruptInput p s = .next t ∧
      t.faultOff = s.srcOff + BitVec.ofNat 32 p ∧ t.status.cause = .corruptInput ∧ t.status.run = .fault ∧
      t = { s with
        faultOff := t.faultOff, status := t.status, bd := { s.bd with bdState := .faulted }
        dst := t.dst, dstOpen := t.dstOpen, draws := t.draws } ∧
      (∀ a, dstBase s ≤ a → a < dstLimit s → ∃ k, dstRead t a = Config.freeByte k a) ∧
      ∀ a, a < dstBase s ∨ dstLimit s ≤ a → dstRead t a = dstRead s a) ∧
    ∃ t, raiseDestinationTooSmall s = .next t ∧
      t.status.cause = .destinationTooSmall ∧ t.status.run = .fault ∧
      t = { s with status := t.status, dst := t.dst, dstOpen := t.dstOpen, draws := t.draws } ∧
      (∀ a, dstBase s ≤ a → a < dstLimit s → ∃ k, dstRead t a = Config.freeByte k a) ∧
      ∀ a, a < dstBase s ∨ dstLimit s ≤ a → dstRead t a = dstRead s a

/-- R191, R269: from ReadToken, one step over a whole sequence is the walk through the decoder's states one at a time, up
to the next ReadToken or the end of the command. -/
def Obligations.SequenceStepIsStateWalk : Prop :=
  ∀ s : State, Decoding s → DecoderRules s → s.bd.bdState = .readToken →
    ∃ k t, 1 ≤ k ∧ step s = .next t ∧ decoderUnitRun k s = .next t ∧
      (t.isBusy = false ∨ t.bd.bdState = .readToken) ∧
      ∀ j, 1 ≤ j → j < k →
        ∃ u, decoderUnitRun j s = .next u ∧ u.isBusy = true ∧ u.bd.bdState ≠ .readToken

/-- R195: a decode command ends, within one step a source byte that is left and one more. -/
def Obligations.DecodeEnds : Prop :=
  ∀ s : State, Decoding s → DecoderRules s → s.bd.bdState = .readToken →
    ∃ k t, k ≤ s.bd.sEnd - s.bd.sPos + 1 ∧ steps k s = .next t ∧ t.isBusy = false

/-! ## The match finders -/

/-- R131: HASH lies in `[0, 2^LOG)`, and its three worked values. -/
def Obligations.HashRange : Prop :=
  (∀ v log : Nat, log ≤ 32 →
    hash v log = v * 2654435761 % 2 ^ 32 / 2 ^ (32 - log) ∧ hash v log < 2 ^ log) ∧
    hash 0x41414141 12 = 0x18E ∧ hash 0 12 = 0 ∧ hash 0x03020100 12 = 0x3DD

/-- R133: PROBE always replaces the slot, and accepts exactly an earlier position in the window with the same four
bytes. -/
def Obligations.ProbeAccepts : Prop :=
  ∀ (s : State) (p : Nat), FinderRules s → s.storageWf = true → SlotsBelow s p → p + 4 ≤ s.mf.n →
    ∃ v c, rd32 p s = .go v ∧
      (let h := hash v (htLog s)
       probe p s = .go (c, { s with ht := storeSet none s.ht h (some p) }) ∧
        storeGet none (storeSet none s.ht h (some p)) h = some p ∧
        (∀ q, c = some q ↔ storeGet none s.ht h = some q ∧ ¬(65536 ≤ s.mf.n ∧ p - q > 65535) ∧ SameBytes s q p 4) ∧
        ∀ q, c = some q → q < p ∧ p - q ≤ 65535)

/-- R135, R138, R139: SEARCH sets ATTEMPTS to 64 and then probes, going on to TAIL past the limit, to CATCHUP on a
candidate, and forward by `ATTEMPTS >> 6` otherwise; EMIT encodes the match, or ends with its fault, and moves IP and ANCHOR
to its end, to TAIL past the limit and to REPROBE otherwise; REPROBE goes to EXTEND on a candidate, and to SEARCH at the
next position otherwise. -/
def Obligations.SearchLoop : Prop :=
  ∀ s : State, Compressing 2 s →
    (s.mf.htState = .search →
      step s = .next { s with mf := { s.mf with attempts := 64, htState := .searchLoop } }) ∧
    (s.mf.htState = .searchLoop → (s.mf.ip : Int) > s.mf.mfLimit →
      step s = .next { s with mf := { s.mf with htState := .tail } }) ∧
    (s.mf.htState = .searchLoop → (s.mf.ip : Int) ≤ s.mf.mfLimit → ∀ t c, probe s.mf.ip s = .go (some c, t) →
      step s = .next { s with ht := t.ht, mf := { s.mf with cand := some c, htState := .catchup } }) ∧
    (s.mf.htState = .searchLoop → (s.mf.ip : Int) ≤ s.mf.mfLimit → ∀ t, probe s.mf.ip s = .go (none, t) →
      step s = .next
        { s with
          ht := t.ht
          mf := { s.mf with cand := none, ip := s.mf.ip + s.mf.attempts / 64, attempts := s.mf.attempts + 1 } }) ∧
    (s.mf.htState = .emit → ∀ c, s.mf.cand = some c →
      (∀ r, emitSeq s.mf.ip c s.mf.mlen s = .stop r → step s = r) ∧
      ∀ t, emitSeq s.mf.ip c s.mf.mlen s = .go t →
        step s = .next
          { t with
            mf := { t.mf with
              ip := s.mf.ip + s.mf.mlen
              anchor := s.mf.ip + s.mf.mlen
              htState := if ((s.mf.ip + s.mf.mlen : Nat) : Int) > s.mf.mfLimit then .tail else .reprobe } }) ∧
    (s.mf.htState = .reprobe → ∀ t c, probe s.mf.ip s = .go (some c, t) →
      step s = .next { s with ht := t.ht, mf := { s.mf with cand := some c, htState := .extend } }) ∧
    (s.mf.htState = .reprobe → ∀ t, probe s.mf.ip s = .go (none, t) →
      step s = .next { s with ht := t.ht, mf := { s.mf with cand := none, ip := s.mf.ip + 1, htState := .search } })

/-- R136: CATCHUP walks both positions back as far as the bytes before them are equal, not past ANCHOR or position 0. -/
def Obligations.CatchupWalksBack : Prop :=
  ∀ s : State, Compressing 2 s → Safe s → s.mf.htState = .catchup →
    ∃ c d : Nat, s.mf.cand = some (c + d) ∧ d ≤ s.mf.ip ∧ s.mf.anchor ≤ s.mf.ip - d ∧
      SameBytes s c ((s.mf.ip - d : Nat) : Int) d ∧
      (s.mf.ip - d = s.mf.anchor ∨ c = 0 ∨
        srcAt s ((s.mf.ip - d - 1 : Nat) : Int) ≠ srcAt s ((c - 1 : Nat) : Int)) ∧
      step s = .next { s with mf := { s.mf with ip := s.mf.ip - d, cand := some c, htState := .extend } }

/-- R137: EXTEND takes the longest match that ends by MATCHLIMIT. -/
def Obligations.ExtendIsGreedy : Prop :=
  ∀ s : State, Compressing 2 s → Safe s → s.mf.htState = .extend →
    ∃ c len : Nat, s.mf.cand = some c ∧ 4 ≤ len ∧ (s.mf.ip + len : Int) ≤ s.mf.matchLimit ∧
      SameBytes s c s.mf.ip len ∧
      ((s.mf.ip + len : Int) = s.mf.matchLimit ∨ srcAt s (c + len) ≠ srcAt s (s.mf.ip + len)) ∧
      step s = .next { s with mf := { s.mf with mlen := len, htState := .emit } }

/-- R113: EMIT_SEQ makes its one test before any byte is written, then writes the sequence at D_POS. -/
def Obligations.EmitSeqWrites : Prop :=
  ∀ (s : State) (start ref len : Nat), FinderRules s → Memory.wf s.dst = true →
    s.mf.anchor ≤ start → ref < start → start - ref ≤ 65535 → 4 ≤ len → start + len + 5 ≤ s.mf.n →
    let l := start - s.mf.anchor
    (s.dPos + seqSize l len > s.dEnd → emitSeq start ref len s = .stop (raiseDestinationTooSmall s)) ∧
    (s.dPos + seqSize l len ≤ s.dEnd →
      ∃ t, emitSeq start ref len s = .go t ∧
        t = { s with dPos := s.dPos + seqSize l len, dst := t.dst, dstOpen := t.dstOpen } ∧
        dstRun t s.dPos (seqSize l len) =
          assemble (.seq (srcRun s s.mf.anchor l) (BitVec.ofNat 16 (start - ref)) len) ∧
        ∀ a : Nat, (a : Int) < dstAddr s s.dPos ∨ dstAddr s (s.dPos + seqSize l len) ≤ a → dstRead t a = dstRead s a)

/-- R114, R140, R163, R218: TAIL of either finder writes the final sequence and completes with `RESULT = D_POS`, or raises
DestinationTooSmall. -/
def Obligations.TailCompletes : Prop :=
  ∀ s : State, Compressing 2 s ∧ s.mf.htState = .tail ∨ Compressing 3 s ∧ s.hc.hcState = .tail →
    FinderRules s → Memory.wf s.dst = true →
    let l := s.mf.n - s.mf.anchor
    (s.dPos + lastSize l > s.dEnd → step s = raiseDestinationTooSmall s) ∧
    (s.dPos + lastSize l ≤ s.dEnd →
      ∃ t, step s = .next t ∧
        t = { s with
          dPos := s.dPos + lastSize l, status := .done, result := BitVec.ofNat 32 (s.dPos + lastSize l)
          dst := t.dst, dstOpen := t.dstOpen, draws := t.draws } ∧
        dstRun t s.dPos (lastSize l) = assemble (.last (srcRun s s.mf.anchor l)) ∧
        ∀ a : Nat, (a : Int) < dstAddr s s.dPos ∨ (dstLimit s : Int) ≤ a → dstRead t a = dstRead s a)

/-- R151: ADD_HASH writes the capped distance to the previous position of the same hash, then the head slot. -/
def Obligations.AddHashWrites : Prop :=
  ∀ (s : State) (p : Nat), SrcRegion s.mf.n s → s.storageWf = true → p + 4 ≤ s.mf.n →
    ∃ v t, rd32 p s = .go v ∧ addHash p s = .go t ∧ t = { s with chain := t.chain, head := t.head } ∧
      (∀ i, storeGet 0 t.chain i =
        if i = p % 65536 then
          BitVec.ofNat 16 (match storeGet none s.head (hash v 15) with
            | none => 65535
            | some q => min (p - q) 65535)
        else storeGet 0 s.chain i) ∧
      ∀ h, storeGet none t.head h = if h = hash v 15 then some p else storeGet none s.head h

/-- R155: FIND_BEST goes on, and a match it finds starts at `off` and is a real match of at least 4 bytes in the window,
ending by MATCHLIMIT. -/
def Obligations.FindBestFindsMatches : Prop :=
  ∀ (s : State) (off : Nat), FinderRules s → (off : Int) ≤ s.mf.mfLimit →
    ∃ t m, findBest off s = .go (t, m) ∧
      t = { s with chain := t.chain, head := t.head, hc := { s.hc with next := max s.hc.next off } } ∧
      m.start = off ∧ (m.len ≠ 0 → MatchOk s m)

/-- R156: FIND_WIDER goes on; a match it finds is longer than minLen, starts between startLimit and `off`, and covers
`off` to `off + 3`; otherwise only the length of the register has changed. -/
def Obligations.FindWiderFindsMatches : Prop :=
  ∀ (s : State) (off startLimit : Nat) (minLen : Int) (m : MatchReg), FinderRules s →
    (off : Int) ≤ s.mf.mfLimit → startLimit ≤ off → 4 ≤ minLen →
    ∃ t w, findWider off startLimit minLen m s = .go (t, w) ∧
      t = { s with chain := t.chain, head := t.head, hc := { s.hc with next := max s.hc.next off } } ∧
      (w.len > minLen → MatchOk s w ∧ startLimit ≤ w.start ∧ w.start ≤ off ∧ off + 4 ≤ w.stop) ∧
      (¬w.len > minLen → w = { m with len := minLen })

/-- R158: ENCODE drops a match that starts too late, is too short or starts before ANCHOR, and emits every other, or ends
with the fault of EMIT_SEQ. -/
def Obligations.EncodeDropsOrEmits : Prop :=
  ∀ (s : State) (m : MatchReg),
    (m.start > s.mf.mfLimit ∨ m.len < 4 ∨ m.start < s.mf.anchor →
      encodeMatch m s =
        .go { s with mf := { s.mf with ip := (max (s.mf.anchor : Int) (m.start + m.len)).toNat } }) ∧
    (m.start ≤ s.mf.mfLimit → 4 ≤ m.len → (s.mf.anchor : Int) ≤ m.start →
      (∀ t, emitSeq m.start.toNat m.ref.toNat m.len.toNat s = .go t →
        encodeMatch m s =
          .go { t with
            mf := { t.mf with anchor := (m.start + m.len).toNat, ip := (m.start + m.len).toNat } }) ∧
      ∀ r, emitSeq m.start.toNat m.ref.toNat m.len.toNat s = .stop r → encodeMatch m s = .stop r)

/-- R160 to R162: the states of the lazy parser. MAIN goes to TAIL past MFLIMIT, to SEARCH2 with M1 and M0 both the match
found at IP, and on by one byte otherwise. SEARCH2 takes M1 where no wider match is found, and otherwise keeps M1 (or M0 in
its place) only if M2 starts at least 3 bytes later. SEARCH3 first moves the start of M2 (a); without a third match it
encodes M1, cut to end where M2 starts, and M2 (b); a third match that starts before the end of M1 replaces M2, and one
that starts less than 3 bytes after it replaces M1 once M1 is encoded, with what is left of M2, or else M3, saved in M0
(c); three ascending matches shift down once the first, trimmed, is encoded (d). A fault of ENCODE ends the step. -/
def Obligations.LazyParserStates : Prop :=
  ∀ s : State, Compressing 3 s →
    (s.hc.hcState = .main → (s.mf.ip : Int) > s.mf.mfLimit →
      step s = .next { s with hc := { s.hc with hcState := .tail } }) ∧
    (s.hc.hcState = .main → (s.mf.ip : Int) ≤ s.mf.mfLimit → ∀ t m, findBest s.mf.ip s = .go (t, m) →
      (m.len = 0 → step s = .next { t with
        hc := { t.hc with m1 := m, hcState := .main }, mf := { t.mf with ip := s.mf.ip + 1 } }) ∧
      (m.len ≠ 0 → step s = .next { t with hc := { t.hc with m0 := m, m1 := m, hcState := .search2 } })) ∧
    (s.hc.hcState = .search2 →
      let take (v : State) : Prop :=
        (∀ u, encodeMatch s.hc.m1 v = .go u → step s = .next { u with hc := { u.hc with hcState := .main } }) ∧
          ∀ r, encodeMatch s.hc.m1 v = .stop r → step s = r
      (s.hc.m1.stop - 2 > s.mf.mfLimit → take s) ∧
      (s.hc.m1.stop - 2 ≤ s.mf.mfLimit → ∀ t m,
        findWider (s.hc.m1.stop - 2) (s.hc.m1.start + 1) s.hc.m1.len s.hc.m2 s = .go (t, m) →
        (m.len ≤ s.hc.m1.len → take { t with hc := { t.hc with m2 := m } }) ∧
        (m.len > s.hc.m1.len → ∃ kept : MatchReg,
          kept =
            (if s.hc.m0.start < s.hc.m1.start ∧ m.start < s.hc.m1.start + s.hc.m0.len then s.hc.m0 else s.hc.m1) ∧
          (m.start - kept.start < 3 →
            step s = .next { t with hc := { t.hc with m1 := m, m2 := m, hcState := .search2 } }) ∧
          (3 ≤ m.start - kept.start →
            step s = .next { t with hc := { t.hc with m1 := kept, m2 := m, hcState := .search3 } })))) ∧
    (s.hc.hcState = .search3 →
      let m1 := s.hc.m1
      let gap := s.hc.m2.start - m1.start
      let newLen := if m1.start + min m1.len 18 > s.hc.m2.stop - 4 then gap + s.hc.m2.len - 4 else min m1.len 18
      let m2 := if gap < 18 ∧ newLen - gap > 0 then s.hc.m2.fix (newLen - gap) else s.hc.m2
      let trimmed : State := { s with hc := { s.hc with m2 := m2 } }
      let takeBoth (v : State) : Prop :=
        let cut : MatchReg := if m2.start < m1.stop then { m1 with len := m2.start - m1.start } else m1
        let w : State := { v with hc := { v.hc with m1 := cut } }
        (∀ r, encodeMatch cut w = .stop r → step s = r) ∧
          ∀ t, encodeMatch cut w = .go t →
            (∀ r, encodeMatch m2 t = .stop r → step s = r) ∧
              ∀ u, encodeMatch m2 t = .go u → step s = .next { u with hc := { u.hc with hcState := .main } }
      (m2.stop - 3 > s.mf.mfLimit → takeBoth trimmed) ∧
      (m2.stop - 3 ≤ s.mf.mfLimit → ∀ t m3, findWider (m2.stop - 3) m2.start m2.len s.hc.m3 trimmed = .go (t, m3) →
        let v : State := { t with hc := { t.hc with m3 := m3 } }
        (m3.len ≤ m2.len → takeBoth v) ∧
        (m3.len > m2.len → m3.start < m1.stop →
          step s = .next { v with hc := { v.hc with m2 := m3, hcState := .search3 } }) ∧
        (m3.len > m2.len → m1.stop ≤ m3.start → m3.start < m1.stop + 3 →
          let left := m2.fix (m1.stop - m2.start)
          let saved := if m2.start < m1.stop then (if left.len < 4 then m3 else left) else m2
          let w : State := { v with hc := { v.hc with m2 := saved } }
          (∀ r, encodeMatch m1 w = .stop r → step s = r) ∧
            ∀ u, encodeMatch m1 w = .go u →
              step s = .next { u with hc := { u.hc with m1 := m3, m0 := saved, hcState := .search2 } }) ∧
        (m3.len > m2.len → m1.stop + 3 ≤ m3.start →
          let near := m2.start < m1.stop ∧ m2.start - m1.start < 15
          let first : MatchReg :=
            if near then { m1 with len := min (min m1.len 18) (m2.stop - 4 - m1.start) }
            else if m2.start < m1.stop then { m1 with len := m2.start - m1.start } else m1
          let second := if near then m2.fix (first.stop - m2.start) else m2
          let w : State := { v with hc := { v.hc with m1 := first, m2 := second } }
          (∀ r, encodeMatch first w = .stop r → step s = r) ∧
            ∀ u, encodeMatch first w = .go u →
              step s = .next { u with hc := { u.hc with m1 := second, m2 := m3, hcState := .search3 } })))

/-- R157, R162: the trimmings of SEARCH3 keep matches. (a) moves the start of M2 to the end of M1 capped at 18 bytes, but
not past its last 4 bytes, and (d) leaves M1 where it starts and makes it end where M2 then starts; both keep M2 a match
with the same end and distance. (b) cuts M1 to end where M2 starts, and (c) moves the start of M2 to the end of M1 or takes
M3: what they leave with at least 4 bytes is a match. -/
def Obligations.TrimmingKeepsMatches : Prop :=
  ∀ (s : State) (m1 m2 : MatchReg), MatchOk s m1 → MatchOk s m2 →
    (let m := trimM2 m1 m2
     MatchOk s m ∧ m.stop = m2.stop ∧ m.start - m.ref = m2.start - m2.ref ∧
       m.start = (if m2.start - m1.start < 18 then max m2.start (min (m1.start + min m1.len 18) (m2.stop - 4))
         else m2.start)) ∧
    (m2.start < m1.stop →
      let cut : MatchReg := { m1 with len := m2.start - m1.start }
      cut.stop = m2.start ∧ (4 ≤ cut.len → MatchOk s cut)) ∧
    (∀ m3, MatchOk s m3 → m2.start < m1.stop →
      let left := m2.fix (m1.stop - m2.start)
      left.start = m1.stop ∧ left.stop = m2.stop ∧ left.start - left.ref = m2.start - m2.ref ∧
        MatchOk s (if left.len < 4 then m3 else left)) ∧
    (let a := (trimAscending m1 m2).1
     let b := (trimAscending m1 m2).2
     MatchOk s b ∧ b.stop = m2.stop ∧ b.start - b.ref = m2.start - m2.ref ∧ a.start = m1.start ∧ a.ref = m1.ref ∧
       a.len ≤ m1.len ∧ a.stop ≤ b.start ∧ (m2.start < m1.stop → a.stop = b.start))

/-- R142 (e), R166: both match finders end. -/
def Obligations.CompressEnds : Prop :=
  ∀ s : State, Compressing 2 s ∨ Compressing 3 s → Safe s → ∃ k t, steps k s = .next t ∧ t.isBusy = false

/-! ## Whole-machine rules -/

/-- R142, R165, R181 to R189: the unit invariants are kept by every step, the host's moves and a reset included. -/
def Obligations.SafeKept : Prop := ∀ s t : State, Safe s → step s = .next t → Safe t

/-- R21, R22, R198, R115: no unit reads or writes outside the regions of its command; and whatever instruction or unit
block it stands at, a block that the host leaves alone can always make its next step. -/
def Obligations.UnitsStayInTheirRegions : Prop :=
  ∀ s : State, Safe s →
    (step s ≠ .fault .srcAccess ∧ step s ≠ .fault .dstAccess ∧ step s ≠ .fault .noTransition) ∧
      (s.host = [] → ∃ t, step s = .next t)

/-- R9, R27 to R31: every working register stays in its width, and every HT and HEAD slot in the width of a position: 16
bits while COMPRESS_FAST runs in small mode, 32 bits otherwise. -/
def Obligations.WidthsKept : Prop :=
  ∀ s t : State, Safe s → WidthsHold s → step s = .next t → WidthsHold t

/-- R30 to R32, R50 (the canonical form is the model's, log 6): memories and tables stay canonical and inside their index
ranges, for HT the 4096 or 2^HASH_LOG_LARGE slots of the mode while COMPRESS_FAST runs. -/
def Obligations.StorageStaysCanonical : Prop :=
  ∀ s t : State, s.storageWf = true → step s = .next t →
    t.storageWf = true ∧
      (t.isBusy = true → t.cmd = 2 → ∀ e ∈ t.ht, e.1 < if t.mf.n < 65536 then 4096 else 2 ^ Config.hashLogLarge)

/-- R21, R23, R220: the core writes no argument register, no CMD and no SRC byte. -/
def Obligations.CoreWritesNoHostState : Prop :=
  ∀ s t : State, s.host = [] → step s = .next t →
    t.cmd = s.cmd ∧ t.srcCap = s.srcCap ∧ t.srcOff = s.srcOff ∧ t.srcLen = s.srcLen ∧ t.dstCap = s.dstCap ∧
      t.dstOff = s.dstOff ∧ t.dstLen = s.dstLen ∧ t.src = s.src ∧ t.host = [] ∧ t.hostData = s.hostData

/-- R22, R33 (a): the core changes no DST byte outside the destination region. -/
def Obligations.DstOutsideRegionUnchanged : Prop :=
  ∀ s t : State, Safe s → s.host = [] → step s = .next t →
    ∀ a, a < dstBase s ∨ dstLimit s ≤ a → dstRead t a = dstRead s a

/-- R221: nothing but DST bytes depends on the contents of DST. -/
def Obligations.DstContentsDoNotSteer : Prop :=
  ∀ s t : State, s.blind = t.blind → s.host = [] → ∀ s', step s = .next s' →
    ∃ t', step t = .next t' ∧ s'.blind = t'.blind

/-- R91, R117: what a compress command has written always decodes to the source bytes before ANCHOR, with matches that keep
the encoder's restrictions. -/
def Obligations.CompressedPrefixDecodes : Prop :=
  ∀ s t : State, Safe s → s.storageWf = true → BlockSoFar s → step s = .next t → BlockSoFar t

/-- R91, R117: when a compress command completes, DST holds a block of the whole source, RESULT bytes long, that keeps the
encoder's restrictions. -/
def Obligations.CompressCompletesWithBlock : Prop :=
  ∀ s t : State, Compressing 2 s ∨ Compressing 3 s → Safe s → s.storageWf = true → BlockSoFar s →
    step s = .next t → t.status.run = .done →
    IsWrittenBlock (dstRun t 0 t.result.toNat) (srcRun s 0 s.mf.n)

/-- R91, R115 to R117, R142, R166: each source has one block that the command writes whatever DST_CAP, DST_OFF and DST_LEN
are. With accepted arguments the command ends: with that block and its length as RESULT when DST_LEN holds it, with
DestinationTooSmall when DST_LEN is smaller, and never with the fault when DST_LEN is at least the worst-case bound. -/
def Obligations.CompressCommandsRunToBlock : Prop :=
  ∀ (s : State) (i : Instr), i = .compressFast ∨ i = .compressHc → s.isBusy = false → s.host = [] →
    s.storageWf = true →
    ∃ block : List Byte, ∀ (cap off len : Word) (u : State),
      exec i { s with dstCap := cap, dstOff := off, dstLen := len } = .next u → u.isBusy = true →
      IsWrittenBlock block (srcRun s 0 s.srcLen.toInt.toNat) ∧
      ∃ k t, steps k u = .next t ∧
        (block.length ≤ len.toInt →
          t.status = .done ∧ t.result.toNat = block.length ∧ dstRun t 0 block.length = block) ∧
        (len.toInt < block.length → t.status = .faulted .destinationTooSmall) ∧
        (maxCompressedLength s.srcLen.toInt.toNat ≤ len.toInt → t.status = .done)

/-- R117, R215, R216: both decode commands decode every block to its output: DECOMPRESS_SAFE given room, reporting the
bytes produced; DECOMPRESS_TRUST given the exact length, reporting the length of the block, whatever follows it. -/
def Obligations.BlocksDecode : Prop :=
  ∀ (s : State) (size : Nat) (out : List Byte), Decoding s → DecoderRules s → s.storageWf = true →
    s.bd.bdState = .readToken → s.bd.sPos = 0 → s.dPos = 0 → size ≤ s.bd.sEnd → IsBlock (srcRun s 0 size) out →
    (s.cmd = safeCode → size = s.bd.sEnd → out.length ≤ s.dEnd →
      ∃ k t, steps k s = .next t ∧ t.status = .done ∧ t.result.toNat = out.length ∧ dstRun t 0 out.length = out) ∧
    (s.cmd = trustCode → out.length = s.dEnd →
      ∃ k t, steps k s = .next t ∧ t.status = .done ∧ t.result.toNat = size ∧ dstRun t 0 out.length = out)
end

