-- ==== Sys2Proof/Laws/Block.lean ====
section
/-! SUPPORT. Blocks (30_encoding.md R80, R87, R91): a block this hardware writes is a block. -/

namespace Sys2Proof

/-- The line LAST is the final sequence with a zero low nibble (R87). -/
@[simp] theorem assemble_last (lits : List Byte) : assemble (.last lits) = finalBytes 0 lits := rfl

namespace Machine

/-- Sequences whose matches keep a restriction keep every weaker one. -/
theorem Expands.mono {allowed wider : Nat → Nat → Prop} (h : ∀ start len, allowed start len → wider start len)
    {bytes out : List Byte} (e : Expands allowed bytes out) : Expands wider bytes out := by
  induction e with
  | nil => exact .nil
  | seq bytes out lits off len _ hwf hoff hall ih => exact .seq bytes out lits off len ih hwf hoff (h _ _ hall)

/-- A written block is a block (R91: the decoder does not check the encoder's restrictions). -/
theorem IsWrittenBlock.isBlock {bytes out : List Byte} (h : IsWrittenBlock bytes out) : IsBlock bytes out := by
  obtain ⟨front, produced, lits, e, hb, ho⟩ := h
  exact ⟨front, produced, lits, 0, e.mono fun _ _ _ => trivial, hb, ho⟩

end Machine

end Sys2Proof
end

