-- ==== Sys2Proof/Laws/Codec.lean ====
section
/-! SUPPORT. The small laws of the encodings: nibbles of a token (R82), the bytes of a length extension (R83, R84), the two
offset bytes (R86). -/

namespace Sys2Proof

@[simp] theorem highNibble_tokenByte (l m : Nibble) : highNibble (tokenByte l m) = l := by
  revert l m; decide

@[simp] theorem lowNibble_tokenByte (l m : Nibble) : lowNibble (tokenByte l m) = m := by
  revert l m; decide

@[simp] theorem tokenByte_nibbles (t : Byte) : tokenByte (highNibble t) (lowNibble t) = t := by
  revert t; decide

/-- Below the cap the nibble is the field value (R84). -/
theorem fieldNibble_short {x : Nat} (h : x < 15) : (fieldNibble x).toNat = x ∧ fieldNibble x ≠ 15#4 := by
  have hx : (fieldNibble x).toNat = x := by
    simp only [fieldNibble, Config.nibbleCap, BitVec.toNat_ofNat]; omega
  exact ⟨hx, fun he => by rw [he] at hx; simp at hx; omega⟩

/-- From the cap on the nibble is 15 (R84). -/
theorem fieldNibble_long {x : Nat} (h : 15 ≤ x) : fieldNibble x = 15#4 := by
  simp only [fieldNibble, Config.nibbleCap, Nat.min_eq_right h]

theorem extensionBytes_short {x : Nat} (h : x < 15) : extensionBytes x = [] := by
  simp [extensionBytes, Config.nibbleCap, h]

theorem extensionBytes_long {x : Nat} (h : 15 ≤ x) : extensionBytes x = writeLen x := by
  simp [extensionBytes, Config.nibbleCap, Nat.not_lt.mpr h]

/-- The two bytes of an offset give it back (R86). -/
theorem offsetOf_offsetBytes (off : Half) : offsetOf (off.extractLsb' 0 8) (off.extractLsb' 8 8) = off := by
  simp only [offsetOf]
  ext i hi
  simp only [BitVec.getElem_append, BitVec.getElem_extractLsb']
  split <;> simp_all [BitVec.getLsbD_eq_getElem]

/-- A continuation byte adds 255 and goes on (R83). -/
@[simp] theorem readExtension_more (acc : Nat) (rest : List Byte) :
    readExtension acc (0xFF#8 :: rest) = readExtension (acc + 255) rest := by simp [readExtension]

/-- A byte below 255 ends the extension (R83). -/
theorem readExtension_end {b : Byte} (h : b ≠ 255#8) (acc : Nat) (rest : List Byte) :
    readExtension acc (b :: rest) = .ok (acc + b.toNat, rest) := by simp [readExtension, h]

end Sys2Proof
end

