-- ==== Sys2Proof/Laws/Config.lean ====
section
/-! SUPPORT. The values of the decision-grounded parameters, the bounds of the open one (00_scope.md R7), and what follows
for the mode of MF-HT (41_match_finder_hash_table.md R130). -/

namespace Sys2Proof

@[simp] theorem Config.smallLimit_eq : Config.smallLimit = 65536 := rfl
@[simp] theorem Config.slotWLarge_eq : Config.slotWLarge = 32 := rfl
@[simp] theorem Config.slotWSmall_eq : Config.slotWSmall = 16 := rfl
@[simp] theorem Config.hashMult_eq : Config.hashMult = 2654435761 := rfl
@[simp] theorem Config.skipStrength_eq : Config.skipStrength = 6 := rfl
@[simp] theorem Config.mfLimit_eq : Config.mfLimit = 12 := rfl
@[simp] theorem Config.hashLogHc_eq : Config.hashLogHc = 15 := rfl
@[simp] theorem Config.chainSize_eq : Config.chainSize = 65536 := rfl
@[simp] theorem Config.optimalMl_eq : Config.optimalMl = 18 := rfl
@[simp] theorem Config.lazyMinGap_eq : Config.lazyMinGap = 3 := rfl
@[simp] theorem Config.maxInputSize_eq : Config.maxInputSize = 2113929216 := rfl

/-- The open parameter lies in its range (R7, D12). -/
theorem Config.hashLogLarge_range : 13 ≤ Config.hashLogLarge ∧ Config.hashLogLarge ≤ 24 := by
  have h := Config.hashLogLargeAbove13.isLt
  simp only [Config.hashLogLarge, Config.parameters]
  omega

namespace Machine

/-- The table of MF-HT has at least 2^12 and at most 2^24 slots, whatever the mode (R130). -/
theorem htLog_range (s : State) : 12 ≤ htLog s ∧ htLog s ≤ 24 := by
  have h := Config.hashLogLarge_range
  unfold htLog Config.hashLog
  split <;> omega

/-- A slot of the table in use is never wider than a large-mode slot (R30). -/
theorem htSlotWidth_le (s : State) : htSlotWidth s ≤ Config.slotWLarge := by
  unfold htSlotWidth
  split <;> simp

/-- No table has more slots than the largest one (R30). -/
theorem htSlots_le (s : State) : htSlots s ≤ 2 ^ 24 := by
  unfold htSlots
  split
  · exact Nat.pow_le_pow_right (by decide) (htLog_range s).2
  · exact Nat.le_refl _

/-- The bound on a table's slots, slot by slot. -/
theorem slotsFit_iff {width : Nat} {table : List (Nat × Option Nat)} :
    slotsFit width table = true ↔ ∀ e ∈ table, ∀ q, e.2 = some q → q < 2 ^ width := by
  simp only [slotsFit, List.all_eq_true, Option.all_eq_true, decide_eq_true_eq]

end Machine

end Sys2Proof
end

