-- ==== Sys2Proof/Laws/Flow.lean ====
section
/-! SUPPORT. How a computation inside a step goes on or stops: the equations and the inversions of `andThen` and
`finish`. -/

namespace Sys2Proof.Machine

variable {α β : Type}

@[simp] theorem Flow.andThen_go (a : α) (f : α → Flow β) : (Flow.go a).andThen f = f a := rfl

@[simp] theorem Flow.andThen_stop (r : Result) (f : α → Flow β) : (Flow.stop r : Flow α).andThen f = .stop r := rfl

@[simp] theorem Flow.finish_go (s : State) : (Flow.go s).finish = .next s := rfl

@[simp] theorem Flow.finish_stop (r : Result) : (Flow.stop r : Flow State).finish = r := rfl

theorem Flow.andThen_assoc {γ : Type} (x : Flow α) (f : α → Flow β) (g : β → Flow γ) :
    (x.andThen f).andThen g = x.andThen fun a => (f a).andThen g := by cases x <;> rfl

/-- Going on to the end means that every part went on. -/
theorem Flow.andThen_eq_go {x : Flow α} {f : α → Flow β} {b : β} :
    x.andThen f = .go b ↔ ∃ a, x = .go a ∧ f a = .go b := by cases x <;> simp

/-- Stopping means that the first part stopped, or went on and the second stopped. -/
theorem Flow.andThen_eq_stop {x : Flow α} {f : α → Flow β} {r : Result} :
    x.andThen f = .stop r ↔ x = .stop r ∨ ∃ a, x = .go a ∧ f a = .stop r := by cases x <;> simp

/-- A next state is where the computation went on to, or what it was stopped with. -/
theorem Flow.finish_eq_next {x : Flow State} {t : State} :
    x.finish = .next t ↔ x = .go t ∨ x = .stop (.next t) := by cases x <;> simp

/-- A model fault is one the computation was stopped with. -/
theorem Flow.finish_eq_fault {x : Flow State} {r : Fault} : x.finish = .fault r ↔ x = .stop (.fault r) := by
  cases x <;> simp

theorem Flow.finish_eq_refused {x : Flow State} {r : Refusal} :
    x.finish = .refused r ↔ x = .stop (.refused r) := by cases x <;> simp

end Sys2Proof.Machine
end

