-- ==== Sys2Proof/Laws/State.lean ====
section
/-! SUPPORT. One lemma a field an update: what each named update of State leaves as it was and what it sets, so that no
proof unfolds a record update. -/

namespace Sys2Proof.Machine

/-! ## dstWrite -/
@[simp] theorem dstWrite_cmd (s : State) (a : Nat) (b : Byte) : (dstWrite s a b).cmd = s.cmd := rfl
@[simp] theorem dstWrite_status (s : State) (a : Nat) (b : Byte) : (dstWrite s a b).status = s.status := rfl
@[simp] theorem dstWrite_srcCap (s : State) (a : Nat) (b : Byte) : (dstWrite s a b).srcCap = s.srcCap := rfl
@[simp] theorem dstWrite_srcOff (s : State) (a : Nat) (b : Byte) : (dstWrite s a b).srcOff = s.srcOff := rfl
@[simp] theorem dstWrite_srcLen (s : State) (a : Nat) (b : Byte) : (dstWrite s a b).srcLen = s.srcLen := rfl
@[simp] theorem dstWrite_dstCap (s : State) (a : Nat) (b : Byte) : (dstWrite s a b).dstCap = s.dstCap := rfl
@[simp] theorem dstWrite_dstOff (s : State) (a : Nat) (b : Byte) : (dstWrite s a b).dstOff = s.dstOff := rfl
@[simp] theorem dstWrite_dstLen (s : State) (a : Nat) (b : Byte) : (dstWrite s a b).dstLen = s.dstLen := rfl
@[simp] theorem dstWrite_result (s : State) (a : Nat) (b : Byte) : (dstWrite s a b).result = s.result := rfl
@[simp] theorem dstWrite_faultOff (s : State) (a : Nat) (b : Byte) : (dstWrite s a b).faultOff = s.faultOff := rfl
@[simp] theorem dstWrite_dPos (s : State) (a : Nat) (b : Byte) : (dstWrite s a b).dPos = s.dPos := rfl
@[simp] theorem dstWrite_dEnd (s : State) (a : Nat) (b : Byte) : (dstWrite s a b).dEnd = s.dEnd := rfl
@[simp] theorem dstWrite_bd (s : State) (a : Nat) (b : Byte) : (dstWrite s a b).bd = s.bd := rfl
@[simp] theorem dstWrite_mf (s : State) (a : Nat) (b : Byte) : (dstWrite s a b).mf = s.mf := rfl
@[simp] theorem dstWrite_hc (s : State) (a : Nat) (b : Byte) : (dstWrite s a b).hc = s.hc := rfl
@[simp] theorem dstWrite_ht (s : State) (a : Nat) (b : Byte) : (dstWrite s a b).ht = s.ht := rfl
@[simp] theorem dstWrite_head (s : State) (a : Nat) (b : Byte) : (dstWrite s a b).head = s.head := rfl
@[simp] theorem dstWrite_chain (s : State) (a : Nat) (b : Byte) : (dstWrite s a b).chain = s.chain := rfl
@[simp] theorem dstWrite_src (s : State) (a : Nat) (b : Byte) : (dstWrite s a b).src = s.src := rfl
@[simp] theorem dstWrite_dst (s : State) (a : Nat) (b : Byte) :
    (dstWrite s a b).dst = Memory.write s.dst a b := rfl
@[simp] theorem dstWrite_dstOpen (s : State) (a : Nat) (b : Byte) :
    (dstWrite s a b).dstOpen = cutRanges a (a + 1) s.dstOpen := rfl
@[simp] theorem dstWrite_draws (s : State) (a : Nat) (b : Byte) : (dstWrite s a b).draws = s.draws := rfl
@[simp] theorem dstWrite_host (s : State) (a : Nat) (b : Byte) : (dstWrite s a b).host = s.host := rfl
@[simp] theorem dstWrite_hostData (s : State) (a : Nat) (b : Byte) : (dstWrite s a b).hostData = s.hostData := rfl

/-! ## openDst -/
@[simp] theorem openDst_cmd (lo hi : Nat) (s : State) : (openDst lo hi s).cmd = s.cmd := by
  unfold openDst; split <;> rfl
@[simp] theorem openDst_status (lo hi : Nat) (s : State) : (openDst lo hi s).status = s.status := by
  unfold openDst; split <;> rfl
@[simp] theorem openDst_srcCap (lo hi : Nat) (s : State) : (openDst lo hi s).srcCap = s.srcCap := by
  unfold openDst; split <;> rfl
@[simp] theorem openDst_srcOff (lo hi : Nat) (s : State) : (openDst lo hi s).srcOff = s.srcOff := by
  unfold openDst; split <;> rfl
@[simp] theorem openDst_srcLen (lo hi : Nat) (s : State) : (openDst lo hi s).srcLen = s.srcLen := by
  unfold openDst; split <;> rfl
@[simp] theorem openDst_dstCap (lo hi : Nat) (s : State) : (openDst lo hi s).dstCap = s.dstCap := by
  unfold openDst; split <;> rfl
@[simp] theorem openDst_dstOff (lo hi : Nat) (s : State) : (openDst lo hi s).dstOff = s.dstOff := by
  unfold openDst; split <;> rfl
@[simp] theorem openDst_dstLen (lo hi : Nat) (s : State) : (openDst lo hi s).dstLen = s.dstLen := by
  unfold openDst; split <;> rfl
@[simp] theorem openDst_result (lo hi : Nat) (s : State) : (openDst lo hi s).result = s.result := by
  unfold openDst; split <;> rfl
@[simp] theorem openDst_faultOff (lo hi : Nat) (s : State) : (openDst lo hi s).faultOff = s.faultOff := by
  unfold openDst; split <;> rfl
@[simp] theorem openDst_dPos (lo hi : Nat) (s : State) : (openDst lo hi s).dPos = s.dPos := by
  unfold openDst; split <;> rfl
@[simp] theorem openDst_dEnd (lo hi : Nat) (s : State) : (openDst lo hi s).dEnd = s.dEnd := by
  unfold openDst; split <;> rfl
@[simp] theorem openDst_bd (lo hi : Nat) (s : State) : (openDst lo hi s).bd = s.bd := by
  unfold openDst; split <;> rfl
@[simp] theorem openDst_mf (lo hi : Nat) (s : State) : (openDst lo hi s).mf = s.mf := by
  unfold openDst; split <;> rfl
@[simp] theorem openDst_hc (lo hi : Nat) (s : State) : (openDst lo hi s).hc = s.hc := by
  unfold openDst; split <;> rfl
@[simp] theorem openDst_ht (lo hi : Nat) (s : State) : (openDst lo hi s).ht = s.ht := by
  unfold openDst; split <;> rfl
@[simp] theorem openDst_head (lo hi : Nat) (s : State) : (openDst lo hi s).head = s.head := by
  unfold openDst; split <;> rfl
@[simp] theorem openDst_chain (lo hi : Nat) (s : State) : (openDst lo hi s).chain = s.chain := by
  unfold openDst; split <;> rfl
@[simp] theorem openDst_src (lo hi : Nat) (s : State) : (openDst lo hi s).src = s.src := by
  unfold openDst; split <;> rfl
@[simp] theorem openDst_host (lo hi : Nat) (s : State) : (openDst lo hi s).host = s.host := by
  unfold openDst; split <;> rfl
@[simp] theorem openDst_hostData (lo hi : Nat) (s : State) : (openDst lo hi s).hostData = s.hostData := by
  unfold openDst; split <;> rfl

/-! ## openRegionFrom -/
@[simp] theorem openRegionFrom_cmd (q : Nat) (s : State) : (openRegionFrom q s).cmd = s.cmd := by simp [openRegionFrom]
@[simp] theorem openRegionFrom_status (q : Nat) (s : State) : (openRegionFrom q s).status = s.status := by simp [openRegionFrom]
@[simp] theorem openRegionFrom_srcCap (q : Nat) (s : State) : (openRegionFrom q s).srcCap = s.srcCap := by simp [openRegionFrom]
@[simp] theorem openRegionFrom_srcOff (q : Nat) (s : State) : (openRegionFrom q s).srcOff = s.srcOff := by simp [openRegionFrom]
@[simp] theorem openRegionFrom_srcLen (q : Nat) (s : State) : (openRegionFrom q s).srcLen = s.srcLen := by simp [openRegionFrom]
@[simp] theorem openRegionFrom_dstCap (q : Nat) (s : State) : (openRegionFrom q s).dstCap = s.dstCap := by simp [openRegionFrom]
@[simp] theorem openRegionFrom_dstOff (q : Nat) (s : State) : (openRegionFrom q s).dstOff = s.dstOff := by simp [openRegionFrom]
@[simp] theorem openRegionFrom_dstLen (q : Nat) (s : State) : (openRegionFrom q s).dstLen = s.dstLen := by simp [openRegionFrom]
@[simp] theorem openRegionFrom_result (q : Nat) (s : State) : (openRegionFrom q s).result = s.result := by simp [openRegionFrom]
@[simp] theorem openRegionFrom_faultOff (q : Nat) (s : State) : (openRegionFrom q s).faultOff = s.faultOff := by simp [openRegionFrom]
@[simp] theorem openRegionFrom_dPos (q : Nat) (s : State) : (openRegionFrom q s).dPos = s.dPos := by simp [openRegionFrom]
@[simp] theorem openRegionFrom_dEnd (q : Nat) (s : State) : (openRegionFrom q s).dEnd = s.dEnd := by simp [openRegionFrom]
@[simp] theorem openRegionFrom_bd (q : Nat) (s : State) : (openRegionFrom q s).bd = s.bd := by simp [openRegionFrom]
@[simp] theorem openRegionFrom_mf (q : Nat) (s : State) : (openRegionFrom q s).mf = s.mf := by simp [openRegionFrom]
@[simp] theorem openRegionFrom_hc (q : Nat) (s : State) : (openRegionFrom q s).hc = s.hc := by simp [openRegionFrom]
@[simp] theorem openRegionFrom_ht (q : Nat) (s : State) : (openRegionFrom q s).ht = s.ht := by simp [openRegionFrom]
@[simp] theorem openRegionFrom_head (q : Nat) (s : State) : (openRegionFrom q s).head = s.head := by simp [openRegionFrom]
@[simp] theorem openRegionFrom_chain (q : Nat) (s : State) : (openRegionFrom q s).chain = s.chain := by simp [openRegionFrom]
@[simp] theorem openRegionFrom_src (q : Nat) (s : State) : (openRegionFrom q s).src = s.src := by simp [openRegionFrom]
@[simp] theorem openRegionFrom_host (q : Nat) (s : State) : (openRegionFrom q s).host = s.host := by simp [openRegionFrom]
@[simp] theorem openRegionFrom_hostData (q : Nat) (s : State) : (openRegionFrom q s).hostData = s.hostData := by simp [openRegionFrom]

/-! ## startCommand -/
@[simp] theorem startCommand_cmd (code : Word) (s : State) :
    (startCommand code s).cmd = code := rfl
@[simp] theorem startCommand_status (code : Word) (s : State) :
    (startCommand code s).status = .busy := rfl
@[simp] theorem startCommand_srcCap (code : Word) (s : State) : (startCommand code s).srcCap = s.srcCap := rfl
@[simp] theorem startCommand_srcOff (code : Word) (s : State) : (startCommand code s).srcOff = s.srcOff := rfl
@[simp] theorem startCommand_srcLen (code : Word) (s : State) : (startCommand code s).srcLen = s.srcLen := rfl
@[simp] theorem startCommand_dstCap (code : Word) (s : State) : (startCommand code s).dstCap = s.dstCap := rfl
@[simp] theorem startCommand_dstOff (code : Word) (s : State) : (startCommand code s).dstOff = s.dstOff := rfl
@[simp] theorem startCommand_dstLen (code : Word) (s : State) : (startCommand code s).dstLen = s.dstLen := rfl
@[simp] theorem startCommand_result (code : Word) (s : State) :
    (startCommand code s).result = 0 := rfl
@[simp] theorem startCommand_faultOff (code : Word) (s : State) :
    (startCommand code s).faultOff = 0 := rfl
@[simp] theorem startCommand_dPos (code : Word) (s : State) : (startCommand code s).dPos = s.dPos := rfl
@[simp] theorem startCommand_dEnd (code : Word) (s : State) : (startCommand code s).dEnd = s.dEnd := rfl
@[simp] theorem startCommand_bd (code : Word) (s : State) : (startCommand code s).bd = s.bd := rfl
@[simp] theorem startCommand_mf (code : Word) (s : State) : (startCommand code s).mf = s.mf := rfl
@[simp] theorem startCommand_hc (code : Word) (s : State) : (startCommand code s).hc = s.hc := rfl
@[simp] theorem startCommand_ht (code : Word) (s : State) : (startCommand code s).ht = s.ht := rfl
@[simp] theorem startCommand_head (code : Word) (s : State) : (startCommand code s).head = s.head := rfl
@[simp] theorem startCommand_chain (code : Word) (s : State) : (startCommand code s).chain = s.chain := rfl
@[simp] theorem startCommand_src (code : Word) (s : State) : (startCommand code s).src = s.src := rfl
@[simp] theorem startCommand_dst (code : Word) (s : State) : (startCommand code s).dst = s.dst := rfl
@[simp] theorem startCommand_dstOpen (code : Word) (s : State) : (startCommand code s).dstOpen = s.dstOpen := rfl
@[simp] theorem startCommand_draws (code : Word) (s : State) : (startCommand code s).draws = s.draws := rfl
@[simp] theorem startCommand_host (code : Word) (s : State) : (startCommand code s).host = s.host := rfl
@[simp] theorem startCommand_hostData (code : Word) (s : State) : (startCommand code s).hostData = s.hostData := rfl

/-! ## complete -/
@[simp] theorem complete_cmd (r : Nat) (s : State) : (complete r s).cmd = s.cmd := rfl
@[simp] theorem complete_status (r : Nat) (s : State) :
    (complete r s).status = .done := rfl
@[simp] theorem complete_srcCap (r : Nat) (s : State) : (complete r s).srcCap = s.srcCap := rfl
@[simp] theorem complete_srcOff (r : Nat) (s : State) : (complete r s).srcOff = s.srcOff := rfl
@[simp] theorem complete_srcLen (r : Nat) (s : State) : (complete r s).srcLen = s.srcLen := rfl
@[simp] theorem complete_dstCap (r : Nat) (s : State) : (complete r s).dstCap = s.dstCap := rfl
@[simp] theorem complete_dstOff (r : Nat) (s : State) : (complete r s).dstOff = s.dstOff := rfl
@[simp] theorem complete_dstLen (r : Nat) (s : State) : (complete r s).dstLen = s.dstLen := rfl
@[simp] theorem complete_result (r : Nat) (s : State) :
    (complete r s).result = BitVec.ofNat 32 r := rfl
@[simp] theorem complete_faultOff (r : Nat) (s : State) : (complete r s).faultOff = s.faultOff := rfl
@[simp] theorem complete_dPos (r : Nat) (s : State) : (complete r s).dPos = s.dPos := rfl
@[simp] theorem complete_dEnd (r : Nat) (s : State) : (complete r s).dEnd = s.dEnd := rfl
@[simp] theorem complete_bd (r : Nat) (s : State) : (complete r s).bd = s.bd := rfl
@[simp] theorem complete_mf (r : Nat) (s : State) : (complete r s).mf = s.mf := rfl
@[simp] theorem complete_hc (r : Nat) (s : State) : (complete r s).hc = s.hc := rfl
@[simp] theorem complete_ht (r : Nat) (s : State) : (complete r s).ht = s.ht := rfl
@[simp] theorem complete_head (r : Nat) (s : State) : (complete r s).head = s.head := rfl
@[simp] theorem complete_chain (r : Nat) (s : State) : (complete r s).chain = s.chain := rfl
@[simp] theorem complete_src (r : Nat) (s : State) : (complete r s).src = s.src := rfl
@[simp] theorem complete_dst (r : Nat) (s : State) : (complete r s).dst = s.dst := rfl
@[simp] theorem complete_dstOpen (r : Nat) (s : State) : (complete r s).dstOpen = s.dstOpen := rfl
@[simp] theorem complete_draws (r : Nat) (s : State) : (complete r s).draws = s.draws := rfl
@[simp] theorem complete_host (r : Nat) (s : State) : (complete r s).host = s.host := rfl
@[simp] theorem complete_hostData (r : Nat) (s : State) : (complete r s).hostData = s.hostData := rfl

/-! ## toReadOffset -/
@[simp] theorem toReadOffset_cmd (s : State) : (toReadOffset s).cmd = s.cmd := rfl
@[simp] theorem toReadOffset_status (s : State) : (toReadOffset s).status = s.status := rfl
@[simp] theorem toReadOffset_srcCap (s : State) : (toReadOffset s).srcCap = s.srcCap := rfl
@[simp] theorem toReadOffset_srcOff (s : State) : (toReadOffset s).srcOff = s.srcOff := rfl
@[simp] theorem toReadOffset_srcLen (s : State) : (toReadOffset s).srcLen = s.srcLen := rfl
@[simp] theorem toReadOffset_dstCap (s : State) : (toReadOffset s).dstCap = s.dstCap := rfl
@[simp] theorem toReadOffset_dstOff (s : State) : (toReadOffset s).dstOff = s.dstOff := rfl
@[simp] theorem toReadOffset_dstLen (s : State) : (toReadOffset s).dstLen = s.dstLen := rfl
@[simp] theorem toReadOffset_result (s : State) : (toReadOffset s).result = s.result := rfl
@[simp] theorem toReadOffset_faultOff (s : State) : (toReadOffset s).faultOff = s.faultOff := rfl
@[simp] theorem toReadOffset_dPos (s : State) : (toReadOffset s).dPos = s.dPos := rfl
@[simp] theorem toReadOffset_dEnd (s : State) : (toReadOffset s).dEnd = s.dEnd := rfl
@[simp] theorem toReadOffset_bd (s : State) :
    (toReadOffset s).bd = { s.bd with bdState := .readOffset } := rfl
@[simp] theorem toReadOffset_mf (s : State) : (toReadOffset s).mf = s.mf := rfl
@[simp] theorem toReadOffset_hc (s : State) : (toReadOffset s).hc = s.hc := rfl
@[simp] theorem toReadOffset_ht (s : State) : (toReadOffset s).ht = s.ht := rfl
@[simp] theorem toReadOffset_head (s : State) : (toReadOffset s).head = s.head := rfl
@[simp] theorem toReadOffset_chain (s : State) : (toReadOffset s).chain = s.chain := rfl
@[simp] theorem toReadOffset_src (s : State) : (toReadOffset s).src = s.src := rfl
@[simp] theorem toReadOffset_dst (s : State) : (toReadOffset s).dst = s.dst := rfl
@[simp] theorem toReadOffset_dstOpen (s : State) : (toReadOffset s).dstOpen = s.dstOpen := rfl
@[simp] theorem toReadOffset_draws (s : State) : (toReadOffset s).draws = s.draws := rfl
@[simp] theorem toReadOffset_host (s : State) : (toReadOffset s).host = s.host := rfl
@[simp] theorem toReadOffset_hostData (s : State) : (toReadOffset s).hostData = s.hostData := rfl

/-! ## takeOffset -/
@[simp] theorem takeOffset_cmd (off : Half) (s : State) : (takeOffset off s).cmd = s.cmd := rfl
@[simp] theorem takeOffset_status (off : Half) (s : State) : (takeOffset off s).status = s.status := rfl
@[simp] theorem takeOffset_srcCap (off : Half) (s : State) : (takeOffset off s).srcCap = s.srcCap := rfl
@[simp] theorem takeOffset_srcOff (off : Half) (s : State) : (takeOffset off s).srcOff = s.srcOff := rfl
@[simp] theorem takeOffset_srcLen (off : Half) (s : State) : (takeOffset off s).srcLen = s.srcLen := rfl
@[simp] theorem takeOffset_dstCap (off : Half) (s : State) : (takeOffset off s).dstCap = s.dstCap := rfl
@[simp] theorem takeOffset_dstOff (off : Half) (s : State) : (takeOffset off s).dstOff = s.dstOff := rfl
@[simp] theorem takeOffset_dstLen (off : Half) (s : State) : (takeOffset off s).dstLen = s.dstLen := rfl
@[simp] theorem takeOffset_result (off : Half) (s : State) : (takeOffset off s).result = s.result := rfl
@[simp] theorem takeOffset_faultOff (off : Half) (s : State) : (takeOffset off s).faultOff = s.faultOff := rfl
@[simp] theorem takeOffset_dPos (off : Half) (s : State) : (takeOffset off s).dPos = s.dPos := rfl
@[simp] theorem takeOffset_dEnd (off : Half) (s : State) : (takeOffset off s).dEnd = s.dEnd := rfl
@[simp] theorem takeOffset_mf (off : Half) (s : State) : (takeOffset off s).mf = s.mf := rfl
@[simp] theorem takeOffset_hc (off : Half) (s : State) : (takeOffset off s).hc = s.hc := rfl
@[simp] theorem takeOffset_ht (off : Half) (s : State) : (takeOffset off s).ht = s.ht := rfl
@[simp] theorem takeOffset_head (off : Half) (s : State) : (takeOffset off s).head = s.head := rfl
@[simp] theorem takeOffset_chain (off : Half) (s : State) : (takeOffset off s).chain = s.chain := rfl
@[simp] theorem takeOffset_src (off : Half) (s : State) : (takeOffset off s).src = s.src := rfl
@[simp] theorem takeOffset_dst (off : Half) (s : State) : (takeOffset off s).dst = s.dst := rfl
@[simp] theorem takeOffset_dstOpen (off : Half) (s : State) : (takeOffset off s).dstOpen = s.dstOpen := rfl
@[simp] theorem takeOffset_draws (off : Half) (s : State) : (takeOffset off s).draws = s.draws := rfl
@[simp] theorem takeOffset_host (off : Half) (s : State) : (takeOffset off s).host = s.host := rfl
@[simp] theorem takeOffset_hostData (off : Half) (s : State) : (takeOffset off s).hostData = s.hostData := rfl
@[simp] theorem takeOffset_bd (off : Half) (s : State) :
    (takeOffset off s).bd = { s.bd with offset := off, offAt := s.bd.sPos, sPos := s.bd.sPos + 2 } := rfl

/-! ## takeMatchNibble -/
@[simp] theorem takeMatchNibble_cmd (s : State) : (takeMatchNibble s).cmd = s.cmd := rfl
@[simp] theorem takeMatchNibble_status (s : State) : (takeMatchNibble s).status = s.status := rfl
@[simp] theorem takeMatchNibble_srcCap (s : State) : (takeMatchNibble s).srcCap = s.srcCap := rfl
@[simp] theorem takeMatchNibble_srcOff (s : State) : (takeMatchNibble s).srcOff = s.srcOff := rfl
@[simp] theorem takeMatchNibble_srcLen (s : State) : (takeMatchNibble s).srcLen = s.srcLen := rfl
@[simp] theorem takeMatchNibble_dstCap (s : State) : (takeMatchNibble s).dstCap = s.dstCap := rfl
@[simp] theorem takeMatchNibble_dstOff (s : State) : (takeMatchNibble s).dstOff = s.dstOff := rfl
@[simp] theorem takeMatchNibble_dstLen (s : State) : (takeMatchNibble s).dstLen = s.dstLen := rfl
@[simp] theorem takeMatchNibble_result (s : State) : (takeMatchNibble s).result = s.result := rfl
@[simp] theorem takeMatchNibble_faultOff (s : State) : (takeMatchNibble s).faultOff = s.faultOff := rfl
@[simp] theorem takeMatchNibble_dPos (s : State) : (takeMatchNibble s).dPos = s.dPos := rfl
@[simp] theorem takeMatchNibble_dEnd (s : State) : (takeMatchNibble s).dEnd = s.dEnd := rfl
@[simp] theorem takeMatchNibble_mf (s : State) : (takeMatchNibble s).mf = s.mf := rfl
@[simp] theorem takeMatchNibble_hc (s : State) : (takeMatchNibble s).hc = s.hc := rfl
@[simp] theorem takeMatchNibble_ht (s : State) : (takeMatchNibble s).ht = s.ht := rfl
@[simp] theorem takeMatchNibble_head (s : State) : (takeMatchNibble s).head = s.head := rfl
@[simp] theorem takeMatchNibble_chain (s : State) : (takeMatchNibble s).chain = s.chain := rfl
@[simp] theorem takeMatchNibble_src (s : State) : (takeMatchNibble s).src = s.src := rfl
@[simp] theorem takeMatchNibble_dst (s : State) : (takeMatchNibble s).dst = s.dst := rfl
@[simp] theorem takeMatchNibble_dstOpen (s : State) : (takeMatchNibble s).dstOpen = s.dstOpen := rfl
@[simp] theorem takeMatchNibble_draws (s : State) : (takeMatchNibble s).draws = s.draws := rfl
@[simp] theorem takeMatchNibble_host (s : State) : (takeMatchNibble s).host = s.host := rfl
@[simp] theorem takeMatchNibble_hostData (s : State) : (takeMatchNibble s).hostData = s.hostData := rfl
@[simp] theorem takeMatchNibble_bd (s : State) :
    (takeMatchNibble s).bd =
      { s.bd with
        matchLen := if lowNibble s.bd.token = 15#4 then Config.nibbleCap else (lowNibble s.bd.token).toNat + Config.minMatch
        bdState := if lowNibble s.bd.token = 15#4 then .readMatchLenExtension else .copyMatch } := rfl

/-! ## goHc -/
@[simp] theorem goHc_cmd (x : HcState) (s : State) : (goHc x s).cmd = s.cmd := rfl
@[simp] theorem goHc_status (x : HcState) (s : State) : (goHc x s).status = s.status := rfl
@[simp] theorem goHc_srcCap (x : HcState) (s : State) : (goHc x s).srcCap = s.srcCap := rfl
@[simp] theorem goHc_srcOff (x : HcState) (s : State) : (goHc x s).srcOff = s.srcOff := rfl
@[simp] theorem goHc_srcLen (x : HcState) (s : State) : (goHc x s).srcLen = s.srcLen := rfl
@[simp] theorem goHc_dstCap (x : HcState) (s : State) : (goHc x s).dstCap = s.dstCap := rfl
@[simp] theorem goHc_dstOff (x : HcState) (s : State) : (goHc x s).dstOff = s.dstOff := rfl
@[simp] theorem goHc_dstLen (x : HcState) (s : State) : (goHc x s).dstLen = s.dstLen := rfl
@[simp] theorem goHc_result (x : HcState) (s : State) : (goHc x s).result = s.result := rfl
@[simp] theorem goHc_faultOff (x : HcState) (s : State) : (goHc x s).faultOff = s.faultOff := rfl
@[simp] theorem goHc_dPos (x : HcState) (s : State) : (goHc x s).dPos = s.dPos := rfl
@[simp] theorem goHc_dEnd (x : HcState) (s : State) : (goHc x s).dEnd = s.dEnd := rfl
@[simp] theorem goHc_bd (x : HcState) (s : State) : (goHc x s).bd = s.bd := rfl
@[simp] theorem goHc_mf (x : HcState) (s : State) : (goHc x s).mf = s.mf := rfl
@[simp] theorem goHc_hc (x : HcState) (s : State) :
    (goHc x s).hc = { s.hc with hcState := x } := rfl
@[simp] theorem goHc_ht (x : HcState) (s : State) : (goHc x s).ht = s.ht := rfl
@[simp] theorem goHc_head (x : HcState) (s : State) : (goHc x s).head = s.head := rfl
@[simp] theorem goHc_chain (x : HcState) (s : State) : (goHc x s).chain = s.chain := rfl
@[simp] theorem goHc_src (x : HcState) (s : State) : (goHc x s).src = s.src := rfl
@[simp] theorem goHc_dst (x : HcState) (s : State) : (goHc x s).dst = s.dst := rfl
@[simp] theorem goHc_dstOpen (x : HcState) (s : State) : (goHc x s).dstOpen = s.dstOpen := rfl
@[simp] theorem goHc_draws (x : HcState) (s : State) : (goHc x s).draws = s.draws := rfl
@[simp] theorem goHc_host (x : HcState) (s : State) : (goHc x s).host = s.host := rfl
@[simp] theorem goHc_hostData (x : HcState) (s : State) : (goHc x s).hostData = s.hostData := rfl

/-! ## setupDecoder -/
@[simp] theorem setupDecoder_cmd (e : Nat) (s : State) : (setupDecoder e s).cmd = s.cmd := rfl
@[simp] theorem setupDecoder_status (e : Nat) (s : State) : (setupDecoder e s).status = s.status := rfl
@[simp] theorem setupDecoder_srcCap (e : Nat) (s : State) : (setupDecoder e s).srcCap = s.srcCap := rfl
@[simp] theorem setupDecoder_srcOff (e : Nat) (s : State) : (setupDecoder e s).srcOff = s.srcOff := rfl
@[simp] theorem setupDecoder_srcLen (e : Nat) (s : State) : (setupDecoder e s).srcLen = s.srcLen := rfl
@[simp] theorem setupDecoder_dstCap (e : Nat) (s : State) : (setupDecoder e s).dstCap = s.dstCap := rfl
@[simp] theorem setupDecoder_dstOff (e : Nat) (s : State) : (setupDecoder e s).dstOff = s.dstOff := rfl
@[simp] theorem setupDecoder_dstLen (e : Nat) (s : State) : (setupDecoder e s).dstLen = s.dstLen := rfl
@[simp] theorem setupDecoder_result (e : Nat) (s : State) : (setupDecoder e s).result = s.result := rfl
@[simp] theorem setupDecoder_faultOff (e : Nat) (s : State) : (setupDecoder e s).faultOff = s.faultOff := rfl
@[simp] theorem setupDecoder_dPos (e : Nat) (s : State) :
    (setupDecoder e s).dPos = 0 := rfl
@[simp] theorem setupDecoder_dEnd (e : Nat) (s : State) :
    (setupDecoder e s).dEnd = s.dstLen.toInt.toNat := rfl
@[simp] theorem setupDecoder_bd (e : Nat) (s : State) :
    (setupDecoder e s).bd = { s.bd with sPos := 0, sEnd := e, bdState := .readToken } := rfl
@[simp] theorem setupDecoder_mf (e : Nat) (s : State) : (setupDecoder e s).mf = s.mf := rfl
@[simp] theorem setupDecoder_hc (e : Nat) (s : State) : (setupDecoder e s).hc = s.hc := rfl
@[simp] theorem setupDecoder_ht (e : Nat) (s : State) : (setupDecoder e s).ht = s.ht := rfl
@[simp] theorem setupDecoder_head (e : Nat) (s : State) : (setupDecoder e s).head = s.head := rfl
@[simp] theorem setupDecoder_chain (e : Nat) (s : State) : (setupDecoder e s).chain = s.chain := rfl
@[simp] theorem setupDecoder_src (e : Nat) (s : State) : (setupDecoder e s).src = s.src := rfl
@[simp] theorem setupDecoder_dst (e : Nat) (s : State) : (setupDecoder e s).dst = s.dst := rfl
@[simp] theorem setupDecoder_dstOpen (e : Nat) (s : State) : (setupDecoder e s).dstOpen = s.dstOpen := rfl
@[simp] theorem setupDecoder_draws (e : Nat) (s : State) : (setupDecoder e s).draws = s.draws := rfl
@[simp] theorem setupDecoder_host (e : Nat) (s : State) : (setupDecoder e s).host = s.host := rfl
@[simp] theorem setupDecoder_hostData (e : Nat) (s : State) : (setupDecoder e s).hostData = s.hostData := rfl

/-! ## setupFinder -/
@[simp] theorem setupFinder_cmd (s : State) : (setupFinder s).cmd = s.cmd := rfl
@[simp] theorem setupFinder_status (s : State) : (setupFinder s).status = s.status := rfl
@[simp] theorem setupFinder_srcCap (s : State) : (setupFinder s).srcCap = s.srcCap := rfl
@[simp] theorem setupFinder_srcOff (s : State) : (setupFinder s).srcOff = s.srcOff := rfl
@[simp] theorem setupFinder_srcLen (s : State) : (setupFinder s).srcLen = s.srcLen := rfl
@[simp] theorem setupFinder_dstCap (s : State) : (setupFinder s).dstCap = s.dstCap := rfl
@[simp] theorem setupFinder_dstOff (s : State) : (setupFinder s).dstOff = s.dstOff := rfl
@[simp] theorem setupFinder_dstLen (s : State) : (setupFinder s).dstLen = s.dstLen := rfl
@[simp] theorem setupFinder_result (s : State) : (setupFinder s).result = s.result := rfl
@[simp] theorem setupFinder_faultOff (s : State) : (setupFinder s).faultOff = s.faultOff := rfl
@[simp] theorem setupFinder_dPos (s : State) :
    (setupFinder s).dPos = 0 := rfl
@[simp] theorem setupFinder_dEnd (s : State) :
    (setupFinder s).dEnd = s.dstLen.toInt.toNat := rfl
@[simp] theorem setupFinder_bd (s : State) : (setupFinder s).bd = s.bd := rfl
@[simp] theorem setupFinder_hc (s : State) : (setupFinder s).hc = s.hc := rfl
@[simp] theorem setupFinder_ht (s : State) : (setupFinder s).ht = s.ht := rfl
@[simp] theorem setupFinder_head (s : State) : (setupFinder s).head = s.head := rfl
@[simp] theorem setupFinder_chain (s : State) : (setupFinder s).chain = s.chain := rfl
@[simp] theorem setupFinder_src (s : State) : (setupFinder s).src = s.src := rfl
@[simp] theorem setupFinder_dst (s : State) : (setupFinder s).dst = s.dst := rfl
@[simp] theorem setupFinder_dstOpen (s : State) : (setupFinder s).dstOpen = s.dstOpen := rfl
@[simp] theorem setupFinder_draws (s : State) : (setupFinder s).draws = s.draws := rfl
@[simp] theorem setupFinder_host (s : State) : (setupFinder s).host = s.host := rfl
@[simp] theorem setupFinder_hostData (s : State) : (setupFinder s).hostData = s.hostData := rfl

end Sys2Proof.Machine
end

