-- ==== Sys2Proof/Laws/Store.lean ====
section
/-! SUPPORT. The laws of the canonical store and of the ranges that hold any value: what a read gives after a write, an
erasure or a cut, and that every operation keeps the canonical form. -/

namespace Sys2Proof.Machine

section Read

variable {α : Type} {d : α}

@[simp] theorem storeGet_nil (a : Nat) : storeGet d [] a = d := rfl

theorem storeGet_of_forall_ne {l : List (Nat × α)} {a : Nat} (h : ∀ e ∈ l, e.1 ≠ a) : storeGet d l a = d := by
  induction l with
  | nil => rfl
  | cons e rest ih =>
    obtain ⟨k, v⟩ := e
    have hk : k ≠ a := h (k, v) (by simp)
    simp only [storeGet, hk, if_false]
    exact ih fun e he => h e (by simp [he])

/-- An erasure reads as unlisted inside its range and as before outside it. -/
theorem storeGet_storeErase (lo hi : Nat) (l : List (Nat × α)) (a : Nat) :
    storeGet d (storeErase lo hi l) a = if lo ≤ a ∧ a < hi then d else storeGet d l a := by
  induction l with
  | nil => simp [storeErase]
  | cons e rest ih =>
    obtain ⟨k, v⟩ := e
    have hcons : storeErase lo hi ((k, v) :: rest) =
        if lo ≤ k ∧ k < hi then storeErase lo hi rest else (k, v) :: storeErase lo hi rest := by
      simp only [storeErase, List.filter_cons]
      by_cases h1 : lo ≤ k <;> by_cases h2 : k < hi <;> simp [h1, h2]
    rw [hcons]
    split
    · rw [ih]
      by_cases hka : k = a
      · subst hka; simp [*]
      · simp [storeGet, hka]
    · by_cases hka : k = a
      · subst hka; simp [storeGet, *]
      · simp [storeGet, hka, ih]

end Read

section Write

variable {α : Type} [DecidableEq α] {d : α}

theorem storeWf_cons {k : Nat} {v : α} {rest : List (Nat × α)} :
    storeWf d ((k, v) :: rest) = true ↔ v ≠ d ∧ (∀ e ∈ rest, k < e.1) ∧ storeWf d rest = true := by
  simp [storeWf, and_assoc]

/-- A write leaves every other key as it was, in every store. -/
theorem storeGet_storeSet_ne {l : List (Nat × α)} {a b : Nat} {v : α} (h : b ≠ a) :
    storeGet d (storeSet d l a v) b = storeGet d l b := by
  induction l with
  | nil => simp only [storeSet]; split <;> simp [storeGet, Ne.symm h]
  | cons e rest ih =>
    obtain ⟨k, w⟩ := e
    simp only [storeSet]
    split
    · subst_vars; split <;> simp [storeGet, Ne.symm h]
    · split
      · split <;> simp [storeGet, Ne.symm h]
      · simp [storeGet, ih]

/-- A read after a write to the same key gives the value written, in a canonical store. -/
theorem storeGet_storeSet_same {l : List (Nat × α)} (hl : storeWf d l = true) (a : Nat) (v : α) :
    storeGet d (storeSet d l a v) a = v := by
  induction l with
  | nil => simp only [storeSet]; split <;> simp_all [storeGet]
  | cons e rest ih =>
    obtain ⟨k, w⟩ := e
    obtain ⟨hw, hlt, hrest⟩ := storeWf_cons.mp hl
    simp only [storeSet]
    split
    · subst_vars
      split
      · subst_vars; exact storeGet_of_forall_ne fun e he => (hlt e he).ne'
      · simp [storeGet]
    · split
      · split
        · subst_vars
          refine storeGet_of_forall_ne ?_
          rintro e (_ | ⟨_, he⟩)
          · assumption
          · have := hlt e he; omega
        · simp [storeGet]
      · simp only [storeGet]; split
        · contradiction
        · exact ih hrest

theorem mem_storeSet {l : List (Nat × α)} {a : Nat} {v : α} {e : Nat × α} (h : e ∈ storeSet d l a v) :
    e = (a, v) ∨ e ∈ l := by
  induction l with
  | nil =>
    simp only [storeSet] at h
    split at h <;> simp_all
  | cons x rest ih =>
    obtain ⟨k, w⟩ := x
    simp only [storeSet] at h
    repeat' split at h
    all_goals simp only [List.mem_cons] at h ⊢
    all_goals tauto

/-- A write keeps the canonical form. -/
theorem storeSet_wf {l : List (Nat × α)} (hl : storeWf d l = true) (a : Nat) (v : α) :
    storeWf d (storeSet d l a v) = true := by
  induction l with
  | nil => simp only [storeSet]; split <;> simp_all [storeWf]
  | cons e rest ih =>
    obtain ⟨k, w⟩ := e
    obtain ⟨hw, hlt, hrest⟩ := storeWf_cons.mp hl
    simp only [storeSet]
    split
    · subst_vars
      split
      · exact hrest
      · exact storeWf_cons.mpr ⟨by assumption, hlt, hrest⟩
    · split
      · split
        · exact hl
        · refine storeWf_cons.mpr ⟨by assumption, ?_, hl⟩
          rintro e (_ | ⟨_, he⟩)
          · assumption
          · have := hlt e he; omega
      · refine storeWf_cons.mpr ⟨hw, ?_, ih hrest⟩
        intro e he
        rcases mem_storeSet he with rfl | he
        · simp only; omega
        · exact hlt e he

/-- An erasure keeps the canonical form. -/
theorem storeErase_wf {l : List (Nat × α)} (hl : storeWf d l = true) (lo hi : Nat) :
    storeWf d (storeErase lo hi l) = true := by
  induction l with
  | nil => rfl
  | cons e rest ih =>
    obtain ⟨k, v⟩ := e
    obtain ⟨hv, hlt, hrest⟩ := storeWf_cons.mp hl
    simp only [storeErase, List.filter_cons]
    split
    · exact storeWf_cons.mpr ⟨hv, fun e he => hlt e (List.mem_of_mem_filter he), ih hrest⟩
    · exact ih hrest

end Write

/-! ## Memories -/

@[simp] theorem Memory.read_nil (a : Nat) : Memory.read [] a = unwrittenByte := rfl

theorem Memory.read_write_ne {m : Memory} {a b : Nat} {v : Byte} (h : b ≠ a) :
    Memory.read (Memory.write m a v) b = Memory.read m b := storeGet_storeSet_ne h

theorem Memory.read_write_same {m : Memory} (hm : Memory.wf m = true) (a : Nat) (v : Byte) :
    Memory.read (Memory.write m a v) a = v := storeGet_storeSet_same hm a v

theorem Memory.write_wf {m : Memory} (hm : Memory.wf m = true) (a : Nat) (v : Byte) :
    Memory.wf (Memory.write m a v) = true := storeSet_wf hm a v

theorem Memory.erase_wf {m : Memory} (hm : Memory.wf m = true) (lo hi : Nat) :
    Memory.wf (storeErase lo hi m) = true := storeErase_wf hm lo hi

/-! ## Ranges that hold any value -/

@[simp] theorem openDraw_nil (a : Nat) : openDraw [] a = none := rfl

theorem openDraw_append (rs qs : List OpenRange) (a : Nat) :
    openDraw (rs ++ qs) a = (openDraw rs a).or (openDraw qs a) := by
  induction rs with
  | nil => simp
  | cons r rest ih => simp only [List.cons_append, openDraw]; split <;> simp [ih]

theorem openDraw_cutRange (lo hi : Nat) (r : OpenRange) (a : Nat) :
    openDraw (cutRange lo hi r) a = if lo ≤ a ∧ a < hi then none else openDraw [r] a := by
  have left : openDraw (if r.lo < min r.hi lo then [{ r with hi := min r.hi lo }] else []) a =
      if r.lo ≤ a ∧ a < r.hi ∧ a < lo then some r.draw else none := by
    split <;> simp only [openDraw] <;> split <;> first | rfl | (split <;> first | rfl | omega) | omega
  have right : openDraw (if max r.lo hi < r.hi then [{ r with lo := max r.lo hi }] else []) a =
      if r.lo ≤ a ∧ a < r.hi ∧ hi ≤ a then some r.draw else none := by
    split <;> simp only [openDraw] <;> split <;> first | rfl | (split <;> first | rfl | omega) | omega
  simp only [cutRange, openDraw_append, left, right, openDraw]
  by_cases hr : r.lo ≤ a ∧ a < r.hi
  · by_cases h1 : a < lo <;> by_cases h2 : hi ≤ a <;> simp [hr, h1, h2]
  · rw [if_neg (by omega), if_neg (by omega), if_neg hr]; simp

/-- Cut addresses hold no free value; every other address is as before. -/
theorem openDraw_cutRanges (lo hi : Nat) (rs : List OpenRange) (a : Nat) :
    openDraw (cutRanges lo hi rs) a = if lo ≤ a ∧ a < hi then none else openDraw rs a := by
  induction rs with
  | nil => simp [cutRanges]
  | cons r rest ih =>
    have hcons : cutRanges lo hi (r :: rest) = cutRange lo hi r ++ cutRanges lo hi rest := rfl
    rw [hcons, openDraw_append, openDraw_cutRange, ih]
    split
    · rfl
    · simp only [openDraw]; split <;> simp

/-! ## DST -/

theorem dstRead_dstWrite_ne {s : State} {a b : Nat} {v : Byte} (h : b ≠ a) :
    dstRead (dstWrite s a v) b = dstRead s b := by
  have hcut : openDraw (cutRanges a (a + 1) s.dstOpen) b = openDraw s.dstOpen b := by
    rw [openDraw_cutRanges, if_neg (by omega)]
  simp only [dstRead, dstWrite, hcut]
  split
  · rfl
  · exact Memory.read_write_ne h

theorem dstRead_dstWrite_same {s : State} (hs : Memory.wf s.dst = true) (a : Nat) (v : Byte) :
    dstRead (dstWrite s a v) a = v := by
  have hcut : openDraw (cutRanges a (a + 1) s.dstOpen) a = none := by
    rw [openDraw_cutRanges, if_pos (by omega)]
  simp only [dstRead, dstWrite, hcut]
  exact Memory.read_write_same hs a v

/-- Leaving a range at any value changes no byte outside it. -/
theorem dstRead_openDst_outside {s : State} {lo hi a : Nat} (h : ¬(lo ≤ a ∧ a < hi)) :
    dstRead (openDst lo hi s) a = dstRead s a := by
  unfold openDst
  split
  · simp only [dstRead, openDraw, h, if_false, openDraw_cutRanges, Memory.read, storeGet_storeErase]
  · rfl

/-- Inside the range the byte is the free value of this draw. -/
theorem dstRead_openDst_inside {s : State} {lo hi a : Nat} (h : lo ≤ a ∧ a < hi) :
    dstRead (openDst lo hi s) a = Config.freeByte s.draws a := by
  unfold openDst
  rw [if_pos (by omega)]
  simp only [dstRead, openDraw, h, and_self, if_true]

end Sys2Proof.Machine
end

