-- ==== Sys2Proof/Laws/Ops.lean ====
section
/-! SUPPORT. Everything the shared operations can do: byte access to SRC and DST, raising a fault, starting and completing
a command. Later proofs cite these and unfold none of them. -/

namespace Sys2Proof.Machine

/-! ## Reading SRC -/

/-- A source byte is read exactly inside the region and the buffer, and it is the byte there. -/
theorem srcByte_eq_go {limit : Nat} {p : Int} {s : State} {b : Byte} :
    srcByte limit p s = .go b ↔
      (0 ≤ p ∧ p < limit ∧ 0 ≤ srcAddr s p ∧ srcAddr s p < s.srcCap.toInt) ∧ b = srcAt s p := by
  unfold srcByte srcAt
  split <;> simp_all [eq_comm]

/-- A read that does not go on is the model's own bounds fault. -/
theorem srcByte_eq_stop {limit : Nat} {p : Int} {s : State} {r : Result} (h : srcByte limit p s = .stop r) :
    r = .fault .srcAccess := by
  unfold srcByte at h
  split at h <;> simp_all

theorem srcByte_inside {limit : Nat} {p : Int} {s : State} (h : SrcRegion limit s) (h0 : 0 ≤ p) (hp : p < limit) :
    srcByte limit p s = .go (srcAt s p) := by
  have := h.off_nonneg
  have := h.fits
  exact srcByte_eq_go.mpr ⟨⟨h0, hp, by unfold srcAddr; omega, by unfold srcAddr; omega⟩, rfl⟩

@[simp] theorem srcRun_length (s : State) (p k : Nat) : (srcRun s p k).length = k := by simp [srcRun]

@[simp] theorem srcRun_zero (s : State) (p : Nat) : srcRun s p 0 = [] := rfl

theorem srcRun_succ (s : State) (p k : Nat) : srcRun s p (k + 1) = srcAt s (p : Int) :: srcRun s (p + 1) k := by
  simp only [srcRun, List.range_succ_eq_map, List.map_cons, List.map_map]
  refine congrArg₂ _ (by simp) (List.map_congr_left fun i _ => ?_)
  simp only [Function.comp]
  congr 2
  omega

/-- A run of reads that goes on gives the bytes of that run. -/
theorem srcBytes_eq_run {limit k p : Nat} {s : State} {bs : List Byte} (h : srcBytes limit s p k = .go bs) :
    bs = srcRun s p k := by
  induction k generalizing p bs with
  | zero => simpa [srcBytes, eq_comm] using h
  | succ k ih =>
    simp only [srcBytes, Flow.andThen_eq_go] at h
    obtain ⟨b, hb, bs', hbs, hcons⟩ := h
    cases hcons
    rw [srcRun_succ, (srcByte_eq_go.mp hb).2, ih hbs]

/-- A run of reads inside the region goes on. -/
theorem srcBytes_inside {limit k p : Nat} {s : State} (h : SrcRegion limit s) (hp : p + k ≤ limit) :
    srcBytes limit s p k = .go (srcRun s p k) := by
  induction k generalizing p with
  | zero => rfl
  | succ k ih =>
    rw [srcBytes, srcByte_inside h (by omega) (by omega), Flow.andThen_go, ih (by omega), Flow.andThen_go,
      srcRun_succ]

/-- `rd32` inside the region (R11). -/
theorem rd32_inside {p : Int} {s : State} (h : SrcRegion s.mf.n s) (h0 : 0 ≤ p) (hp : p + 4 ≤ s.mf.n) :
    rd32 p s = .go (word32 (srcAt s p) (srcAt s (p + 1)) (srcAt s (p + 2)) (srcAt s (p + 3))) := by
  simp only [rd32, mfByte]
  rw [srcByte_inside h h0 (by omega), Flow.andThen_go, srcByte_inside h (by omega) (by omega), Flow.andThen_go,
    srcByte_inside h (by omega) (by omega), Flow.andThen_go, srcByte_inside h (by omega) (by omega),
    Flow.andThen_go]

/-! ## Writing DST -/

/-- The state has changed in its DST bytes only. -/
def DstOnly (s t : State) : Prop := t = { s with dst := t.dst, dstOpen := t.dstOpen }

theorem DstOnly.refl (s : State) : DstOnly s s := rfl

theorem DstOnly.trans {s t u : State} (h : DstOnly s t) (g : DstOnly t u) : DstOnly s u := by
  unfold DstOnly at *; rw [g, h]

theorem DstOnly.write (s : State) (a : Nat) (b : Byte) : DstOnly s (dstWrite s a b) := rfl

/-- The registers and the source are as before. -/
theorem DstOnly.srcAt {s t : State} (h : DstOnly s t) (p : Int) : srcAt t p = srcAt s p := by rw [h]; rfl

theorem DstOnly.dstAddr {s t : State} (h : DstOnly s t) (q : Nat) : dstAddr t q = dstAddr s q := by rw [h]; rfl

theorem DstOnly.dstReachable {s t : State} (h : DstOnly s t) (q : Nat) : dstReachable q t = dstReachable q s := by
  rw [h]; rfl

theorem dstReachable_inside {q : Nat} {s : State} (h : DstRegion s) (hq : q < s.dEnd) : dstReachable q s = true := by
  have := h.off_nonneg
  have := h.fits
  exact decide_eq_true ⟨hq, by unfold Machine.dstAddr; omega, by unfold Machine.dstAddr; omega⟩

theorem dstGet_eq_go {q : Nat} {s : State} {b : Byte} :
    dstGet q s = .go b ↔ dstReachable q s = true ∧ b = dstAt s q := by
  unfold dstGet dstAt
  split
  · simp only [Flow.go.injEq, *, true_and]; exact eq_comm
  · simp [*]

theorem dstPut_eq_go {q : Nat} {b : Byte} {s t : State} :
    dstPut q b s = .go t ↔ dstReachable q s = true ∧ t = dstWrite s (dstAddr s q).toNat b := by
  unfold dstPut
  split
  · simp only [Flow.go.injEq, *, true_and]; exact eq_comm
  · simp [*]

theorem dstGet_eq_stop {q : Nat} {s : State} {r : Result} (h : dstGet q s = .stop r) : r = .fault .dstAccess := by
  unfold dstGet at h
  split at h <;> simp_all

theorem dstPut_eq_stop {q : Nat} {b : Byte} {s : State} {r : Result} (h : dstPut q b s = .stop r) :
    r = .fault .dstAccess := by
  unfold dstPut at h
  split at h <;> simp_all

/-- The DST address of a reachable position, as a natural. -/
theorem dstAddr_toNat_inj {p q : Nat} {s : State} (hp : dstReachable p s = true) (hq : dstReachable q s = true)
    (h : (dstAddr s p).toNat = (dstAddr s q).toNat) : p = q := by
  simp only [Machine.dstReachable, decide_eq_true_eq] at hp hq
  simp only [Machine.dstAddr] at *
  omega

/-- A list of writes that goes on changes DST only, and only at its own addresses. -/
theorem dstPutList_frame {bytes : List Byte} {q : Nat} {s t : State} (h : dstPutList q bytes s = .go t) :
    DstOnly s t ∧ (∀ i, i < bytes.length → dstReachable (q + i) s = true) ∧
      ∀ a, (∀ i, i < bytes.length → a ≠ (dstAddr s (q + i)).toNat) → dstRead t a = dstRead s a := by
  induction bytes generalizing q s with
  | nil => simp only [dstPutList, Flow.go.injEq] at h; subst h; exact ⟨.refl s, by simp, by simp⟩
  | cons b bs ih =>
    simp only [dstPutList, Flow.andThen_eq_go] at h
    obtain ⟨u, hu, hrest⟩ := h
    obtain ⟨hreach, rfl⟩ := dstPut_eq_go.mp hu
    obtain ⟨honly, hall, hframe⟩ := ih hrest
    refine ⟨(DstOnly.write s _ b).trans honly, ?_, ?_⟩
    · rintro (_ | i) hi
      · exact hreach
      · have := hall i (by simpa using hi)
        rwa [show q + (i + 1) = q + 1 + i by omega]
    · intro a ha
      rw [hframe a, dstRead_dstWrite_ne]
      · exact ha 0 (by simp)
      · intro i hi
        have := ha (i + 1) (by simpa using hi)
        rwa [show q + (i + 1) = q + 1 + i by omega] at this

theorem dstPutList_wf {bytes : List Byte} {q : Nat} {s t : State} (h : dstPutList q bytes s = .go t)
    (hs : Memory.wf s.dst = true) : Memory.wf t.dst = true := by
  induction bytes generalizing q s with
  | nil => simp only [dstPutList, Flow.go.injEq] at h; subst h; exact hs
  | cons b bs ih =>
    simp only [dstPutList, Flow.andThen_eq_go] at h
    obtain ⟨u, hu, hrest⟩ := h
    obtain ⟨-, rfl⟩ := dstPut_eq_go.mp hu
    exact ih hrest (Memory.write_wf hs _ _)

/-- A list of writes that goes on leaves its bytes in order. -/
theorem dstPutList_value {bytes : List Byte} {q : Nat} {s t : State} (h : dstPutList q bytes s = .go t)
    (hs : Memory.wf s.dst = true) (i : Nat) (hi : i < bytes.length) : dstAt t (q + i) = bytes[i] := by
  induction bytes generalizing q s i with
  | nil => simp at hi
  | cons b bs ih =>
    obtain ⟨-, hreach, -⟩ := dstPutList_frame h
    simp only [dstPutList, Flow.andThen_eq_go] at h
    obtain ⟨u, hu, hrest⟩ := h
    obtain ⟨h0, rfl⟩ := dstPut_eq_go.mp hu
    cases i with
    | zero =>
      obtain ⟨honly, -, hframe⟩ := dstPutList_frame hrest
      simp only [dstAt, Nat.add_zero, List.getElem_cons_zero, ((DstOnly.write s _ b).trans honly).dstAddr]
      rw [hframe, dstRead_dstWrite_same hs]
      intro j hj heq
      have := dstAddr_toNat_inj h0 (q := q + 1 + j)
        (by have := hreach (j + 1) (by simpa using hj); rwa [show q + (j + 1) = q + 1 + j by omega] at this) heq
      omega
    | succ i =>
      have := ih hrest (Memory.write_wf hs _ _) i (by simpa using hi)
      rw [show q + (i + 1) = q + 1 + i by omega]
      simpa using this

/-- A list of writes inside the destination region goes on. -/
theorem dstPutList_inside {bytes : List Byte} {q : Nat} {s : State} (h : DstRegion s)
    (hq : q + bytes.length ≤ s.dEnd) : ∃ t, dstPutList q bytes s = .go t := by
  induction bytes generalizing q s with
  | nil => exact ⟨s, rfl⟩
  | cons b bs ih =>
    simp only [List.length_cons] at hq
    obtain ⟨t, ht⟩ := ih (q := q + 1) (s := dstWrite s (dstAddr s q).toNat b) ⟨h.1, h.2, h.3, h.4⟩ (by
      simpa using (by omega : q + 1 + bs.length ≤ s.dEnd))
    refine ⟨t, ?_⟩
    rw [dstPutList, dstPut_eq_go.mpr ⟨dstReachable_inside h (by omega), rfl⟩, Flow.andThen_go, ht]

/-- The match copy changes DST only, and only at its target addresses (R189). -/
theorem copyBytes_frame {count source target : Nat} {s t : State} (h : copyBytes source target count s = .go t) :
    DstOnly s t ∧ ∀ a, (∀ i, i < count → a ≠ (dstAddr s (target + i)).toNat) → dstRead t a = dstRead s a := by
  induction count generalizing source target s with
  | zero => simp only [copyBytes, Flow.go.injEq] at h; subst h; exact ⟨.refl s, by simp⟩
  | succ n ih =>
    simp only [copyBytes, Flow.andThen_eq_go] at h
    obtain ⟨b, -, u, hu, hrest⟩ := h
    obtain ⟨-, rfl⟩ := dstPut_eq_go.mp hu
    obtain ⟨honly, hframe⟩ := ih hrest
    refine ⟨(DstOnly.write s _ b).trans honly, fun a ha => ?_⟩
    rw [hframe a, dstRead_dstWrite_ne]
    · exact ha 0 (by omega)
    · intro i hi
      have := ha (i + 1) (by omega)
      rwa [show target + (i + 1) = target + 1 + i by omega] at this

theorem copyBytes_wf {count source target : Nat} {s t : State} (h : copyBytes source target count s = .go t)
    (hs : Memory.wf s.dst = true) : Memory.wf t.dst = true := by
  induction count generalizing source target s with
  | zero => simp only [copyBytes, Flow.go.injEq] at h; subst h; exact hs
  | succ n ih =>
    simp only [copyBytes, Flow.andThen_eq_go] at h
    obtain ⟨b, -, u, hu, hrest⟩ := h
    obtain ⟨-, rfl⟩ := dstPut_eq_go.mp hu
    exact ih hrest (Memory.write_wf hs _ _)

/-- A match copy inside the destination region goes on. -/
theorem copyBytes_inside {count source target : Nat} {s : State} (h : DstRegion s) (hsrc : source ≤ target)
    (ht : target + count ≤ s.dEnd) : ∃ t, copyBytes source target count s = .go t := by
  induction count generalizing source target s with
  | zero => exact ⟨s, rfl⟩
  | succ n ih =>
    obtain ⟨t, hcopy⟩ := ih (source := source + 1) (target := target + 1)
      (s := dstWrite s (dstAddr s target).toNat (dstAt s source)) ⟨h.1, h.2, h.3, h.4⟩ (by omega)
      (by simpa using (by omega : target + 1 + n ≤ s.dEnd))
    refine ⟨t, ?_⟩
    rw [copyBytes, dstGet_eq_go.mpr ⟨dstReachable_inside h (by omega), rfl⟩, Flow.andThen_go,
      dstPut_eq_go.mpr ⟨dstReachable_inside h (by omega), rfl⟩, Flow.andThen_go, hcopy]

/-! ## Leaving the destination region at any value -/

/-- Nothing outside the destination region changes (R33 (a)). -/
theorem dstRead_openRegionFrom_outside {q a : Nat} {s : State} (h : a < dstBase s + q ∨ dstLimit s ≤ a) :
    dstRead (openRegionFrom q s) a = dstRead s a := by
  unfold openRegionFrom
  exact dstRead_openDst_outside (by omega)

/-- Storage stays canonical. -/
theorem openDst_dst_wf {lo hi : Nat} {s : State} (h : Memory.wf s.dst = true) :
    Memory.wf (openDst lo hi s).dst = true := by
  unfold openDst
  split
  · exact Memory.erase_wf h lo hi
  · exact h

/-! ## Faults (R236 to R238): each is one next state -/

theorem raiseInvalidArgument_eq (s : State) :
    raiseInvalidArgument s = .next { s with status := .faulted .invalidArgument } := rfl

/-- A CorruptInput fault writes STATUS, FAULT_OFF and BD_STATE, and touches nothing outside the destination region. -/
theorem raiseCorruptInput_spec (p : Nat) (s : State) :
    ∃ t, raiseCorruptInput p s = .next t ∧ t.status = .faulted .corruptInput ∧
      t.faultOff = s.srcOff + BitVec.ofNat 32 p ∧ t.result = s.result ∧ t.src = s.src ∧
      ∀ a, a < dstBase s ∨ dstLimit s ≤ a → dstRead t a = dstRead s a := by
  refine ⟨_, rfl, by simp, by simp, by simp, by simp, fun a ha => ?_⟩
  rw [dstRead_openRegionFrom_outside (by simpa [dstBase, dstLimit] using ha)]
  rfl

/-- A DestinationTooSmall fault writes STATUS, and touches nothing outside the destination region. -/
theorem raiseDestinationTooSmall_spec (s : State) :
    ∃ t, raiseDestinationTooSmall s = .next t ∧ t.status = .faulted .destinationTooSmall ∧
      t.faultOff = s.faultOff ∧ t.result = s.result ∧ t.src = s.src ∧
      ∀ a, a < dstBase s ∨ dstLimit s ≤ a → dstRead t a = dstRead s a := by
  refine ⟨_, rfl, by simp, by simp, by simp, by simp, fun a ha => ?_⟩
  rw [dstRead_openRegionFrom_outside (by simpa [dstBase, dstLimit] using ha)]
  rfl

/-! ## Commands -/

/-- A CMD write while BUSY is ignored (R265). -/
theorem hostCommand_busy {code : Word} {body : State → Result} {s : State} (h : s.isBusy = true) :
    hostCommand code body s = .next s := by simp [hostCommand, h]

/-- A CMD write otherwise starts the command (R210). -/
theorem hostCommand_start {code : Word} {body : State → Result} {s : State} (h : s.isBusy = false) :
    hostCommand code body s = body (startCommand code s) := by simp [hostCommand, h]

/-- The checks of a command read argument registers only, so a command start does not change them. -/
theorem badArgs_startCommand (code : Word) (s : State) :
    badMaxlenArgs (startCommand code s) = badMaxlenArgs s ∧
      badCompressArgs (startCommand code s) = badCompressArgs s ∧
      badTrustArgs (startCommand code s) = badTrustArgs s ∧
      badSafeArgs (startCommand code s) = badSafeArgs s := ⟨rfl, rfl, rfl, rfl⟩

/-! ## The sequence encoder -/

/-- An emission that goes on fits, writes its bytes at D_POS and advances D_POS over them (R113, R114). -/
theorem emitBytes_eq_go {bytes : List Byte} {s t : State} (h : emitBytes bytes s = .go t) :
    s.dPos + bytes.length ≤ s.dEnd ∧
      ∃ u, dstPutList s.dPos bytes s = .go u ∧ t = { u with dPos := s.dPos + bytes.length } := by
  unfold emitBytes at h
  split at h
  · simp at h
  · obtain ⟨u, hu, ht⟩ := Flow.andThen_eq_go.mp h
    exact ⟨by omega, u, hu, by simpa [eq_comm] using ht⟩

/-- An emission that does not fit raises DestinationTooSmall before any byte is written (R233). -/
theorem emitBytes_too_small {bytes : List Byte} {s : State} (h : s.dPos + bytes.length > s.dEnd) :
    emitBytes bytes s = .stop (raiseDestinationTooSmall s) := by simp [emitBytes, h]

/-! ## The tables of the match finders -/

/-- PROBE writes one HT slot and nothing else (R133). -/
theorem probe_frame {p : Nat} {s t : State} {c : Option Nat} (h : probe p s = .go (c, t)) :
    ∃ v, rd32 p s = .go v ∧ t = { s with ht := storeSet none s.ht (hash v (htLog s)) (some p) } := by
  unfold probe at h
  obtain ⟨v, hv, h⟩ := Flow.andThen_eq_go.mp h
  refine ⟨v, hv, ?_⟩
  simp only at h
  split at h
  · simp only [Flow.go.injEq, Prod.mk.injEq] at h; exact h.2.symm
  · split at h
    · simp only [Flow.go.injEq, Prod.mk.injEq] at h; exact h.2.symm
    · obtain ⟨w, -, h⟩ := Flow.andThen_eq_go.mp h
      split at h <;> (simp only [Flow.go.injEq, Prod.mk.injEq] at h; exact h.2.symm)

/-- ADD_HASH writes one CHAIN entry and one HEAD slot and nothing else (R151). -/
theorem addHash_frame {p : Nat} {s t : State} (h : addHash p s = .go t) :
    t = { s with chain := t.chain, head := t.head } := by
  unfold addHash at h
  obtain ⟨k, -, h⟩ := Flow.andThen_eq_go.mp h
  simp only [Flow.go.injEq] at h
  subst h; rfl

/-- INSERT_UPTO writes CHAIN, HEAD and NEXT, which grows by the number of positions inserted (R152). -/
theorem insertCount_frame {count : Nat} {s t : State} (h : insertCount count s = .go t) :
    t = { s with chain := t.chain, head := t.head, hc := { s.hc with next := s.hc.next + count } } := by
  induction count generalizing s with
  | zero => simp only [insertCount, Flow.go.injEq] at h; subst h; rfl
  | succ n ih =>
    simp only [insertCount, Flow.andThen_eq_go] at h
    obtain ⟨u, hu, hrest⟩ := h
    have h1 := addHash_frame hu
    have h2 := ih hrest
    rw [h2, h1]
    simp only [State.mk.injEq, true_and, and_true]
    simp only [ChainRegs.mk.injEq, true_and, and_true]
    omega

end Sys2Proof.Machine
end

