-- ==== Sys2Proof/Laws/PerInstr.lean ====
section
/-! SUPPORT. A law of every instruction as syntax: its encoding has the width and the fixed bits of its row of
spec/opcode_table.json. -/

namespace Sys2Proof.Laws

/-- A row of the opcode table: width, match and mask, written out from spec/opcode_table.json (ILLEGAL has no fixed
bits). -/
structure TableRow where
  width : Nat
  pattern : Nat
  mask : Nat
deriving DecidableEq, Repr

def tableRow : Instr → TableRow
  | .clear => ⟨32, 0x00000000, 0xFFFFFFFF⟩
  | .maxlen => ⟨32, 0x00000001, 0xFFFFFFFF⟩
  | .compressFast => ⟨32, 0x00000002, 0xFFFFFFFF⟩
  | .compressHc => ⟨32, 0x00000003, 0xFFFFFFFF⟩
  | .decompressTrust => ⟨32, 0x00000004, 0xFFFFFFFF⟩
  | .decompressSafe => ⟨32, 0x00000005, 0xFFFFFFFF⟩
  | .illegal _ => ⟨32, 0, 0⟩
  | .seqSS _ _ => ⟨8, 0x00, 0x00⟩
  | .seqXS _ => ⟨8, 0xF0, 0xF0⟩
  | .seqSX _ => ⟨8, 0x0F, 0x0F⟩
  | .seqXX => ⟨8, 0xFF, 0xFF⟩
  | .lastS _ _ => ⟨8, 0x00, 0x00⟩
  | .lastX _ => ⟨8, 0xF0, 0xF0⟩
  | .extMore => ⟨8, 0xFF, 0xFF⟩
  | .extEnd _ => ⟨8, 0x00, 0x00⟩

/-- The width and the value of an encoded instruction. -/
def codeBits : Code → Nat × Nat
  | .command value => (32, value.toNat)
  | .byte value => (8, value.toNat)

/-- The encoding of an instruction fits its row of the table. -/
def FitsTable.Statement (i : Instr) : Prop :=
  (codeBits (encode i)).1 = (tableRow i).width ∧
    (codeBits (encode i)).2 &&& (tableRow i).mask = (tableRow i).pattern

theorem FitsTable.clear : FitsTable.Statement .clear := ⟨rfl, rfl⟩

theorem FitsTable.maxlen : FitsTable.Statement .maxlen := ⟨rfl, rfl⟩

theorem FitsTable.compressFast : FitsTable.Statement .compressFast := ⟨rfl, rfl⟩

theorem FitsTable.compressHc : FitsTable.Statement .compressHc := ⟨rfl, rfl⟩

theorem FitsTable.decompressTrust : FitsTable.Statement .decompressTrust := ⟨rfl, rfl⟩

theorem FitsTable.decompressSafe : FitsTable.Statement .decompressSafe := ⟨rfl, rfl⟩

theorem FitsTable.illegal (code : Word) : FitsTable.Statement (.illegal code) := by
  simp [FitsTable.Statement, encode, codeBits, tableRow]

theorem FitsTable.seqSS (l m : Nibble) : FitsTable.Statement (.seqSS l m) := by
  simp [FitsTable.Statement, encode, codeBits, tableRow]

theorem FitsTable.seqXS (m : Nibble) : FitsTable.Statement (.seqXS m) := by
  revert m; unfold FitsTable.Statement; decide

theorem FitsTable.seqSX (l : Nibble) : FitsTable.Statement (.seqSX l) := by
  revert l; unfold FitsTable.Statement; decide

theorem FitsTable.seqXX : FitsTable.Statement .seqXX := ⟨rfl, rfl⟩

theorem FitsTable.lastS (l ignored : Nibble) : FitsTable.Statement (.lastS l ignored) := by
  simp [FitsTable.Statement, encode, codeBits, tableRow]

theorem FitsTable.lastX (ignored : Nibble) : FitsTable.Statement (.lastX ignored) := by
  revert ignored; unfold FitsTable.Statement; decide

theorem FitsTable.extMore : FitsTable.Statement .extMore := ⟨rfl, rfl⟩

theorem FitsTable.extEnd (e : Byte) : FitsTable.Statement (.extEnd e) := by
  simp [FitsTable.Statement, encode, codeBits, tableRow]

end Sys2Proof.Laws
end

