-- ==== Sys2Proof/Tests/Slice0.lean ====
section
/-! SUPPORT. The model's own tests. Expected values are those of spec/95_test_vectors.md (its vector is named beside each)
and of the encodings of spec/30_encoding.md; the second half shows, for every statement of Obligations.lean with
hypotheses, states and operands that meet them. -/

namespace Sys2Proof.Tests

open Sys2Proof.Machine

/-! ## Small states -/

/-- A buffer holding `bytes` from address `a` on. -/
def load (a : Nat) : List Byte → Memory
  | [] => []
  | b :: bs => Memory.write (load (a + 1) bs) a b

/-- An idle block with `bytes` at SRC_OFF `off` and `room` destination bytes from DST address 0. -/
def job (off : Nat) (bytes : List Byte) (room : Nat) : State :=
  { State.reset with
    srcCap := BitVec.ofNat 32 (off + bytes.length)
    srcOff := BitVec.ofNat 32 off
    srcLen := BitVec.ofNat 32 bytes.length
    dstCap := BitVec.ofNat 32 room
    dstLen := BitVec.ofNat 32 room
    src := load off bytes }

/-- The next state, where there is one. -/
def nextOf (s : State) : Result → State
  | .next t => t
  | .fault _ => s
  | .refused _ => s

/-- The state after an instruction. -/
def run (i : Instr) (s : State) : State := nextOf s (exec i s)

/-- The state after one step. -/
def tick (s : State) : State := nextOf s (step s)

/-- The state after one state of the decoder. -/
def unit (s : State) : State := nextOf s (decoderUnitStep s)

/-- `count` bytes of DST from address 0. -/
def out (count : Nat) (s : State) : List Byte := (List.range count).map (Memory.read s.dst)

/-- STATUS, RESULT and FAULT_OFF as the host reads them. -/
def answer (s : State) : Nat × Nat × Nat := (s.status.word.toNat, s.result.toNat, s.faultOff.toNat)

/-- What an instruction answers is a next state with this answer. -/
def answers (r : Result) (expected : Nat × Nat × Nat) : Bool :=
  match r with
  | .next t => answer t == expected
  | .fault _ => false
  | .refused _ => false

/-- The value a computation goes on with, where it does. -/
def valueOf {α : Type} : Flow α → Option α
  | .go a => some a
  | .stop _ => none

/-- The block writes `bytes` at D_POS and moves D_POS over them. -/
def wrote (f : Flow State) (pos : Nat) (bytes : List Byte) : Bool :=
  match f with
  | .go t => t.dPos == pos + bytes.length && (List.range bytes.length).map (fun i => Memory.read t.dst (pos + i)) == bytes
  | .stop _ => false

/-- The ASCII bytes of a text. -/
def ascii (text : String) : List Byte := text.toList.map fun c => BitVec.ofNat 8 c.toNat

/-! ## Well-formedness: what the checks refuse -/

theorem wf_refuses_assigned_illegal : (Instr.illegal 5#32).wf = false := by decide
theorem wf_refuses_seqSS_cap : (Instr.seqSS 15#4 0#4).wf = false ∧ (Instr.seqSS 0#4 15#4).wf = false := by decide
theorem wf_refuses_seqXS_cap : (Instr.seqXS 15#4).wf = false := by decide
theorem wf_refuses_seqSX_cap : (Instr.seqSX 15#4).wf = false := by decide
theorem wf_refuses_lastS_cap : (Instr.lastS 15#4 3#4).wf = false := by decide
theorem wf_refuses_extEnd_255 : (Instr.extEnd 255#8).wf = false := by decide
theorem wf_refuses_offset_0 : (Line.seq [] 0#16 4).wf = false := by decide
theorem wf_refuses_length_3 : (Line.seq [] 1#16 3).wf = false := by decide

/-! ## Decoding: words written out from R92 and R94 -/

theorem decode_clear : decode .command (.command 0b00000000000000000000000000000000#32) = .ok .clear := by decide
theorem decode_maxlen : decode .command (.command 0b00000000000000000000000000000001#32) = .ok .maxlen := by decide
theorem decode_compressFast :
    decode .command (.command 0b00000000000000000000000000000010#32) = .ok .compressFast := by decide
theorem decode_compressHc :
    decode .command (.command 0b00000000000000000000000000000011#32) = .ok .compressHc := by decide
theorem decode_decompressTrust :
    decode .command (.command 0b00000000000000000000000000000100#32) = .ok .decompressTrust := by decide
theorem decode_decompressSafe :
    decode .command (.command 0b00000000000000000000000000000101#32) = .ok .decompressSafe := by decide
theorem decode_illegal :
    decode .command (.command 0b00000000000000000000000000000110#32) = .ok (.illegal 6#32) := by decide
theorem decode_seqSS : decode (.token false) (.byte 0b00100010#8) = .ok (.seqSS 2#4 2#4) := by decide
theorem decode_seqXS : decode (.token false) (.byte 0b11110100#8) = .ok (.seqXS 4#4) := by decide
theorem decode_seqSX : decode (.token false) (.byte 0b00011111#8) = .ok (.seqSX 1#4) := by decide
theorem decode_seqXX : decode (.token false) (.byte 0b11111111#8) = .ok .seqXX := by decide
theorem decode_lastS : decode (.token true) (.byte 0b01011010#8) = .ok (.lastS 5#4 10#4) := by decide
theorem decode_lastX : decode (.token true) (.byte 0b11110000#8) = .ok (.lastX 0#4) := by decide
theorem decode_extMore : decode .extension (.byte 0b11111111#8) = .ok .extMore := by decide
theorem decode_extEnd : decode .extension (.byte 0b11010010#8) = .ok (.extEnd 0xD2#8) := by decide
theorem decode_rejects_wrong_width :
    decode .command (.byte 0x02#8) = .error .wrongWidth ∧ decode .extension (.command 0x02#32) = .error .wrongWidth ∧
      decode (.token true) (.command 0x02#32) = .error .wrongWidth := by decide

/-- The decoder on table words (log 16). -/
theorem decode_table_words :
    decodeTableWord 32 3 = some .compressHc ∧ decodeTableWord 8 0x1F = some (.seqSX 1#4) ∧
      decodeTableWord 16 0 = none := by decide

/-- A table word placed by `withFetchWord` is what the next step runs (log 3, log 16). -/
theorem table_word_runs :
    step (State.reset.withFetchWord 32 9) = exec (.illegal 9#32) State.reset ∧
      answers (step (State.reset.withFetchWord 32 1)) (2, 16, 0) = true ∧
      answers (step (State.reset.withFetchWord 8 0x22)) (0x33, 0, 3) = true := ⟨rfl, by decide, by decide⟩

/-- V-E3 to V-E8, V-E14. -/
theorem test_length_fields :
    extensionBytes 14 = [] ∧ extensionBytes 15 = [0x00] ∧ extensionBytes 16 = [0x01] ∧ extensionBytes 269 = [0xFE] ∧
      extensionBytes 270 = [0xFF, 0x00] ∧ extensionBytes 524 = [0xFF, 0xFE] ∧
      extensionBytes 525 = [0xFF, 0xFF, 0x00] ∧ extensionBytes 990 = [0xFF, 0xFF, 0xFF, 0xD2] := by decide

/-- V-E17, V-E18, V-E23 to V-E25. -/
theorem test_offsets_and_sizes :
    offsetBytes 255 = [0xFF, 0x00] ∧ offsetBytes 256 = [0x00, 0x01] ∧ seqSize 1 994 = 8 ∧ lastSize 14 = 15 ∧
      lastSize 0 = 1 := by decide

/-- Program P1: both lines of its listing, assembled and read back. -/
theorem test_listing_P1 :
    assemble (.seq [0x61, 0x62] 2 6) = [0x22, 0x61, 0x62, 0x02, 0x00] ∧ assemble (.last [0x63]) = [0x10, 0x63] ∧
      disassemble false [0x22, 0x61, 0x62, 0x02, 0x00, 0x10, 0x63] = .ok (.seq [0x61, 0x62] 2 6, [0x10, 0x63]) ∧
      disassemble true [0x10, 0x63] = .ok (.last [0x63], []) := by decide

/-- The five ways a byte string is no listing line. -/
theorem test_disassemble_rejects :
    disassemble false [] = .error .noToken ∧ disassemble false [0xF0, 0xFF] = .error .openExtension ∧
      disassemble true [0x50, 0x48] = .error .shortLiterals ∧ disassemble false [0x10, 0x41, 0x01] = .error .shortOffset := by
  decide

/-- The decision-grounded parameters have the values of R7, and a host-visible register has width REG_W. -/
theorem parameters_of_R7 :
    Config.parameters.smallLimit = 65536 ∧ Config.parameters.slotWLarge = 32 ∧ Config.parameters.hashMult = 2654435761 ∧
      Config.parameters.skipStrength = 6 ∧ Config.parameters.mfLimit = 12 ∧ Config.parameters.copyLength = 8 ∧
      Config.parameters.hashLogHc = 15 ∧ Config.parameters.chainSize = 65536 ∧ Config.parameters.optimalMl = 18 ∧
      Config.parameters.lazyMinGap = 3 ∧ Config.parameters.maxInputSize = 0x7E000000 ∧
      Word = BitVec Config.parameters.regW ∧ Config.slotWSmall = 16 :=
  ⟨rfl, rfl, rfl, rfl, rfl, rfl, rfl, rfl, rfl, rfl, rfl, rfl, rfl⟩

/-! ## Host commands -/

/-- A block that ended with CorruptInput. -/
def corrupt : State :=
  { State.reset with status := .faulted .corruptInput, faultOff := 5, cmd := 5 }

/-- V-A12. -/
theorem test_clear : answers (exec .clear corrupt) (0, 0, 0) = true := by decide

/-- V-M7. -/
theorem test_maxlen_largest :
    answers (exec .maxlen { State.reset with srcLen := 0x7E000000 }) (2, 2122219150, 0) = true := by decide

/-- V-M8, V-M9. -/
theorem test_maxlen_checks :
    answers (exec .maxlen { State.reset with srcLen := 0x7E000001 }) (0x13, 0, 0) = true ∧
      answers (exec .maxlen { State.reset with srcLen := 0xFFFFFFFF }) (0x13, 0, 0) = true := by decide

/-- V-A5: check K4 fails by one byte, then passes. -/
theorem test_compressFast_K4 :
    let s := { State.reset with srcCap := 19, srcOff := 10, srcLen := 10, dstCap := 64, dstLen := 64 }
    answers (exec .compressFast s) (0x13, 0, 0) = true ∧
      answers (exec .compressFast { s with srcCap := 20 }) (1, 0, 0) = true := by decide

/-- V-A2: check K2. -/
theorem test_compressHc_K2 :
    answers (exec .compressHc { State.reset with srcCap := 10, dstCap := 10, dstOff := -4 }) (0x13, 0, 0) = true := by
  decide

/-- V-A7, V-A8: check K5, and the source exhausted at SRC_CAP. -/
theorem test_decompressTrust_K5 :
    let s := { State.reset with srcCap := 4, srcOff := 5, dstCap := 8, dstLen := 8 }
    answers (exec .decompressTrust s) (0x13, 0, 0) = true ∧
      answers (step (run .decompressTrust { s with srcOff := 4 })) (0x33, 0, 4) = true := by decide

/-- V-A6: the sum of K4 is exact. -/
theorem test_decompressSafe_K4 :
    answers (exec .decompressSafe { State.reset with srcCap := 100, srcOff := 2147483647, srcLen := 2147483647 })
      (0x13, 0, 0) = true := by decide

/-- V-A11. -/
theorem test_illegal : answers (exec (.illegal 6) corrupt) (0x13, 0, 0) = true := by decide

/-! ## Stream instructions: one step from ReadToken -/

/-- V-D24, first sequence. -/
theorem test_seqSS :
    let t := tick (run .decompressTrust (job 0 [0x22, 0x61, 0x62, 0x02, 0x00, 0x10, 0x63] 9))
    out 8 t = [0x61, 0x62, 0x61, 0x62, 0x61, 0x62, 0x61, 0x62] ∧ t.bd.sPos = 5 ∧ t.dPos = 8 := by decide

/-- V-D45: X6, and FAULT_OFF is absolute. -/
theorem test_seqSS_offset_0 :
    answers (step (run .decompressSafe (job 3 [0x10, 0x41, 0x00, 0x00, 0x00] 20))) (0x33, 0, 5) = true := by decide

/-- V-D29, first sequence. -/
theorem test_seqXS :
    let t := tick (run .decompressSafe (job 0 ([0xF0, 0x00] ++ List.replicate 15 0x41 ++ [0x01, 0x00, 0x00]) 100))
    out 19 t = List.replicate 19 0x41 ∧ t.bd.sPos = 19 ∧ t.dPos = 19 := by decide

/-- V-D31: X2. -/
theorem test_seqXS_open_extension :
    answers (step (run .decompressSafe (job 0 [0xF0, 0xFF, 0xFF] 2000))) (0x33, 0, 3) = true := by decide

/-- V-S4, decoded. -/
theorem test_seqSX :
    let t := tick (run .decompressSafe (job 0 [0x2F, 0x61, 0x62, 0x02, 0x00, 0x00, 0x00] 30))
    out 21 t = (List.replicate 10 [0x61, 0x62]).flatten ++ [0x61] ∧ t.bd.matchLen = 19 ∧ t.dPos = 21 := by decide

/-- V-D37: X8. -/
theorem test_seqSX_open_extension :
    answers (step (run .decompressTrust (job 0 [0x1F, 0x41, 0x01, 0x00, 0xFF, 0xFF] 2000))) (0x33, 0, 6) = true := by decide

/-- Program P3, first sequence. -/
theorem test_seqXX :
    let lits : List Byte :=
      [0x30, 0x31, 0x32, 0x33, 0x34, 0x35, 0x36, 0x37, 0x38, 0x39, 0x3A, 0x3B, 0x3C, 0x3D, 0x3E]
    let t := tick (run .decompressTrust (job 0 ([0xFF, 0x00] ++ lits ++ [0x0F, 0x00, 0x00, 0x00]) 34))
    out 34 t = lits ++ lits ++ lits.take 4 ∧ t.bd.sPos = 20 ∧ t.bd.matchLen = 19 := by decide

/-- V-D30: the low nibble of the final token is ignored; RESULT in both modes. -/
theorem test_lastS :
    let s := job 0 [0x5A, 0x48, 0x65, 0x6C, 0x6C, 0x6F] 5
    let t := tick (run .decompressTrust s)
    answer t = (2, 6, 0) ∧ out 5 t = [0x48, 0x65, 0x6C, 0x6C, 0x6F] ∧
      answers (step (run .decompressSafe s)) (2, 5, 0) = true := by decide

/-- V-D16: the same token is final under DST_LEN = 1. -/
theorem test_lastS_by_room :
    answers (step (run .decompressTrust (job 0 [0x1F, 0x41, 0x01, 0x00, 0xFF, 0xFF, 0xFF, 0xD2, 0x50] 1))) (2, 2, 0) = true := by
  decide

/-- V-S8, decoded. -/
theorem test_lastX :
    let t := tick (run .decompressSafe (job 0 ([0xF0, 0x05] ++ List.replicate 20 0x5A) 30))
    answer t = (2, 20, 0) ∧ out 20 t = List.replicate 20 0x5A := by decide

/-- V-E6, the extension bytes one at a time. -/
theorem test_ext :
    let s := unit (run .decompressSafe (job 0 [0xF0, 0xFF, 0x07] 500))
    (run .extMore s).bd.litLen = 270 ∧ (run .extMore s).bd.bdState = .readLiteralLenExtension ∧
      (run (.extEnd 0x07) (run .extMore s)).bd.litLen = 277 ∧
      (run (.extEnd 0x07) (run .extMore s)).bd.bdState = .copyLiterals := by decide

/-- Outside a length extension there is no such instruction (log 18). -/
theorem test_ext_refused :
    exec (.extEnd 0x07) (run .decompressSafe (job 0 [0x50] 5)) = .refused .extensionOutsideLength := rfl

/-! ## The compressors' operations -/

/-- The values R131, V-F10 and V-H2 work out. -/
theorem test_hash :
    hash 0x41414141 12 = 0x18E ∧ hash (word32 0x41 0x42 0x43 0x44) 12 = 0x56C ∧
      hash (word32 0x73 0x74 0x75 0x76) 12 = 0x69F ∧ hash (word32 0x61 0x62 0x63 0x64) 15 = 0x3186 := by decide

/-- A compress command about to emit, N bytes of 0x41 in all. -/
def emitting (n anchor dPos dEnd : Nat) : State :=
  let s := job 0 (List.replicate 20 0x41) dEnd
  { s with
    srcCap := BitVec.ofNat 32 n, dPos := dPos, dEnd := dEnd, mf := { s.mf with n := n, anchor := anchor } }

/-- V-S1. -/
theorem test_emitSeq :
    wrote (emitSeq 1 0 994 (emitting 1000 0 0 1019)) 0 [0x1F, 0x41, 0x01, 0x00, 0xFF, 0xFF, 0xFF, 0xD2] = true := by decide

/-- V-S2. -/
theorem test_emitSeq_no_literal :
    wrote (emitSeq 28 12 8 (emitting 49 28 24 100)) 24 [0x04, 0x10, 0x00] = true := by decide

/-- V-S7, V-S9, V-S11. -/
theorem test_emitLast :
    wrote (emitLast (emitting 0 0 0 1)) 0 [0x00] = true ∧ wrote (emitSeq 1 0 994 (emitting 1000 0 0 7)) 0 [] = false ∧
      wrote (emitLast (emitting 20 15 8 13)) 8 [] = false := by decide

/-- V-F4: PROBE(1), CATCHUP, EXTEND and EMIT, each from the state the trace gives. -/
def runOf41 : State := run .compressFast (job 0 (List.replicate 13 0x41) 29)

theorem test_probe : (valueOf (probe 1 { runOf41 with ht := [(0x18E, some 0)] })).map Prod.fst = some (some 0) := by decide

theorem test_extend :
    (tick { runOf41 with mf := { runOf41.mf with ip := 1, cand := some 0, htState := .extend } }).mf.mlen = 7 := by decide

/-- The source of V-F11 and V-H2. -/
def lazySource : List Byte := ascii "abcdXbcdefghiYabcdefghi0123456789012"

/-- V-H2: FIND_BEST(14). -/
theorem test_findBest :
    (valueOf (findBest 14 (run .compressHc (job 0 lazySource 52)))).map Prod.snd = some { start := 14, ref := 0, len := 4 } := by
  decide

/-- V-H2: FIND_WIDER(16, 15, 4). -/
theorem test_findWider :
    (valueOf (findWider 16 15 4 .reset (run .compressHc (job 0 lazySource 52)))).map Prod.snd =
      some { start := 15, ref := 5, len := 8 } := by decide

/-! ## Witnesses: states and operands that meet the hypotheses of each statement -/

theorem decodingOf {s : State} (h : (s.isBusy && (s.cmd == 4 || s.cmd == 5) && s.host == []) = true) : Decoding s := by
  simp only [Bool.and_eq_true, Bool.or_eq_true, beq_iff_eq] at h
  exact ⟨h.1.1, h.1.2, h.2⟩

theorem compressingOf {code : Word} {s : State} (h : (s.isBusy && s.cmd == code && s.host == []) = true) :
    Compressing code s := by
  simp only [Bool.and_eq_true, beq_iff_eq] at h
  exact ⟨h.1.1, h.1.2, h.2⟩

/-- V-D24, at the start of the stream, and after its first sequence. -/
def stream : State := run .decompressSafe (job 0 [0x22, 0x61, 0x62, 0x02, 0x00, 0x10, 0x63] 16)
def streamEnd : State := tick stream

/-- The same under DECOMPRESS_TRUST with two trailing bytes. -/
def trusted : State := run .decompressTrust (job 0 [0x22, 0x61, 0x62, 0x02, 0x00, 0x10, 0x63, 0xAA, 0xBB] 9)

/-- The decoder in ReadLiteralLenExtension, with two bytes left and with one. -/
def inLiteralExtension : State := unit (run .decompressSafe (job 0 [0xF0, 0xFF, 0x07] 500))
def lastExtensionByte : State := unit (run .decompressSafe (job 0 [0xF0, 0xFF] 500))

/-- The decoder in ReadMatchLenExtension (V-S4). -/
def inMatchExtension : State := unit (unit (unit (run .decompressSafe (job 0 [0x2F, 0x61, 0x62, 0x02, 0x00, 0x00, 0x00] 30))))

/-- The decoder in CopyLiterals, ReadOffset and CopyMatch (V-D24). -/
def inCopyLiterals : State := unit stream
def inReadOffset : State := unit inCopyLiterals
def inCopyMatch : State := unit inReadOffset

/-- COMPRESS_FAST on 13 bytes 0x41 (V-F4) at its labels; COMPRESS_HC on the source of V-H2. -/
def fastStart : State := runOf41
def fastLoop : State := tick fastStart
def fastCatchup : State := tick (tick fastLoop)
def fastExtend : State := tick fastCatchup
def fastEmit : State := tick fastExtend
def fastTail : State := tick fastEmit
def chainStart : State := run .compressHc (job 0 lazySource 52)
def chainAt14 : State := { chainStart with mf := { chainStart.mf with ip := 14 } }
def chainSearch : State := tick chainAt14
def chainTail : State := { chainStart with mf := { chainStart.mf with anchor := 23, ip := 25 }, hc := { chainStart.hc with hcState := .tail } }

/-- An idle host with one pending move. -/
def asks (m : HostMove) : State := { job 0 [0x41, 0x42] 4 with host := [m] }

theorem decoderRulesOf {s : State} (h0 : 0 ≤ s.srcOff.toInt ∧ s.srcOff.toInt + s.bd.sEnd ≤ s.srcCap.toInt)
    (h1 : 0 ≤ s.dstOff.toInt ∧ (s.dEnd : Int) = s.dstLen.toInt ∧ s.dstOff.toInt + s.dEnd ≤ s.dstCap.toInt ∧ s.dPos ≤ s.dEnd)
    (h2 : ((s.bd.sEnd : Int) = if s.cmd = trustCode then s.srcCap.toInt - s.srcOff.toInt else s.srcLen.toInt) ∧
      s.bd.sPos ≤ s.bd.sEnd)
    (h3 : s.bd.bdState = .readToken) : DecoderRules s := by
  refine ⟨⟨h0.1, h0.2⟩, ⟨h1.1, h1.2.1, h1.2.2.1, h1.2.2.2⟩, h2.1, h2.2, ?_, ?_, ?_, ?_, ?_⟩ <;> simp [h3]

theorem finderRulesOf {s : State} (h0 : 0 ≤ s.srcOff.toInt ∧ s.srcOff.toInt + s.mf.n ≤ s.srcCap.toInt)
    (h1 : 0 ≤ s.dstOff.toInt ∧ (s.dEnd : Int) = s.dstLen.toInt ∧ s.dstOff.toInt + s.dEnd ≤ s.dstCap.toInt ∧ s.dPos ≤ s.dEnd)
    (h2 : (s.mf.n : Int) = s.srcLen.toInt ∧ s.mf.mfLimit = s.mf.n - 12 ∧ s.mf.matchLimit = s.mf.n - 5 ∧ s.mf.anchor ≤ s.mf.n) :
    FinderRules s :=
  ⟨⟨h0.1, h0.2⟩, ⟨h1.1, h1.2.1, h1.2.2.1, h1.2.2.2⟩, h2.1, h2.2.1, h2.2.2.1, h2.2.2.2⟩

theorem fastSafe {s : State} (hc : s.cmd = 2) (hf : FinderRules s) (hr : FastRules s) : Safe s := by
  refine ⟨fun _ => .inl hc, fun _ h => ?_, fun _ _ => hf, fun _ _ => hr, fun _ h => ?_⟩ <;> simp [hc] at h

theorem chainSafe {s : State} (hc : s.cmd = 3) (hf : FinderRules s) (hr : ChainRules s) : Safe s := by
  refine ⟨fun _ => .inr (.inl hc), fun _ h => ?_, fun _ _ => hf, fun _ h => ?_, fun _ _ => hr⟩ <;> simp [hc] at h

theorem decoderSafe {s : State} (hc : s.cmd = 5) (hr : DecoderRules s) : Safe s := by
  refine ⟨fun _ => .inr (.inr (.inr hc)), fun _ _ => hr, fun _ h => ?_, fun _ h => ?_, fun _ h => ?_⟩ <;> simp [hc] at h

theorem stream_decoding : Decoding stream := decodingOf (by decide)
theorem stream_rules : DecoderRules stream := decoderRulesOf (by decide) (by decide) (by decide) (by decide)
theorem fastStart_finder : FinderRules fastStart := finderRulesOf (by decide) (by decide) (by decide)
theorem fastCatchup_finder : FinderRules fastCatchup := finderRulesOf (by decide) (by decide) (by decide)
theorem fastExtend_finder : FinderRules fastExtend := finderRulesOf (by decide) (by decide) (by decide)
theorem chainStart_finder : FinderRules chainStart := finderRulesOf (by decide) (by decide) (by decide)

theorem slotsBelowOf {s : State} {p : Nat}
    (h : s.ht.all (fun e => e.2.all fun q => decide (q < p ∧ q + 12 ≤ s.mf.n)) = true) : SlotsBelow s p := by
  intro e he q hq
  have := List.all_eq_true.mp h e he
  simpa [hq] using this

theorem candidateOf {s : State} {k : Nat} (c : Nat) (h : s.mf.cand = some c ∧ c < s.mf.ip ∧ s.mf.ip - c ≤ 65535 ∧
    s.mf.anchor ≤ s.mf.ip ∧ s.mf.ip + 12 ≤ s.mf.n ∧ ∀ i, i < k → srcAt s (c + i) = srcAt s (s.mf.ip + i)) :
    CandidateOk s k := ⟨c, h⟩

theorem matchOkOf {s : State} {m : MatchReg} (h : 0 ≤ m.ref ∧ m.ref < m.start ∧ m.start - m.ref ≤ 65535 ∧ 4 ≤ m.len ∧
    m.stop ≤ s.mf.matchLimit) (hs : ∀ i, i < m.len.toNat → srcAt s (m.ref + i) = srcAt s (m.start + i)) : MatchOk s m :=
  ⟨h.1, h.2.1, h.2.2.1, h.2.2.2.1, h.2.2.2.2, hs⟩

theorem fastStart_safe : Safe fastStart :=
  fastSafe (by decide) fastStart_finder ⟨by decide, slotsBelowOf (by decide)⟩

theorem fastCatchup_safe : Safe fastCatchup :=
  fastSafe (by decide) fastCatchup_finder ⟨candidateOf 0 (by decide), slotsBelowOf (by decide)⟩

theorem fastExtend_safe : Safe fastExtend :=
  fastSafe (by decide) fastExtend_finder
    ⟨1, by decide, by decide, candidateOf 0 (by decide), slotsBelowOf (by decide)⟩

theorem chainStart_safe : Safe chainStart := chainSafe (by decide) chainStart_finder trivial

theorem stream_safe : Safe stream := decoderSafe (by decide) stream_rules

theorem busy_srcRegion {s : State} (h : 0 ≤ s.srcOff.toInt ∧ s.srcOff.toInt + s.bd.sEnd ≤ s.srcCap.toInt) :
    SrcRegion s.bd.sEnd s := ⟨h.1, h.2⟩

theorem busy_dstRegion {s : State} (h : 0 ≤ s.dstOff.toInt ∧ (s.dEnd : Int) = s.dstLen.toInt ∧
    s.dstOff.toInt + s.dEnd ≤ s.dstCap.toInt ∧ s.dPos ≤ s.dEnd) : DstRegion s := ⟨h.1, h.2.1, h.2.2.1, h.2.2.2⟩

theorem statusRulesOf {s : State} (h : (s.status.cause ≠ .none ↔ s.status.run = .fault) ∧
    (s.status.run ≠ .done → s.result = 0) ∧ (s.status.cause ≠ .corruptInput → s.faultOff = 0)) : StatusRules s :=
  ⟨h.1, h.2.1, h.2.2⟩

/-- A step that answers a next state. -/
theorem step_tick {s : State} (h : (match step s with | .next _ => true | .fault _ => false | .refused _ => false) = true) :
    step s = .next (tick s) := by
  unfold tick nextOf
  split at h <;> simp_all

/-! ### Encodings -/

theorem witness_EncodingTables : 6 ≤ (6 : Word).toNat ∧ 6 ≤ (0xFFFFFFFF : Word).toNat := by decide
theorem witness_DecodeEncodeInverse : (Instr.illegal 6).wf = true ∧ (Instr.extEnd 254).wf = true ∧
    decode .extension (.byte 254) = .ok (.extEnd 254) := by decide
theorem witness_LengthExtensionIsSum : (254 : Byte) ≠ 255 ∧ readExtension 15 [255, 254, 7] = .ok (524, [7]) := by decide
theorem witness_WriteLenBytes : 15 ≤ 15 ∧ 15 ≤ 270 := by decide
theorem witness_AssembleDisassembleAgree : (Line.seq [] 1 4).wf = true ∧ (Line.seq [7] 65535 19).wf = true := by decide

/-- Program P1 is a block, and so it is with any low nibble in its final token (V-D30's A); the byte 01 is a block of no
output. -/
theorem witness_BlockSizeBound :
    IsBlock ([] ++ assemble (.seq [0x61, 0x62] 2 6) ++ finalBytes 0xA [0x63])
      (copyBack 2 6 ([] ++ [0x61, 0x62]) ++ [0x63]) ∧ IsBlock [0x01] [] :=
  ⟨⟨_, _, _, 0xA, .seq [] [] [0x61, 0x62] 2 6 .nil (by decide) (by decide) trivial, rfl, rfl⟩,
    [], [], [], 1, .nil, by decide, rfl⟩

/-- The block of V-F4 keeps the encoder's restrictions: its match starts 12 and ends 5 bytes before the end. -/
theorem V_F4_is_written_block :
    IsWrittenBlock [0x13, 0x41, 0x01, 0x00, 0x50, 0x41, 0x41, 0x41, 0x41, 0x41] (List.replicate 13 0x41) :=
  ⟨_, _, List.replicate 5 0x41, .seq [] [] [0x41] 1 7 .nil (by decide) (by decide) ⟨by decide, by decide⟩, by decide, by decide⟩

/-! ### Status, reset and the host -/

theorem witness_ResetAtAnyTime :
    (∃ s : State, s.host = [.reset] ∧ s.isBusy = true ∧ dstBase s ≤ 0 ∧ 0 < dstLimit s) ∧
      ∃ s : State, s.host = [.reset] ∧ s.isBusy = false :=
  ⟨⟨{ stream with host := [.reset] }, by decide⟩, asks .reset, by decide⟩
theorem witness_StatusRulesKept : StatusRules stream ∧ step stream = .next streamEnd :=
  ⟨statusRulesOf (by decide), step_tick (by decide)⟩
theorem witness_ArgumentWriteReadsBack :
    0x08 ∈ [0x08, 0x0C, 0x10, 0x14, 0x18, 0x1C] ∧ (asks (.writeReg 0x08 7)).isBusy = false ∧
      (asks (.writeReg 0x08 7)).host = [.writeReg 0x08 7] ∧ (asks (.writeReg 0x1C 0xFFFFFFFF)).isBusy = false := by decide
theorem witness_RegisterAccessWhileBusy :
    ({ stream with host := [.writeReg 0 2] } : State).isBusy = true ∧ (asks (.writeReg 0x20 9)).host = [.writeReg 0x20 9] ∧
      (asks (.readReg 0x24)).host = [.readReg 0x24] ∧ stream.isBusy = true ∧ StatusRules stream :=
  ⟨by decide, rfl, rfl, by decide, statusRulesOf (by decide)⟩
theorem witness_HostMemoryAccess :
    0 < 2 ^ 31 - 1 ∧ 2 ^ 31 - 2 < 2 ^ 31 - 1 ∧ ({ stream with host := [.readDst 0] } : State).isBusy = true ∧
      (asks (.writeSrc 0 1)).isBusy = false ∧ (asks (.writeSrc 0 1)).storageWf = true ∧
      (asks (.writeDst 2147483646 1)).isBusy = false ∧ (asks (.writeDst 2147483646 1)).storageWf = true ∧
      (asks (.readDst 0)).isBusy = false ∧ (asks (.readSrc 0)).isBusy = false := by decide
theorem witness_IdleWaitsAndPollEnds :
    State.reset.isBusy = false ∧ State.reset.host = [] ∧ (asks .poll).isBusy = false ∧ (asks .poll).host = [.poll] := by
  decide
theorem witness_StepRunsDecodedInstruction :
    (asks (.writeReg 0 2)).host = [.writeReg 0 2] ∧ Decoding stream ∧ SrcRegion stream.bd.sEnd stream ∧
      (stream.bd.bdState = .readToken ∧ stream.bd.sPos < stream.bd.sEnd) ∧
      (Decoding inLiteralExtension ∧ SrcRegion inLiteralExtension.bd.sEnd inLiteralExtension ∧
        inLiteralExtension.bd.bdState = .readLiteralLenExtension ∧ inLiteralExtension.bd.sPos < inLiteralExtension.bd.sEnd) ∧
      (Decoding inMatchExtension ∧ SrcRegion inMatchExtension.bd.sEnd inMatchExtension ∧
        inMatchExtension.bd.bdState = .readMatchLenExtension ∧ inMatchExtension.bd.sPos < inMatchExtension.bd.sEnd) ∧
      ∃ s : State, Decoding s ∧ SrcRegion s.bd.sEnd s ∧ s.bd.bdState = .readToken ∧ s.bd.sEnd ≤ s.bd.sPos :=
  ⟨rfl, stream_decoding, busy_srcRegion (by decide), by decide,
    ⟨decodingOf (by decide), busy_srcRegion (by decide), by decide, by decide⟩,
    ⟨decodingOf (by decide), busy_srcRegion (by decide), by decide, by decide⟩,
    run .decompressSafe (job 0 [] 10), decodingOf (by decide), busy_srcRegion (by decide), by decide, by decide⟩
theorem witness_FinalChoiceIsTerminalTest :
    (∃ u v, literalLength 0x22 stream = .go u ∧ copyLiterals u = .go v) ∧
      (∃ r, literalLength 0xF0 { lastExtensionByte with bd := { lastExtensionByte.bd with bdState := .readToken } } = .stop r) ∧
      ∃ u : State, literalLength 0x50 { stream with bd := { stream.bd with sEnd := 3 } } = .go u ∧ SrcRegion u.bd.sEnd u ∧
        DstRegion u ∧ ∀ v, copyLiterals u ≠ .go v :=
  ⟨⟨_, _, rfl, rfl⟩, ⟨_, rfl⟩, _, rfl, busy_srcRegion (by decide), busy_dstRegion (by decide), fun _ h => nomatch h⟩

/-! ### Host commands -/

theorem witness_ClearReturnsToIdle : corrupt.isBusy = false ∧ State.reset.isBusy = false := by decide
theorem witness_MaxlenResult :
    State.reset.isBusy = false ∧ ({ State.reset with srcLen := 0x7E000000 } : State).srcLen.toInt = 2113929216 ∧
      ({ State.reset with srcLen := 0 } : State).srcLen.toInt = 0 ∧
      ({ State.reset with srcLen := 0x7E000001 } : State).srcLen.toInt > 2113929216 ∧
      ({ State.reset with srcLen := 0x80000000 } : State).srcLen.toInt < 0 := by decide

/-- A block of the largest source, and a block of none, both with no room. -/
theorem witness_CompressCommandsStart :
    ∃ (s u : State) (n d : Nat), s.isBusy = false ∧ s.srcLen.toInt = n ∧ s.dstLen.toInt = d ∧ 0 ≤ s.srcOff.toInt ∧
      0 ≤ s.dstOff.toInt ∧ s.srcOff.toInt + n ≤ s.srcCap.toInt ∧ s.dstOff.toInt + d ≤ s.dstCap.toInt ∧ n ≤ 2113929216 ∧
      n = 2113929216 ∧ u = State.reset ∧ u.srcLen.toInt = 0 ∧ u.isBusy = false :=
  ⟨{ State.reset with srcLen := 0x7E000000, srcCap := 0x7E000000 }, State.reset, 2113929216, 0, by decide⟩
theorem witness_DecompressCommandsStart :
    let s := job 3 [0x50, 0x41] 5
    s.isBusy = false ∧ s.dstLen.toInt = (5 : Nat) ∧ 0 ≤ s.srcOff.toInt ∧ 0 ≤ s.dstOff.toInt ∧
      s.dstOff.toInt + (5 : Nat) ≤ s.dstCap.toInt ∧ s.srcCap.toInt - s.srcOff.toInt = (2 : Nat) ∧
      s.srcLen.toInt = (2 : Nat) ∧ s.srcOff.toInt + (2 : Nat) ≤ s.srcCap.toInt := by decide

/-- One state for each check alone, and one that passes them all: V-A1 to V-A9. -/
theorem witness_ArgumentChecks :
    State.reset.isBusy = false ∧ ({ State.reset with srcCap := -1 } : State).srcCap.toInt < 0 ∧
      ({ State.reset with dstOff := -4 } : State).dstOff.toInt < 0 ∧
      ({ State.reset with srcLen := -1 } : State).srcLen.toInt < 0 ∧
      (let s : State := { State.reset with srcCap := 19, srcOff := 10, srcLen := 10 }
       s.srcOff.toInt + s.srcLen.toInt > s.srcCap.toInt) ∧
      (let s : State := { State.reset with srcCap := 4, srcOff := 5 }
       s.srcOff.toInt > s.srcCap.toInt) ∧
      (let s : State := { State.reset with dstCap := 20, dstOff := 8, dstLen := 15 }
       s.dstOff.toInt + s.dstLen.toInt > s.dstCap.toInt) ∧
      ({ State.reset with srcLen := 0x7E000001 } : State).srcLen.toInt > 2113929216 := by decide
theorem witness_IllegalCommandFaults : corrupt.isBusy = false ∧ 6 ≤ (6 : Word).toNat ∧ 6 ≤ (0xFFFFFFFF : Word).toNat := by
  decide

/-! ### Stream instructions -/

/-- The hypotheses of SequencesExecute. -/
theorem sequenceOf {s : State} {lits : List Byte} {off : Half} {len : Nat}
    (h : (Line.seq lits off len).wf = true ∧ Memory.wf s.dst = true ∧
      srcRun s s.bd.sPos (seqSize lits.length len) = assemble (.seq lits off len) ∧
      s.bd.sPos + seqSize lits.length len ≤ s.bd.sEnd ∧ off.toNat ≤ s.dPos + lits.length ∧
      s.dPos + lits.length + len ≤ s.dEnd ∧ 0 ≤ s.srcOff.toInt ∧ s.srcOff.toInt + s.bd.sEnd ≤ s.srcCap.toInt ∧
      0 ≤ s.dstOff.toInt ∧ (s.dEnd : Int) = s.dstLen.toInt ∧ s.dstOff.toInt + s.dEnd ≤ s.dstCap.toInt ∧ s.dPos ≤ s.dEnd) :
    (Line.seq lits off len).wf = true ∧ SrcRegion s.bd.sEnd s ∧ DstRegion s ∧ Memory.wf s.dst = true ∧
      srcRun s s.bd.sPos (seqSize lits.length len) = assemble (.seq lits off len) ∧
      s.bd.sPos + seqSize lits.length len ≤ s.bd.sEnd ∧ off.toNat ≤ s.dPos + lits.length ∧
      s.dPos + lits.length + len ≤ s.dEnd :=
  ⟨h.1, ⟨h.2.2.2.2.2.2.1, h.2.2.2.2.2.2.2.1⟩,
    ⟨h.2.2.2.2.2.2.2.2.1, h.2.2.2.2.2.2.2.2.2.1, h.2.2.2.2.2.2.2.2.2.2.1, h.2.2.2.2.2.2.2.2.2.2.2⟩, h.2.1, h.2.2.1,
    h.2.2.2.1, h.2.2.2.2.1, h.2.2.2.2.2.1⟩

/-- SEQ.ss (V-D24), SEQ.xs (V-D29), SEQ.sx (V-S4) and SEQ.xx (P3), each with its token. -/
theorem witness_SequencesExecute :
    (∃ s lits off len, decodeToken false (tokenByte (fieldNibble lits.length) (fieldNibble (len - 4))) = .seqSS 2 2 ∧
      (Line.seq lits off len).wf = true ∧ SrcRegion s.bd.sEnd s ∧ DstRegion s ∧ Memory.wf s.dst = true ∧
      srcRun s s.bd.sPos (seqSize lits.length len) = assemble (.seq lits off len) ∧
      s.bd.sPos + seqSize lits.length len ≤ s.bd.sEnd ∧ off.toNat ≤ s.dPos + lits.length ∧
      s.dPos + lits.length + len ≤ s.dEnd) ∧
    (∃ s lits off len, decodeToken false (tokenByte (fieldNibble lits.length) (fieldNibble (len - 4))) = .seqXS 0 ∧
      (Line.seq lits off len).wf = true ∧ SrcRegion s.bd.sEnd s ∧ DstRegion s ∧ Memory.wf s.dst = true ∧
      srcRun s s.bd.sPos (seqSize lits.length len) = assemble (.seq lits off len) ∧
      s.bd.sPos + seqSize lits.length len ≤ s.bd.sEnd ∧ off.toNat ≤ s.dPos + lits.length ∧
      s.dPos + lits.length + len ≤ s.dEnd) ∧
    (∃ s lits off len, decodeToken false (tokenByte (fieldNibble lits.length) (fieldNibble (len - 4))) = .seqSX 2 ∧
      (Line.seq lits off len).wf = true ∧ SrcRegion s.bd.sEnd s ∧ DstRegion s ∧ Memory.wf s.dst = true ∧
      srcRun s s.bd.sPos (seqSize lits.length len) = assemble (.seq lits off len) ∧
      s.bd.sPos + seqSize lits.length len ≤ s.bd.sEnd ∧ off.toNat ≤ s.dPos + lits.length ∧
      s.dPos + lits.length + len ≤ s.dEnd) ∧
    ∃ s lits off len, decodeToken false (tokenByte (fieldNibble lits.length) (fieldNibble (len - 4))) = .seqXX ∧
      (Line.seq lits off len).wf = true ∧ SrcRegion s.bd.sEnd s ∧ DstRegion s ∧ Memory.wf s.dst = true ∧
      srcRun s s.bd.sPos (seqSize lits.length len) = assemble (.seq lits off len) ∧
      s.bd.sPos + seqSize lits.length len ≤ s.bd.sEnd ∧ off.toNat ≤ s.dPos + lits.length ∧
      s.dPos + lits.length + len ≤ s.dEnd :=
  ⟨⟨stream, [0x61, 0x62], 2, 6, by decide, sequenceOf (by decide)⟩,
    ⟨run .decompressSafe (job 0 ([0xF0, 0x00] ++ List.replicate 15 0x41 ++ [0x01, 0x00, 0x00]) 100),
      List.replicate 15 0x41, 1, 4, by decide, sequenceOf (by decide)⟩,
    ⟨run .decompressSafe (job 0 [0x2F, 0x61, 0x62, 0x02, 0x00, 0x00, 0x00] 21), [0x61, 0x62], 2, 19, by decide,
      sequenceOf (by decide)⟩,
    run .decompressSafe (job 0 ([0xFF, 0x00] ++ List.replicate 15 0x30 ++ [0x0F, 0x00, 0x00, 0x00]) 34),
    List.replicate 15 0x30, 15, 19, by decide, sequenceOf (by decide)⟩

/-- The hypotheses of FinalSequencesExecute. -/
theorem finalOf {s : State} {lits : List Byte} {ignored : Nibble}
    (h : Memory.wf s.dst = true ∧
      srcRun s s.bd.sPos (lastSize lits.length) =
        tokenByte (fieldNibble lits.length) ignored :: (extensionBytes lits.length ++ lits) ∧
      s.bd.sPos + lastSize lits.length ≤ s.bd.sEnd ∧ s.dPos + lits.length ≤ s.dEnd ∧ 0 ≤ s.srcOff.toInt ∧
      s.srcOff.toInt + s.bd.sEnd ≤ s.srcCap.toInt ∧ 0 ≤ s.dstOff.toInt ∧ (s.dEnd : Int) = s.dstLen.toInt ∧
      s.dstOff.toInt + s.dEnd ≤ s.dstCap.toInt ∧ s.dPos ≤ s.dEnd) :
    SrcRegion s.bd.sEnd s ∧ DstRegion s ∧ Memory.wf s.dst = true ∧
      srcRun s s.bd.sPos (lastSize lits.length) =
        tokenByte (fieldNibble lits.length) ignored :: (extensionBytes lits.length ++ lits) ∧
      s.bd.sPos + lastSize lits.length ≤ s.bd.sEnd ∧ s.dPos + lits.length ≤ s.dEnd :=
  ⟨⟨h.2.2.2.2.1, h.2.2.2.2.2.1⟩,
    ⟨h.2.2.2.2.2.2.1, h.2.2.2.2.2.2.2.1, h.2.2.2.2.2.2.2.2.1, h.2.2.2.2.2.2.2.2.2⟩, h.1, h.2.1, h.2.2.1, h.2.2.2.1⟩

/-- LAST.s with no literal (V-D10) and with five (V-D30), and LAST.x (V-S8). -/
theorem witness_FinalSequencesExecute :
    (∃ s : State, s.cmd = 4 ∧ SrcRegion s.bd.sEnd s ∧ DstRegion s ∧ Memory.wf s.dst = true ∧
      srcRun s s.bd.sPos (lastSize ([] : List Byte).length) =
        tokenByte (fieldNibble ([] : List Byte).length) 0 :: (extensionBytes ([] : List Byte).length ++ []) ∧
      s.bd.sPos + lastSize ([] : List Byte).length ≤ s.bd.sEnd ∧ s.dPos + ([] : List Byte).length ≤ s.dEnd) ∧
    (∃ (s : State) (lits : List Byte), s.cmd = 5 ∧ lits.length = 5 ∧ SrcRegion s.bd.sEnd s ∧ DstRegion s ∧
      Memory.wf s.dst = true ∧
      srcRun s s.bd.sPos (lastSize lits.length) =
        tokenByte (fieldNibble lits.length) 0xA :: (extensionBytes lits.length ++ lits) ∧
      s.bd.sPos + lastSize lits.length ≤ s.bd.sEnd ∧ s.dPos + lits.length ≤ s.dEnd) ∧
    ∃ (s : State) (lits : List Byte), s.cmd = 5 ∧ lits.length = 20 ∧ SrcRegion s.bd.sEnd s ∧ DstRegion s ∧
      Memory.wf s.dst = true ∧
      srcRun s s.bd.sPos (lastSize lits.length) =
        tokenByte (fieldNibble lits.length) 0 :: (extensionBytes lits.length ++ lits) ∧
      s.bd.sPos + lastSize lits.length ≤ s.bd.sEnd ∧ s.dPos + lits.length ≤ s.dEnd :=
  ⟨⟨run .decompressTrust (job 0 [0x00] 0), by decide, finalOf (lits := []) (by decide)⟩,
    ⟨run .decompressSafe (job 0 [0x5A, 0x48, 0x65, 0x6C, 0x6C, 0x6F] 5), [0x48, 0x65, 0x6C, 0x6C, 0x6F], by decide,
      by decide, finalOf (by decide)⟩,
    run .decompressSafe (job 0 ([0xF0, 0x05] ++ List.replicate 20 0x5A) 20), List.replicate 20 0x5A, by decide, by decide,
    finalOf (by decide)⟩
theorem witness_ExtMoreAdds255 :
    (inLiteralExtension.bd.sPos < inLiteralExtension.bd.sEnd ∧ inLiteralExtension.bd.bdState = .readLiteralLenExtension) ∧
      (inMatchExtension.bd.sPos < inMatchExtension.bd.sEnd ∧ inMatchExtension.bd.bdState = .readMatchLenExtension) ∧
      Decoding lastExtensionByte ∧ lastExtensionByte.bd.sPos + 1 = lastExtensionByte.bd.sEnd ∧
      ∃ t, exec .extMore lastExtensionByte = .next t :=
  ⟨by decide, by decide, decodingOf (by decide), by decide, _, rfl⟩
theorem witness_ExtEndAddsByte :
    (254 : Byte) ≠ 255 ∧ (0 : Byte) ≠ 255 ∧ inLiteralExtension.bd.sPos < inLiteralExtension.bd.sEnd ∧
      inLiteralExtension.bd.bdState = .readLiteralLenExtension ∧ inMatchExtension.bd.sPos < inMatchExtension.bd.sEnd ∧
      inMatchExtension.bd.bdState = .readMatchLenExtension := by decide
theorem witness_CopyLiteralsState :
    Decoding inCopyLiterals ∧ SrcRegion inCopyLiterals.bd.sEnd inCopyLiterals ∧ DstRegion inCopyLiterals ∧
      Memory.wf inCopyLiterals.dst = true ∧ inCopyLiterals.bd.bdState = .copyLiterals ∧
      inCopyLiterals.bd.sPos ≤ inCopyLiterals.bd.sEnd ∧
      (inCopyLiterals.bd.litLen ≤ inCopyLiterals.bd.sEnd - inCopyLiterals.bd.sPos ∧
        inCopyLiterals.bd.litLen ≤ inCopyLiterals.dEnd - inCopyLiterals.dPos) ∧
      ({ inCopyLiterals with bd := { inCopyLiterals.bd with litLen := 7 } } : State).bd.litLen >
        inCopyLiterals.bd.sEnd - inCopyLiterals.bd.sPos :=
  ⟨decodingOf (by decide), busy_srcRegion (by decide), busy_dstRegion (by decide), by decide, by decide, by decide,
    by decide, by decide⟩
theorem witness_ReadOffsetState :
    Decoding inReadOffset ∧ SrcRegion inReadOffset.bd.sEnd inReadOffset ∧ inReadOffset.bd.bdState = .readOffset ∧
      inReadOffset.bd.sPos ≤ inReadOffset.bd.sEnd ∧ 2 ≤ inReadOffset.bd.sEnd - inReadOffset.bd.sPos ∧
      (let s := { inReadOffset with bd := { inReadOffset.bd with sPos := 6 } }
       s.bd.sEnd - s.bd.sPos < 2) ∧
      (let value := (srcAt inReadOffset inReadOffset.bd.sPos).toNat + 256 * (srcAt inReadOffset (inReadOffset.bd.sPos + 1)).toNat
       value ≠ 0 ∧ value ≤ inReadOffset.dPos ∧ value > ({ inReadOffset with dPos := 1 } : State).dPos) ∧
      (let s := { inReadOffset with src := [] }
       (srcAt s s.bd.sPos).toNat + 256 * (srcAt s (s.bd.sPos + 1)).toNat = 0) :=
  ⟨decodingOf (by decide), busy_srcRegion (by decide), by decide, by decide, by decide, by decide, by decide, by decide⟩
theorem witness_CopyMatchState :
    Decoding inCopyMatch ∧ DstRegion inCopyMatch ∧ Memory.wf inCopyMatch.dst = true ∧ inCopyMatch.bd.bdState = .copyMatch ∧
      1 ≤ inCopyMatch.bd.offset.toNat ∧ inCopyMatch.bd.offset.toNat ≤ inCopyMatch.dPos ∧
      inCopyMatch.bd.matchLen ≤ inCopyMatch.dEnd - inCopyMatch.dPos ∧
      ({ inCopyMatch with bd := { inCopyMatch.bd with matchLen := 15 } } : State).bd.matchLen >
        inCopyMatch.dEnd - inCopyMatch.dPos :=
  ⟨decodingOf (by decide), busy_dstRegion (by decide), by decide, by decide, by decide, by decide, by decide, by decide⟩
theorem witness_FaultsLeaveRegionOpen : dstBase stream ≤ 0 ∧ 0 < dstLimit stream ∧ dstLimit stream ≤ 16 := by decide
theorem witness_SequenceStepIsStateWalk : Decoding stream ∧ DecoderRules stream ∧ stream.bd.bdState = .readToken :=
  ⟨stream_decoding, stream_rules, by decide⟩
theorem witness_DecodeEnds : Decoding stream ∧ DecoderRules stream ∧ stream.bd.bdState = .readToken :=
  ⟨stream_decoding, stream_rules, by decide⟩

/-! ### The match finders -/

theorem witness_HashRange : 12 ≤ 32 ∧ 0 ≤ 32 := by decide
theorem witness_ProbeAccepts :
    FinderRules fastStart ∧ fastStart.storageWf = true ∧ SlotsBelow fastStart 1 ∧ 1 + 4 ≤ fastStart.mf.n :=
  ⟨fastStart_finder, by decide, slotsBelowOf (by decide), by decide⟩
theorem witness_SearchLoop :
    (Compressing 2 fastStart ∧ fastStart.mf.htState = .search) ∧
      (Compressing 2 fastLoop ∧ fastLoop.mf.htState = .searchLoop ∧ (fastLoop.mf.ip : Int) ≤ fastLoop.mf.mfLimit ∧
        ∃ t, probe fastLoop.mf.ip fastLoop = .go (none, t)) ∧
      (∃ s : State, Compressing 2 s ∧ s.mf.htState = .searchLoop ∧ (s.mf.ip : Int) ≤ s.mf.mfLimit ∧
        ∃ t c, probe s.mf.ip s = .go (some c, t)) ∧
      ∃ s : State, Compressing 2 s ∧ s.mf.htState = .searchLoop ∧ (s.mf.ip : Int) > s.mf.mfLimit :=
  ⟨⟨compressingOf (by decide), by decide⟩, ⟨compressingOf (by decide), by decide, by decide, _, rfl⟩,
    ⟨tick fastLoop, compressingOf (by decide), by decide, by decide, _, _, rfl⟩,
    { fastLoop with mf := { fastLoop.mf with ip := 2 } }, compressingOf (by decide), by decide, by decide⟩

/-- REPROBE at position 1 with an empty table and with position 0 in it. -/
def fastReprobe (ht : List (Nat × Option Nat)) : State :=
  { fastStart with ht := ht, mf := { fastStart.mf with ip := 1, htState := .reprobe } }

/-- EMIT (V-F4) with room, where it goes to TAIL, and without. -/
theorem witness_SearchLoop_emit :
    (Compressing 2 fastEmit ∧ fastEmit.mf.htState = .emit ∧ fastEmit.mf.cand = some 0 ∧
      (∃ t, emitSeq fastEmit.mf.ip 0 fastEmit.mf.mlen fastEmit = .go t) ∧
      ((fastEmit.mf.ip + fastEmit.mf.mlen : Nat) : Int) > fastEmit.mf.mfLimit) ∧
      ∃ s : State, Compressing 2 s ∧ s.mf.htState = .emit ∧ s.mf.cand = some 0 ∧
        ∃ r, emitSeq s.mf.ip 0 s.mf.mlen s = .stop r :=
  ⟨⟨compressingOf (by decide), by decide, by decide, ⟨_, rfl⟩, by decide⟩, { fastEmit with dEnd := 3 },
    compressingOf (by decide), by decide, by decide, _, rfl⟩
theorem witness_SearchLoop_reprobe :
    (Compressing 2 (fastReprobe []) ∧ (fastReprobe []).mf.htState = .reprobe ∧
      ∃ t, probe (fastReprobe []).mf.ip (fastReprobe []) = .go (none, t)) ∧
      Compressing 2 (fastReprobe [(0x18E, some 0)]) ∧ (fastReprobe [(0x18E, some 0)]).mf.htState = .reprobe ∧
        ∃ t c, probe (fastReprobe [(0x18E, some 0)]).mf.ip (fastReprobe [(0x18E, some 0)]) = .go (some c, t) :=
  ⟨⟨compressingOf (by decide), by decide, _, rfl⟩, compressingOf (by decide), by decide, _, _, rfl⟩
theorem witness_CatchupWalksBack : Compressing 2 fastCatchup ∧ Safe fastCatchup ∧ fastCatchup.mf.htState = .catchup :=
  ⟨compressingOf (by decide), fastCatchup_safe, by decide⟩
theorem witness_ExtendIsGreedy : Compressing 2 fastExtend ∧ Safe fastExtend ∧ fastExtend.mf.htState = .extend :=
  ⟨compressingOf (by decide), fastExtend_safe, by decide⟩
theorem witness_EmitSeqWrites :
    FinderRules fastStart ∧ Memory.wf fastStart.dst = true ∧ fastStart.mf.anchor ≤ 1 ∧ 0 < 1 ∧ 1 - 0 ≤ 65535 ∧ 4 ≤ 7 ∧
      1 + 7 + 5 ≤ fastStart.mf.n ∧ fastStart.dPos + seqSize (1 - fastStart.mf.anchor) 7 ≤ fastStart.dEnd ∧
      ∃ s : State, FinderRules s ∧ s.dPos + seqSize (1 - s.mf.anchor) 7 > s.dEnd :=
  ⟨fastStart_finder, by decide, by decide, by decide, by decide, by decide, by decide, by decide,
    run .compressFast (job 0 (List.replicate 13 0x41) 3), finderRulesOf (by decide) (by decide) (by decide), by decide⟩
theorem witness_TailCompletes :
    (Compressing 2 fastTail ∧ fastTail.mf.htState = .tail ∧ FinderRules fastTail ∧ Memory.wf fastTail.dst = true ∧
      fastTail.dPos + lastSize (fastTail.mf.n - fastTail.mf.anchor) ≤ fastTail.dEnd) ∧
      (Compressing 3 chainTail ∧ chainTail.hc.hcState = .tail ∧ FinderRules chainTail ∧ Memory.wf chainTail.dst = true ∧
        chainTail.dPos + lastSize (chainTail.mf.n - chainTail.mf.anchor) ≤ chainTail.dEnd) ∧
      ∃ s : State, Compressing 2 s ∧ s.mf.htState = .tail ∧ FinderRules s ∧ s.dPos + lastSize (s.mf.n - s.mf.anchor) > s.dEnd :=
  ⟨⟨compressingOf (by decide), by decide, finderRulesOf (by decide) (by decide) (by decide), by decide, by decide⟩,
    ⟨compressingOf (by decide), by decide, finderRulesOf (by decide) (by decide) (by decide), by decide, by decide⟩,
    { run .compressFast (job 0 [] 0) with mf := { (run .compressFast (job 0 [] 0)).mf with htState := .tail } },
    compressingOf (by decide), by decide, finderRulesOf (by decide) (by decide) (by decide), by decide⟩
theorem witness_AddHashWrites :
    SrcRegion chainStart.mf.n chainStart ∧ chainStart.storageWf = true ∧ 0 + 4 ≤ chainStart.mf.n ∧ 32 + 4 ≤ chainStart.mf.n :=
  ⟨chainStart_finder.src, by decide, by decide, by decide⟩
theorem witness_FindBestFindsMatches :
    FinderRules chainStart ∧ ((14 : Nat) : Int) ≤ chainStart.mf.mfLimit ∧ ((24 : Nat) : Int) ≤ chainStart.mf.mfLimit ∧
      ∃ t m, findBest ((14 : Nat) : Int) chainStart = .go (t, m) ∧ m.len ≠ 0 :=
  ⟨chainStart_finder, by decide, by decide, _, _, rfl, by decide⟩
theorem witness_FindWiderFindsMatches :
    FinderRules chainStart ∧ ((16 : Nat) : Int) ≤ chainStart.mf.mfLimit ∧ 15 ≤ 16 ∧ (4 : Int) ≤ 4 ∧
      (∃ t w, findWider ((16 : Nat) : Int) ((15 : Nat) : Int) 4 .reset chainStart = .go (t, w) ∧ w.len > 4) ∧
      ∃ t w, findWider ((21 : Nat) : Int) ((16 : Nat) : Int) 8 .reset chainStart = .go (t, w) ∧ ¬w.len > 8 :=
  ⟨chainStart_finder, by decide, by decide, by decide, ⟨_, _, rfl, by decide⟩, _, _, rfl, by decide⟩
theorem witness_EncodeDropsOrEmits :
    (∃ m : MatchReg, m.len < 4) ∧ (∃ m : MatchReg, m.start > chainStart.mf.mfLimit) ∧
      ∃ (m : MatchReg) (t : State), m.start ≤ chainStart.mf.mfLimit ∧ 4 ≤ m.len ∧ (chainStart.mf.anchor : Int) ≤ m.start ∧
        emitSeq m.start.toNat m.ref.toNat m.len.toNat chainStart = .go t ∧
        ∃ r, emitSeq m.start.toNat m.ref.toNat m.len.toNat { chainStart with dEnd := 3 } = .stop r :=
  ⟨⟨.reset, by decide⟩, ⟨⟨25, 0, 4⟩, by decide⟩, ⟨15, 5, 8⟩, _, by decide, by decide, by decide, rfl, _, rfl⟩

theorem m14_ok : MatchOk chainAt14 ⟨14, 0, 4⟩ := matchOkOf (by decide) (by decide)
theorem m15_ok : MatchOk chainAt14 ⟨15, 5, 8⟩ := matchOkOf (by decide) (by decide)

theorem witness_LazyParserStates :
    (∃ s : State, Compressing 3 s ∧ s.hc.hcState = .main ∧ (s.mf.ip : Int) > s.mf.mfLimit) ∧
      (Compressing 3 chainStart ∧ chainStart.hc.hcState = .main ∧ (chainStart.mf.ip : Int) ≤ chainStart.mf.mfLimit ∧
        ∃ t m, findBest chainStart.mf.ip chainStart = .go (t, m) ∧ m.len = 0) ∧
      (Compressing 3 chainAt14 ∧ chainAt14.hc.hcState = .main ∧ ∃ t m, findBest chainAt14.mf.ip chainAt14 = .go (t, m) ∧
        m.len ≠ 0) ∧
      (Compressing 3 chainSearch ∧ chainSearch.hc.hcState = .search2 ∧
        chainSearch.hc.m1.stop - 2 ≤ chainSearch.mf.mfLimit ∧
        ∃ t m, findWider (chainSearch.hc.m1.stop - 2) (chainSearch.hc.m1.start + 1) chainSearch.hc.m1.len chainSearch.hc.m2
          chainSearch = .go (t, m) ∧ m.len > chainSearch.hc.m1.len ∧ m.start - chainSearch.hc.m1.start < 3) ∧
      (∃ s : State, Compressing 3 s ∧ s.hc.hcState = .search2 ∧ s.hc.m1.stop - 2 > s.mf.mfLimit ∧
        ∃ t, encodeMatch s.hc.m1 s = .go t) ∧
      ∃ s : State, Compressing 3 s ∧ s.hc.hcState = .search2 ∧ s.hc.m1.stop - 2 ≤ s.mf.mfLimit ∧
        ∃ t m u, findWider (s.hc.m1.stop - 2) (s.hc.m1.start + 1) s.hc.m1.len s.hc.m2 s = .go (t, m) ∧ m.len ≤ s.hc.m1.len ∧
          encodeMatch s.hc.m1 { t with hc := { t.hc with m2 := m } } = .go u :=
  ⟨⟨{ chainStart with mf := { chainStart.mf with ip := 25 } }, compressingOf (by decide), by decide, by decide⟩,
    ⟨compressingOf (by decide), by decide, by decide, _, _, rfl, by decide⟩,
    ⟨compressingOf (by decide), by decide, _, _, rfl, by decide⟩,
    ⟨compressingOf (by decide), by decide, by decide, _, _, rfl, by decide, by decide⟩,
    ⟨{ chainSearch with hc := { chainSearch.hc with m1 := ⟨15, 5, 12⟩ } }, compressingOf (by decide), by decide, by decide,
      _, rfl⟩,
    tick chainSearch, compressingOf (by decide), by decide, by decide, _, _, _, rfl, by decide, rfl⟩
/-- A match M1 that M2 overlaps from its fifth byte on, without and with an earlier M0 that reaches over M2. -/
def chainKeeps (m0 : MatchReg) : State := { chainSearch with hc := { chainSearch.hc with m0 := m0, m1 := ⟨11, 1, 7⟩ } }

theorem witness_LazyParserStates_search3 :
    (Compressing 3 (chainKeeps ⟨11, 1, 7⟩) ∧ (chainKeeps ⟨11, 1, 7⟩).hc.hcState = .search2 ∧
      (chainKeeps ⟨11, 1, 7⟩).hc.m1.stop - 2 ≤ (chainKeeps ⟨11, 1, 7⟩).mf.mfLimit ∧
      ∃ t m, findWider 16 12 7 (chainKeeps ⟨11, 1, 7⟩).hc.m2 (chainKeeps ⟨11, 1, 7⟩) = .go (t, m) ∧ m.len > 7 ∧
        3 ≤ m.start - 11) ∧
      ∃ t m, findWider 16 12 7 (chainKeeps ⟨10, 0, 9⟩).hc.m2 (chainKeeps ⟨10, 0, 9⟩) = .go (t, m) ∧ m.len > 7 ∧
        (10 < (chainKeeps ⟨10, 0, 9⟩).hc.m1.start ∧ m.start < (chainKeeps ⟨10, 0, 9⟩).hc.m1.start + 9) ∧ 3 ≤ m.start - 10 :=
  ⟨⟨compressingOf (by decide), by decide, by decide, _, _, rfl, by decide, by decide⟩, _, _, rfl, by decide, by decide,
    by decide⟩
/-- SEARCH3 on the source of V-H2. -/
def chainThree (m1 m2 : MatchReg) : State :=
  { chainStart with hc := { chainStart.hc with m1 := m1, m2 := m2, hcState := .search3 } }

/-- (b): past MFLIMIT, and with no third match; the second ENCODE with a fault and without. -/
theorem witness_LazyParserStates_b :
    (Compressing 3 (chainThree ⟨10, 0, 4⟩ ⟨14, 0, 15⟩) ∧ (⟨14, 0, 15⟩ : MatchReg).stop - 3 > chainStart.mf.mfLimit) ∧
      (Compressing 3 (chainThree ⟨12, 0, 4⟩ ⟨16, 0, 8⟩) ∧ (chainThree ⟨12, 0, 4⟩ ⟨16, 0, 8⟩).hc.hcState = .search3 ∧
        (⟨16, 0, 8⟩ : MatchReg).stop - 3 ≤ chainStart.mf.mfLimit ∧
        ∃ t m3 u v, findWider 21 16 8 .reset (chainThree ⟨12, 0, 4⟩ ⟨16, 0, 8⟩) = .go (t, m3) ∧ m3.len ≤ 8 ∧
          encodeMatch ⟨12, 0, 4⟩ { t with hc := { t.hc with m3 := m3, m1 := ⟨12, 0, 4⟩ } } = .go u ∧
          encodeMatch ⟨16, 0, 8⟩ u = .go v ∧ ∃ r, encodeMatch ⟨16, 0, 8⟩ { u with dEnd := u.dPos } = .stop r) :=
  ⟨⟨compressingOf (by decide), by decide⟩, compressingOf (by decide), by decide, by decide, _, _, _, _, rfl, by decide, rfl,
    rfl, _, rfl⟩

/-- (c): M3 starts inside M1, whose first bytes trim M2 by one byte; and at its end, with M2 left as it is and cut. -/
theorem witness_LazyParserStates_c :
    (Compressing 3 (chainThree ⟨0, 0, 16⟩ ⟨14, 0, 5⟩) ∧ trimM2 ⟨0, 0, 16⟩ ⟨14, 0, 5⟩ = ⟨15, 1, 4⟩ ∧
      ∃ t m3, findWider 16 15 4 .reset { chainThree ⟨0, 0, 16⟩ ⟨14, 0, 5⟩ with
        hc := { (chainThree ⟨0, 0, 16⟩ ⟨14, 0, 5⟩).hc with m2 := ⟨15, 1, 4⟩ } } = .go (t, m3) ∧ m3.len > 4 ∧ m3.start < 16) ∧
      (Compressing 3 (chainThree ⟨10, 0, 4⟩ ⟨14, 0, 5⟩) ∧
        ∃ t m3, findWider 16 14 5 .reset (chainThree ⟨10, 0, 4⟩ ⟨14, 0, 5⟩) = .go (t, m3) ∧ m3.len > 5 ∧ 14 ≤ m3.start ∧
          m3.start < 17 ∧ ∃ u, encodeMatch ⟨10, 0, 4⟩ { t with hc := { t.hc with m3 := m3 } } = .go u) ∧
      Compressing 3 (chainThree ⟨-5, -6, 20⟩ ⟨14, 0, 5⟩) ∧
        ∃ t m3, findWider 16 14 5 .reset (chainThree ⟨-5, -6, 20⟩ ⟨14, 0, 5⟩) = .go (t, m3) ∧ m3.len > 5 ∧ 15 ≤ m3.start ∧
          m3.start < 18 ∧ ∃ u, encodeMatch ⟨-5, -6, 20⟩ { t with hc := { t.hc with m2 := ⟨15, 1, 4⟩, m3 := m3 } } = .go u :=
  ⟨⟨compressingOf (by decide), by decide, _, _, rfl, by decide, by decide⟩,
    ⟨compressingOf (by decide), _, _, rfl, by decide, by decide, by decide, _, rfl⟩,
    compressingOf (by decide), _, _, rfl, by decide, by decide, by decide, _, rfl⟩

/-- (d): M3 starts 3 bytes after the end of M1. -/
theorem witness_LazyParserStates_d :
    Compressing 3 (chainThree ⟨8, 0, 4⟩ ⟨14, 0, 5⟩) ∧ (chainThree ⟨8, 0, 4⟩ ⟨14, 0, 5⟩).hc.hcState = .search3 ∧
      ∃ t m3 u, findWider 16 14 5 .reset (chainThree ⟨8, 0, 4⟩ ⟨14, 0, 5⟩) = .go (t, m3) ∧ m3.len > 5 ∧ 12 + 3 ≤ m3.start ∧
        encodeMatch ⟨8, 0, 4⟩ { t with hc := { t.hc with m3 := m3 } } = .go u :=
  ⟨compressingOf (by decide), by decide, _, _, _, rfl, by decide, by decide, rfl⟩
theorem witness_TrimmingKeepsMatches :
    MatchOk chainAt14 ⟨14, 0, 4⟩ ∧ MatchOk chainAt14 ⟨15, 5, 8⟩ ∧
      (⟨15, 5, 8⟩ : MatchReg).start < (⟨14, 0, 4⟩ : MatchReg).stop ∧
      4 ≤ ((⟨15, 5, 8⟩ : MatchReg).fix ((⟨14, 0, 4⟩ : MatchReg).stop - 15)).len ∧
      (∃ (s : State) (m1 m2 : MatchReg), MatchOk s m1 ∧ MatchOk s m2 ∧ m2.start < m1.stop ∧ 4 ≤ m2.start - m1.start) :=
  ⟨m14_ok, m15_ok, by decide, by decide, { fastStart with mf := { fastStart.mf with matchLimit := 13 } }, ⟨1, 0, 8⟩, ⟨5, 0, 4⟩,
    matchOkOf (by decide) (by decide), matchOkOf (by decide) (by decide), by decide, by decide⟩
theorem witness_CompressEnds : (Compressing 2 fastStart ∧ Safe fastStart) ∧ Compressing 3 chainStart ∧ Safe chainStart :=
  ⟨⟨compressingOf (by decide), fastStart_safe⟩, compressingOf (by decide), chainStart_safe⟩

/-! ### Whole-machine rules -/

theorem witness_SafeKept : Safe stream ∧ step stream = .next streamEnd := ⟨stream_safe, step_tick (by decide)⟩
theorem witness_SafeKept_fast : Safe fastExtend ∧ step fastExtend = .next fastEmit :=
  ⟨fastExtend_safe, step_tick (by decide)⟩
theorem witness_UnitsStayInTheirRegions :
    (Safe stream ∧ stream.host = []) ∧ (Safe fastCatchup ∧ fastCatchup.host = []) ∧ Safe chainStart ∧
      chainStart.host = [] :=
  ⟨⟨stream_safe, by decide⟩, ⟨fastCatchup_safe, by decide⟩, chainStart_safe, by decide⟩

/-- The extension byte 254 after the longest length ReadMatchLenExtension allows at its position keeps the rules. -/
theorem witness_SafeKept_extension :
    inMatchExtension.bd.bdState = .readMatchLenExtension ∧ inMatchExtension.bd.matchLen ≤ 15 + 255 * inMatchExtension.bd.sPos ∧
      15 + 255 * 5 + 254 + 4 ≤ 19 + 255 * (5 + 1) := by decide
theorem stream_widths : WidthsHold stream := by
  refine ⟨by decide, by decide, ⟨by decide, by decide, by decide, by decide, by decide, by decide, ?_⟩, by decide, by decide, by decide, by decide, by decide⟩
  intro c h
  exact absurd h (by simp [stream, run, nextOf, exec, execDecompressSafe, job, State.reset, FinderRegs.reset, hostCommand,
    State.isBusy, badSafeArgs, startCommand, checkK1, checkK2, checkK3, checkK4, checkK6, setupDecoder])
theorem witness_WidthsKept : Safe stream ∧ WidthsHold stream ∧ step stream = .next streamEnd :=
  ⟨stream_safe, stream_widths, step_tick (by decide)⟩
theorem fastLoop_widths : (slotsFit Config.slotWLarge (tick fastLoop).ht = true ∧ (tick fastLoop).htInUse = true ∧
    slotsFit (htSlotWidth (tick fastLoop)) (tick fastLoop).ht = true) := by decide
theorem witness_StorageStaysCanonical :
    (stream.storageWf = true ∧ step stream = .next streamEnd) ∧ fastLoop.storageWf = true ∧
      step fastLoop = .next (tick fastLoop) ∧ (tick fastLoop).isBusy = true ∧ (tick fastLoop).cmd = 2 ∧
      (tick fastLoop).ht = [(0x18E, some 0)] :=
  ⟨⟨by decide, step_tick (by decide)⟩, by decide, step_tick (by decide), by decide, by decide, by decide⟩
theorem witness_CoreWritesNoHostState : stream.host = [] ∧ step stream = .next streamEnd :=
  ⟨by decide, step_tick (by decide)⟩
theorem witness_DstOutsideRegionUnchanged :
    Safe stream ∧ stream.host = [] ∧ step stream = .next streamEnd ∧ dstLimit stream ≤ 16 :=
  ⟨stream_safe, by decide, step_tick (by decide), by decide⟩
theorem witness_DstContentsDoNotSteer :
    stream.blind = ({ stream with dst := [(3, 7)] } : State).blind ∧ stream.host = [] ∧ step stream = .next streamEnd :=
  ⟨rfl, by decide, step_tick (by decide)⟩
theorem fastStart_block : BlockSoFar fastStart := fun _ _ => .nil
theorem witness_CompressedPrefixDecodes :
    Safe fastStart ∧ fastStart.storageWf = true ∧ BlockSoFar fastStart ∧ step fastStart = .next fastLoop :=
  ⟨fastStart_safe, by decide, fastStart_block, step_tick (by decide)⟩

/-- The empty source (V-F1) at TAIL. -/
def emptyTail : State :=
  { run .compressFast (job 0 [] 16) with mf := { (run .compressFast (job 0 [] 16)).mf with htState := .tail } }

theorem witness_CompressCompletesWithBlock :
    Compressing 2 emptyTail ∧ Safe emptyTail ∧ emptyTail.storageWf = true ∧ BlockSoFar emptyTail ∧
      step emptyTail = .next (tick emptyTail) ∧ (tick emptyTail).status.run = .done :=
  ⟨compressingOf (by decide), fastSafe (by decide) (finderRulesOf (by decide) (by decide) (by decide)) trivial, by decide,
    fun _ _ => .nil, step_tick (by decide), by decide⟩

/-- V-H2 with the worst-case bound, with the 33 bytes of its block and with one byte fewer; V-A13 with no room. -/
theorem witness_CompressCommandsRunToBlock :
    (job 0 lazySource 52).isBusy = false ∧ (job 0 lazySource 52).host = [] ∧ (job 0 lazySource 52).storageWf = true ∧
      exec .compressHc (job 0 lazySource 52) = .next chainStart ∧ chainStart.isBusy = true ∧
      (maxCompressedLength (job 0 lazySource 52).srcLen.toInt.toNat : Int) ≤ (52 : Word).toInt ∧
      (run .compressHc { job 0 lazySource 52 with dstCap := 40, dstOff := 7, dstLen := 33 }).isBusy = true ∧
      (run .compressHc { job 0 lazySource 52 with dstCap := 32, dstOff := 0, dstLen := 32 }).isBusy = true ∧
      (run .compressFast (job 0 [] 0)).isBusy = true :=
  ⟨by decide, by decide, by decide, rfl, by decide, by decide, by decide, by decide, by decide⟩

/-- V-D30: a final token with low nibble A. -/
theorem witness_BlocksDecode_nibble :
    let s := run .decompressSafe (job 0 [0x5A, 0x48, 0x65, 0x6C, 0x6C, 0x6F] 5)
    Decoding s ∧ DecoderRules s ∧ s.storageWf = true ∧ s.bd.bdState = .readToken ∧ s.bd.sPos = 0 ∧ s.dPos = 0 ∧
      6 = s.bd.sEnd ∧ s.cmd = safeCode ∧ IsBlock (srcRun s 0 6) [0x48, 0x65, 0x6C, 0x6C, 0x6F] ∧ 5 ≤ s.dEnd :=
  ⟨decodingOf (by decide), decoderRulesOf (by decide) (by decide) (by decide) (by decide), by decide, by decide, by decide,
    by decide, by decide, by decide, ⟨[], [], [0x48, 0x65, 0x6C, 0x6C, 0x6F], 0xA, .nil, by decide, rfl⟩, by decide⟩

/-- V-D24 in both modes. -/
theorem witness_BlocksDecode :
    let bytes := [] ++ assemble (.seq [0x61, 0x62] 2 6) ++ assemble (.last [0x63])
    let produced := copyBack 2 6 ([] ++ [0x61, 0x62]) ++ [0x63]
    (Decoding stream ∧ DecoderRules stream ∧ stream.storageWf = true ∧ stream.bd.bdState = .readToken ∧
      stream.bd.sPos = 0 ∧ stream.dPos = 0 ∧ srcRun stream 0 7 = bytes ∧ stream.cmd = safeCode ∧ 7 = stream.bd.sEnd ∧
      produced.length ≤ stream.dEnd) ∧
    (Decoding trusted ∧ DecoderRules trusted ∧ trusted.storageWf = true ∧ trusted.bd.bdState = .readToken ∧
      trusted.bd.sPos = 0 ∧ trusted.dPos = 0 ∧ srcRun trusted 0 7 = bytes ∧ 7 ≤ trusted.bd.sEnd ∧ trusted.cmd = trustCode ∧
      produced.length = trusted.dEnd) :=
  ⟨⟨stream_decoding, stream_rules, by decide, by decide, by decide, by decide, by decide, by decide, by decide, by decide⟩,
    decodingOf (by decide), decoderRulesOf (by decide) (by decide) (by decide) (by decide), by decide, by decide, by decide,
    by decide, by decide, by decide, by decide, by decide⟩

end Sys2Proof.Tests
end

section
/-! PROOFS. Canonical storage (10_state.md R30 to R33): `State.storageWf` clause by clause, and the updates that keep
it. -/

namespace Sys2Proof.Machine

/-! ## Ranges that hold any value -/

theorem apart_iff {r q : OpenRange} : r.apart q = true ↔ r.hi ≤ q.lo ∨ q.hi ≤ r.lo := by
  simp [OpenRange.apart]

/-- Ranges are well formed when each holds an address and they are pairwise apart. -/
theorem rangesWf_iff {rs : List OpenRange} :
    rangesWf rs = true ↔ (∀ r ∈ rs, r.lo < r.hi) ∧ rs.Pairwise fun r q => r.apart q = true := by
  induction rs with
  | nil => simp [rangesWf]
  | cons r rest ih =>
    simp only [rangesWf, Bool.and_eq_true, decide_eq_true_eq, List.all_eq_true, ih, List.pairwise_cons,
      List.forall_mem_cons]
    tauto

/-- A part that a cut leaves of a range holds an address, lies in that range and lies outside the cut. -/
theorem mem_cutRange {lo hi : Nat} {r q : OpenRange} (h : q ∈ cutRange lo hi r) :
    r.lo ≤ q.lo ∧ q.lo < q.hi ∧ q.hi ≤ r.hi ∧ (q.hi ≤ lo ∨ hi ≤ q.lo) := by
  simp only [cutRange, List.mem_append] at h
  rcases h with h | h
  all_goals
    split at h
    · simp only [List.mem_singleton] at h
      subst h
      simp only
      omega
    · simp at h

theorem mem_cutRanges {lo hi : Nat} {rs : List OpenRange} {q : OpenRange} (h : q ∈ cutRanges lo hi rs) :
    ∃ r ∈ rs, q ∈ cutRange lo hi r := List.mem_flatMap.mp h

/-- The two parts of one range are apart. -/
theorem cutRange_pairwise {lo hi : Nat} (hle : lo ≤ hi) (r : OpenRange) :
    (cutRange lo hi r).Pairwise fun p q => p.apart q = true := by
  unfold cutRange
  split <;> split <;> simp [apart_iff]
  omega

/-- A cut keeps ranges well formed. -/
theorem cutRanges_wf {rs : List OpenRange} (h : rangesWf rs = true) {lo hi : Nat} (hle : lo ≤ hi) :
    rangesWf (cutRanges lo hi rs) = true := by
  obtain ⟨-, hapart⟩ := rangesWf_iff.mp h
  refine rangesWf_iff.mpr ⟨fun q hq => ?_, List.pairwise_flatMap.mpr ⟨fun r _ => cutRange_pairwise hle r, ?_⟩⟩
  · obtain ⟨r, -, hqr⟩ := mem_cutRanges hq
    exact (mem_cutRange hqr).2.1
  · refine hapart.imp fun hrq p hp q hq => apart_iff.mpr ?_
    have := apart_iff.mp hrq
    have := mem_cutRange hp
    have := mem_cutRange hq
    omega

/-- A range and what a cut by it leaves of others are well formed. -/
theorem openRange_cons_wf {rs : List OpenRange} (h : rangesWf rs = true) {lo hi : Nat} (hlt : lo < hi) (draw : Nat) :
    rangesWf ({ lo := lo, hi := hi, draw := draw } :: cutRanges lo hi rs) = true := by
  obtain ⟨hne, hapart⟩ := rangesWf_iff.mp (cutRanges_wf h hlt.le)
  refine rangesWf_iff.mpr
    ⟨List.forall_mem_cons.mpr ⟨hlt, hne⟩, List.pairwise_cons.mpr ⟨fun q hq => ?_, hapart⟩⟩
  obtain ⟨r, -, hqr⟩ := mem_cutRanges hq
  have := mem_cutRange hqr
  exact apart_iff.mpr (by simp only; omega)

/-! ## The clauses of canonical storage -/

/-- The clauses that speak of the two buffers. -/
structure BuffersOk (src dst : Memory) (ranges : List OpenRange) : Prop where
  src_wf : Memory.wf src = true
  dst_wf : Memory.wf dst = true
  ranges_wf : rangesWf ranges = true
  stored : ∀ c ∈ dst, openDraw ranges c.1 = none

/-- The clauses that speak of a table of `slots` slots. -/
structure TableOk {α : Type} [DecidableEq α] (unlisted : α) (slots : Nat) (table : List (Nat × α)) : Prop where
  canonical : storeWf unlisted table = true
  inside : ∀ e ∈ table, e.1 < slots

/-- The clauses of `State.storageWf`, by memory and table. -/
structure StorageOk (s : State) : Prop where
  buffers : BuffersOk s.src s.dst s.dstOpen
  ht : TableOk none (htSlots s) s.ht
  head : TableOk none (2 ^ Config.hashLogHc) s.head
  chain : TableOk 0 Config.chainSize s.chain

theorem storageWf_iff {s : State} : s.storageWf = true ↔ StorageOk s := by
  simp only [State.storageWf, Bool.and_eq_true, List.all_eq_true, decide_eq_true_eq, Option.isNone_iff_eq_none]
  constructor
  · rintro ⟨⟨⟨⟨⟨⟨⟨⟨⟨hsrc, hdst⟩, hht⟩, hhead⟩, hchain⟩, hhti⟩, hheadi⟩, hchaini⟩, hranges⟩, hstored⟩
    exact ⟨⟨hsrc, hdst, hranges, hstored⟩, ⟨hht, hhti⟩, ⟨hhead, hheadi⟩, ⟨hchain, hchaini⟩⟩
  · rintro ⟨⟨hsrc, hdst, hranges, hstored⟩, ⟨hht, hhti⟩, ⟨hhead, hheadi⟩, ⟨hchain, hchaini⟩⟩
    exact ⟨⟨⟨⟨⟨⟨⟨⟨⟨hsrc, hdst⟩, hht⟩, hhead⟩, hchain⟩, hhti⟩, hheadi⟩, hchaini⟩, hranges⟩, hstored⟩

theorem TableOk.nil {α : Type} [DecidableEq α] (unlisted : α) (slots : Nat) : TableOk unlisted slots [] :=
  ⟨rfl, by simp⟩

theorem TableOk.mono {α : Type} [DecidableEq α] {unlisted : α} {slots more : Nat} {table : List (Nat × α)}
    (h : TableOk unlisted slots table) (hle : slots ≤ more) : TableOk unlisted more table :=
  ⟨h.canonical, fun e he => (h.inside e he).trans_le hle⟩

/-- A write to one of the slots keeps the table. -/
theorem TableOk.set {α : Type} [DecidableEq α] {unlisted : α} {slots : Nat} {table : List (Nat × α)}
    (h : TableOk unlisted slots table) {i : Nat} (hi : i < slots) (v : α) :
    TableOk unlisted slots (storeSet unlisted table i v) where
  canonical := storeSet_wf h.canonical i v
  inside e he := by
    rcases mem_storeSet he with rfl | hold
    · exact hi
    · exact h.inside e hold

/-- A host write to SRC keeps the buffers. -/
theorem BuffersOk.writeSrc {src dst : Memory} {ranges : List OpenRange} (h : BuffersOk src dst ranges) (a : Nat)
    (b : Byte) : BuffersOk (Memory.write src a b) dst ranges :=
  ⟨Memory.write_wf h.src_wf a b, h.dst_wf, h.ranges_wf, h.stored⟩

/-- A write to DST takes its address out of the ranges, so the buffers stay canonical. -/
theorem BuffersOk.writeDst {src dst : Memory} {ranges : List OpenRange} (h : BuffersOk src dst ranges) (a : Nat)
    (b : Byte) : BuffersOk src (Memory.write dst a b) (cutRanges a (a + 1) ranges) where
  src_wf := h.src_wf
  dst_wf := Memory.write_wf h.dst_wf a b
  ranges_wf := cutRanges_wf h.ranges_wf (Nat.le_succ a)
  stored c hc := by
    rw [openDraw_cutRanges]
    split
    case isTrue => rfl
    case isFalse hout =>
      rcases mem_storeSet hc with rfl | hold
      · exact absurd ⟨Nat.le_refl a, Nat.lt_succ_self a⟩ hout
      · exact h.stored c hold

/-- Leaving a range at any value takes its stored bytes away, so the buffers stay canonical. -/
theorem BuffersOk.openDst {s : State} (h : BuffersOk s.src s.dst s.dstOpen) (lo hi : Nat) :
    BuffersOk (openDst lo hi s).src (openDst lo hi s).dst (openDst lo hi s).dstOpen := by
  unfold Machine.openDst
  split
  case isFalse => exact h
  case isTrue hlt =>
    refine ⟨h.src_wf, Memory.erase_wf h.dst_wf lo hi, openRange_cons_wf h.ranges_wf hlt s.draws, fun c hc => ?_⟩
    obtain ⟨hmem, hout⟩ := List.mem_filter.mp hc
    have hout : ¬(lo ≤ c.1 ∧ c.1 < hi) := by simpa [imp_iff_not_or] using hout
    simp [openDraw, openDraw_cutRanges, hout, h.stored c hmem]

/-! ## The hash (R131) -/

/-- A hash of `log` bits lies below `2 ^ log`. -/
theorem hash_lt {log : Nat} (hlog : log ≤ 32) (v : Nat) : hash v log < 2 ^ log := by
  have hsplit : 2 ^ (32 - log) * 2 ^ log = 2 ^ 32 := by rw [← pow_add]; congr 1; omega
  rw [hash, Nat.shiftRight_eq_div_pow]
  exact Nat.div_lt_of_lt_mul (by rw [hsplit]; exact Nat.mod_lt _ (by positivity))

/-- The slot PROBE writes is one of the table's. -/
theorem hash_lt_htSlots (v : Nat) (s : State) : hash v (htLog s) < htSlots s := by
  have hrange := htLog_range s
  have hlt := hash_lt (by omega : htLog s ≤ 32) v
  unfold htSlots
  split
  · exact hlt
  · exact hlt.trans_le (Nat.pow_le_pow_right (by decide) hrange.2)

end Sys2Proof.Machine
end

section
/-! PROOFS. What a computation inside a step comes to (`Flow.Holds`), and what the core may change: `Runs` while a
command goes on, `Ends` where it completes or faults. Every invariant of a core step is read off these two. -/

namespace Sys2Proof.Machine

/-! ## Flows -/

section

variable {α β : Type}

/-- `P` holds of the value a computation goes on with, `E` of the outcome that stops it. -/
def Flow.Holds (P : α → Prop) (E : Result → Prop) (x : Flow α) : Prop :=
  match x with
  | .go a => P a
  | .stop r => E r

theorem Flow.Holds.mono {P Q : α → Prop} {E F : Result → Prop} {x : Flow α} (h : x.Holds P E)
    (hP : ∀ a, P a → Q a) (hE : ∀ r, E r → F r) : x.Holds Q F := by
  cases x with
  | go a => exact hP a h
  | stop r => exact hE r h

/-- The rule of sequence: a second part is taken up with what the first part came to. -/
theorem Flow.Holds.andThen {P : α → Prop} {Q : β → Prop} {E F : Result → Prop} {x : Flow α} {f : α → Flow β}
    (h : x.Holds P E) (hE : ∀ r, E r → F r) (hf : ∀ a, P a → (f a).Holds Q F) : (x.andThen f).Holds Q F := by
  cases x with
  | go a => exact hf a h
  | stop r => exact hE r h

/-- A step ends as its computation does. -/
theorem Flow.Holds.finish {P : State → Prop} {E : Result → Prop} {x : Flow State} (h : x.Holds P E)
    (hP : ∀ t, P t → E (.next t)) : E x.finish := by
  cases x with
  | go t => exact hP t h
  | stop r => exact h

/-- A computation that changes nothing: it can stop only at the bound of SRC. -/
def Flow.ReadOnly (x : Flow α) : Prop := x.Holds (fun _ => True) (· = .fault .srcAccess)

theorem Flow.ReadOnly.andThen {x : Flow α} {f : α → Flow β} (h : x.ReadOnly) (hf : ∀ a, (f a).ReadOnly) :
    (x.andThen f).ReadOnly := Flow.Holds.andThen h (fun _ => id) fun a _ => hf a

@[simp] theorem Flow.readOnly_go (a : α) : (Flow.go a).ReadOnly := trivial

/-- After a read a computation comes to what the rest of it comes to. -/
theorem Flow.ReadOnly.andThen_holds {x : Flow α} {f : α → Flow β} {Q : β → Prop} {E : Result → Prop}
    (h : x.ReadOnly) (hE : E (.fault .srcAccess)) (hf : ∀ a, (f a).Holds Q E) : (x.andThen f).Holds Q E :=
  Flow.Holds.andThen h (fun _ hr => hr ▸ hE) fun a _ => hf a

end

/-! ## What the core may change -/

/-- The destination region is `[DST_OFF, DST_OFF + DST_LEN)`. -/
structure RegionFits (s : State) : Prop where
  off_nonneg : 0 ≤ s.dstOff.toInt
  end_is_len : (s.dEnd : Int) = s.dstLen.toInt

/-- What no part of a core step changes: CMD, the arguments, SRC, the host's fields, the bounds of the command, the
canonical form of the storage, and DST outside the destination region (R21 to R23, R33). -/
structure Frame (s t : State) : Prop where
  same : t = { s with
    status := t.status, result := t.result, faultOff := t.faultOff, dPos := t.dPos, bd := t.bd, mf := t.mf
    hc := t.hc, ht := t.ht, head := t.head, chain := t.chain, dst := t.dst, dstOpen := t.dstOpen
    draws := t.draws }
  length : t.mf.n = s.mf.n
  storage : StorageOk s → StorageOk t
  outside : RegionFits s → ∀ a, a < dstBase s ∨ dstLimit s ≤ a → dstRead t a = dstRead s a

theorem Frame.refl (s : State) : Frame s s := ⟨rfl, rfl, id, fun _ _ _ => rfl⟩

theorem Frame.regionFits {s t : State} (h : Frame s t) (hs : RegionFits s) : RegionFits t := by
  rw [h.same]
  exact ⟨hs.off_nonneg, hs.end_is_len⟩

theorem Frame.trans {s t u : State} (h : Frame s t) (g : Frame t u) : Frame s u where
  same := by
    have hu := g.same
    rw [h.same] at hu
    exact hu
  length := g.length.trans h.length
  storage hs := g.storage (h.storage hs)
  outside hs a ha := by
    have hbase : dstBase t = dstBase s := by rw [h.same]; rfl
    have hlimit : dstLimit t = dstLimit s := by rw [h.same]; rfl
    exact (g.outside (h.regionFits hs) a (by rwa [hbase, hlimit])).trans (h.outside hs a ha)

/-- A part of a step after which the command is still running. -/
structure Runs (s t : State) : Prop extends Frame s t where
  status : t.status = s.status
  result : t.result = s.result
  faultOff : t.faultOff = s.faultOff

/-- A step that ends the command: a completion, or one of the two faults a unit can raise (R218, R237, R238). -/
structure Ends (s t : State) : Prop extends Frame s t where
  reason : (t.status = .done ∧ t.faultOff = s.faultOff) ∨
    (t.status = .faulted .destinationTooSmall ∧ t.result = s.result ∧ t.faultOff = s.faultOff) ∨
    (t.status = .faulted .corruptInput ∧ t.result = s.result)

/-- A core step: the command goes on or ends. -/
def CoreMove (s t : State) : Prop := Runs s t ∨ Ends s t

/-- A next state that stops a computation ends the command. -/
def Stops (s : State) (r : Result) : Prop := ∀ t, r = .next t → Ends s t

/-- A next state is a core step. -/
def Moves (s : State) (r : Result) : Prop := ∀ t, r = .next t → CoreMove s t

theorem Runs.refl (s : State) : Runs s s := ⟨.refl s, rfl, rfl, rfl⟩

theorem Runs.trans {s t u : State} (h : Runs s t) (g : Runs t u) : Runs s u :=
  ⟨h.toFrame.trans g.toFrame, g.status.trans h.status, g.result.trans h.result, g.faultOff.trans h.faultOff⟩

theorem Runs.ends {s t u : State} (h : Runs s t) (g : Ends t u) : Ends s u :=
  ⟨h.toFrame.trans g.toFrame, by rw [← h.result, ← h.faultOff]; exact g.reason⟩

theorem Runs.stops {s t : State} {r : Result} (h : Runs s t) (g : Stops t r) : Stops s r := fun u hu => h.ends (g u hu)

theorem Runs.moves {s t : State} (h : Runs s t) : Moves s (.next t) := by
  rintro u ⟨⟩
  exact .inl h

theorem Stops.moves {s : State} {r : Result} (h : Stops s r) : Moves s r := fun t ht => .inr (h t ht)

@[simp] theorem stops_fault (s : State) (r : Fault) : Stops s (.fault r) := by rintro t ⟨⟩

@[simp] theorem stops_refused (s : State) (r : Refusal) : Stops s (.refused r) := by rintro t ⟨⟩

theorem stops_next {s t : State} (h : Ends s t) : Stops s (.next t) := by
  rintro u ⟨⟩
  exact h

/-- A computation that runs from `s`: it goes on as `Runs` and stops as `Ends`. -/
def Flow.RunsFrom (s : State) (x : Flow State) : Prop := x.Holds (Runs s) (Stops s)

theorem Flow.RunsFrom.trans {s t : State} {x : Flow State} (h : Runs s t) (hx : x.RunsFrom t) : x.RunsFrom s :=
  Flow.Holds.mono hx (fun _ g => h.trans g) fun _ g => h.stops g

theorem Flow.RunsFrom.andThen {s : State} {x : Flow State} {f : State → Flow State} (hx : x.RunsFrom s)
    (hf : ∀ t, (f t).RunsFrom t) : (x.andThen f).RunsFrom s :=
  Flow.Holds.andThen hx (fun _ => id) fun t ht => Flow.RunsFrom.trans ht (hf t)

theorem Flow.RunsFrom.andThen_holds {α : Type} {s : State} {x : Flow State} {f : State → Flow α} {Q : α → Prop}
    {E : Result → Prop} (hx : x.RunsFrom s) (hE : ∀ r, Stops s r → E r)
    (hf : ∀ t, Runs s t → (f t).Holds Q E) : (x.andThen f).Holds Q E := Flow.Holds.andThen hx hE hf

theorem Flow.RunsFrom.finish {s : State} {x : Flow State} (hx : x.RunsFrom s) : Moves s x.finish :=
  Flow.Holds.finish (Flow.Holds.mono hx (fun _ => id) fun _ => Stops.moves) fun _ => Runs.moves

/-- Reads leave what the rest of the computation does. -/
theorem Flow.ReadOnly.runsFrom {α : Type} {s : State} {x : Flow α} {f : α → Flow State} (hx : x.ReadOnly)
    (hf : ∀ a, (f a).RunsFrom s) : (x.andThen f).RunsFrom s := hx.andThen_holds (stops_fault s _) hf

/-! ## The changes a unit makes -/

/-- The number of HT slots depends on STATUS, CMD and N only (R30). -/
theorem htSlots_congr {s t : State} (hstatus : t.status = s.status) (hcmd : t.cmd = s.cmd)
    (hn : t.mf.n = s.mf.n) : htSlots s = htSlots t := by
  unfold htSlots State.htInUse State.isBusy htLog largeMode
  rw [hstatus, hcmd, hn]

/-- Registers of the units. -/
theorem Runs.registers (s : State) (dPos : Nat) (bd : DecoderRegs) (mf : FinderRegs) (hc : ChainRegs)
    (hn : mf.n = s.mf.n) : Runs s { s with dPos := dPos, bd := bd, mf := mf, hc := hc } where
  same := rfl
  length := hn
  storage h := ⟨h.buffers, h.ht.mono (Nat.le_of_eq (htSlots_congr rfl rfl hn)), h.head, h.chain⟩
  outside _ _ _ := rfl
  status := rfl
  result := rfl
  faultOff := rfl

/-- A DST byte of the region. -/
theorem Runs.dstWrite {s : State} {q : Nat} (hq : dstReachable q s = true) (b : Byte) :
    Runs s (dstWrite s (dstAddr s q).toNat b) where
  same := rfl
  length := rfl
  storage h := ⟨h.buffers.writeDst _ _, h.ht, h.head, h.chain⟩
  outside hs a ha := by
    refine dstRead_dstWrite_ne ?_
    have hoff := hs.off_nonneg
    have hend := hs.end_is_len
    simp only [dstReachable, decide_eq_true_eq] at hq
    simp only [dstAddr, dstBase, dstLimit] at hq ha ⊢
    omega
  status := rfl
  result := rfl
  faultOff := rfl

/-- A slot of HT. -/
theorem Runs.setHt (s : State) (v p : Nat) :
    Runs s { s with ht := storeSet none s.ht (hash v (htLog s)) (some p) } where
  same := rfl
  length := rfl
  storage h := ⟨h.buffers, h.ht.set (hash_lt_htSlots v s) _, h.head, h.chain⟩
  outside _ _ _ := rfl
  status := rfl
  result := rfl
  faultOff := rfl

/-- An entry of CHAIN and a slot of HEAD. -/
theorem Runs.setChain (s : State) (p v : Nat) (delta : Half) :
    Runs s { s with
      chain := storeSet 0 s.chain (p % Config.chainSize) delta
      head := storeSet none s.head (hash v Config.hashLogHc) (some p) } where
  same := rfl
  length := rfl
  storage h := ⟨h.buffers, h.ht, h.head.set (hash_lt (by decide) v) _, h.chain.set (Nat.mod_lt _ (by decide)) _⟩
  outside _ _ _ := rfl
  status := rfl
  result := rfl
  faultOff := rfl

/-- The writes to STATUS, RESULT and FAULT_OFF that end a command, and BD_STATE. -/
theorem Frame.ended (s : State) {status : Status} (h : status.run ≠ .busy) (result faultOff : Word)
    (bd : DecoderRegs) : Frame s { s with status := status, result := result, faultOff := faultOff, bd := bd } where
  same := rfl
  length := rfl
  storage hs := by
    refine ⟨hs.buffers, hs.ht.mono ?_, hs.head, hs.chain⟩
    simpa [htSlots, State.htInUse, State.isBusy, h] using htSlots_le s
  outside _ _ _ := rfl

/-- The rest of the destination region is left at any value. -/
theorem Frame.openRegionFrom (q : Nat) (s : State) : Frame s (openRegionFrom q s) where
  same := by
    unfold Machine.openRegionFrom openDst
    split <;> rfl
  length := by simp
  storage h := by
    refine ⟨h.buffers.openDst _ _, ?_, ?_, ?_⟩
    · rw [openRegionFrom_ht]; exact h.ht.mono (Nat.le_of_eq (htSlots_congr (by simp) (by simp) (by simp)))
    · rw [openRegionFrom_head]; exact h.head
    · rw [openRegionFrom_chain]; exact h.chain
  outside _ a ha := dstRead_openRegionFrom_outside (by omega)

theorem stops_raiseDestinationTooSmall (s : State) : Stops s (raiseDestinationTooSmall s) :=
  stops_next ⟨(Frame.ended s (by decide) s.result s.faultOff s.bd).trans (.openRegionFrom 0 _), by simp⟩

theorem stops_raiseCorruptInput (p : Nat) (s : State) : Stops s (raiseCorruptInput p s) :=
  stops_next ⟨(Frame.ended s (by decide) s.result _ _).trans (.openRegionFrom 0 _), by simp⟩

theorem ends_completeRegion (result : Nat) (s : State) : Ends s (completeRegion result s) :=
  ⟨(Frame.ended s (by decide) _ s.faultOff s.bd).trans (.openRegionFrom _ _), by simp [completeRegion]⟩

end Sys2Proof.Machine
end

section
/-! PROOFS. The operations of the units, from any state: the reads change nothing, every other operation `RunsFrom` its
state (40_sequence_encoder.md to 43_block_decoder.md). -/

namespace Sys2Proof.Machine

/-! ## Reads -/

theorem srcByte_readOnly (limit : Nat) (p : Int) (s : State) : (srcByte limit p s).ReadOnly := by
  cases h : srcByte limit p s with
  | go b => trivial
  | stop r => exact srcByte_eq_stop h

theorem srcBytes_readOnly (limit : Nat) (s : State) (p k : Nat) : (srcBytes limit s p k).ReadOnly := by
  induction k generalizing p with
  | zero => exact Flow.readOnly_go _
  | succ k ih =>
    exact (srcByte_readOnly limit p s).andThen fun b => (ih (p + 1)).andThen fun bs => Flow.readOnly_go _

theorem mfByte_readOnly (p : Int) (s : State) : (mfByte p s).ReadOnly := srcByte_readOnly _ p s

theorem rd32_readOnly (p : Int) (s : State) : (rd32 p s).ReadOnly :=
  (mfByte_readOnly p s).andThen fun _ => (mfByte_readOnly _ s).andThen fun _ =>
    (mfByte_readOnly _ s).andThen fun _ => (mfByte_readOnly _ s).andThen fun _ => Flow.readOnly_go _

theorem commonFwdFrom_readOnly (a b : Int) (s : State) (k count : Nat) :
    (commonFwdFrom a b s k count).ReadOnly := by
  induction count generalizing k with
  | zero => exact Flow.readOnly_go k
  | succ count ih =>
    refine (mfByte_readOnly _ s).andThen fun x => (mfByte_readOnly _ s).andThen fun y => ?_
    split
    · exact ih (k + 1)
    · exact Flow.readOnly_go k

theorem commonFwd_readOnly (a b limit : Int) (s : State) : (commonFwd a b limit s).ReadOnly :=
  commonFwdFrom_readOnly a b s 0 _

theorem catchupFrom_readOnly (anchor : Nat) (s : State) (ip cand : Nat) :
    (catchupFrom anchor s ip cand).ReadOnly := by
  induction ip generalizing cand with
  | zero => simp [catchupFrom]
  | succ ip ih =>
    cases cand with
    | zero => simp [catchupFrom]
    | succ cand =>
      rw [catchupFrom]
      split
      · refine (mfByte_readOnly _ s).andThen fun x => (mfByte_readOnly _ s).andThen fun y => ?_
        split
        · exact ih cand
        · exact Flow.readOnly_go _
      · exact Flow.readOnly_go _

theorem headSlot_readOnly (p : Int) (s : State) : (headSlot p s).ReadOnly :=
  (rd32_readOnly p s).andThen fun _ => Flow.readOnly_go _

theorem commonBwdFrom_readOnly (a b amin bmin : Int) (s : State) (k count : Nat) :
    (commonBwdFrom a b amin bmin s k count).ReadOnly := by
  induction count generalizing k with
  | zero => exact Flow.readOnly_go k
  | succ count ih =>
    rw [commonBwdFrom]
    split
    · refine (mfByte_readOnly _ s).andThen fun x => (mfByte_readOnly _ s).andThen fun y => ?_
      split
      · exact ih (k + 1)
      · exact Flow.readOnly_go k
    · exact Flow.readOnly_go k

theorem commonBwd_readOnly (a b amin bmin : Int) (s : State) : (commonBwd a b amin bmin s).ReadOnly :=
  commonBwdFrom_readOnly a b amin bmin s 0 _

theorem visitBest_readOnly (off : Int) (s : State) (c : Int) (m : MatchReg) : (visitBest off s c m).ReadOnly := by
  refine (rd32_readOnly c s).andThen fun v => (rd32_readOnly off s).andThen fun w => ?_
  split
  · refine (commonFwd_readOnly _ _ _ s).andThen fun k => ?_
    simp only
    split <;> exact Flow.readOnly_go _
  · exact Flow.readOnly_go m

theorem visitWider_readOnly (off startLimit : Int) (s : State) (c : Int) (m : MatchReg) :
    (visitWider off startLimit s c m).ReadOnly := by
  refine (rd32_readOnly c s).andThen fun v => (rd32_readOnly off s).andThen fun w => ?_
  split
  · refine (commonFwd_readOnly _ _ _ s).andThen fun k => (commonBwd_readOnly _ _ _ _ s).andThen fun bwd => ?_
    simp only
    split <;> exact Flow.readOnly_go _
  · exact Flow.readOnly_go m

theorem walkFrom_readOnly {visit : Int → MatchReg → Flow MatchReg} (hvisit : ∀ c m, (visit c m).ReadOnly)
    (off : Int) (s : State) (budget : Nat) (c : Int) (m : MatchReg) : (walkFrom off visit s budget c m).ReadOnly := by
  induction budget generalizing c m with
  | zero => exact Flow.readOnly_go m
  | succ budget ih =>
    rw [walkFrom]
    split
    · exact Flow.readOnly_go m
    · exact (hvisit c m).andThen fun m' => ih _ m'

theorem walk_readOnly {visit : Int → MatchReg → Flow MatchReg} (hvisit : ∀ c m, (visit c m).ReadOnly) (off : Int)
    (m : MatchReg) (s : State) : (walk off visit m s).ReadOnly := by
  refine (headSlot_readOnly off s).andThen fun h => ?_
  split
  · exact Flow.readOnly_go m
  · exact walkFrom_readOnly hvisit off s _ _ m

/-! ## The sequence encoder -/

theorem dstPut_runs (q : Nat) (b : Byte) (s : State) : (dstPut q b s).RunsFrom s := by
  cases h : dstPut q b s with
  | go t =>
    obtain ⟨hreach, rfl⟩ := dstPut_eq_go.mp h
    exact Runs.dstWrite hreach b
  | stop r =>
    rw [dstPut_eq_stop h]
    exact stops_fault s _

theorem dstPutList_runs (q : Nat) (bytes : List Byte) (s : State) : (dstPutList q bytes s).RunsFrom s := by
  induction bytes generalizing q s with
  | nil => exact Runs.refl s
  | cons b bs ih => exact (dstPut_runs q b s).andThen fun t => ih (q + 1) t

theorem emitBytes_runs (bytes : List Byte) (s : State) : (emitBytes bytes s).RunsFrom s := by
  unfold emitBytes
  split
  · exact stops_raiseDestinationTooSmall s
  · exact (dstPutList_runs s.dPos bytes s).andThen fun t => .registers t _ t.bd t.mf t.hc rfl

theorem emitSeq_runs (start ref len : Nat) (s : State) : (emitSeq start ref len s).RunsFrom s :=
  (srcBytes_readOnly _ s _ _).runsFrom fun _ => emitBytes_runs _ s

theorem emitLast_runs (s : State) : (emitLast s).RunsFrom s :=
  (srcBytes_readOnly _ s _ _).runsFrom fun _ => emitBytes_runs _ s

/-- A computation whose last state is completed. -/
theorem Flow.RunsFrom.complete {s : State} {x : Flow State} {f : State → State} (hx : x.RunsFrom s)
    (hf : ∀ t, CoreMove t (f t)) : Moves s (x.andThen fun t => .go (f t)).finish := by
  have hend : ∀ t, Runs s t → CoreMove s (f t) := fun t ht => (hf t).imp ht.trans ht.ends
  refine Flow.Holds.finish (P := CoreMove s) (Flow.Holds.andThen hx (fun _ => Stops.moves) hend) fun t ht => ?_
  rintro u ⟨⟩
  exact ht

theorem finishCompress_moves (s : State) : Moves s (finishCompress s) :=
  (emitLast_runs s).complete fun t => .inr (ends_completeRegion t.dPos t)

/-! ## The hash-table match finder -/

/-- PROBE goes on with one HT slot written. -/
theorem probe_runs (p : Nat) (s : State) : (probe p s).Holds (fun r => Runs s r.2) (Stops s) := by
  refine (rd32_readOnly p s).andThen_holds (stops_fault s _) fun v => ?_
  have hset := Runs.setHt s v p
  simp only
  split
  · exact hset
  · split
    · exact hset
    · refine (rd32_readOnly _ s).andThen_holds (stops_fault s _) fun w => ?_
      split <;> exact hset

theorem searchPass_runs (s : State) : (searchPass s).RunsFrom s := by
  unfold searchPass
  split
  · exact Runs.registers s s.dPos s.bd _ s.hc rfl
  · refine (probe_runs s.mf.ip s).andThen (fun _ => id) ?_
    rintro ⟨found, t⟩ ht
    cases found with
    | some c => exact Runs.trans ht (.registers t t.dPos t.bd _ t.hc rfl)
    | none => exact Runs.trans ht (.registers t t.dPos t.bd _ t.hc rfl)

theorem catchup_runs (s : State) : (catchup s).RunsFrom s := by
  unfold catchup
  split
  · exact stops_fault s _
  · exact (catchupFrom_readOnly _ s _ _).runsFrom fun r => Runs.registers s s.dPos s.bd _ s.hc rfl

theorem extend_runs (s : State) : (extend s).RunsFrom s := by
  unfold extend
  split
  · exact stops_fault s _
  · exact (commonFwd_readOnly _ _ _ s).runsFrom fun k => Runs.registers s s.dPos s.bd _ s.hc rfl

theorem emit_runs (s : State) : (emit s).RunsFrom s := by
  unfold emit
  split
  · exact stops_fault s _
  · exact (emitSeq_runs _ _ _ s).andThen fun t => Runs.registers t t.dPos t.bd _ t.hc rfl

theorem reprobe_runs (s : State) : (reprobe s).RunsFrom s := by
  refine (probe_runs s.mf.ip s).andThen (fun _ => id) ?_
  rintro ⟨found, t⟩ ht
  cases found with
  | some c => exact Runs.trans ht (.registers t t.dPos t.bd _ t.hc rfl)
  | none => exact Runs.trans ht (.registers t t.dPos t.bd _ t.hc rfl)

theorem fastStep_moves (s : State) : Moves s (fastStep s) := by
  unfold fastStep
  split
  · exact Runs.moves (.registers s s.dPos s.bd _ s.hc rfl)
  · exact (searchPass_runs s).finish
  · exact (catchup_runs s).finish
  · exact (extend_runs s).finish
  · exact (emit_runs s).finish
  · exact (reprobe_runs s).finish
  · exact finishCompress_moves s

/-! ## The hash-chain match finder -/

/-- Its own registers. -/
theorem Runs.setHc (s : State) (hc : ChainRegs) : Runs s { s with hc := hc } :=
  .registers s s.dPos s.bd s.mf hc rfl

theorem goHc_runs (x : HcState) (s : State) : Runs s (goHc x s) := .setHc s _

theorem addHash_runs (p : Nat) (s : State) : (addHash p s).RunsFrom s := by
  unfold addHash headSlot
  rw [Flow.andThen_assoc]
  exact (rd32_readOnly p s).runsFrom fun v => Runs.setChain s p v _

theorem insertCount_runs (count : Nat) (s : State) : (insertCount count s).RunsFrom s := by
  induction count generalizing s with
  | zero => exact Runs.refl s
  | succ count ih =>
    exact (addHash_runs s.hc.next s).andThen fun t => (ih _).trans (.setHc t _)

theorem findBest_runs (off : Int) (s : State) : (findBest off s).Holds (fun r => Runs s r.1) (Stops s) :=
  (insertCount_runs _ s).andThen_holds (fun _ => id) fun t ht =>
    (walk_readOnly (visitBest_readOnly off t) off _ t).andThen_holds (stops_fault s _) fun _ => ht

theorem findWider_runs (off startLimit minLen : Int) (m : MatchReg) (s : State) :
    (findWider off startLimit minLen m s).Holds (fun r => Runs s r.1) (Stops s) :=
  (insertCount_runs _ s).andThen_holds (fun _ => id) fun t ht =>
    (walk_readOnly (visitWider_readOnly off startLimit t) off _ t).andThen_holds (stops_fault s _) fun _ => ht

theorem encodeMatch_runs (m : MatchReg) (s : State) : (encodeMatch m s).RunsFrom s := by
  unfold encodeMatch
  split
  · exact Runs.registers s s.dPos s.bd _ s.hc rfl
  · exact (emitSeq_runs _ _ _ s).andThen fun t => Runs.registers t t.dPos t.bd _ t.hc rfl

theorem chainMain_runs (s : State) : (chainMain s).RunsFrom s := by
  unfold chainMain
  split
  · exact goHc_runs .tail s
  · refine (findBest_runs s.mf.ip s).andThen (fun _ => id) ?_
    rintro ⟨t, m1⟩ ht
    simp only
    split
    · exact Runs.trans ht (.setHc t _)
    · exact Runs.trans ht (.registers t t.dPos t.bd _ _ rfl)

theorem takeM1_runs (s : State) : (takeM1 s).RunsFrom s :=
  (encodeMatch_runs s.hc.m1 s).andThen fun t => goHc_runs .main t

theorem weighM2_runs (s : State) : Runs s (weighM2 s) := by
  unfold weighM2
  extract_lets m1
  split <;> exact .setHc s _

theorem chainSearch2_runs (s : State) : (chainSearch2 s).RunsFrom s := by
  unfold chainSearch2
  simp only
  split
  · exact takeM1_runs s
  · refine (findWider_runs _ _ _ _ s).andThen (fun _ => id) ?_
    rintro ⟨t, m2⟩ ht
    have hset : Runs s { t with hc := { t.hc with m2 := m2 } } := Runs.trans ht (.setHc t _)
    simp only
    split
    · exact hset.trans (weighM2_runs _)
    · exact (takeM1_runs _).trans hset

theorem takeBoth_runs (s : State) : (takeBoth s).RunsFrom s := by
  refine Flow.RunsFrom.trans (.setHc s _) ((encodeMatch_runs _ _).andThen fun t => ?_)
  exact (encodeMatch_runs _ t).andThen fun u => goHc_runs .main u

theorem dropM2_runs (s : State) : (dropM2 s).RunsFrom s := by
  refine Flow.RunsFrom.trans (.setHc s _) ((encodeMatch_runs _ _).andThen fun t => ?_)
  exact Runs.setHc t _

theorem shiftDown_runs (s : State) : (shiftDown s).RunsFrom s := by
  refine Flow.RunsFrom.trans (.setHc s _) ((encodeMatch_runs _ _).andThen fun t => ?_)
  exact Runs.setHc t _

theorem weighM3_runs (s : State) : (weighM3 s).RunsFrom s := by
  unfold weighM3
  split
  · split
    · exact dropM2_runs s
    · exact Runs.setHc s _
  · exact shiftDown_runs s

theorem chainSearch3_runs (s : State) : (chainSearch3 s).RunsFrom s := by
  refine Flow.RunsFrom.trans (.setHc s { s.hc with m2 := trimM2 s.hc.m1 s.hc.m2 }) ?_
  simp only [chainSearch3]
  split
  · exact takeBoth_runs _
  · refine (findWider_runs _ _ _ _ _).andThen (fun _ => id) ?_
    rintro ⟨t, m3⟩ ht
    have hset := Runs.trans ht (.setHc t { t.hc with m3 := m3 })
    simp only
    split
    · exact (weighM3_runs _).trans hset
    · exact (takeBoth_runs _).trans hset

theorem chainStep_moves (s : State) : Moves s (chainStep s) := by
  unfold chainStep
  split
  · exact (chainMain_runs s).finish
  · exact (chainSearch2_runs s).finish
  · exact (chainSearch3_runs s).finish
  · exact finishCompress_moves s

/-! ## The block decoder -/

/-- Its own registers and D_POS. -/
theorem Runs.setBd (s : State) (dPos : Nat) (bd : DecoderRegs) : Runs s { s with dPos := dPos, bd := bd } :=
  .registers s dPos bd s.mf s.hc rfl

theorem fetchGuard_runs (s : State) : (fetchGuard s).RunsFrom s := by
  unfold fetchGuard
  split
  · exact stops_raiseCorruptInput _ s
  · exact Runs.refl s

theorem peek_holds (s : State) : (peek s).Holds (fun _ => True) (Stops s) :=
  (fetchGuard_runs s).andThen_holds (fun _ => id) fun t _ =>
    (srcByte_readOnly _ _ t).mono (fun _ => id) fun _ hr => hr ▸ stops_fault s _

theorem takeToken_runs (t : Byte) (s : State) : (takeToken t s).RunsFrom s :=
  (fetchGuard_runs s).andThen fun u => Runs.setBd u u.dPos _

theorem addExtension_runs (b : Byte) (s : State) : (addExtension b s).RunsFrom s := by
  unfold addExtension
  simp only
  split
  · exact Runs.setBd s s.dPos _
  · exact Runs.setBd s s.dPos _
  all_goals exact stops_refused s _

theorem takeExtension_runs (b : Byte) (s : State) : (takeExtension b s).RunsFrom s :=
  (fetchGuard_runs s).andThen fun t => addExtension_runs b t

theorem runExtension_runs (budget : Nat) (s : State) : (runExtension budget s).RunsFrom s := by
  induction budget generalizing s with
  | zero => exact stops_raiseCorruptInput _ s
  | succ budget ih =>
    refine (peek_holds s).andThen (fun _ => id) fun b _ => (takeExtension_runs b s).andThen fun t => ?_
    split
    · exact ih t
    · exact Runs.refl t

theorem readExtensionAt_runs (s : State) : (readExtensionAt s).RunsFrom s := runExtension_runs _ s

theorem copyLiterals_runs (s : State) : (copyLiterals s).RunsFrom s := by
  unfold copyLiterals
  split
  · exact stops_raiseCorruptInput _ s
  · split
    · exact stops_raiseCorruptInput _ s
    · exact (srcBytes_readOnly _ s _ _).runsFrom fun lits =>
        (dstPutList_runs s.dPos lits s).andThen fun t => Runs.setBd t _ _

theorem readOffset_runs (s : State) : (readOffset s).RunsFrom s := by
  unfold readOffset
  split
  · exact stops_raiseCorruptInput _ s
  · refine (srcByte_readOnly _ _ s).runsFrom fun lo => (srcByte_readOnly _ _ s).runsFrom fun hi => ?_
    refine Flow.RunsFrom.trans (.setBd s s.dPos (takeOffset (offsetOf lo hi) s).bd) ?_
    simp only
    split
    · exact stops_raiseCorruptInput _ _
    · split
      · exact stops_raiseCorruptInput _ _
      · exact Runs.setBd _ _ _

theorem copyBytes_runs (count source target : Nat) (s : State) : (copyBytes source target count s).RunsFrom s := by
  induction count generalizing source target s with
  | zero => exact Runs.refl s
  | succ count ih =>
    rw [copyBytes]
    cases h : dstGet source s with
    | go b => exact (dstPut_runs target b s).andThen fun t => ih _ _ t
    | stop r =>
      rw [dstGet_eq_stop h]
      exact stops_fault s _

theorem copyMatch_runs (s : State) : (copyMatch s).RunsFrom s := by
  unfold copyMatch
  split
  · exact stops_raiseCorruptInput _ s
  · exact (copyBytes_runs _ _ _ s).andThen fun t => Runs.setBd t _ _

theorem finishDecode_ends (s : State) : Ends s (finishDecode s) :=
  (Runs.setBd s s.dPos _).ends (ends_completeRegion _ _)

theorem toReadOffset_runs (s : State) : Runs s (toReadOffset s) := .setBd s s.dPos _

theorem decoderUnitStep_moves (s : State) : Moves s (decoderUnitStep s) := by
  have extension : Moves s ((peek s).andThen fun b => takeExtension b s).finish :=
    Flow.RunsFrom.finish ((peek_holds s).andThen (fun _ => id) fun b _ => takeExtension_runs b s)
  unfold decoderUnitStep
  split
  case h_1 => exact Flow.RunsFrom.finish ((peek_holds s).andThen (fun _ => id) fun t _ => takeToken_runs t s)
  case h_2 => exact extension
  case h_3 =>
    refine (copyLiterals_runs s).complete fun t => ?_
    split
    · exact .inr (finishDecode_ends t)
    · exact .inl (toReadOffset_runs t)
  case h_4 => exact (readOffset_runs s).finish
  case h_5 => exact extension
  case h_6 => exact (copyMatch_runs s).finish
  case h_7 => exact (stops_next (finishDecode_ends s)).moves
  case h_8 => exact (stops_fault s _).moves

theorem literalsThenOffset_runs (s : State) : (literalsThenOffset s).RunsFrom s :=
  (copyLiterals_runs s).andThen fun t => (readOffset_runs _).trans (toReadOffset_runs t)

theorem literalsThenDone_moves {s t : State} (h : Runs s t) :
    (literalsThenDone t).Holds (CoreMove s) (Moves s) :=
  (copyLiterals_runs t).andThen_holds (fun _ hr => (h.stops hr).moves) fun u hu =>
    .inr ((h.trans hu).ends (finishDecode_ends u))

end Sys2Proof.Machine
end

section
/-! PROOFS. What a step can do, said once: a core step is `CoreMove`, every step is one of the cases of `StepFrom`, and a
host command one of the cases of `CommandFrom` (44_host_commands.md, 70_reset_and_hazards.md). -/

namespace Sys2Proof.Machine

/-! ## The core's step -/

/-- The outcome of what a step is about to do. -/
def Fetched.result (f : Fetched) : Result :=
  match f with
  | .run i s => exec i s
  | .outcome r => r

/-- The step the core makes when no host move is in its way. -/
def coreStep (s : State) : Result := (coreFetch s).result

theorem step_eq (s : State) : step s = (fetch s).result := by
  unfold step Fetched.result
  cases fetch s <;> rfl

theorem step_quiet {s : State} (h : s.host = []) : step s = coreStep s := by
  rw [step_eq, fetch, h]
  rfl

/-- A block that is not BUSY waits (R248). -/
theorem coreStep_waits {s : State} (h : s.isBusy = false) : coreStep s = .next s := by
  simp [coreStep, coreFetch, h, Fetched.result]

theorem exec_token_moves (final : Bool) (t : Byte) (s : State) : Moves s (exec (decodeToken final t) s) := by
  have sequence : ∀ u, ((literalsThenOffset u).andThen copyMatch).RunsFrom u := fun u =>
    (literalsThenOffset_runs u).andThen copyMatch_runs
  have extended : ∀ u, ((literalsThenOffset u).andThen fun v => (readExtensionAt v).andThen copyMatch).RunsFrom u :=
    fun u => (literalsThenOffset_runs u).andThen fun v => (readExtensionAt_runs v).andThen copyMatch_runs
  have final_moves : ∀ {x : Flow State}, x.RunsFrom s → Moves s (x.andThen literalsThenDone).finish := fun hx =>
    Flow.Holds.finish (P := CoreMove s) (hx.andThen_holds (fun _ => Stops.moves) fun _ => literalsThenDone_moves)
      fun t ht => by rintro u ⟨⟩; exact ht
  cases final with
  | true =>
    simp only [decodeToken]
    split
    · have := final_moves ((takeToken_runs (tokenByte 15 (lowNibble t)) s).andThen readExtensionAt_runs)
      rwa [Flow.andThen_assoc] at this
    · exact final_moves (takeToken_runs _ s)
  | false =>
    simp only [decodeToken]
    split
    · split
      · exact ((takeToken_runs _ s).andThen fun u => (readExtensionAt_runs u).andThen extended).finish
      · exact ((takeToken_runs _ s).andThen fun u => (readExtensionAt_runs u).andThen sequence).finish
    · split
      · exact ((takeToken_runs _ s).andThen extended).finish
      · exact ((takeToken_runs _ s).andThen sequence).finish

theorem exec_extension_moves (b : Byte) (s : State) : Moves s (exec (decodeExtension b) s) := by
  unfold decodeExtension
  split <;> exact (takeExtension_runs _ s).finish

/-- What follows a peek is a core step, and so is its fault. -/
theorem decoderFetch_moves (s : State) : Moves s (decoderFetch s).result := by
  have hpeek := peek_holds s
  unfold decoderFetch
  cases hx : peek s with
  | go b =>
    split
    · exact exec_token_moves _ b s
    · exact exec_extension_moves b s
    · exact exec_extension_moves b s
    all_goals exact decoderUnitStep_moves s
  | stop r =>
    rw [hx] at hpeek
    split
    · exact hpeek.moves
    · exact hpeek.moves
    · exact hpeek.moves
    all_goals exact decoderUnitStep_moves s

theorem coreStep_moves (s : State) : Moves s (coreStep s) := by
  unfold coreStep coreFetch
  split
  · split
    · exact fastStep_moves s
    · exact chainStep_moves s
    · exact decoderFetch_moves s
    · exact decoderFetch_moves s
    · exact (stops_fault s _).moves
  · exact (Runs.refl s).moves

/-! ## Host commands -/

/-- The next states of a host command (R210 to R219). -/
inductive CommandFrom (s : State) : State → Prop where
  | ignored : s.isBusy = true → CommandFrom s s
  | clear : s.isBusy = false → CommandFrom s { startCommand 0 s with status := .idle }
  | maxlen : s.isBusy = false → badMaxlenArgs s = false →
    CommandFrom s (complete (maxCompressedLength s.srcLen.toInt.toNat) (startCommand 1 s))
  | refused (code : Word) : s.isBusy = false →
    CommandFrom s { startCommand code s with status := .faulted .invalidArgument }
  | compressFast : s.isBusy = false → badCompressArgs s = false → CommandFrom s (setupFast (startCommand 2 s))
  | compressHc : s.isBusy = false → badCompressArgs s = false → CommandFrom s (setupChain (startCommand 3 s))
  | decompressTrust : s.isBusy = false → badTrustArgs s = false →
    CommandFrom s (setupDecoder (s.srcCap.toInt - s.srcOff.toInt).toNat (startCommand 4 s))
  | decompressSafe : s.isBusy = false → badSafeArgs s = false →
    CommandFrom s (setupDecoder s.srcLen.toInt.toNat (startCommand 5 s))

/-- A command is ignored while BUSY, and its body runs from the command start otherwise (R210, R265). -/
theorem hostCommand_cases {code : Word} {body : State → Result} {s t : State}
    (h : hostCommand code body s = .next t) :
    s.isBusy = true ∧ t = s ∨ s.isBusy = false ∧ body (startCommand code s) = .next t := by
  cases hb : s.isBusy with
  | true =>
    rw [hostCommand_busy hb] at h
    cases h
    exact .inl ⟨rfl, rfl⟩
  | false =>
    rw [hostCommand_start hb] at h
    exact .inr ⟨rfl, h⟩

/-- A command with checks: ignored while BUSY, refused where a check fails, started otherwise (R211). -/
theorem checkedCommand_cases {code : Word} {bad : State → Bool} {start : State → State} {s t : State}
    (h : hostCommand code (fun u => if bad u then raiseInvalidArgument u else .next (start u)) s = .next t) :
    CommandFrom s t ∨ s.isBusy = false ∧ bad (startCommand code s) = false ∧ t = start (startCommand code s) := by
  rcases hostCommand_cases h with ⟨hb, rfl⟩ | ⟨hb, h⟩
  · exact .inl (.ignored hb)
  · cases hbad : bad (startCommand code s) with
    | true =>
      simp only [hbad, if_true, raiseInvalidArgument_eq] at h
      cases h
      exact .inl (.refused code hb)
    | false =>
      simp only [hbad] at h
      cases h
      exact .inr ⟨hb, rfl, rfl⟩

theorem exec_command_cases {v : Word} {s t : State} (h : exec (decodeCommand v) s = .next t) : CommandFrom s t := by
  unfold decodeCommand at h
  split at h
  · simp only [exec, execClear] at h
    rcases hostCommand_cases h with ⟨hb, rfl⟩ | ⟨hb, ht⟩
    · exact .ignored hb
    · cases ht
      exact .clear hb
  · simp only [exec, execMaxlen] at h
    rcases checkedCommand_cases h with h | ⟨hb, hbad, rfl⟩
    · exact h
    · exact .maxlen hb hbad
  · simp only [exec, execCompressFast] at h
    rcases checkedCommand_cases h with h | ⟨hb, hbad, rfl⟩
    · exact h
    · exact .compressFast hb hbad
  · simp only [exec, execCompressHc] at h
    rcases checkedCommand_cases h with h | ⟨hb, hbad, rfl⟩
    · exact h
    · exact .compressHc hb hbad
  · simp only [exec, execDecompressTrust] at h
    rcases checkedCommand_cases h with h | ⟨hb, hbad, rfl⟩
    · exact h
    · exact .decompressTrust hb hbad
  · simp only [exec, execDecompressSafe] at h
    rcases checkedCommand_cases h with h | ⟨hb, hbad, rfl⟩
    · exact h
    · exact .decompressSafe hb hbad
  · simp only [exec, execIllegal] at h
    rcases hostCommand_cases h with ⟨hb, rfl⟩ | ⟨hb, ht⟩
    · exact .ignored hb
    · cases ht
      exact .refused v hb

theorem hostCommand_answers {code : Word} {body : State → Result} (hbody : ∀ u, ∃ t, body u = .next t)
    (s : State) : ∃ t, hostCommand code body s = .next t := by
  unfold hostCommand
  split
  · exact ⟨s, rfl⟩
  · exact hbody _

theorem checkedCommand_answers {code : Word} (bad : State → Bool) (start : State → State) (s : State) :
    ∃ t, hostCommand code (fun u => if bad u then raiseInvalidArgument u else .next (start u)) s = .next t :=
  hostCommand_answers (fun u => by split <;> exact ⟨_, rfl⟩) s

/-- Every host command answers a next state (R210 to R219). -/
theorem exec_command_answers (v : Word) (s : State) : ∃ t, exec (decodeCommand v) s = .next t := by
  unfold decodeCommand
  split <;> simp only [exec, execClear, execMaxlen, execCompressFast, execCompressHc, execDecompressTrust,
    execDecompressSafe, execIllegal]
  case h_1 => exact hostCommand_answers (fun u => ⟨_, rfl⟩) s
  case h_7 => exact hostCommand_answers (fun u => ⟨_, rfl⟩) s
  all_goals exact checkedCommand_answers _ _ s

/-! ## Steps -/

/-- The next states of a step, once its host move, if any, is taken from the queue. -/
inductive StepFrom (s : State) : State → Prop where
  | core (t : State) : coreStep s = .next t → StepFrom s t
  | command (t : State) : CommandFrom s t → StepFrom s t
  | arguments (srcCap srcOff srcLen dstCap dstOff dstLen : Word) : s.isBusy = false →
    StepFrom s { s with
      srcCap := srcCap, srcOff := srcOff, srcLen := srcLen, dstCap := dstCap, dstOff := dstOff, dstLen := dstLen }
  | hostData (v : Word) : StepFrom s { s with hostData := v }
  | writeSrc (a : Nat) (b : Byte) : s.isBusy = false → StepFrom s { s with src := Memory.write s.src a b }
  | writeDst (a : Nat) (b : Byte) : s.isBusy = false → StepFrom s (dstWrite s a b)
  | reset : StepFrom s (applyReset s)

/-- A step that changes nothing but the host's queue. -/
theorem StepFrom.same (s : State) : StepFrom s s := .hostData s.hostData

theorem writeRegister_cases {offset : Nat} {v : Word} {s t : State} (h : writeRegister offset v s = some t) :
    StepFrom s t := by
  have readOnly : some s = some t → StepFrom s t := fun he => Option.some.inj he ▸ .same s
  have argument : ∀ {u : State}, some (if s.isBusy then s else u) = some t →
      (s.isBusy = false → StepFrom s u) → StepFrom s t := by
    intro u he hu
    cases hb : s.isBusy with
    | true => exact readOnly (by simpa [hb] using he)
    | false =>
      have hut : u = t := by simpa [hb] using he
      exact hut ▸ hu hb
  unfold writeRegister at h
  split at h
  case h_1 => exact readOnly h
  case h_8 => exact readOnly h
  case h_9 => exact readOnly h
  case h_10 => cases h
  all_goals exact argument h fun hb => .arguments _ _ _ _ _ _ hb

theorem hostMemory_cases {a : Nat} {s access t : State} (h : hostMemory a s access = .next t) :
    s.isBusy = false ∧ t = access := by
  unfold hostMemory at h
  cases hb : s.isBusy with
  | true => simp [hb] at h
  | false =>
    simp only [hb, Bool.false_eq_true, if_false] at h
    split at h
    · cases h
      exact ⟨rfl, rfl⟩
    · cases h

theorem readMove_cases {offset : Nat} {s t : State} (h : readMove offset s = .next t) :
    ∃ v, t = { s with hostData := v } := by
  unfold readMove at h
  split at h <;> cases h
  exact ⟨_, rfl⟩

/-- The core's step does not see the host's queue but in the state it passes on. -/
theorem hostMove_cases {m : HostMove} {s t : State} (h : (hostMove m s).result = .next t) :
    ∃ q, StepFrom { s with host := q } t := by
  cases m with
  | writeReg offset v =>
    refine ⟨s.host, ?_⟩
    simp only [hostMove, writeMove] at h
    split at h
    · exact .command t (exec_command_cases h)
    · split at h
      · cases h
        exact writeRegister_cases ‹_›
      · cases h
  | readReg offset =>
    obtain ⟨v, rfl⟩ := readMove_cases h
    exact ⟨s.host, .hostData v⟩
  | writeSrc a b =>
    obtain ⟨hb, rfl⟩ := hostMemory_cases h
    exact ⟨s.host, .writeSrc a b hb⟩
  | readSrc a =>
    obtain ⟨hb, rfl⟩ := hostMemory_cases h
    exact ⟨s.host, .hostData _⟩
  | writeDst a b =>
    obtain ⟨hb, rfl⟩ := hostMemory_cases h
    exact ⟨s.host, .writeDst a b hb⟩
  | readDst a =>
    obtain ⟨hb, rfl⟩ := hostMemory_cases h
    exact ⟨s.host, .hostData _⟩
  | poll =>
    simp only [hostMove] at h
    split at h
    · exact ⟨.poll :: s.host, .core t h⟩
    · obtain ⟨v, rfl⟩ := readMove_cases (offset := 4) h
      exact ⟨s.host, .hostData v⟩
  | tick => exact ⟨s.host, .core t h⟩
  | reset =>
    cases h
    exact ⟨s.host, .reset⟩

/-- What a step can do. -/
theorem step_cases {s t : State} (h : step s = .next t) : ∃ q, StepFrom { s with host := q } t := by
  rw [step_eq, fetch] at h
  split at h
  case h_1 => exact ⟨s.host, .core t h⟩
  case h_2 m rest _ => exact hostMove_cases (s := { s with host := rest }) h

end Sys2Proof.Machine
end

section
/-! PROOFS. The rules of the state that need no walk through the units' invariants: the STATUS word, reset, the host's
registers, what a step runs, the status rules, the canonical storage and the frame of a core step (10_state.md). -/

namespace Sys2Proof.Machine

/-! ## STATUS and reset -/

/-- Settles O9: a STATUS word has one of 16 values, four states by four causes. -/
theorem statusWord : Obligations.StatusWord := by
  refine ⟨?_, by decide⟩
  rintro ⟨run, cause⟩
  cases run <;> cases cause <;> decide

/-- Settles O10: the reset state lists no slot and holds 0 in every register. -/
theorem resetState : Obligations.ResetState := by
  refine ⟨?_, fun h => ?_, fun h => ?_⟩
  · decide
  · exact storeGet_nil h
  · exact storeGet_nil h

/-- Settles O11: the block is idle, so the unit invariants ask nothing; tables and buffers are empty; the working registers
are the model's choice (log 4), 0. -/
theorem resetMeetsInvariants : Obligations.ResetMeetsInvariants := by
  have idle : ¬State.reset.isBusy = true := by decide
  have widths : WidthsHold State.reset := by
    unfold WidthsHold
    decide
  exact ⟨⟨fun h => absurd h idle, fun h => absurd h idle, fun h => absurd h idle, fun h => absurd h idle,
    fun h => absurd h idle⟩, by decide, ⟨by decide, fun _ => rfl, fun _ => rfl⟩, widths, fun h => absurd h idle⟩

/-! ## What a step runs -/

theorem step_writeReg {s : State} {offset : Nat} {v : Word} {rest : List HostMove}
    (h : s.host = .writeReg offset v :: rest) : step s = (writeMove offset v { s with host := rest }).result := by
  rw [step_eq, fetch, h]
  rfl

/-- A CMD write runs the command its value decodes to (R24). -/
theorem step_writeCmd {s : State} {v : Word} {rest : List HostMove} (h : s.host = .writeReg 0 v :: rest) :
    step s = exec (decodeCommand v) { s with host := rest } := by
  rw [step_writeReg h]
  rfl

/-- A running decode command that the host leaves alone steps as its fetch says. -/
theorem step_decoding {s : State} (h : Decoding s) : step s = (decoderFetch s).result := by
  rw [step_quiet h.quiet, coreStep, coreFetch, if_pos h.busy]
  rcases h.code with hc | hc <;> rw [hc] <;> rfl

theorem peek_inside {s : State} (h : SrcRegion s.bd.sEnd s) (hp : s.bd.sPos < s.bd.sEnd) :
    peek s = .go (srcAt s s.bd.sPos) := by
  rw [peek, fetchGuard, if_neg (by omega), Flow.andThen_go]
  exact srcByte_inside h (by omega) (by omega)

theorem peek_exhausted {s : State} (hp : s.bd.sEnd ≤ s.bd.sPos) :
    peek s = .stop (raiseCorruptInput s.bd.sPos s) := by
  rw [peek, fetchGuard, if_pos hp, Flow.andThen_stop]

/-- Settles O18: the fetch of a decode command peeks at S_POS in the three states that read an instruction. -/
theorem stepRunsDecodedInstruction : Obligations.StepRunsDecodedInstruction := by
  refine ⟨fun s v rest h => step_writeCmd h, fun s hd hsrc => ?_⟩
  refine ⟨fun hst hp => ?_, fun hst hp => ?_, fun hst hp => ?_⟩
  · rw [step_decoding hd, decoderFetch, hst, peek_inside hsrc hp]
    rfl
  · rw [step_decoding hd, decoderFetch, peek_inside hsrc hp]
    rcases hst with hst | hst <;> rw [hst] <;> rfl
  · rw [step_decoding hd, decoderFetch, peek_exhausted hp]
    rcases hst with hst | hst | hst <;> rw [hst] <;> rfl

/-! ## The argument registers -/

/-- A host write to a register other than CMD is the register port's answer (R23, R265). -/
theorem step_writeRegister {s t : State} {offset : Nat} {v : Word} {rest : List HostMove}
    (h : s.host = .writeReg offset v :: rest) (h0 : offset ≠ 0)
    (ht : writeRegister offset v { s with host := rest } = some t) : step s = .next t := by
  rw [step_writeReg h, writeMove, if_neg h0, ht]
  rfl

/-- Every register at once: its value as a function of the offset. -/
theorem readRegister_eq (offset : Nat) (s : State) :
    readRegister offset s =
      if offset = 0x00 then some s.cmd else if offset = 0x04 then some s.status.word
      else if offset = 0x08 then some s.srcCap else if offset = 0x0C then some s.srcOff
      else if offset = 0x10 then some s.srcLen else if offset = 0x14 then some s.dstCap
      else if offset = 0x18 then some s.dstOff else if offset = 0x1C then some s.dstLen
      else if offset = 0x20 then some s.result else if offset = 0x24 then some s.faultOff else none := by
  unfold readRegister
  split <;> simp_all

/-- Settles O14, register by register. -/
theorem argumentWriteReadsBack : Obligations.ArgumentWriteReadsBack := by
  intro s offset v rest hmem hb hhost
  have hidle : State.isBusy { s with host := rest } = false := hb
  simp only [List.mem_cons, List.not_mem_nil, or_false] at hmem
  rcases hmem with rfl | rfl | rfl | rfl | rfl | rfl
  all_goals
    refine ⟨_, step_writeRegister hhost (by decide) (by simp only [writeRegister, hidle]; rfl), rfl, ?_, rfl⟩
    intro other hother
    simp only [readRegister_eq, hother, if_false, Bool.false_eq_true]

/-! ## Status (R25, R26) -/

theorem StatusRules.of_busy {s : State} (h : StatusRules s) (hb : s.isBusy = true) :
    s.result = 0 ∧ s.faultOff = 0 := by
  have hrun : s.status.run = .busy := by simpa [State.isBusy] using hb
  have hcause : s.status.cause = .none := by
    by_contra hne
    have hfault := h.cause_iff_fault.mp hne
    rw [hrun] at hfault
    cases hfault
  exact ⟨h.result_zero (by rw [hrun]; decide), h.fault_off_zero (by rw [hcause]; decide)⟩

theorem StatusRules.idle {s : State} (hs : s.status = .idle) (hr : s.result = 0) (hf : s.faultOff = 0) :
    StatusRules s := ⟨by simp [hs, Status.idle], fun _ => hr, fun _ => hf⟩

theorem StatusRules.busy {s : State} (hs : s.status = .busy) (hr : s.result = 0) (hf : s.faultOff = 0) :
    StatusRules s := ⟨by simp [hs, Status.busy], fun _ => hr, fun _ => hf⟩

theorem StatusRules.done {s : State} (hs : s.status = .done) (hf : s.faultOff = 0) : StatusRules s :=
  ⟨by simp [hs, Status.done], by simp [hs, Status.done], fun _ => hf⟩

theorem StatusRules.faulted {s : State} {cause : Cause} (hs : s.status = .faulted cause) (hc : cause ≠ .none)
    (hr : s.result = 0) (hf : cause ≠ .corruptInput → s.faultOff = 0) : StatusRules s :=
  ⟨by simp [hs, Status.faulted, hc], fun _ => hr, by simpa [hs, Status.faulted] using hf⟩

/-- The rules speak of STATUS, RESULT and FAULT_OFF only. -/
theorem StatusRules.congr {s t : State} (h : StatusRules s) (hs : t.status = s.status) (hr : t.result = s.result)
    (hf : t.faultOff = s.faultOff) : StatusRules t :=
  ⟨by rw [hs]; exact h.cause_iff_fault, by rw [hs, hr]; exact h.result_zero, by rw [hs, hf]; exact h.fault_off_zero⟩

/-- A running command has RESULT and FAULT_OFF 0, so however it goes on or ends keeps the rules. -/
theorem CoreMove.statusRules {s t : State} (h : CoreMove s t) (hs : StatusRules s) (hb : s.isBusy = true) :
    StatusRules t := by
  obtain ⟨hresult, hfault⟩ := hs.of_busy hb
  rcases h with h | ⟨-, ⟨hd, hf⟩ | ⟨hd, hr, hf⟩ | ⟨hd, hr⟩⟩
  · exact hs.congr h.status h.result h.faultOff
  · exact .done hd (hf.trans hfault)
  · exact .faulted hd (by decide) (hr.trans hresult) fun _ => hf.trans hfault
  · exact .faulted hd (by decide) (hr.trans hresult) fun hne => absurd rfl hne

theorem CommandFrom.statusRules {s t : State} (h : CommandFrom s t) (hs : StatusRules s) : StatusRules t := by
  cases h with
  | ignored hb => exact hs
  | clear hb => exact .idle rfl rfl rfl
  | maxlen hb hbad => exact .done rfl rfl
  | refused code hb => exact .faulted rfl (by decide) rfl fun _ => rfl
  | compressFast hb hbad => exact .busy rfl rfl rfl
  | compressHc hb hbad => exact .busy rfl rfl rfl
  | decompressTrust hb hbad => exact .busy rfl rfl rfl
  | decompressSafe hb hbad => exact .busy rfl rfl rfl

/-- A core step is a waiting block or a move of the running unit. -/
theorem coreStep_cases {s t : State} (h : coreStep s = .next t) :
    s.isBusy = false ∧ t = s ∨ s.isBusy = true ∧ CoreMove s t := by
  cases hb : s.isBusy with
  | true => exact .inr ⟨rfl, coreStep_moves s t h⟩
  | false =>
    rw [coreStep_waits hb] at h
    cases h
    exact .inl ⟨rfl, rfl⟩

theorem StepFrom.statusRules {s t : State} (h : StepFrom s t) (hs : StatusRules s) : StatusRules t := by
  cases h with
  | core _ hc =>
    rcases coreStep_cases hc with ⟨-, rfl⟩ | ⟨hb, hmove⟩
    · exact hs
    · exact hmove.statusRules hs hb
  | command _ hc => exact hc.statusRules hs
  | arguments => exact hs.congr rfl rfl rfl
  | hostData => exact hs.congr rfl rfl rfl
  | writeSrc => exact hs.congr rfl rfl rfl
  | writeDst => exact hs.congr rfl rfl rfl
  | reset => exact .idle rfl rfl rfl

/-- Settles O13, by the cases of a step. -/
theorem statusRulesKept : Obligations.StatusRulesKept := by
  intro s t hs h
  obtain ⟨q, hq⟩ := step_cases h
  exact hq.statusRules (hs.congr rfl rfl rfl)

/-! ## Storage (R30 to R33) -/

theorem htSlots_not_inUse {s : State} (h : s.htInUse = false) : htSlots s = 2 ^ 24 := by simp [htSlots, h]

/-- Storage is kept where only registers change, as long as HT keeps a slot for every entry. -/
theorem StorageOk.congr {s t : State} (h : StorageOk s) (hbuf : BuffersOk t.src t.dst t.dstOpen) (hht : t.ht = s.ht)
    (hhead : t.head = s.head) (hchain : t.chain = s.chain) (hslots : htSlots s ≤ htSlots t) : StorageOk t :=
  ⟨hbuf, hht ▸ h.ht.mono hslots, hhead ▸ h.head, hchain ▸ h.chain⟩

/-- A command that is not COMPRESS_FAST leaves HT's contents open (log 5, U5). -/
theorem StorageOk.open_ht {s t : State} (h : StorageOk s) (hbuf : BuffersOk t.src t.dst t.dstOpen) (hht : t.ht = s.ht)
    (hhead : t.head = s.head) (hchain : t.chain = s.chain) (huse : t.htInUse = false) : StorageOk t :=
  h.congr hbuf hht hhead hchain (htSlots_not_inUse huse ▸ htSlots_le s)

theorem CommandFrom.storage {s t : State} (h : CommandFrom s t) (hs : StorageOk s) : StorageOk t := by
  cases h with
  | ignored hb => exact hs
  | clear hb => exact hs.open_ht hs.buffers rfl rfl rfl rfl
  | maxlen hb hbad => exact hs.open_ht hs.buffers rfl rfl rfl rfl
  | refused code hb => exact hs.open_ht hs.buffers rfl rfl rfl rfl
  | compressFast hb hbad => exact ⟨hs.buffers, .nil _ _, hs.head, hs.chain⟩
  | compressHc hb hbad => exact ⟨hs.buffers, hs.ht.mono (htSlots_le s), .nil _ _, hs.chain⟩
  | decompressTrust hb hbad => exact hs.open_ht hs.buffers rfl rfl rfl rfl
  | decompressSafe hb hbad => exact hs.open_ht hs.buffers rfl rfl rfl rfl

/-- A reset empties the tables and keeps the buffers but for the region of a running command (R260, R261). -/
theorem applyReset_storage {s : State} (hs : StorageOk s) : StorageOk (applyReset s) := by
  refine ⟨?_, .nil _ _, .nil _ _, .nil _ _⟩
  simp only [applyReset]
  split
  · exact hs.buffers.openDst _ _
  · exact hs.buffers

theorem StepFrom.storage {s t : State} (h : StepFrom s t) (hs : StorageOk s) : StorageOk t := by
  cases h with
  | core _ hc => exact (coreStep_moves s t hc).elim (fun h => h.storage hs) fun h => h.storage hs
  | command _ hc => exact hc.storage hs
  | arguments => exact hs.congr hs.buffers rfl rfl rfl (Nat.le_refl _)
  | hostData => exact hs.congr hs.buffers rfl rfl rfl (Nat.le_refl _)
  | writeSrc a b => exact hs.congr (hs.buffers.writeSrc a b) rfl rfl rfl (Nat.le_refl _)
  | writeDst a b => exact hs.congr (hs.buffers.writeDst a b) rfl rfl rfl (Nat.le_refl _)
  | reset => exact applyReset_storage hs

/-- While COMPRESS_FAST runs HT has the slots of the mode (R30, R130). -/
theorem htSlots_of_compressFast {s : State} (hb : s.isBusy = true) (hc : s.cmd = 2) :
    htSlots s = if s.mf.n < 65536 then 4096 else 2 ^ Config.hashLogLarge := by
  have huse : s.htInUse = true := by simp [State.htInUse, hb, hc]
  unfold htSlots htLog largeMode
  rw [if_pos huse, Config.smallLimit_eq]
  by_cases hn : s.mf.n < 65536
  · simp [hn, Nat.not_le.mpr hn, Config.hashLog]
  · simp [hn, Nat.le_of_not_lt hn]

/-- Settles O53, by the cases of a step; the slots of the mode are those of `htSlots`. -/
theorem storageStaysCanonical : Obligations.StorageStaysCanonical := by
  intro s t hs h
  obtain ⟨q, hq⟩ := step_cases h
  have hs := storageWf_iff.mp hs
  have ht : StorageOk t := hq.storage (hs.congr hs.buffers rfl rfl rfl (Nat.le_refl _))
  refine ⟨storageWf_iff.mpr ht, fun hb hc e he => ?_⟩
  rw [← htSlots_of_compressFast hb hc]
  exact ht.ht.inside e he

/-! ## The frame of a core step (R21 to R23, R33) -/

theorem CoreMove.frame {s t : State} (h : CoreMove s t) : Frame s t := h.elim Runs.toFrame Ends.toFrame

/-- Settles O54: the fields named are none that a core step may change. -/
theorem coreWritesNoHostState : Obligations.CoreWritesNoHostState := by
  intro s t hhost h
  rw [step_quiet hhost] at h
  have hsame := (coreStep_moves s t h).frame.same
  rw [hsame]
  exact ⟨rfl, rfl, rfl, rfl, rfl, rfl, rfl, rfl, hhost, rfl⟩

/-- A running command has its destination region (R22). -/
theorem Safe.dstRegion {s : State} (h : Safe s) (hb : s.isBusy = true) : DstRegion s := by
  rcases h.unit hb with hc | hc | hc | hc
  · exact (h.finder hb (.inl hc)).dst
  · exact (h.finder hb (.inr hc)).dst
  · exact (h.decoder hb (.inl hc)).dst
  · exact (h.decoder hb (.inr hc)).dst

theorem DstRegion.regionFits {s : State} (h : DstRegion s) : RegionFits s := ⟨h.off_nonneg, h.end_is_len⟩

/-- Settles O55: the region a running command may write is the one its arguments give. -/
theorem dstOutsideRegionUnchanged : Obligations.DstOutsideRegionUnchanged := by
  intro s t hsafe hhost h a ha
  rw [step_quiet hhost] at h
  rcases coreStep_cases h with ⟨-, rfl⟩ | ⟨hb, hmove⟩
  · rfl
  · exact hmove.frame.outside (hsafe.dstRegion hb).regionFits a ha

end Sys2Proof.Machine
end

section
/-! PROOFS. The register and slot widths (10_state.md R27 to R31) by part of the state, and what a computation of a unit
comes to under the unit's rules: it goes on or answers a next state, never a model fault, and keeps the widths
(`Flow.Works`). -/

namespace Sys2Proof.Machine

/-! ## Bounds -/

/-- A position in a source region is a 31-bit value: SRC_CAP is a signed 32-bit register (R23). -/
theorem SrcRegion.limit_lt {limit : Nat} {s : State} (h : SrcRegion limit s) : limit < 2 ^ 31 := by
  have hoff := h.off_nonneg
  have hfits := h.fits
  have hcap := BitVec.toInt_lt (x := s.srcCap)
  omega

theorem DstRegion.end_lt {s : State} (h : DstRegion s) : s.dEnd < 2 ^ 31 := by
  have hoff := h.off_nonneg
  have hfits := h.fits
  have hcap := BitVec.toInt_lt (x := s.dstCap)
  omega

/-! ## Widths, by part of the state -/

structure BdWidths (r : DecoderRegs) : Prop where
  sPos : r.sPos < 2 ^ 32
  sEnd : r.sEnd < 2 ^ 32
  offAt : r.offAt < 2 ^ 32
  litLen : r.litLen < 2 ^ 40
  matchLen : r.matchLen < 2 ^ 40

structure MfWidths (r : FinderRegs) : Prop where
  n : r.n < 2 ^ 32
  anchor : r.anchor < 2 ^ 32
  ip : r.ip < 2 ^ 32
  mlen : r.mlen < 2 ^ 32
  attempts : r.attempts < 2 ^ 32
  cand : ∀ c, r.cand = some c → c < 2 ^ 32
  mfLimit : -2 ^ 32 ≤ r.mfLimit ∧ r.mfLimit < 2 ^ 32
  matchLimit : -2 ^ 32 ≤ r.matchLimit ∧ r.matchLimit < 2 ^ 32

structure HcWidths (r : ChainRegs) : Prop where
  next : r.next < 2 ^ 32
  m0 : r.m0.narrow = true
  m1 : r.m1.narrow = true
  m2 : r.m2.narrow = true
  m3 : r.m3.narrow = true

/-- The slots of HT, which have `width` bits while it is in use, and of HEAD. -/
structure SlotWidths (inUse : Bool) (width : Nat) (ht head : List (Nat × Option Nat)) : Prop where
  ht_large : slotsFit Config.slotWLarge ht = true
  ht_used : inUse = true → slotsFit width ht = true
  head_large : slotsFit Config.slotWLarge head = true

/-- `WidthsHold`, by part of the state. -/
structure Widths (s : State) : Prop where
  dst : s.dPos < 2 ^ 32 ∧ s.dEnd < 2 ^ 32
  bd : BdWidths s.bd
  mf : MfWidths s.mf
  hc : HcWidths s.hc
  slots : SlotWidths s.htInUse (htSlotWidth s) s.ht s.head

theorem widthsHold_iff {s : State} : WidthsHold s ↔ Widths s := by
  constructor
  · rintro ⟨⟨h1, h2, h3, h4, h5⟩, ⟨h6, h7⟩, ⟨h8, h9, h10, h11, h12, h13, h14⟩, ⟨h15, h16, h17, h18⟩,
      ⟨h19, h20, h21, h22⟩, h23, h24, h25⟩
    exact ⟨⟨h3, h4⟩, ⟨h1, h2, h5, h6, h7⟩, ⟨h8, h9, h10, h11, h12, h14, ⟨h15, h16⟩, h17, h18⟩,
      ⟨h13, h19, h20, h21, h22⟩, h23, h24, h25⟩
  · rintro ⟨⟨h3, h4⟩, ⟨h1, h2, h5, h6, h7⟩, ⟨h8, h9, h10, h11, h12, h14, ⟨h15, h16⟩, h17, h18⟩,
      ⟨h13, h19, h20, h21, h22⟩, h23, h24, h25⟩
    exact ⟨⟨h1, h2, h3, h4, h5⟩, ⟨h6, h7⟩, ⟨h8, h9, h10, h11, h12, h13, h14⟩, ⟨h15, h16, h17, h18⟩,
      ⟨h19, h20, h21, h22⟩, h23, h24, h25⟩

theorem narrow_iff {m : MatchReg} :
    m.narrow = true ↔ -2 ^ 31 ≤ m.start ∧ m.start < 2 ^ 31 ∧ -2 ^ 31 ≤ m.ref ∧ m.ref < 2 ^ 31 ∧
      -2 ^ 31 ≤ m.len ∧ m.len < 2 ^ 31 := by simp [MatchReg.narrow]

/-- A position that fits the slots may be stored. -/
theorem slotsFit_set {width i p : Nat} {table : List (Nat × Option Nat)} (h : slotsFit width table = true)
    (hp : p < 2 ^ width) : slotsFit width (storeSet none table i (some p)) = true := by
  rw [slotsFit_iff] at h ⊢
  intro e he q hq
  rcases mem_storeSet he with rfl | hold
  · cases hq
    exact hp
  · exact h e hold q hq

/-- Outside COMPRESS_FAST the slots of HT have the large width only. -/
theorem SlotWidths.unused {inUse : Bool} {width w : Nat} {ht head : List (Nat × Option Nat)}
    (h : SlotWidths inUse width ht head) : SlotWidths false w ht head := ⟨h.ht_large, nofun, h.head_large⟩

/-- The widths do not depend on the arguments, the buffers, RESULT, FAULT_OFF or the host. -/
theorem Widths.congr {s t : State} (h : Widths s) (hd : t.dPos = s.dPos ∧ t.dEnd = s.dEnd) (hbd : t.bd = s.bd)
    (hmf : t.mf = s.mf) (hhc : t.hc = s.hc) (hslots : SlotWidths t.htInUse (htSlotWidth t) t.ht t.head) : Widths t :=
  ⟨by rw [hd.1, hd.2]; exact h.dst, hbd ▸ h.bd, hmf ▸ h.mf, hhc ▸ h.hc, hslots⟩

/-- A command that ends leaves its registers as they are. -/
theorem Widths.ended {s : State} (h : Widths s) {status : Status} (hrun : status.run ≠ .busy) (result faultOff : Word)
    (x : BdState) :
    Widths { s with status := status, result := result, faultOff := faultOff, bd := { s.bd with bdState := x } } := by
  have hidle : State.htInUse
      { s with status := status, result := result, faultOff := faultOff, bd := { s.bd with bdState := x } } =
      false := by simp [State.htInUse, State.isBusy, hrun]
  exact ⟨h.dst, ⟨h.bd.sPos, h.bd.sEnd, h.bd.offAt, h.bd.litLen, h.bd.matchLen⟩, h.mf, h.hc,
    by rw [hidle]; exact h.slots.unused⟩

theorem htSlotWidth_congr {s t : State} (hn : t.mf.n = s.mf.n) : htSlotWidth t = htSlotWidth s := by
  unfold htSlotWidth largeMode
  rw [hn]

theorem Widths.openRegionFrom {s : State} (h : Widths s) (q : Nat) : Widths (openRegionFrom q s) := by
  refine h.congr ⟨by simp, by simp⟩ (by simp) (by simp) (by simp) ?_
  have huse : (Machine.openRegionFrom q s).htInUse = s.htInUse := by simp [State.htInUse, State.isBusy]
  rw [huse, htSlotWidth_congr (s := s) (by simp), openRegionFrom_ht, openRegionFrom_head]
  exact h.slots

/-! ## What a unit's computation comes to -/

/-- The outcome is a next state, in which the widths are kept and, if the command is still running, the rules hold. -/
def Answers (Rules : State → Prop) (s : State) (r : Result) : Prop :=
  ∃ t, r = .next t ∧ (Widths s → Widths t) ∧ (t.isBusy = true → Rules t)

/-- The computation goes on with `P` and keeps the widths, or it answers a next state. -/
def Flow.Works (Rules : State → Prop) (s : State) (P : State → Prop) (x : Flow State) : Prop :=
  x.Holds (fun t => P t ∧ (Widths s → Widths t)) (Answers Rules s)

section

variable {Rules P Q : State → Prop} {s t : State}

theorem Answers.trans {r : Result} (h : Widths s → Widths t) (g : Answers Rules t r) : Answers Rules s r := by
  obtain ⟨u, hu, hw, hr⟩ := g
  exact ⟨u, hu, fun hs => hw (h hs), hr⟩

theorem Answers.mono {r : Result} (h : Answers Rules s r) (hr : ∀ t, Rules t → P t) : Answers P s r := by
  obtain ⟨t, ht, hw, hrules⟩ := h
  exact ⟨t, ht, hw, fun hb => hr t (hrules hb)⟩

theorem Flow.Works.trans {x : Flow State} (h : Widths s → Widths t) (hx : x.Works Rules t P) : x.Works Rules s P :=
  Flow.Holds.mono hx (fun _ g => ⟨g.1, fun hs => g.2 (h hs)⟩) fun _ => Answers.trans h

theorem Flow.Works.andThen {x : Flow State} {f : State → Flow State} (hx : x.Works Rules s P)
    (hf : ∀ t, P t → (f t).Works Rules t Q) : (x.andThen f).Works Rules s Q :=
  Flow.Holds.andThen hx (fun _ => id) fun t ht => (hf t ht.1).trans ht.2

theorem Flow.Works.imp {x : Flow State} (hx : x.Works Rules s P) (h : ∀ t, P t → Q t) : x.Works Rules s Q :=
  Flow.Holds.mono hx (fun t ht => ⟨h t ht.1, ht.2⟩) fun _ => id

theorem Flow.Works.finish {x : Flow State} (hx : x.Works Rules s P) (h : ∀ t, P t → t.isBusy = true → Rules t) :
    Answers Rules s x.finish := Flow.Holds.finish hx fun t ht => ⟨t, rfl, ht.2, h t ht.1⟩

theorem answers_raiseCorruptInput (p : Nat) : Answers Rules s (raiseCorruptInput p s) :=
  ⟨_, rfl, fun h => (h.ended (by decide) _ _ _).openRegionFrom 0, by simp [State.isBusy, Status.faulted]⟩

theorem answers_raiseDestinationTooSmall : Answers Rules s (raiseDestinationTooSmall s) :=
  ⟨_, rfl, fun h => (h.ended (by decide) _ _ s.bd.bdState).openRegionFrom 0, by simp [State.isBusy, Status.faulted]⟩

theorem answers_completeRegion (result : Nat) : Answers Rules s (.next (completeRegion result s)) :=
  ⟨_, rfl, fun h => (h.ended (by decide) _ _ s.bd.bdState).openRegionFrom _,
    by simp [completeRegion, State.isBusy, Status.done]⟩

end

end Sys2Proof.Machine
end

section
/-! PROOFS. The block decoder under its rules (43_block_decoder.md R181 to R198): every state, alone and inside a stream
instruction, keeps `DecoderRules` and the widths and never stops with a model fault. -/

namespace Sys2Proof.Machine

/-! ## Register writes -/

theorem Widths.dstOnly {s t : State} (h : Widths s) (hd : DstOnly s t) : Widths t := by
  rw [hd]
  exact ⟨h.dst, h.bd, h.mf, h.hc, h.slots⟩

/-- Writes of D_POS and of decoder registers other than S_END that keep the decoder's rules, which read neither a DST byte
nor the host's queue. -/
theorem DecoderRules.setBd {s : State} (h : DecoderRules s) {p : Nat} {r : DecoderRegs} {dst : Memory}
    {ranges : List OpenRange} {host : List HostMove} (hp : p ≤ s.dEnd)
    (hend : r.sEnd = s.bd.sEnd) (hpos : r.sPos ≤ s.bd.sEnd) (hfault : r.bdState ≠ .faulted)
    (hlit : r.bdState = .readLiteralLenExtension ∨ r.bdState = .copyLiterals → r.litLen ≤ 15 + 255 * r.sPos)
    (hext : r.bdState = .readMatchLenExtension → r.matchLen ≤ 15 + 255 * r.sPos)
    (hlen : r.bdState = .copyMatch → r.matchLen ≤ 19 + 255 * r.sPos)
    (hsource : r.bdState = .readMatchLenExtension ∨ r.bdState = .copyMatch →
      1 ≤ r.offset.toNat ∧ r.offset.toNat ≤ p ∧ r.offAt + 2 ≤ r.sPos) :
    DecoderRules { s with dPos := p, bd := r, dst := dst, dstOpen := ranges, host := host } := by
  have hsrc := h.src
  have hbound := h.bound
  rw [← hend] at hsrc hbound hpos
  exact ⟨⟨hsrc.off_nonneg, hsrc.fits⟩, ⟨h.dst.off_nonneg, h.dst.end_is_len, h.dst.fits, hp⟩, hbound, hpos, hfault,
    hlit, hext, hlen, hsource⟩

theorem DecoderRules.dstOnly {s t : State} (h : DecoderRules s) (hd : DstOnly s t) : DecoderRules t := by
  rw [hd]
  exact h.setBd h.dst.pos_le rfl h.pos_le h.not_faulted h.literal h.match_extension h.match_length h.match_source

/-- Register writes that leave the decoder where it reads a literal length or is to copy the literals. -/
theorem DecoderRules.setLiteral {s : State} (h : DecoderRules s) {r : DecoderRegs} (hend : r.sEnd = s.bd.sEnd)
    (hpos : r.sPos ≤ s.bd.sEnd) (hst : r.bdState = .readLiteralLenExtension ∨ r.bdState = .copyLiterals)
    (hlit : r.litLen ≤ 15 + 255 * r.sPos) : DecoderRules { s with bd := r } := by
  refine h.setBd h.dst.pos_le hend hpos ?_ (fun _ => hlit) ?_ ?_ ?_
  all_goals rcases hst with hst | hst <;> simp [hst]

/-- Register writes that leave the decoder where it reads a match length or is to copy the match. -/
theorem DecoderRules.setMatch {s : State} (h : DecoderRules s) {r : DecoderRegs} (hend : r.sEnd = s.bd.sEnd)
    (hpos : r.sPos ≤ s.bd.sEnd)
    (hst : r.bdState = .readMatchLenExtension ∧ r.matchLen ≤ 15 + 255 * r.sPos ∨
      r.bdState = .copyMatch ∧ r.matchLen ≤ 19 + 255 * r.sPos)
    (hsource : 1 ≤ r.offset.toNat ∧ r.offset.toNat ≤ s.dPos ∧ r.offAt + 2 ≤ r.sPos) :
    DecoderRules { s with bd := r } := by
  refine h.setBd h.dst.pos_le hend hpos ?_ ?_ ?_ ?_ fun _ => hsource
  all_goals rcases hst with ⟨hst, hlen⟩ | ⟨hst, hlen⟩ <;> simp [hst, hlen]

/-- Writes of D_POS and of decoder registers that keep the widths. -/
theorem Widths.setBd {s : State} (h : Widths s) {p : Nat} {r : DecoderRegs} (hp : p < 2 ^ 32) (hr : BdWidths r) :
    Widths { s with dPos := p, bd := r } := ⟨⟨hp, h.dst.2⟩, hr, h.mf, h.hc, h.slots⟩

/-- The decoder stands in a length extension. -/
def InExtension (s : State) : Prop :=
  s.bd.bdState = .readLiteralLenExtension ∨ s.bd.bdState = .readMatchLenExtension

/-- The decoder's rules hold and TOKEN is `t`. -/
structure Sequence (t : Byte) (s : State) : Prop where
  rules : DecoderRules s
  token : s.bd.token = t

/-! ## The states -/

theorem fetchGuard_holds (s : State) :
    (fetchGuard s).Holds (fun t => s = t ∧ s.bd.sPos < s.bd.sEnd) (Answers DecoderRules s) := by
  unfold fetchGuard
  split
  · exact answers_raiseCorruptInput _
  · exact ⟨rfl, by omega⟩

/-- FETCH goes on with a byte left, or answers its fault (R182). -/
theorem peek_works {s : State} (h : DecoderRules s) :
    (peek s).Holds (fun _ => s.bd.sPos < s.bd.sEnd) (Answers DecoderRules s) := by
  rcases Nat.lt_or_ge s.bd.sPos s.bd.sEnd with hp | hp
  · rw [peek_inside h.src hp]
    exact hp
  · rw [peek_exhausted hp]
    exact answers_raiseCorruptInput _

/-- ReadToken (R183). -/
theorem takeToken_works (t : Byte) {s : State} (h : DecoderRules s) :
    (takeToken t s).Works DecoderRules s fun u => Sequence t u ∧
      (highNibble t = 15#4 → u.bd.bdState = .readLiteralLenExtension) := by
  refine (fetchGuard_holds s).andThen (fun _ => id) ?_
  rintro _ ⟨rfl, hp⟩
  have hnib := (highNibble t).isLt
  have hend := h.src.limit_lt
  refine ⟨⟨⟨h.setLiteral rfl hp ?_ (by simp only; omega), rfl⟩, fun h15 => if_pos h15⟩, fun hw => ?_⟩
  · simp only
    split <;> simp
  · exact hw.setBd hw.dst.1 ⟨by simp only; omega, hw.bd.sEnd, hw.bd.offAt, by simp only; omega, hw.bd.matchLen⟩

/-- An extension byte in a length extension (R184, R188). -/
theorem takeExtension_works (b : Byte) {s : State} (h : DecoderRules s) (hin : InExtension s) :
    (takeExtension b s).Works DecoderRules s fun u => Sequence s.bd.token u ∧ (b = 255#8 → InExtension u) := by
  refine (fetchGuard_holds s).andThen (fun _ => id) ?_
  rintro _ ⟨rfl, hp⟩
  have hb := b.isLt
  have hend := h.src.limit_lt
  rcases hin with hst | hst
  · have hlit := h.literal (.inl hst)
    simp only [addExtension, hst]
    refine ⟨⟨⟨h.setLiteral rfl hp ?_ (by simp only; omega), rfl⟩, fun he => ?_⟩, fun hw => ?_⟩
    · simp only
      split <;> simp
    · simp [InExtension, he]
    · exact hw.setBd hw.dst.1 ⟨by simp only; omega, hw.bd.sEnd, hw.bd.offAt, by simp only; omega, hw.bd.matchLen⟩
  · have hlen := h.match_extension hst
    have hsource := h.match_source (.inl hst)
    simp only [addExtension, hst]
    refine ⟨⟨⟨h.setMatch rfl hp ?_ (by simp only; omega), rfl⟩, fun he => ?_⟩, fun hw => ?_⟩
    · simp only [Config.minMatch]
      split
      · exact .inl ⟨rfl, by omega⟩
      · exact .inr ⟨rfl, by omega⟩
    · simp [InExtension, he]
    · refine hw.setBd hw.dst.1 ⟨by simp only; omega, hw.bd.sEnd, hw.bd.offAt, hw.bd.litLen, ?_⟩
      simp only [Config.minMatch]
      split <;> omega

/-- A whole length extension (R184, R188). -/
theorem runExtension_works (budget : Nat) {s : State} (h : DecoderRules s) (hin : InExtension s) :
    (runExtension budget s).Works DecoderRules s (Sequence s.bd.token) := by
  induction budget generalizing s with
  | zero => exact answers_raiseCorruptInput _
  | succ budget ih =>
    refine (peek_works h).andThen (fun _ => id) fun b _ => (takeExtension_works b h hin).andThen ?_
    rintro t ⟨ht, hmore⟩
    split
    · next hb =>
      rw [← ht.token]
      exact ih ht.rules (hmore hb)
    · exact ⟨ht, id⟩

theorem readExtensionAt_works {s : State} (h : DecoderRules s) (hin : InExtension s) :
    (readExtensionAt s).Works DecoderRules s (Sequence s.bd.token) := runExtension_works _ h hin

/-- CopyLiterals (R185): both positions grow by LIT_LEN inside their bounds. -/
theorem copyLiterals_works {s : State} (h : DecoderRules s) :
    (copyLiterals s).Works DecoderRules s (Sequence s.bd.token) := by
  unfold copyLiterals
  split
  · exact answers_raiseCorruptInput _
  · split
    · exact answers_raiseCorruptInput _
    · rw [srcBytes_inside h.src (by omega), Flow.andThen_go]
      obtain ⟨t, ht⟩ := dstPutList_inside (bytes := srcRun s s.bd.sPos s.bd.litLen) (q := s.dPos) h.dst
        (by rw [srcRun_length]; omega)
      obtain ⟨hd, -, -⟩ := dstPutList_frame ht
      have hend := h.src.limit_lt
      have hdEnd := h.dst.end_lt
      have hrules := h.dstOnly hd
      have hbd : t.bd = s.bd := by rw [hd]
      have hdE : t.dEnd = s.dEnd := by rw [hd]
      rw [ht, Flow.andThen_go]
      refine ⟨⟨hrules.setBd (by omega) rfl (by simp only [hbd]; omega) hrules.not_faulted (fun hl => ?_)
        (fun hl => ?_) (fun hl => ?_) fun hl => ?_, by rw [← hbd]⟩, fun hw => ?_⟩
      · have := h.literal (hbd ▸ hl)
        simp only [hbd]
        omega
      · have := h.match_extension (hbd ▸ hl)
        simp only [hbd]
        omega
      · have := h.match_length (hbd ▸ hl)
        simp only [hbd]
        omega
      · have := h.match_source (hbd ▸ hl)
        simp only [hbd]
        omega
      · refine (hw.dstOnly hd).setBd (by omega) ?_
        rw [hbd]
        exact ⟨by simp only; omega, hw.bd.sEnd, hw.bd.offAt, hw.bd.litLen, hw.bd.matchLen⟩

/-- The goto of the terminal test (R186). -/
theorem toReadOffset_works {s : State} (h : DecoderRules s) :
    Sequence s.bd.token (toReadOffset s) ∧ (Widths s → Widths (toReadOffset s)) :=
  ⟨⟨h.setBd h.dst.pos_le rfl h.pos_le nofun nofun nofun nofun nofun, rfl⟩, fun hw =>
    hw.setBd hw.dst.1 ⟨hw.bd.sPos, hw.bd.sEnd, hw.bd.offAt, hw.bd.litLen, hw.bd.matchLen⟩⟩

theorem Widths.takeOffset {s : State} (h : Widths s) (hdec : DecoderRules s) (hp : s.bd.sPos + 2 ≤ s.bd.sEnd)
    (off : Half) : Widths (takeOffset off s) := by
  have hend := hdec.src.limit_lt
  exact h.setBd h.dst.1 ⟨by simp only; omega, h.bd.sEnd, by simp only; omega, h.bd.litLen, h.bd.matchLen⟩

/-- The nibble gives a match length below 19 (R187). -/
theorem Widths.takeMatchNibble {s : State} (h : Widths s) : Widths (takeMatchNibble s) := by
  have hnib := (lowNibble s.bd.token).isLt
  refine h.setBd h.dst.1 ⟨h.bd.sPos, h.bd.sEnd, h.bd.offAt, h.bd.litLen, ?_⟩
  simp only [Config.nibbleCap, Config.minMatch]
  split <;> omega

/-- An accepted offset leaves the decoder where it reads a match length or is to copy the match (R187). -/
theorem DecoderRules.takeMatchNibble {s : State} (h : DecoderRules s) {off : Half} (hp : s.bd.sPos + 2 ≤ s.bd.sEnd)
    (h0 : off ≠ 0#16) (hle : off.toNat ≤ s.dPos) : DecoderRules (takeMatchNibble (takeOffset off s)) := by
  have hnib := (lowNibble s.bd.token).isLt
  have hpos : off.toNat ≠ 0 := fun he => h0 (BitVec.eq_of_toNat_eq he)
  refine h.setMatch (r := (Machine.takeMatchNibble (takeOffset off s)).bd) rfl hp ?_
    ⟨by simp only [takeMatchNibble_bd, takeOffset_bd]; omega, hle, Nat.le_refl _⟩
  simp only [takeMatchNibble_bd, takeOffset_bd, Config.nibbleCap, Config.minMatch]
  by_cases h15 : lowNibble s.bd.token = 15#4
  · refine .inl ⟨if_pos h15, ?_⟩
    simp only [h15, if_true]
    omega
  · refine .inr ⟨if_neg h15, ?_⟩
    simp only [h15, if_false]
    omega

/-- ReadOffset (R187). -/
theorem readOffset_works {s : State} (h : DecoderRules s) :
    (readOffset s).Works DecoderRules s fun u => Sequence s.bd.token u ∧
      (lowNibble s.bd.token = 15#4 → u.bd.bdState = .readMatchLenExtension) := by
  unfold readOffset
  split
  · exact answers_raiseCorruptInput _
  · have hp : s.bd.sPos + 2 ≤ s.bd.sEnd := by omega
    simp only [bdByte]
    rw [srcByte_inside h.src (by omega) (by omega), Flow.andThen_go, srcByte_inside h.src (by omega) (by omega),
      Flow.andThen_go]
    generalize offsetOf _ _ = off
    refine Flow.Works.trans (t := takeOffset off s) (fun hw => hw.takeOffset h hp off) ?_
    split
    · exact answers_raiseCorruptInput _
    · next h0 =>
      split
      · exact answers_raiseCorruptInput _
      · next hle =>
        exact ⟨⟨⟨h.takeMatchNibble hp h0 (Nat.le_of_not_gt hle), rfl⟩, fun h15 => if_pos h15⟩,
          Widths.takeMatchNibble⟩

/-- CopyMatch (R189): D_POS grows by MATCH_LEN inside its bound. -/
theorem copyMatch_works {s : State} (h : DecoderRules s) : (copyMatch s).Works DecoderRules s DecoderRules := by
  unfold copyMatch
  split
  · exact answers_raiseCorruptInput _
  · obtain ⟨t, ht⟩ := copyBytes_inside (count := s.bd.matchLen) (source := s.dPos - s.bd.offset.toNat)
      (target := s.dPos) h.dst (by omega) (by omega)
    obtain ⟨hd, -⟩ := copyBytes_frame ht
    have hdEnd := h.dst.end_lt
    have hrules := h.dstOnly hd
    have hdE : t.dEnd = s.dEnd := by rw [hd]
    rw [ht, Flow.andThen_go]
    refine ⟨hrules.setBd (by omega) rfl hrules.pos_le nofun nofun nofun nofun nofun, fun hw => ?_⟩
    have hwt := hw.dstOnly hd
    exact hwt.setBd (by omega) ⟨hwt.bd.sPos, hwt.bd.sEnd, hwt.bd.offAt, hwt.bd.litLen, hwt.bd.matchLen⟩

/-! ## Steps -/

theorem answers_finishDecode {s t : State} (h : Widths s → Widths t) :
    Answers DecoderRules s (.next (finishDecode t)) := by
  refine Answers.trans (fun hs => ?_) (answers_completeRegion _)
  have ht := h hs
  exact ht.setBd ht.dst.1 ⟨ht.bd.sPos, ht.bd.sEnd, ht.bd.offAt, ht.bd.litLen, ht.bd.matchLen⟩

theorem literalsThenOffset_works {s : State} (h : DecoderRules s) :
    (literalsThenOffset s).Works DecoderRules s fun u => Sequence s.bd.token u ∧
      (lowNibble s.bd.token = 15#4 → u.bd.bdState = .readMatchLenExtension) := by
  refine (copyLiterals_works h).andThen fun t ht => ?_
  obtain ⟨hnext, hw⟩ := toReadOffset_works ht.rules
  rw [← ht.token]
  exact Flow.Works.trans hw (readOffset_works hnext.rules)

/-- What comes before the last literals works, so the final sequence answers (R203, R204). -/
theorem literalsThenDone_answers {s : State} {P : State → Prop} {x : Flow State} (hx : x.Works DecoderRules s P)
    (hP : ∀ t, P t → DecoderRules t) : Answers DecoderRules s (x.andThen literalsThenDone).finish := by
  refine Flow.Holds.finish (P := fun t => Answers DecoderRules s (.next t)) ?_ fun t ht => ht
  refine Flow.Holds.andThen hx (fun _ => id) fun t ht => ?_
  refine Flow.Holds.andThen (copyLiterals_works (hP t ht.1)) (fun _ => Answers.trans ht.2) fun u hu => ?_
  exact answers_finishDecode fun hs => hu.2 (ht.2 hs)

/-- One state of the decoder (R183 to R191). -/
theorem decoderUnitStep_answers {s : State} (h : DecoderRules s) : Answers DecoderRules s (decoderUnitStep s) := by
  have extension : InExtension s → Answers DecoderRules s ((peek s).andThen fun b => takeExtension b s).finish :=
    fun hin => Flow.Works.finish (P := DecoderRules)
      ((peek_works h).andThen (fun _ => id) fun b _ => (takeExtension_works b h hin).imp fun _ ht => ht.1.rules)
      fun _ ht _ => ht
  unfold decoderUnitStep
  split
  case h_1 =>
    exact Flow.Works.finish (P := DecoderRules)
      ((peek_works h).andThen (fun _ => id) fun t _ => (takeToken_works t h).imp fun _ ht => ht.1.rules)
      fun _ ht _ => ht
  case h_2 hst => exact extension (.inl hst)
  case h_3 =>
    refine Flow.Holds.finish (P := fun t => Answers DecoderRules s (.next t)) ?_ fun t ht => ht
    refine Flow.Holds.andThen (copyLiterals_works h) (fun _ => id) fun t ht => ?_
    split
    · exact answers_finishDecode ht.2
    · obtain ⟨hnext, hw⟩ := toReadOffset_works ht.1.rules
      exact ⟨_, rfl, fun hs => hw (ht.2 hs), fun _ => hnext.rules⟩
  case h_4 => exact (readOffset_works h).finish fun _ ht _ => ht.1.rules
  case h_5 hst => exact extension (.inr hst)
  case h_6 => exact (copyMatch_works h).finish fun _ ht _ => ht
  case h_7 => exact answers_finishDecode id
  case h_8 hst => exact absurd hst h.not_faulted

/-- A stream instruction that a token selects (R199 to R204). -/
theorem exec_token_answers (final : Bool) (t : Byte) {s : State} (h : DecoderRules s) :
    Answers DecoderRules s (exec (decodeToken final t) s) := by
  have sequence : ∀ u, DecoderRules u →
      ((literalsThenOffset u).andThen copyMatch).Works DecoderRules u DecoderRules := fun u hu =>
    (literalsThenOffset_works hu).andThen fun v hv => copyMatch_works hv.1.rules
  have extended : ∀ u, DecoderRules u → lowNibble u.bd.token = 15#4 →
      ((literalsThenOffset u).andThen fun v => (readExtensionAt v).andThen copyMatch).Works DecoderRules u
        DecoderRules := fun u hu hlow =>
    (literalsThenOffset_works hu).andThen fun v hv =>
      (readExtensionAt_works hv.1.rules (.inr (hv.2 hlow))).andThen fun w hw => copyMatch_works hw.rules
  have literalLength : ∀ m, ((takeToken (tokenByte 15#4 m) s).andThen readExtensionAt).Works DecoderRules s
      (Sequence (tokenByte 15#4 m)) := fun m =>
    (takeToken_works _ h).andThen fun u hu => by
      rw [← hu.1.token]
      exact readExtensionAt_works hu.1.rules (.inl (hu.2 (highNibble_tokenByte 15#4 m)))
  have rules : ∀ u, DecoderRules u → u.isBusy = true → DecoderRules u := fun _ hu _ => hu
  cases final with
  | true =>
    simp only [decodeToken]
    split
    · have := literalsThenDone_answers (literalLength (lowNibble t)) fun _ hu => hu.rules
      rwa [Flow.andThen_assoc] at this
    · exact literalsThenDone_answers (takeToken_works _ h) fun _ hu => hu.1.rules
  | false =>
    simp only [decodeToken]
    split
    · split
      · have := ((literalLength 15#4).andThen fun u hu =>
          extended u hu.rules (by rw [hu.token]; exact lowNibble_tokenByte 15#4 15#4)).finish rules
        rwa [Flow.andThen_assoc] at this
      · have := ((literalLength (lowNibble t)).andThen fun u hu => sequence u hu.rules).finish rules
        rwa [Flow.andThen_assoc] at this
    · split
      · exact ((takeToken_works _ h).andThen fun u hu =>
          extended u hu.1.rules (by rw [hu.1.token]; exact lowNibble_tokenByte _ 15#4)).finish rules
      · exact ((takeToken_works _ h).andThen fun u hu => sequence u hu.1.rules).finish rules

/-- A stream instruction that an extension byte selects (R205, R206). -/
theorem exec_extension_answers (b : Byte) {s : State} (h : DecoderRules s) (hin : InExtension s) :
    Answers DecoderRules s (exec (decodeExtension b) s) := by
  unfold decodeExtension
  split <;> exact (takeExtension_works _ h hin).finish fun _ ht _ => ht.1.rules

/-- A step of a running decode command. -/
theorem decoderFetch_answers {s : State} (h : DecoderRules s) : Answers DecoderRules s (decoderFetch s).result := by
  have hpeek := peek_works h
  unfold decoderFetch
  cases hx : peek s with
  | go b =>
    split
    case h_1 => exact exec_token_answers _ b h
    case h_2 hst => exact exec_extension_answers b h (.inl hst)
    case h_3 hst => exact exec_extension_answers b h (.inr hst)
    all_goals exact decoderUnitStep_answers h
  | stop r =>
    rw [hx] at hpeek
    split
    · exact hpeek
    · exact hpeek
    · exact hpeek
    all_goals exact decoderUnitStep_answers h

end Sys2Proof.Machine
end

section
/-! PROOFS. The sequence encoder and the hash-table match finder under their rules (40_sequence_encoder.md,
41_match_finder_hash_table.md R142): each keeps `FinderRules` and the widths and never stops with a model fault. -/

namespace Sys2Proof.Machine

/-! ## Register writes -/

/-- Writes of DST, D_POS, finder registers, tables and the host's queue that keep the rules. -/
theorem FinderRules.set {s : State} (h : FinderRules s) {p : Nat} {r : FinderRegs} {c : ChainRegs}
    {ht head : List (Nat × Option Nat)} {chain : List (Nat × Half)} {dst : Memory} {ranges : List OpenRange}
    {host : List HostMove} (hp : p ≤ s.dEnd) (hn : r.n = s.mf.n)
    (hmf : r.mfLimit = s.mf.mfLimit) (hmatch : r.matchLimit = s.mf.matchLimit) (hanchor : r.anchor ≤ s.mf.n) :
    FinderRules { s with
      dPos := p, mf := r, hc := c, ht := ht, head := head, chain := chain, dst := dst, dstOpen := ranges
      host := host } := by
  have hsrc := h.src
  have hlen := h.length
  have hlim := h.mf_limit
  have hml := h.match_limit
  rw [← hn] at hsrc hlen hlim hml hanchor
  rw [← hmf] at hlim
  rw [← hmatch] at hml
  exact ⟨⟨hsrc.off_nonneg, hsrc.fits⟩, ⟨h.dst.off_nonneg, h.dst.end_is_len, h.dst.fits, hp⟩, hlen, hlim, hml,
    hanchor⟩

/-- Writes of tables and of MF-HC registers keep the rules. -/
theorem FinderRules.setTables {s : State} (h : FinderRules s) (c : ChainRegs) (ht head : List (Nat × Option Nat))
    (chain : List (Nat × Half)) : FinderRules { s with hc := c, ht := ht, head := head, chain := chain } :=
  h.set h.dst.pos_le rfl rfl rfl h.anchor_le

theorem FinderRules.n_lt {s : State} (h : FinderRules s) : s.mf.n < 2 ^ 31 := h.src.limit_lt

/-- Writes of finder registers that keep the widths. -/
theorem Widths.setMf {s : State} (h : Widths s) {r : FinderRegs} (hn : r.n = s.mf.n) (hr : MfWidths r) :
    Widths { s with mf := r } :=
  ⟨h.dst, h.bd, hr, h.hc, by rw [htSlotWidth_congr (s := s) hn]; exact h.slots⟩

/-- Writes of MF-HC registers that keep the widths. -/
theorem Widths.setHc {s : State} (h : Widths s) {r : ChainRegs} (hr : HcWidths r) : Widths { s with hc := r } :=
  ⟨h.dst, h.bd, h.mf, hr, h.slots⟩

/-- A position of the source fits an HT slot of the current mode (R30, R130). -/
theorem lt_htSlotWidth {s : State} (h : FinderRules s) {p : Nat} (hp : p < s.mf.n) : p < 2 ^ htSlotWidth s := by
  have hn := h.n_lt
  unfold htSlotWidth largeMode
  split
  · simp only [Config.slotWLarge_eq]
    omega
  · next hsmall =>
    have hn16 : s.mf.n < Config.smallLimit := Nat.lt_of_not_le fun hle => hsmall (decide_eq_true hle)
    rw [Config.smallLimit_eq] at hn16
    simp only [Config.slotWSmall_eq]
    omega

/-! ## Reads of the source -/

theorem mfByte_inside {p : Int} {s : State} (h : FinderRules s) (h0 : 0 ≤ p) (hp : p < s.mf.n) :
    mfByte p s = .go (srcAt s p) := srcByte_inside h.src h0 hp

theorem commonFwdFrom_goes {a b : Int} {s : State} (h : FinderRules s) (ha : 0 ≤ a) (hab : a ≤ b) {k count : Nat}
    (hb : b + k + count ≤ s.mf.n) : ∃ j, commonFwdFrom a b s k count = .go j ∧ j ≤ k + count := by
  induction count generalizing k with
  | zero => exact ⟨k, rfl, Nat.le_refl _⟩
  | succ count ih =>
    rw [commonFwdFrom, mfByte_inside h (by omega) (by omega), Flow.andThen_go, mfByte_inside h (by omega) (by omega),
      Flow.andThen_go]
    split
    · obtain ⟨j, hj, hle⟩ := ih (k := k + 1) (by omega)
      exact ⟨j, hj, by omega⟩
    · exact ⟨k, rfl, by omega⟩

/-- COMMON_FWD inside the source goes on, and does not pass its limit (R154). -/
theorem commonFwd_goes {a b limit : Int} {s : State} (h : FinderRules s) (ha : 0 ≤ a) (hab : a ≤ b)
    (hb : b ≤ limit) (hlimit : limit ≤ s.mf.n) : ∃ k : Nat, commonFwd a b limit s = .go k ∧ b + k ≤ limit := by
  obtain ⟨k, hk, hle⟩ := commonFwdFrom_goes (k := 0) (count := (limit - b).toNat) h ha hab (by omega)
  exact ⟨k, hk, by omega⟩

/-- The walk of CATCHUP goes on, backward (R136). -/
theorem catchupFrom_goes {s : State} (h : FinderRules s) (anchor : Nat) {ip cand : Nat} (hc : cand ≤ ip)
    (hip : ip ≤ s.mf.n) : ∃ i c, catchupFrom anchor s ip cand = .go (i, c) ∧ i ≤ ip ∧ c ≤ cand := by
  induction ip generalizing cand with
  | zero => exact ⟨0, cand, by simp [catchupFrom], Nat.le_refl _, Nat.le_refl _⟩
  | succ ip ih =>
    cases cand with
    | zero => exact ⟨ip + 1, 0, by simp [catchupFrom], Nat.le_refl _, Nat.le_refl _⟩
    | succ cand =>
      rw [catchupFrom, mfByte_inside h (by omega) (by omega), Flow.andThen_go, mfByte_inside h (by omega) (by omega),
        Flow.andThen_go]
      split
      · split
        · obtain ⟨i, c, hgo, hi, hc⟩ := ih (cand := cand) (by omega) (by omega)
          exact ⟨i, c, hgo, by omega, by omega⟩
        · exact ⟨_, _, rfl, Nat.le_refl _, Nat.le_refl _⟩
      · exact ⟨_, _, rfl, Nat.le_refl _, Nat.le_refl _⟩

/-! ## The sequence encoder -/

/-- The state has changed in D_POS and DST bytes only. -/
def Emitted (s t : State) : Prop := t = { s with dPos := t.dPos, dst := t.dst, dstOpen := t.dstOpen }

/-- An emission that fits goes on, and one that does not answers DestinationTooSmall (R113, R114). -/
theorem emitBytes_works {s : State} (h : FinderRules s) (bytes : List Byte) :
    (emitBytes bytes s).Works FinderRules s fun t => FinderRules t ∧ Emitted s t := by
  unfold emitBytes
  split
  · exact answers_raiseDestinationTooSmall
  · obtain ⟨t, ht⟩ := dstPutList_inside h.dst (by omega : s.dPos + bytes.length ≤ s.dEnd)
    obtain ⟨hd, -, -⟩ := dstPutList_frame ht
    have hend := h.dst.end_lt
    rw [ht, Flow.andThen_go]
    rw [hd]
    refine ⟨⟨h.set ?_ rfl rfl rfl h.anchor_le, rfl⟩, fun hw => ⟨⟨?_, hw.dst.2⟩, hw.bd, hw.mf, hw.hc, hw.slots⟩⟩
    · omega
    · simp only
      omega

theorem emitSeq_works {s : State} (h : FinderRules s) {start : Nat} (hstart : start ≤ s.mf.n) (ref len : Nat) :
    (emitSeq start ref len s).Works FinderRules s fun t => FinderRules t ∧ Emitted s t := by
  have hanchor := h.anchor_le
  rw [emitSeq, srcBytes_inside h.src (by omega), Flow.andThen_go]
  exact emitBytes_works h _

/-- TAIL of both finders (R140, R163). -/
theorem finishCompress_answers {s : State} (h : FinderRules s) : Answers FinderRules s (finishCompress s) := by
  have hanchor := h.anchor_le
  have hlast : (emitLast s).Works FinderRules s fun t => FinderRules t ∧ Emitted s t := by
    rw [emitLast, srcBytes_inside h.src (by omega), Flow.andThen_go]
    exact emitBytes_works h _
  refine Flow.Holds.finish (P := fun t => Answers FinderRules s (.next t)) ?_ fun t ht => ht
  exact Flow.Holds.andThen hlast (fun _ => id) fun t ht => Answers.trans ht.2 (answers_completeRegion _)

/-! ## The hash-table match finder -/

theorem mem_of_storeGet {α : Type} {d v : α} {l : List (Nat × α)} {a : Nat} (h : storeGet d l a = v)
    (hv : v ≠ d) : (a, v) ∈ l := by
  induction l with
  | nil => exact absurd h.symm hv
  | cons e rest ih =>
    obtain ⟨k, w⟩ := e
    simp only [storeGet] at h
    split at h
    · subst_vars
      exact List.mem_cons_self
    · exact List.mem_cons_of_mem _ (ih h)

/-- PROBE at a position below the limit goes on, with a candidate below the limit too (R133). -/
theorem probe_goes {s : State} (h : FinderRules s) {p : Nat} (hp : p + 12 ≤ s.mf.n) (hslots : SlotsBelow s p) :
    ∃ found ht, probe p s = .go (found, { s with ht := ht }) ∧ (∀ c, found = some c → c < p) ∧
      (Widths s → Widths { s with ht := ht }) := by
  obtain ⟨v, hv⟩ : ∃ v, rd32 p s = .go v := ⟨_, rd32_inside h.src (by omega) (by omega)⟩
  have hn := h.n_lt
  have hw : Widths s → Widths { s with ht := storeSet none s.ht (hash v (htLog s)) (some p) } := fun hw =>
    ⟨hw.dst, hw.bd, hw.mf, hw.hc, slotsFit_set hw.slots.ht_large (by simp only [Config.slotWLarge_eq]; omega),
      fun hu => slotsFit_set (hw.slots.ht_used hu) (lt_htSlotWidth h (by omega)), hw.slots.head_large⟩
  rw [probe, hv, Flow.andThen_go]
  simp only
  split
  · exact ⟨none, _, rfl, nofun, hw⟩
  · next c hc =>
    obtain ⟨hlt, hle⟩ := hslots _ (mem_of_storeGet hc nofun) c rfl
    split
    · exact ⟨none, _, rfl, nofun, hw⟩
    · obtain ⟨w, hw'⟩ : ∃ w, rd32 c s = .go w := ⟨_, rd32_inside h.src (by omega) (by omega)⟩
      rw [hw', Flow.andThen_go]
      split
      · exact ⟨some c, _, rfl, fun _ he => by cases he; exact hlt, hw⟩
      · exact ⟨none, _, rfl, nofun, hw⟩

section

variable {s : State} (h : FinderRules s)

include h

/-- Finder registers that keep the constants of the command, in a state that differs from `s` in HT. -/
theorem works_setMf {ht : List (Nat × Option Nat)} (hw : Widths s → Widths { s with ht := ht }) {r : FinderRegs}
    (hn : r.n = s.mf.n) (hmf : r.mfLimit = s.mf.mfLimit) (hmatch : r.matchLimit = s.mf.matchLimit)
    (hanchor : r.anchor ≤ s.mf.n) (hr : MfWidths s.mf → MfWidths r) :
    FinderRules { s with ht := ht, mf := r } ∧ (Widths s → Widths { s with ht := ht, mf := r }) :=
  ⟨h.set h.dst.pos_le hn hmf hmatch hanchor, fun hs => (hw hs).setMf hn (hr hs.mf)⟩

theorem searchPass_works (hf : s.mf.anchor ≤ s.mf.ip ∧ SlotsBelow s s.mf.ip ∧ 64 ≤ s.mf.attempts ∧
    s.mf.attempts ≤ 64 + s.mf.ip) : (searchPass s).Works FinderRules s FinderRules := by
  obtain ⟨-, hslots, -, hattempts⟩ := hf
  have hn := h.n_lt
  have hlim := h.mf_limit
  unfold searchPass
  split
  · exact works_setMf h id rfl rfl rfl h.anchor_le fun hw =>
      ⟨hw.n, hw.anchor, hw.ip, hw.mlen, hw.attempts, hw.cand, hw.mfLimit, hw.matchLimit⟩
  · obtain ⟨found, ht, hprobe, hfound, hw⟩ := probe_goes h (by omega) hslots
    rw [hprobe, Flow.andThen_go]
    cases found with
    | some c =>
      have hc := hfound c rfl
      exact works_setMf h hw rfl rfl rfl h.anchor_le fun hw =>
        ⟨hw.n, hw.anchor, hw.ip, hw.mlen, hw.attempts, by rintro _ ⟨⟩; omega, hw.mfLimit, hw.matchLimit⟩
    | none =>
      refine works_setMf h hw rfl rfl rfl h.anchor_le fun hw =>
        ⟨hw.n, hw.anchor, ?_, hw.mlen, ?_, nofun, hw.mfLimit, hw.matchLimit⟩
      · simp only [Nat.shiftRight_eq_div_pow, Config.skipStrength_eq]
        omega
      · simp only
        omega

theorem catchup_works (hf : CandidateOk s 4 ∧ SlotsBelow s (s.mf.ip + 1)) :
    (catchup s).Works FinderRules s FinderRules := by
  obtain ⟨⟨c, hcand, hlt, -, -, hip, -⟩, -⟩ := hf
  have hn := h.n_lt
  obtain ⟨i, d, hgo, hi, hd⟩ := catchupFrom_goes h s.mf.anchor (ip := s.mf.ip) (cand := c) (by omega) (by omega)
  simp only [catchup, hcand]
  rw [hgo, Flow.andThen_go]
  exact works_setMf h id rfl rfl rfl h.anchor_le fun hw =>
    ⟨hw.n, hw.anchor, by simp only; omega, hw.mlen, hw.attempts, by rintro _ ⟨⟩; omega, hw.mfLimit,
      hw.matchLimit⟩

theorem extend_works (hf : ∃ p, s.mf.ip ≤ p ∧ p + 12 ≤ s.mf.n ∧ CandidateOk s (p + 4 - s.mf.ip) ∧
    SlotsBelow s (p + 1)) : (extend s).Works FinderRules s FinderRules := by
  obtain ⟨p, -, -, ⟨c, hcand, hlt, -, -, hip, -⟩, -⟩ := hf
  have hn := h.n_lt
  have hlim := h.match_limit
  obtain ⟨k, hgo, hk⟩ := commonFwd_goes h (a := c + Config.minMatch) (b := s.mf.ip + Config.minMatch)
    (limit := s.mf.matchLimit) (by omega) (by omega) (by simp only [Config.minMatch]; omega) (by omega)
  simp only [Config.minMatch] at hk
  simp only [extend, hcand]
  rw [hgo, Flow.andThen_go]
  exact works_setMf h id rfl rfl rfl h.anchor_le fun hw =>
    ⟨hw.n, hw.anchor, hw.ip, by simp only [Config.minMatch]; omega, hw.attempts, by rintro _ ⟨⟩; omega,
      hw.mfLimit, hw.matchLimit⟩

theorem emit_works (hf : 4 ≤ s.mf.mlen ∧ s.mf.ip + s.mf.mlen + 5 ≤ s.mf.n ∧ CandidateOk s s.mf.mlen ∧
    SlotsBelow s (s.mf.ip + s.mf.mlen)) : (emit s).Works FinderRules s FinderRules := by
  obtain ⟨-, hend, ⟨c, hcand, -⟩, -⟩ := hf
  have hn := h.n_lt
  simp only [emit, hcand]
  refine (emitSeq_works h (by omega) c s.mf.mlen).andThen ?_
  rintro t ⟨ht, hemit⟩
  have hmf : t.mf = s.mf := by rw [hemit]
  exact works_setMf ht id rfl rfl rfl (by simp only [hmf]; omega) fun hw =>
    ⟨hw.n, by simp only; omega, by simp only; omega, hw.mlen, hw.attempts, hw.cand, hw.mfLimit, hw.matchLimit⟩

theorem reprobe_works (hf : s.mf.anchor = s.mf.ip ∧ s.mf.ip + 12 ≤ s.mf.n ∧ SlotsBelow s s.mf.ip) :
    (reprobe s).Works FinderRules s FinderRules := by
  obtain ⟨-, hip, hslots⟩ := hf
  have hn := h.n_lt
  obtain ⟨found, ht, hprobe, hfound, hw⟩ := probe_goes h (by omega) hslots
  rw [reprobe, hprobe, Flow.andThen_go]
  cases found with
  | some c =>
    have hc := hfound c rfl
    exact works_setMf h hw rfl rfl rfl h.anchor_le fun hw =>
      ⟨hw.n, hw.anchor, hw.ip, hw.mlen, hw.attempts, by rintro _ ⟨⟩; omega, hw.mfLimit, hw.matchLimit⟩
  | none =>
    exact works_setMf h hw rfl rfl rfl h.anchor_le fun hw =>
      ⟨hw.n, hw.anchor, by simp only; omega, hw.mlen, hw.attempts, nofun, hw.mfLimit, hw.matchLimit⟩

/-- A step of a running COMPRESS_FAST (R142). -/
theorem fastStep_answers (hf : FastRules s) : Answers FinderRules s (fastStep s) := by
  have rules : ∀ t, FinderRules t → t.isBusy = true → FinderRules t := fun _ ht _ => ht
  unfold FastRules at hf
  unfold fastStep
  cases hst : s.mf.htState <;> simp only [hst] at hf ⊢
  case search =>
    obtain ⟨hrules, hw⟩ := works_setMf h id
      (r := { s.mf with attempts := 2 ^ Config.skipStrength, htState := .searchLoop }) rfl rfl rfl h.anchor_le fun hw =>
        ⟨hw.n, hw.anchor, hw.ip, hw.mlen, by simp, hw.cand, hw.mfLimit, hw.matchLimit⟩
    exact ⟨_, rfl, hw, fun _ => hrules⟩
  case searchLoop => exact (searchPass_works h hf).finish rules
  case catchup => exact (catchup_works h hf).finish rules
  case extend => exact (extend_works h hf).finish rules
  case emit => exact (emit_works h hf).finish rules
  case reprobe => exact (reprobe_works h hf).finish rules
  case tail => exact finishCompress_answers h

end

end Sys2Proof.Machine
end

section
/-! PROOFS. The searches of the hash-chain match finder under its rules (42_match_finder_hash_chain.md R150 to R157, R165):
they go on, and leave match registers that lie inside the source. -/

namespace Sys2Proof.Machine

/-! ## Match registers -/

/-- A match register whose fields stay inside a source of `n` bytes; its length may be negative where a trimming has cut
it. -/
structure MatchReg.Inside (n : Nat) (m : MatchReg) : Prop where
  ref_nonneg : 0 ≤ m.ref
  ref_le : m.ref ≤ m.start
  start_le : m.start ≤ n
  len_ge : -(n : Int) ≤ m.len
  stop_le : m.start + m.len ≤ n

theorem MatchReg.Inside.narrow {n : Nat} {m : MatchReg} (h : m.Inside n) (hn : n < 2 ^ 31) : m.narrow = true := by
  obtain ⟨href, hle, hstart, hlen, hstop⟩ := h
  exact narrow_iff.mpr (by omega)

theorem MatchOk.inside {s : State} (h : FinderRules s) {m : MatchReg} (hm : MatchOk s m) : m.Inside s.mf.n := by
  have hstop := hm.stop_le
  have href := hm.ref_nonneg
  have hlt := hm.ref_lt
  have hlong := hm.long
  have hlim := h.match_limit
  simp only [MatchReg.stop] at hstop
  exact ⟨href, by omega, by omega, by omega, by omega⟩

section

variable {n : Nat} {m1 m2 : MatchReg}

/-- Dropping the first bytes of a match, at most to the end of the source (R157). -/
theorem MatchReg.Inside.fix (h : m2.Inside n) {c : Int} (h0 : 0 ≤ c) (hstart : m2.start + c ≤ n)
    (hlen : -(n : Int) ≤ m2.len - c) : (m2.fix c).Inside n := by
  obtain ⟨href, hle, -, -, hstop⟩ := h
  exact ⟨by simp only [MatchReg.fix]; omega, by simp only [MatchReg.fix]; omega, hstart, hlen,
    by simp only [MatchReg.fix]; omega⟩

/-- Another length of a match, as long as it ends inside the source. -/
theorem MatchReg.Inside.setLen (h : m1.Inside n) {len : Int} (h0 : 0 ≤ m1.start + len)
    (hstop : m1.start + len ≤ n) : ({ m1 with len := len } : MatchReg).Inside n := by
  have hstart := h.start_le
  exact ⟨h.ref_nonneg, h.ref_le, h.start_le, by simp only; omega, hstop⟩

/-- Part (a) of SEARCH3 keeps M2 inside the source and at least 4 bytes long, and moves no end (R162). -/
theorem trimM2_inside (h1 : m1.Inside n) (h2 : m2.Inside n) (hlong : 4 ≤ m2.len) :
    (trimM2 m1 m2).Inside n ∧ 4 ≤ (trimM2 m1 m2).len ∧ (trimM2 m1 m2).stop = m2.stop := by
  have hstop1 := h1.stop_le
  have hstop2 := h2.stop_le
  have hstart := h2.start_le
  unfold trimM2
  extract_lets capped newLen corr
  split
  · split
    · next hcorr =>
      have hnew : m1.start + newLen ≤ m2.start + m2.len - 4 := by
        by_cases hcap : m1.start + capped > m2.stop - 4
        · rw [show newLen = m2.start - m1.start + m2.len - 4 from if_pos hcap]
          omega
        · rw [show newLen = capped from if_neg hcap]
          simp only [MatchReg.stop] at hcap
          omega
      refine ⟨h2.fix (by omega) (by omega) (by omega), ?_, ?_⟩
      · simp only [MatchReg.fix]
        omega
      · simp only [MatchReg.fix, MatchReg.stop]
        omega
    · exact ⟨h2, hlong, rfl⟩
  · exact ⟨h2, hlong, rfl⟩

/-- Part (d) of SEARCH3 where M2 starts inside the first 15 bytes of M1: M1 keeps at most 18 bytes and leaves M2 its
last 4 (R162). -/
theorem trimAscending_near (hover : m2.start < m1.stop) (hnear : m2.start - m1.start < Config.nibbleCap) :
    trimAscending m1 m2 =
      ({ m1 with len := min (min m1.len 18) (m2.stop - 4 - m1.start) },
        m2.fix (m1.start + min (min m1.len 18) (m2.stop - 4 - m1.start) - m2.start)) := by
  rw [trimAscending, if_pos hover, if_pos hnear]
  extract_lets a b
  have ha : a = { m1 with len := min m1.len 18 } := by
    by_cases hcap : m1.len > (18 : Nat)
    · rw [show a = { m1 with len := (18 : Nat) } from if_pos hcap, min_eq_right (by omega)]
      rfl
    · rw [show a = m1 from if_neg hcap, min_eq_left (by omega)]
  have hb : b = { m1 with len := min (min m1.len 18) (m2.stop - 4 - m1.start) } := by
    by_cases hcap : a.stop > m2.stop - 4
    · rw [show b = { a with len := m2.stop - a.start - 4 } from if_pos hcap]
      simp only [ha, MatchReg.stop] at hcap ⊢
      congr 1
      omega
    · rw [show b = a from if_neg hcap]
      simp only [ha, MatchReg.stop] at hcap ⊢
      congr 1
      omega
  rw [hb]
  rfl

/-- Part (d) of SEARCH3 keeps both matches inside the source (R162). -/
theorem trimAscending_inside (h1 : m1.Inside n) (h2 : m2.Inside n) (hlong : 4 ≤ m2.len) :
    (trimAscending m1 m2).1.Inside n ∧ (trimAscending m1 m2).2.Inside n := by
  have hstop2 := h2.stop_le
  have hstart1 := h1.start_le
  have hstart2 := h2.start_le
  have hpos1 := h1.ref_nonneg.trans h1.ref_le
  have hpos2 := h2.ref_nonneg.trans h2.ref_le
  by_cases hover : m2.start < m1.stop
  · by_cases hnear : m2.start - m1.start < Config.nibbleCap
    · rw [trimAscending_near hover hnear]
      simp only [MatchReg.stop, Config.nibbleCap] at hover hnear ⊢
      exact ⟨h1.setLen (by omega) (by omega), h2.fix (by omega) (by omega) (by omega)⟩
    · rw [trimAscending, if_pos hover, if_neg hnear]
      exact ⟨h1.setLen (by omega) (by omega), h2⟩
  · rw [trimAscending, if_neg hover]
    exact ⟨h1, h2⟩

end

/-! ## Insertions and searches -/

/-- ADD_HASH inside the source goes on (R151). -/
theorem addHash_goes {s : State} (h : FinderRules s) {p : Nat} (hp : p + 4 ≤ s.mf.n) :
    ∃ chain head, addHash p s = .go { s with chain := chain, head := head } ∧
      (Widths s → Widths { s with chain := chain, head := head }) := by
  have hn := h.n_lt
  rw [addHash, headSlot, rd32_inside h.src (by omega) (by omega)]
  exact ⟨_, _, rfl, fun hw => ⟨hw.dst, hw.bd, hw.mf, hw.hc, hw.slots.ht_large, hw.slots.ht_used,
    slotsFit_set hw.slots.head_large (by simp only [Config.slotWLarge_eq]; omega)⟩⟩

theorem insertCount_goes {count : Nat} {s : State} (h : FinderRules s)
    (hnext : count = 0 ∨ s.hc.next + count + 3 ≤ s.mf.n) :
    ∃ chain head next, insertCount count s =
        .go { s with chain := chain, head := head, hc := { s.hc with next := next } } ∧
      (Widths s → Widths { s with chain := chain, head := head, hc := { s.hc with next := next } }) := by
  induction count generalizing s with
  | zero => exact ⟨s.chain, s.head, s.hc.next, rfl, id⟩
  | succ count ih =>
    have hn := h.n_lt
    obtain ⟨chain, head, hadd, hw⟩ := addHash_goes h (p := s.hc.next) (by omega)
    have hnext' : Widths s → Widths
        { s with chain := chain, head := head, hc := { s.hc with next := s.hc.next + 1 } } := fun hs =>
      (hw hs).setHc ⟨by simp only; omega, hs.hc.m0, hs.hc.m1, hs.hc.m2, hs.hc.m3⟩
    obtain ⟨chain', head', next', hgo, hw'⟩ :=
      ih (s := { s with chain := chain, head := head, hc := { s.hc with next := s.hc.next + 1 } })
        (h.setTables _ _ _ _) (by simp only; omega)
    exact ⟨chain', head', next', by rw [insertCount, hadd, Flow.andThen_go, hgo], fun hs => hw' (hnext' hs)⟩

/-- INSERT_UPTO below the limit goes on (R152). -/
theorem insertUpto_goes {off : Int} {s : State} (h : FinderRules s) (hoff : off ≤ s.mf.mfLimit) :
    ∃ chain head next, insertUpto off s =
        .go { s with chain := chain, head := head, hc := { s.hc with next := next } } ∧
      (Widths s → Widths { s with chain := chain, head := head, hc := { s.hc with next := next } }) := by
  have hlim := h.mf_limit
  exact insertCount_goes h (by omega)

section

variable {off : Int} {s : State} {visit : Int → MatchReg → Flow MatchReg} {J : MatchReg → Prop}

/-- The chain walk goes on with what every visit keeps (R153). -/
theorem walkFrom_goes (hvisit : ∀ c m, 0 ≤ c → c < off → J m → ∃ m', visit c m = .go m' ∧ J m') {budget : Nat}
    {c : Int} {m : MatchReg} (hm : J m) : ∃ m', walkFrom off visit s budget c m = .go m' ∧ J m' := by
  induction budget generalizing c m with
  | zero => exact ⟨m, rfl, hm⟩
  | succ budget ih =>
    rw [walkFrom]
    split
    · exact ⟨m, rfl, hm⟩
    · obtain ⟨m', hgo, hm'⟩ := hvisit c m (by omega) (by omega) hm
      rw [hgo, Flow.andThen_go]
      exact ih hm'

theorem walk_goes (h : FinderRules s) (h0 : 0 ≤ off) (hoff : off ≤ s.mf.mfLimit)
    (hvisit : ∀ c m, 0 ≤ c → c < off → J m → ∃ m', visit c m = .go m' ∧ J m') {m : MatchReg} (hm : J m) :
    ∃ m', walk off visit m s = .go m' ∧ J m' := by
  have hlim := h.mf_limit
  rw [walk, headSlot, rd32_inside h.src h0 (by omega), Flow.andThen_go, Flow.andThen_go]
  split
  · exact ⟨m, rfl, hm⟩
  · exact walkFrom_goes hvisit hm

/-- COMMON_BWD inside the source goes on, and does not pass `amin` (R154). -/
theorem commonBwd_goes {a b bmin : Int} (h : FinderRules s) (hab : a ≤ b) (hb : b ≤ s.mf.n) (ha : 0 ≤ a) :
    ∃ k : Nat, commonBwd a b 0 bmin s = .go k ∧ (k : Int) ≤ a := by
  have hwalk : ∀ count k : Nat, (k : Int) + count ≤ a →
      ∃ j, commonBwdFrom a b 0 bmin s k count = .go j ∧ j ≤ k + count := by
    intro count
    induction count with
    | zero => exact fun k _ => ⟨k, rfl, Nat.le_refl _⟩
    | succ count ih =>
      intro k hk
      rw [commonBwdFrom]
      split
      · rw [mfByte_inside h (by omega) (by omega), Flow.andThen_go, mfByte_inside h (by omega) (by omega),
          Flow.andThen_go]
        split
        · obtain ⟨j, hj, hle⟩ := ih (k + 1) (by omega)
          exact ⟨j, hj, by omega⟩
        · exact ⟨k, rfl, by omega⟩
      · exact ⟨k, rfl, by omega⟩
  obtain ⟨k, hk, hle⟩ := hwalk (a - 0).toNat 0 (by omega)
  exact ⟨k, hk, by omega⟩

theorem visitBest_goes (h : FinderRules s) (hoff : off ≤ s.mf.mfLimit) {c : Int} (h0 : 0 ≤ c) (hc : c < off)
    {m : MatchReg} (hm : m.Inside s.mf.n ∧ m.start = off) :
    ∃ m', visitBest off s c m = .go m' ∧ m'.Inside s.mf.n ∧ m'.start = off := by
  have hlim := h.mf_limit
  have hmatch := h.match_limit
  obtain ⟨hin, hstart⟩ := hm
  rw [visitBest, rd32_inside h.src h0 (by omega), Flow.andThen_go, rd32_inside h.src (by omega) (by omega),
    Flow.andThen_go]
  split
  · obtain ⟨k, hgo, hk⟩ := commonFwd_goes h (a := c + 4) (b := off + 4) (limit := s.mf.matchLimit) (by omega)
      (by omega) (by omega) (by omega)
    rw [hgo, Flow.andThen_go]
    simp only
    split
    · exact ⟨_, rfl, ⟨h0, by simp only; omega, hin.start_le, by simp only; omega, by simp only; omega⟩, hstart⟩
    · exact ⟨m, rfl, hin, hstart⟩
  · exact ⟨m, rfl, hin, hstart⟩

theorem visitWider_goes (h : FinderRules s) (hoff : off ≤ s.mf.mfLimit) (startLimit : Int) {c : Int} (h0 : 0 ≤ c)
    (hc : c < off) (m : MatchReg) :
    ∃ m', visitWider off startLimit s c m = .go m' ∧ (m' = m ∨ m'.Inside s.mf.n) := by
  have hlim := h.mf_limit
  have hmatch := h.match_limit
  rw [visitWider, rd32_inside h.src h0 (by omega), Flow.andThen_go, rd32_inside h.src (by omega) (by omega),
    Flow.andThen_go]
  split
  · obtain ⟨k, hgo, hk⟩ := commonFwd_goes h (a := c + 4) (b := off + 4) (limit := s.mf.matchLimit) (by omega)
      (by omega) (by omega) (by omega)
    obtain ⟨b, hbwd, hb⟩ := commonBwd_goes (bmin := startLimit) h (a := c) (b := off) (by omega) (by omega) h0
    rw [hgo, Flow.andThen_go, hbwd, Flow.andThen_go]
    simp only
    split
    · exact ⟨_, rfl, .inr ⟨by simp only; omega, by simp only; omega, by simp only; omega, by simp only; omega,
        by simp only; omega⟩⟩
    · exact ⟨m, rfl, .inl rfl⟩
  · exact ⟨m, rfl, .inl rfl⟩

end

/-- FIND_BEST at a position below the limit goes on, with a register inside the source (R155). -/
theorem findBest_goes {off : Nat} {s : State} (h : FinderRules s) (hoff : (off : Int) ≤ s.mf.mfLimit) :
    ∃ chain head next m, findBest off s =
        .go ({ s with chain := chain, head := head, hc := { s.hc with next := next } }, m) ∧ m.Inside s.mf.n ∧
      (Widths s → Widths { s with chain := chain, head := head, hc := { s.hc with next := next } }) := by
  have hlim := h.mf_limit
  obtain ⟨chain, head, next, hins, hw⟩ := insertUpto_goes h hoff
  have ht := h.setTables { s.hc with next := next } s.ht head chain
  obtain ⟨m, hgo, hm, -⟩ := walk_goes (J := fun m => m.Inside s.mf.n ∧ m.start = off) ht (by omega) hoff
    (fun c m h0 hc hm => visitBest_goes ht hoff h0 hc hm) (m := { start := off, ref := 0, len := 0 })
    ⟨⟨Int.le_refl _, by simp only; omega, by simp only; omega, by simp only; omega, by simp only; omega⟩, rfl⟩
  exact ⟨chain, head, next, m, by rw [findBest, hins, Flow.andThen_go, hgo, Flow.andThen_go], hm, hw⟩

/-- FIND_WIDER at a position below the limit goes on; a register it changes beyond its length is inside the source
(R156). -/
theorem findWider_goes {off : Int} {s : State} (h : FinderRules s) (h0 : 0 ≤ off) (hoff : off ≤ s.mf.mfLimit)
    (startLimit minLen : Int) (m : MatchReg) :
    ∃ chain head next m', findWider off startLimit minLen m s =
        .go ({ s with chain := chain, head := head, hc := { s.hc with next := next } }, m') ∧
      (m' = { m with len := minLen } ∨ m'.Inside s.mf.n) ∧
      (Widths s → Widths { s with chain := chain, head := head, hc := { s.hc with next := next } }) := by
  obtain ⟨chain, head, next, hins, hw⟩ := insertUpto_goes h hoff
  have ht := h.setTables { s.hc with next := next } s.ht head chain
  obtain ⟨m', hgo, hm'⟩ := walk_goes (J := fun m' => m' = { m with len := minLen } ∨ m'.Inside s.mf.n) ht h0 hoff
    (fun c v hc0 hc hv => by
      obtain ⟨v', hv', hin⟩ := visitWider_goes ht hoff startLimit hc0 hc v
      exact ⟨v', hv', hin.elim (fun he => he ▸ hv) .inr⟩) (.inl rfl)
  exact ⟨chain, head, next, m', by rw [findWider, hins, Flow.andThen_go, hgo, Flow.andThen_go], hm', hw⟩

end Sys2Proof.Machine
end

section
/-! PROOFS. The states of the lazy parser (42_match_finder_hash_chain.md R160 to R163), and the rules of the state that
need the units' invariants: no unit leaves its regions (R21, R22, R115, R198), and the widths are kept (R27 to R31). -/

namespace Sys2Proof.Machine

/-! ## The lazy parser -/

/-- ENCODE drops a match or emits one that lies inside the source (R158). -/
theorem encodeMatch_works {s : State} (h : FinderRules s) {m : MatchReg} (hm : m.Inside s.mf.n) :
    (encodeMatch m s).Works FinderRules s fun t => FinderRules t ∧ t.hc = s.hc ∧ t.mf.n = s.mf.n := by
  have hn := h.n_lt
  have hanchor := h.anchor_le
  have hlim := h.mf_limit
  have hstop := hm.stop_le
  unfold encodeMatch
  simp only [MatchReg.stop]
  split
  · obtain ⟨hrules, hw⟩ := works_setMf h id
      (r := { s.mf with ip := (max (s.mf.anchor : Int) (m.start + m.len)).toNat }) rfl rfl rfl hanchor fun hw =>
        ⟨hw.n, hw.anchor, by simp only; omega, hw.mlen, hw.attempts, hw.cand, hw.mfLimit, hw.matchLimit⟩
    exact ⟨⟨hrules, rfl, rfl⟩, hw⟩
  · refine (emitSeq_works h (by omega) _ _).andThen ?_
    rintro t ⟨ht, hemit⟩
    have hmf : t.mf = s.mf := by rw [hemit]
    have hhc : t.hc = s.hc := by rw [hemit]
    obtain ⟨hrules, hw⟩ := works_setMf ht id
      (r := { t.mf with anchor := (m.start + m.len).toNat, ip := (m.start + m.len).toNat }) rfl rfl rfl
      (by simp only [hmf]; omega) fun hw =>
        ⟨hw.n, by simp only; omega, by simp only; omega, hw.mlen, hw.attempts, hw.cand, hw.mfLimit, hw.matchLimit⟩
    exact ⟨⟨hrules, hhc, by rw [← hmf]⟩, hw⟩

/-- MF-HC registers do not matter to the rules. -/
theorem works_setHc {s : State} (h : FinderRules s) {r : ChainRegs} (hr : HcWidths s.hc → HcWidths r) :
    FinderRules { s with hc := r } ∧ (Widths s → Widths { s with hc := r }) :=
  ⟨h.setTables r s.ht s.head s.chain, fun hw => hw.setHc (hr hw.hc)⟩

/-- M1 as part (b) of SEARCH3 encodes it: cut to end where M2 starts (R162). -/
def cutM1 (m1 m2 : MatchReg) : MatchReg := if m2.start < m1.stop then { m1 with len := m2.start - m1.start } else m1

/-- What part (c) of SEARCH3 saves of M2: what M1 leaves of it, or M3 (R162). -/
def savedM2 (m1 m2 m3 : MatchReg) : MatchReg :=
  if m2.start < m1.stop then
    if (m2.fix (m1.stop - m2.start)).len < 4 then m3 else m2.fix (m1.stop - m2.start)
  else m2

theorem takeBoth_eq (s : State) :
    takeBoth s = (encodeMatch (cutM1 s.hc.m1 s.hc.m2)
        { s with hc := { s.hc with m1 := cutM1 s.hc.m1 s.hc.m2 } }).andThen fun t =>
      (encodeMatch s.hc.m2 t).andThen fun u => .go (goHc .main u) := rfl

theorem dropM2_eq (s : State) :
    dropM2 s = (encodeMatch s.hc.m1
        { s with hc := { s.hc with m2 := savedM2 s.hc.m1 s.hc.m2 s.hc.m3 } }).andThen fun t =>
      .go { t with
        hc := { t.hc with m1 := s.hc.m3, m0 := savedM2 s.hc.m1 s.hc.m2 s.hc.m3, hcState := .search2 } } := rfl

theorem cutM1_inside {n : Nat} {m1 m2 : MatchReg} (h1 : m1.Inside n) (h2 : m2.Inside n) : (cutM1 m1 m2).Inside n := by
  have hpos := h2.ref_nonneg.trans h2.ref_le
  have hstart := h2.start_le
  unfold cutM1
  split
  · exact h1.setLen (by omega) (by omega)
  · exact h1

theorem savedM2_narrow {n : Nat} (hn : n < 2 ^ 31) {m1 m2 m3 : MatchReg} (h1 : m1.Inside n) (h2 : m2.Inside n)
    (h0 : 0 ≤ m2.stop) (h3 : m3.narrow = true) : (savedM2 m1 m2 m3).narrow = true := by
  have hstop1 := h1.stop_le
  unfold savedM2
  split
  · split
    · exact h3
    · simp only [MatchReg.stop] at *
      exact (h2.fix (by omega) (by omega) (by omega)).narrow hn
  · exact h2.narrow hn

/-- The register of FIND_WIDER keeps its width, whether a wider match was found or not. -/
theorem findWider_narrow {n : Nat} (hn : n < 2 ^ 31) {m m' shorter : MatchReg}
    (h : m' = { m with len := shorter.len } ∨ m'.Inside n) (hm : m.narrow = true) (hs : shorter.narrow = true) :
    m'.narrow = true := by
  rcases h with rfl | hin
  · rw [narrow_iff] at *
    simp only
    omega
  · exact hin.narrow hn

theorem goHc_works {s : State} (h : FinderRules s) (x : HcState) :
    FinderRules (goHc x s) ∧ (Widths s → Widths (goHc x s)) :=
  works_setHc h fun hw => ⟨hw.next, hw.m0, hw.m1, hw.m2, hw.m3⟩

section

variable {s : State} (h : FinderRules s)

include h

theorem takeM1_works (h1 : s.hc.m1.Inside s.mf.n) : (takeM1 s).Works FinderRules s FinderRules :=
  (encodeMatch_works h h1).andThen fun _ ht => goHc_works ht.1 .main

theorem weighM2_works : FinderRules (weighM2 s) ∧ (Widths s → Widths (weighM2 s)) := by
  unfold weighM2
  extract_lets m1
  have hm1 : HcWidths s.hc → m1.narrow = true := fun hw => by
    by_cases hm0 : s.hc.m0.start < s.hc.m1.start ∧ s.hc.m2.start < s.hc.m1.start + s.hc.m0.len
    · rw [show m1 = s.hc.m0 from if_pos hm0]
      exact hw.m0
    · rw [show m1 = s.hc.m1 from if_neg hm0]
      exact hw.m1
  split
  · exact works_setHc h fun hw => ⟨hw.next, hw.m0, hw.m2, hw.m2, hw.m3⟩
  · exact works_setHc h fun hw => ⟨hw.next, hw.m0, hm1 hw, hw.m2, hw.m3⟩

theorem takeBoth_works (h1 : s.hc.m1.Inside s.mf.n) (h2 : s.hc.m2.Inside s.mf.n) :
    (takeBoth s).Works FinderRules s FinderRules := by
  have hcut := cutM1_inside h1 h2
  obtain ⟨hrules, hw⟩ := works_setHc h (r := { s.hc with m1 := cutM1 s.hc.m1 s.hc.m2 }) fun hw =>
    ⟨hw.next, hw.m0, hcut.narrow h.n_lt, hw.m2, hw.m3⟩
  rw [takeBoth_eq]
  refine Flow.Works.trans hw ((encodeMatch_works hrules hcut).andThen ?_)
  rintro t ⟨ht, -, hn⟩
  exact (encodeMatch_works ht (hn ▸ h2)).andThen fun u hu => goHc_works hu.1 .main

theorem dropM2_works (h1 : s.hc.m1.Inside s.mf.n) (h2 : s.hc.m2.Inside s.mf.n) (h0 : 0 ≤ s.hc.m2.stop) :
    (dropM2 s).Works FinderRules s FinderRules := by
  have hsaved := fun hw : HcWidths s.hc => savedM2_narrow h.n_lt h1 h2 h0 hw.m3
  obtain ⟨hrules, hw⟩ := works_setHc h (r := { s.hc with m2 := savedM2 s.hc.m1 s.hc.m2 s.hc.m3 }) fun hw =>
    ⟨hw.next, hw.m0, hw.m1, hsaved hw, hw.m3⟩
  rw [dropM2_eq]
  refine Flow.Works.trans hw ((encodeMatch_works hrules h1).andThen ?_)
  rintro t ⟨ht, hhc, -⟩
  rw [hhc]
  refine works_setHc ht fun hw => ?_
  rw [hhc] at hw
  exact ⟨hw.next, hw.m2, hw.m3, hw.m2, hw.m3⟩

theorem shiftDown_works (h1 : s.hc.m1.Inside s.mf.n) (h2 : s.hc.m2.Inside s.mf.n) (hlong : 4 ≤ s.hc.m2.len) :
    (shiftDown s).Works FinderRules s FinderRules := by
  obtain ⟨hfirst, hsecond⟩ := trimAscending_inside h1 h2 hlong
  unfold shiftDown
  generalize trimAscending s.hc.m1 s.hc.m2 = trimmed at hfirst hsecond
  obtain ⟨hrules, hw⟩ := works_setHc h (r := { s.hc with m1 := trimmed.1, m2 := trimmed.2 }) fun hw =>
    ⟨hw.next, hw.m0, hfirst.narrow h.n_lt, hsecond.narrow h.n_lt, hw.m3⟩
  refine Flow.Works.trans hw ((encodeMatch_works hrules hfirst).andThen ?_)
  rintro t ⟨ht, hhc, -⟩
  rw [hhc]
  refine works_setHc ht fun hw => ?_
  rw [hhc] at hw
  exact ⟨hw.next, hw.m0, hw.m2, hw.m3, hw.m3⟩

theorem weighM3_works (h1 : s.hc.m1.Inside s.mf.n) (h2 : s.hc.m2.Inside s.mf.n) (hlong : 4 ≤ s.hc.m2.len) :
    (weighM3 s).Works FinderRules s FinderRules := by
  have hpos := h2.ref_nonneg.trans h2.ref_le
  unfold weighM3
  split
  · split
    · exact dropM2_works h h1 h2 (by simp only [MatchReg.stop]; omega)
    · exact works_setHc h fun hw => ⟨hw.next, hw.m0, hw.m1, hw.m3, hw.m3⟩
  · exact shiftDown_works h h1 h2 hlong

/-! ## The states of MF-HC -/

theorem chainMain_works : (chainMain s).Works FinderRules s FinderRules := by
  have hn := h.n_lt
  have hlim := h.mf_limit
  unfold chainMain
  split
  · exact goHc_works h .tail
  · obtain ⟨chain, head, next, m1, hgo, hin, hw⟩ := findBest_goes h (off := s.mf.ip) (by omega)
    have ht := h.setTables { s.hc with next := next } s.ht head chain
    have hm1 := hin.narrow hn
    rw [hgo, Flow.andThen_go]
    refine Flow.Works.trans hw ?_
    simp only
    split
    · exact works_setHc ht fun hw => ⟨hw.next, hm1, hm1, hw.m2, hw.m3⟩
    · obtain ⟨hrules, hwm⟩ := works_setMf ht id (r := { s.mf with ip := s.mf.ip + 1 }) rfl rfl rfl
        h.anchor_le fun hw => ⟨hw.n, hw.anchor, by simp only; omega, hw.mlen, hw.attempts, hw.cand, hw.mfLimit, hw.matchLimit⟩
      exact ⟨hrules.setTables _ _ _ _, fun hs =>
        (hwm hs).setHc ⟨hs.hc.next, hs.hc.m0, hm1, hs.hc.m2, hs.hc.m3⟩⟩

theorem chainSearch2_works (h1 : MatchOk s s.hc.m1) : (chainSearch2 s).Works FinderRules s FinderRules := by
  have hin1 := h1.inside h
  have hpos := hin1.ref_nonneg.trans hin1.ref_le
  have hlong := h1.long
  unfold chainSearch2
  simp only
  split
  · exact takeM1_works h hin1
  · obtain ⟨chain, head, next, m2, hgo, hm2, hw⟩ := findWider_goes h (off := s.hc.m1.stop - 2)
      (by simp only [MatchReg.stop]; omega) (by omega) (s.hc.m1.start + 1) s.hc.m1.len s.hc.m2
    obtain ⟨ht, hwt⟩ := works_setHc (h.setTables { s.hc with next := next } s.ht head chain)
      (r := { s.hc with next := next, m2 := m2 }) fun hw =>
        ⟨hw.next, hw.m0, hw.m1, findWider_narrow h.n_lt hm2 hw.m2 hw.m1, hw.m3⟩
    rw [hgo, Flow.andThen_go]
    refine Flow.Works.trans (fun hs => hwt (hw hs)) ?_
    simp only
    split
    · exact weighM2_works ht
    · exact takeM1_works ht hin1

theorem chainSearch3_works (h1 : MatchOk s s.hc.m1) (h2 : MatchOk s s.hc.m2) :
    (chainSearch3 s).Works FinderRules s FinderRules := by
  have hin1 := h1.inside h
  obtain ⟨hin2, hlong, hstop⟩ := trimM2_inside hin1 (h2.inside h) h2.long
  have hpos := hin2.ref_nonneg.trans hin2.ref_le
  unfold chainSearch3
  simp only
  generalize trimM2 s.hc.m1 s.hc.m2 = m2 at hin2 hlong hpos
  obtain ⟨ht, hwt⟩ := works_setHc h (r := { s.hc with m2 := m2 }) fun hw =>
    ⟨hw.next, hw.m0, hw.m1, hin2.narrow h.n_lt, hw.m3⟩
  refine Flow.Works.trans hwt ?_
  split
  · exact takeBoth_works ht hin1 hin2
  · obtain ⟨chain, head, next, m3, hgo, hm3, hw⟩ := findWider_goes ht (off := m2.stop - 3)
      (by simp only [MatchReg.stop]; omega) (by simp only; omega) m2.start m2.len s.hc.m3
    obtain ⟨hu, hwu⟩ := works_setHc (ht.setTables { s.hc with m2 := m2, next := next } s.ht head chain)
      (r := { s.hc with m2 := m2, next := next, m3 := m3 }) fun hw =>
        ⟨hw.next, hw.m0, hw.m1, hw.m2, findWider_narrow h.n_lt hm3 hw.m3 hw.m2⟩
    rw [hgo, Flow.andThen_go]
    refine Flow.Works.trans (fun hs => hwu (hw hs)) ?_
    simp only
    split
    · exact weighM3_works hu hin1 hin2 hlong
    · exact takeBoth_works hu hin1 hin2

/-- A step of a running COMPRESS_HC (R165). -/
theorem chainStep_answers (hf : ChainRules s) : Answers FinderRules s (chainStep s) := by
  have rules : ∀ t, FinderRules t → t.isBusy = true → FinderRules t := fun _ ht _ => ht
  unfold ChainRules at hf
  unfold chainStep
  cases hst : s.hc.hcState <;> simp only [hst] at hf ⊢
  case main => exact (chainMain_works h).finish rules
  case search2 => exact (chainSearch2_works h hf.2).finish rules
  case search3 => exact (chainSearch3_works h hf.1 hf.2).finish rules
  case tail => exact finishCompress_answers h

end

/-! ## Every step under the unit invariants -/

/-- The rules of the unit that the command code chooses. -/
def UnitRules (code : Word) (s : State) : Prop :=
  (code = 4 ∨ code = 5 → DecoderRules s) ∧ (code = 2 ∨ code = 3 → FinderRules s)

/-- Under the unit invariants the core can always make its next step. It keeps the widths, and the rules of the decoder or
those both finders share where the command goes on. -/
theorem coreStep_answers {s : State} (h : Safe s) : Answers (UnitRules s.cmd) s (coreStep s) := by
  cases hb : s.isBusy with
  | false => exact ⟨s, coreStep_waits hb, id, fun hbusy => absurd hbusy (by simp [hb])⟩
  | true =>
    rw [coreStep, coreFetch, if_pos hb]
    rcases h.unit hb with hc | hc | hc | hc
    · have hanswer := fastStep_answers (h.finder hb (.inl hc)) (h.fast hb hc)
      rw [hc]
      exact hanswer.mono fun t ht => ⟨fun h => absurd h (by decide), fun _ => ht⟩
    · have hanswer := chainStep_answers (h.finder hb (.inr hc)) (h.chain hb hc)
      rw [hc]
      exact hanswer.mono fun t ht => ⟨fun h => absurd h (by decide), fun _ => ht⟩
    · have hanswer := decoderFetch_answers (h.decoder hb (.inl hc))
      rw [hc]
      exact hanswer.mono fun t ht => ⟨fun _ => ht, fun h => absurd h (by decide)⟩
    · have hanswer := decoderFetch_answers (h.decoder hb (.inr hc))
      rw [hc]
      exact hanswer.mono fun t ht => ⟨fun _ => ht, fun h => absurd h (by decide)⟩

/-- The unit invariants do not speak of the host's queue. -/
theorem Safe.setHost {s : State} (h : Safe s) (q : List HostMove) : Safe { s with host := q } where
  unit := h.unit
  decoder hb hc := by
    have hd := h.decoder hb hc
    exact hd.setBd hd.dst.pos_le rfl hd.pos_le hd.not_faulted hd.literal hd.match_extension hd.match_length
      hd.match_source
  finder hb hc := by
    have hf := h.finder hb hc
    exact hf.set (c := s.hc) hf.dst.pos_le rfl rfl rfl hf.anchor_le
  fast hb hc := h.fast hb hc
  chain hb hc := by
    have hmatch : ∀ m, MatchOk s m → MatchOk { s with host := q } m := fun m hm =>
      ⟨hm.ref_nonneg, hm.ref_lt, hm.window, hm.long, hm.stop_le, hm.same⟩
    have hf := h.chain hb hc
    unfold ChainRules at hf ⊢
    cases hst : s.hc.hcState <;> simp only [hst] at hf ⊢
    case search2 => exact ⟨hmatch _ hf.1, hmatch _ hf.2⟩
    case search3 => exact ⟨hmatch _ hf.1, hmatch _ hf.2⟩

/-- An outcome a host move can have: a next state, a refusal, or the fault of an address above every capacity. -/
def HostOutcome (r : Result) : Prop :=
  (∃ t, r = .next t) ∨ (∃ q, r = .refused q) ∨ r = .fault .hostAddress

theorem hostMemory_outcome (a : Nat) (s access : State) : HostOutcome (hostMemory a s access) := by
  unfold hostMemory
  split
  · exact .inr (.inl ⟨_, rfl⟩)
  · split
    · exact .inl ⟨_, rfl⟩
    · exact .inr (.inr rfl)

theorem readMove_outcome (offset : Nat) (s : State) : HostOutcome (readMove offset s) := by
  unfold readMove
  split
  · exact .inl ⟨_, rfl⟩
  · exact .inr (.inl ⟨_, rfl⟩)

theorem hostMove_outcome (m : HostMove) {s : State} (h : Safe s) : HostOutcome (hostMove m s).result := by
  have core : ∀ u, Safe u → HostOutcome (coreStep u) := fun u hu =>
    have ⟨t, ht, _⟩ := coreStep_answers hu
    .inl ⟨t, ht⟩
  cases m with
  | writeReg offset v =>
    simp only [hostMove, writeMove]
    split
    · exact .inl (exec_command_answers v s)
    · split
      · exact .inl ⟨_, rfl⟩
      · exact .inr (.inl ⟨_, rfl⟩)
  | readReg offset => exact readMove_outcome offset s
  | writeSrc a b => exact hostMemory_outcome a s _
  | readSrc a => exact hostMemory_outcome a s _
  | writeDst a b => exact hostMemory_outcome a s _
  | readDst a => exact hostMemory_outcome a s _
  | poll =>
    simp only [hostMove]
    split
    · exact core _ (h.setHost _)
    · exact readMove_outcome 4 s
  | tick => exact core s h
  | reset => exact .inl ⟨_, rfl⟩

/-- Settles O51: the core answers a next state, and a host move has none of the three faults. -/
theorem unitsStayInTheirRegions : Obligations.UnitsStayInTheirRegions := by
  intro s h
  have quiet : s.host = [] → ∃ t, step s = .next t := fun hhost => by
    rw [step_quiet hhost]
    obtain ⟨t, ht, -⟩ := coreStep_answers h
    exact ⟨t, ht⟩
  have outcome : HostOutcome (step s) := by
    cases hhost : s.host with
    | nil => exact .inl (quiet hhost)
    | cons m rest =>
      rw [step_eq, fetch, hhost]
      exact hostMove_outcome m (h.setHost rest)
  refine ⟨?_, quiet⟩
  rcases outcome with ⟨t, ht⟩ | ⟨q, hq⟩ | hfault
  · simp [ht]
  · simp [hq]
  · simp [hfault]

/-! ## Widths -/

/-- The registers a compress command sets up fit (R141, R163). -/
theorem MfWidths.setupFinder {s : State} (h : MfWidths s.mf) : MfWidths (setupFinder s).mf := by
  have hlt := BitVec.toInt_lt (x := s.srcLen)
  exact ⟨by simp only [Machine.setupFinder]; omega, Nat.two_pow_pos 32, Nat.two_pow_pos 32, h.mlen, h.attempts,
    h.cand, by simp only [Machine.setupFinder, Config.mfLimit_eq]; omega,
    by simp only [Machine.setupFinder, Config.lastLiterals]; omega⟩

/-- DST_LEN as a natural fits D_END (R141, R181). -/
theorem dstLen_lt (s : State) : s.dstLen.toInt.toNat < 2 ^ 32 := by
  have hlt := BitVec.toInt_lt (x := s.dstLen)
  omega

/-- The registers a decode command sets up fit (R181). -/
theorem Widths.setupDecoder {s : State} (h : Widths s) {code : Word} {sEnd : Nat} (hend : sEnd < 2 ^ 32)
    (hcode : code ≠ 2) : Widths (setupDecoder sEnd (startCommand code s)) := by
  have huse : (Machine.setupDecoder sEnd (startCommand code s)).htInUse = false := by
    simpa [State.htInUse] using fun _ => hcode
  exact ⟨⟨Nat.two_pow_pos 32, dstLen_lt s⟩,
    ⟨Nat.two_pow_pos 32, hend, h.bd.offAt, h.bd.litLen, h.bd.matchLen⟩, h.mf, h.hc, by rw [huse]; exact h.slots.unused⟩

theorem CommandFrom.widths {s t : State} (h : CommandFrom s t) (hw : Widths s) : Widths t := by
  cases h with
  | ignored hb => exact hw
  | clear hb => exact hw.congr ⟨rfl, rfl⟩ rfl rfl rfl hw.slots.unused
  | maxlen hb hbad => exact hw.congr ⟨rfl, rfl⟩ rfl rfl rfl hw.slots.unused
  | refused code hb => exact hw.congr ⟨rfl, rfl⟩ rfl rfl rfl hw.slots.unused
  | compressFast hb hbad =>
    have hmf := MfWidths.setupFinder (s := startCommand 2 s) hw.mf
    exact ⟨⟨Nat.two_pow_pos 32, dstLen_lt s⟩, hw.bd,
      ⟨hmf.n, hmf.anchor, hmf.ip, hmf.mlen, hmf.attempts, hmf.cand, hmf.mfLimit, hmf.matchLimit⟩, hw.hc, rfl,
      fun _ => rfl, hw.slots.head_large⟩
  | compressHc hb hbad =>
    exact ⟨⟨Nat.two_pow_pos 32, dstLen_lt s⟩, hw.bd, MfWidths.setupFinder (s := startCommand 3 s) hw.mf,
      ⟨Nat.two_pow_pos 32, hw.hc.m0, hw.hc.m1, hw.hc.m2, hw.hc.m3⟩, hw.slots.ht_large, nofun, rfl⟩
  | decompressTrust hb hbad =>
    have hcap := BitVec.toInt_lt (x := s.srcCap)
    have hoff := BitVec.le_toInt (x := s.srcOff)
    exact hw.setupDecoder (by omega) (by decide)
  | decompressSafe hb hbad =>
    have hlen := BitVec.toInt_lt (x := s.srcLen)
    exact hw.setupDecoder (by omega) (by decide)

theorem StepFrom.widths {s t : State} (h : StepFrom s t) (hsafe : Safe s) (hw : Widths s) : Widths t := by
  cases h with
  | core _ hc =>
    obtain ⟨u, hu, hkeep, -⟩ := coreStep_answers hsafe
    rw [hu] at hc
    cases hc
    exact hkeep hw
  | command _ hc => exact hc.widths hw
  | arguments => exact hw.congr ⟨rfl, rfl⟩ rfl rfl rfl hw.slots
  | hostData => exact hw.congr ⟨rfl, rfl⟩ rfl rfl rfl hw.slots
  | writeSrc => exact hw.congr ⟨rfl, rfl⟩ rfl rfl rfl hw.slots
  | writeDst => exact hw.congr ⟨rfl, rfl⟩ rfl rfl rfl hw.slots
  | reset =>
    obtain ⟨-, -, -, hreset, -⟩ := resetMeetsInvariants
    have hreset := widthsHold_iff.mp hreset
    exact hreset.congr ⟨rfl, rfl⟩ rfl rfl rfl hreset.slots

/-- Settles O52, by the cases of a step; the core's case is the walk through its units. -/
theorem widthsKept : Obligations.WidthsKept := by
  intro s t hsafe hw h
  obtain ⟨q, hq⟩ := step_cases h
  have hs := widthsHold_iff.mp hw
  exact widthsHold_iff.mpr (hq.widths (hsafe.setHost q) (hs.congr ⟨rfl, rfl⟩ rfl rfl rfl hs.slots))

end Sys2Proof.Machine
end

section
/-! PROOFS. The encodings (30_encoding.md R81 to R94): codes and tokens, length extensions, encoded sizes, and listing
lines read back from their bytes. -/

namespace Sys2Proof

/-! ## Codes and tokens (R82, R92, R94) -/

theorem tokenByte_toNat (l m : Nibble) : (tokenByte l m).toNat = 16 * l.toNat + m.toNat := by
  revert l m; decide

/-- Every code from 6 on is ILLEGAL (R92). -/
theorem decodeCommand_illegal {c : Word} (h : 6 ≤ c.toNat) : decodeCommand c = .illegal c := by
  unfold decodeCommand
  split
  case h_7 => rfl
  all_goals omega

/-- The class a token selects, by its two fields (R94). -/
theorem decodeToken_tokenByte (l m : Nibble) :
    decodeToken false (tokenByte l m) =
        (if l = 15 then (if m = 15 then .seqXX else .seqXS m) else if m = 15 then .seqSX l else .seqSS l m) ∧
      decodeToken true (tokenByte l m) = (if l = 15 then .lastX m else .lastS l m) := by
  simp [decodeToken]

/-- Settles O1: a code is one of 0 to 5 or ILLEGAL, and a token is its two nibbles. -/
theorem encodingTables : Obligations.EncodingTables := by
  refine ⟨⟨rfl, rfl, rfl, rfl, rfl, rfl, fun c => decodeCommand_illegal⟩, fun l m => ?_, fun t => ?_⟩
  · exact ⟨tokenByte_toNat l m, highNibble_tokenByte l m, lowNibble_tokenByte l m, decodeToken_tokenByte l m⟩
  · exact ⟨highNibble t, lowNibble t, (tokenByte_nibbles t).symm⟩

/-- Settles O3, word by word. -/
theorem writtenWordsDecode : Obligations.WrittenWordsDecode := by
  unfold Obligations.WrittenWordsDecode
  decide

/-- What a CMD value decodes to is well-formed and encodes to that value (R92). -/
theorem decodeCommand_encodes (c : Word) :
    (decodeCommand c).wf = true ∧ contextOf (decodeCommand c) = .command ∧ encode (decodeCommand c) = .command c := by
  have known : ∀ {k : Word}, c.toNat = k.toNat → Code.command k = .command c := fun h =>
    congrArg Code.command (BitVec.eq_of_toNat_eq h.symm)
  unfold decodeCommand
  split
  case h_7 h0 h1 h2 h3 h4 h5 =>
    refine ⟨decide_eq_true ?_, rfl, rfl⟩
    by_contra hlt
    interval_cases hc : c.toNat <;> contradiction
  all_goals exact ⟨rfl, rfl, known ‹_›⟩

/-- What a token decodes to is well-formed and encodes to that token (R94). -/
theorem decodeToken_encodes (final : Bool) (t : Byte) :
    (decodeToken final t).wf = true ∧ contextOf (decodeToken final t) = .token final ∧
      encode (decodeToken final t) = .byte t := by
  have token : ∀ {l m : Nibble}, highNibble t = l → lowNibble t = m → Code.byte (tokenByte l m) = .byte t := by
    rintro _ _ rfl rfl
    rw [tokenByte_nibbles]
  cases final with
  | true =>
    simp only [decodeToken]
    split
    · exact ⟨rfl, rfl, token ‹_› rfl⟩
    · exact ⟨by simpa [Instr.wf], rfl, token rfl rfl⟩
  | false =>
    simp only [decodeToken]
    split
    · split
      · exact ⟨rfl, rfl, token (l := 15#4) (m := 15#4) ‹_› ‹_›⟩
      · exact ⟨by simpa [Instr.wf], rfl, token ‹_› rfl⟩
    · split
      · exact ⟨by simpa [Instr.wf], rfl, token rfl ‹_›⟩
      · exact ⟨by simp [Instr.wf, *], rfl, token rfl rfl⟩

/-- What an extension byte decodes to is well-formed and encodes to that byte (R94). -/
theorem decodeExtension_encodes (b : Byte) :
    (decodeExtension b).wf = true ∧ contextOf (decodeExtension b) = .extension ∧
      encode (decodeExtension b) = .byte b := by
  unfold decodeExtension
  split
  · next hb => exact ⟨rfl, rfl, by rw [hb]; rfl⟩
  · next hb => exact ⟨by simpa [Instr.wf], rfl, rfl⟩

/-- A well-formed instruction reads back from its code in its context (R92, R94). -/
theorem decode_encode {i : Instr} (h : i.wf = true) : decode (contextOf i) (encode i) = .ok i := by
  cases i with
  | illegal code => simp [decode, contextOf, encode, decodeCommand_illegal (of_decide_eq_true h)]
  | seqSS l m =>
    obtain ⟨hl, hm⟩ : l ≠ 15#4 ∧ m ≠ 15#4 := by simpa [Instr.wf] using h
    simp [decode, contextOf, encode, decodeToken, hl, hm]
  | seqXS m =>
    have hm : m ≠ 15#4 := by simpa [Instr.wf] using h
    simp [decode, contextOf, encode, decodeToken, hm]
  | seqSX l =>
    have hl : l ≠ 15#4 := by simpa [Instr.wf] using h
    simp [decode, contextOf, encode, decodeToken, hl]
  | lastS l ignored =>
    have hl : l ≠ 15#4 := by simpa [Instr.wf] using h
    simp [decode, contextOf, encode, decodeToken, hl]
  | lastX ignored => simp [decode, contextOf, encode, decodeToken]
  | extEnd e =>
    have he : e ≠ 255#8 := by simpa [Instr.wf] using h
    simp [decode, contextOf, encode, decodeExtension, he]
  | clear => rfl
  | maxlen => rfl
  | compressFast => rfl
  | compressHc => rfl
  | decompressTrust => rfl
  | decompressSafe => rfl
  | seqXX => rfl
  | extMore => rfl

/-- Settles O2: `decode_encode`, and the three decoders one by one. -/
theorem decodeEncodeInverse : Obligations.DecodeEncodeInverse := by
  refine ⟨fun i => decode_encode, ?_⟩
  rintro (_ | final | _) (c | b) i h <;> simp only [decode, Except.ok.injEq, reduceCtorEq] at h <;> subst h
  · exact decodeCommand_encodes c
  · exact decodeToken_encodes final b
  · exact decodeExtension_encodes b

/-! ## Length extensions (R83, R84) -/

/-- A run of FF bytes and one byte below 255 adds its sum (R83). -/
theorem readExtension_replicate {e : Byte} (he : e ≠ 255#8) (acc k : Nat) (rest : List Byte) :
    readExtension acc (List.replicate k 255#8 ++ e :: rest) = .ok (acc + 255 * k + e.toNat, rest) := by
  induction k generalizing acc with
  | zero => exact readExtension_end he acc rest
  | succ k ih =>
    rw [List.replicate_succ, List.cons_append, readExtension_more, ih]
    congr 3
    omega

/-- Whatever is read as a length extension is such a run (R83). -/
theorem readExtension_inv {acc n : Nat} {bytes rest : List Byte} (h : readExtension acc bytes = .ok (n, rest)) :
    ∃ (k : Nat) (e : Byte), e ≠ 255#8 ∧ bytes = List.replicate k 255#8 ++ e :: rest ∧
      n = acc + 255 * k + e.toNat := by
  induction bytes generalizing acc with
  | nil => cases h
  | cons b bytes ih =>
    by_cases hb : b = 255#8
    · subst hb
      rw [readExtension_more] at h
      obtain ⟨k, e, he, rfl, rfl⟩ := ih h
      exact ⟨k + 1, e, he, rfl, by omega⟩
    · rw [readExtension_end hb] at h
      cases h
      exact ⟨0, b, hb, rfl, by omega⟩

/-- Settles O4, by induction on the run and on the bytes read. -/
theorem lengthExtensionIsSum : Obligations.LengthExtensionIsSum :=
  ⟨fun _ => rfl, fun acc k _ rest he => readExtension_replicate he acc k rest, fun _ _ _ _ => readExtension_inv⟩

/-- The last byte WRITE_LEN writes is below 255 (R111). -/
theorem writeLen_last_ne (x : Nat) : BitVec.ofNat 8 ((x - Config.nibbleCap) % 255) ≠ 255#8 := fun h => by
  have := congrArg BitVec.toNat h
  simp only [BitVec.toNat_ofNat] at this
  omega

/-- The extension of a field value of at least 15 reads back (R84, R111). -/
theorem readExtension_writeLen {x : Nat} (h : 15 ≤ x) (rest : List Byte) :
    readExtension Config.nibbleCap (writeLen x ++ rest) = .ok (x, rest) := by
  have hsum : Config.nibbleCap + 255 * ((x - Config.nibbleCap) / 255) +
      (BitVec.ofNat 8 ((x - Config.nibbleCap) % 255)).toNat = x := by
    simp only [Config.nibbleCap, BitVec.toNat_ofNat]
    omega
  rw [writeLen, List.append_assoc]
  exact (readExtension_replicate (writeLen_last_ne x) _ _ rest).trans (by rw [hsum])

/-- A field value reads back from its nibble and its extension (R84, R85). -/
theorem readField_extensionBytes (x : Nat) (rest : List Byte) :
    readField (fieldNibble x) (extensionBytes x ++ rest) = .ok (x, rest) := by
  rcases Nat.lt_or_ge x 15 with h | h
  · obtain ⟨hval, hne⟩ := fieldNibble_short h
    simp [readField, hne, hval, extensionBytes_short h]
  · rw [readField, if_pos (fieldNibble_long h), extensionBytes_long h, readExtension_writeLen h]

/-! ## Encoded sizes (R89) -/

/-- The two forms of `ext`. -/
theorem extSize_eq_div (x : Nat) : extSize x = (x + 240) / 255 := by
  unfold extSize Config.nibbleCap
  split <;> omega

@[simp] theorem extensionBytes_length (x : Nat) : (extensionBytes x).length = extSize x := by
  rw [extensionBytes, extSize]
  split
  · rfl
  · simp [writeLen, Nat.add_comm]

@[simp] theorem offsetBytes_length (off : Half) : (offsetBytes off).length = 2 := rfl

theorem assemble_seq_length (lits : List Byte) (off : Half) (len : Nat) :
    (assemble (.seq lits off len)).length = seqSize lits.length len := by
  simp only [assemble, seqSize, List.length_cons, List.length_append, extensionBytes_length, offsetBytes_length]
  omega

@[simp] theorem finalBytes_length (ignored : Nibble) (lits : List Byte) :
    (finalBytes ignored lits).length = lastSize lits.length := by
  simp only [finalBytes, lastSize, List.length_cons, List.length_append, extensionBytes_length]
  omega

/-- Settles O6: the sizes of the parts add up. -/
theorem encodedSizes : Obligations.EncodedSizes := by
  refine ⟨fun x => ⟨rfl, extSize_eq_div x⟩, assemble_seq_length, finalBytes_length 0, fun l m => ?_, fun l => ?_⟩
  · simp only [seqSize, extSize_eq_div, Config.minMatch]
    omega
  · simp only [lastSize, extSize_eq_div]
    omega

/-! ## Listing lines (R81, R87, R93) -/

/-- What follows the literals of a non-final sequence reads back (R85, R86). -/
theorem readMatch_bytes (lits : List Byte) (off : Half) {len : Nat} (h : Config.minMatch ≤ len) (rest : List Byte) :
    readMatch (fieldNibble (len - Config.minMatch)) lits
      (offsetBytes off ++ (extensionBytes (len - Config.minMatch) ++ rest)) = .ok (.seq lits off len, rest) := by
  simp only [offsetBytes, List.cons_append, List.nil_append, readMatch, readField_extensionBytes,
    offsetOf_offsetBytes, Nat.sub_add_cancel h]

/-- The literal run reads back from any token with its length nibble (R81, R84). -/
theorem disassemble_literals (final : Bool) (m : Nibble) (lits rest : List Byte) :
    disassemble final (tokenByte (fieldNibble lits.length) m :: (extensionBytes lits.length ++ (lits ++ rest))) =
      if final then .ok (.last lits, rest) else readMatch m lits rest := by
  simp [disassemble, readField_extensionBytes]

theorem disassemble_assemble_seq {lits : List Byte} {off : Half} {len : Nat} (h : (Line.seq lits off len).wf = true)
    (rest : List Byte) :
    disassemble false (assemble (.seq lits off len) ++ rest) = .ok (.seq lits off len, rest) := by
  have hlen : Config.minMatch ≤ len := by simpa [Line.wf] using (Bool.and_eq_true_iff.mp h).2
  have hread := disassemble_literals false (fieldNibble (len - Config.minMatch)) lits
    (offsetBytes off ++ (extensionBytes (len - Config.minMatch) ++ rest))
  simp only [assemble, List.cons_append, List.append_assoc]
  rw [hread]
  exact readMatch_bytes lits off hlen rest

theorem disassemble_finalBytes (ignored : Nibble) (lits rest : List Byte) :
    disassemble true (finalBytes ignored lits ++ rest) = .ok (.last lits, rest) := by
  simp only [finalBytes, List.cons_append, List.append_assoc]
  exact disassemble_literals true ignored lits rest

/-- Settles O7: each field reads back and leaves what follows it. -/
theorem assembleDisassembleAgree : Obligations.AssembleDisassembleAgree :=
  ⟨fun _ _ _ rest h => disassemble_assemble_seq h rest, disassemble_finalBytes 0, disassemble_finalBytes⟩

end Sys2Proof
end

section
/-! PROOFS. Runs of bytes in SRC and DST (10_state.md R21, R22): how runs are cut and joined, and what a list of
writes and a match copy leave at the positions before and after them (43_block_decoder.md R189, R190). -/

namespace Sys2Proof.Machine

/-! ## Runs of source bytes -/

theorem srcRun_add (s : State) (p j k : Nat) : srcRun s p (j + k) = srcRun s p j ++ srcRun s (p + j) k := by
  induction j generalizing p with
  | zero => simp
  | succ j ih => rw [show j + 1 + k = j + k + 1 by omega, srcRun_succ, srcRun_succ, ih, List.cons_append,
      show p + 1 + j = p + (j + 1) by omega]

theorem srcRun_getElem {s : State} {p k i : Nat} (h : i < (srcRun s p k).length) :
    (srcRun s p k)[i] = srcAt s ((p + i : Nat) : Int) := by simp [srcRun]

/-- The bytes of `bytes` stand in the source from position `p` on. -/
def SrcHolds (s : State) (p : Nat) (bytes : List Byte) : Prop := srcRun s p bytes.length = bytes

theorem srcHolds_nil (s : State) (p : Nat) : SrcHolds s p [] := rfl

theorem srcHolds_cons {s : State} {p : Nat} {b : Byte} {bytes : List Byte} :
    SrcHolds s p (b :: bytes) ↔ srcAt s (p : Int) = b ∧ SrcHolds s (p + 1) bytes := by
  rw [SrcHolds, List.length_cons, srcRun_succ, List.cons.injEq]
  rfl

theorem srcHolds_append {s : State} {p : Nat} {xs ys : List Byte} :
    SrcHolds s p (xs ++ ys) ↔ SrcHolds s p xs ∧ SrcHolds s (p + xs.length) ys := by
  rw [SrcHolds, List.length_append, srcRun_add]
  exact ⟨fun h => List.append_inj h (by simp), fun ⟨hx, hy⟩ => congrArg₂ (· ++ ·) hx hy⟩

/-! ## Runs of destination bytes -/

@[simp] theorem dstRun_length (s : State) (q k : Nat) : (dstRun s q k).length = k := by simp [dstRun]

@[simp] theorem dstRun_zero (s : State) (q : Nat) : dstRun s q 0 = [] := rfl

theorem dstRun_getElem {s : State} {q k i : Nat} (h : i < (dstRun s q k).length) :
    (dstRun s q k)[i] = dstAt s (q + i) := by simp [dstRun]

/-- A run is its bytes, one by one. -/
theorem dstRun_eq_iff {s : State} {q : Nat} {bytes : List Byte} :
    dstRun s q bytes.length = bytes ↔ ∀ i (h : i < bytes.length), dstAt s (q + i) = bytes[i] := by
  rw [List.ext_getElem_iff]
  simp [dstRun]

/-- Two runs with the same bytes are equal. -/
theorem dstRun_congr {s t : State} {q k : Nat} (h : ∀ i, i < k → dstAt t (q + i) = dstAt s (q + i)) :
    dstRun t q k = dstRun s q k := List.map_congr_left fun i hi => h i (List.mem_range.mp hi)

theorem dstRun_add (s : State) (q j k : Nat) : dstRun s q (j + k) = dstRun s q j ++ dstRun s (q + j) k := by
  simp only [dstRun, List.range_add, List.map_append, List.map_map]
  congr 1
  exact List.map_congr_left fun i _ => by simp only [Function.comp]; congr 1; omega

/-- Positions of the destination region have addresses of their own (R22). -/
theorem dstAddr_toNat_ne {s : State} (h : DstRegion s) {p q : Nat} (hne : p ≠ q) :
    (dstAddr s p).toNat ≠ (dstAddr s q).toNat := by
  have hoff := h.off_nonneg
  unfold dstAddr
  omega

/-- A list of writes leaves every position before it as it was, and its own bytes after those. -/
theorem dstPutList_run {s t : State} {q : Nat} {bytes : List Byte} (h : DstRegion s) (hwf : Memory.wf s.dst = true)
    (hput : dstPutList q bytes s = .go t) : dstRun t 0 (q + bytes.length) = dstRun s 0 q ++ bytes := by
  obtain ⟨honly, -, hframe⟩ := dstPutList_frame hput
  rw [dstRun_add, Nat.zero_add]
  congr 1
  · refine dstRun_congr fun i hi => ?_
    rw [dstAt, honly.dstAddr]
    exact hframe _ fun j hj => dstAddr_toNat_ne h (by omega)
  · exact dstRun_eq_iff.mpr fun i hi => dstPutList_value hput hwf i hi

/-- One byte written after a run. -/
theorem dstWrite_run {s : State} {q : Nat} (h : DstRegion s) (hwf : Memory.wf s.dst = true) (hq : q < s.dEnd)
    (b : Byte) : dstRun (dstWrite s (dstAddr s q).toNat b) 0 (q + 1) = dstRun s 0 q ++ [b] :=
  dstPutList_run (bytes := [b]) h hwf (by
    rw [dstPutList, dstPut_eq_go.mpr ⟨dstReachable_inside h hq, rfl⟩, Flow.andThen_go, dstPutList])

/-! ## The match copy (R189, R190) -/

@[simp] theorem copyBack_length (off len : Nat) (out : List Byte) :
    (copyBack off len out).length = out.length + len := by
  induction len generalizing out with
  | zero => rfl
  | succ len ih => rw [copyBack, ih, List.length_append, List.length_singleton]; omega

/-- The match copy appends to the bytes before it what `copyBack` does. -/
theorem copyBytes_run {count off target : Nat} {s : State} (h : DstRegion s) (hwf : Memory.wf s.dst = true)
    (h1 : 1 ≤ off) (hoff : off ≤ target) (hfit : target + count ≤ s.dEnd) :
    ∃ t, copyBytes (target - off) target count s = .go t ∧ DstOnly s t ∧ Memory.wf t.dst = true ∧
      dstRun t 0 (target + count) = copyBack off count (dstRun s 0 target) := by
  induction count generalizing target s with
  | zero => exact ⟨s, rfl, .refl s, hwf, rfl⟩
  | succ count ih =>
    have hbyte : (dstRun s 0 target).getD ((dstRun s 0 target).length - off) 0 = dstAt s (target - off) := by
      rw [dstRun_length, List.getD_eq_getElem _ _ (by rw [dstRun_length]; omega), dstRun_getElem, Nat.zero_add]
    obtain ⟨t, hcopy, honly, hwft, hrun⟩ := ih (target := target + 1)
      (s := dstWrite s (dstAddr s target).toNat (dstAt s (target - off)))
      ⟨h.off_nonneg, h.end_is_len, h.fits, h.pos_le⟩ (Memory.write_wf hwf _ _) (by omega)
      (by simpa using (by omega : target + 1 + count ≤ s.dEnd))
    refine ⟨t, ?_, (DstOnly.write s _ _).trans honly, hwft, ?_⟩
    · rw [copyBytes, dstGet_eq_go.mpr ⟨dstReachable_inside h (by omega), rfl⟩, Flow.andThen_go,
        dstPut_eq_go.mpr ⟨dstReachable_inside h (by omega), rfl⟩, Flow.andThen_go,
        show target - off + 1 = target + 1 - off by omega, hcopy]
    · rw [copyBack, hbyte, ← dstWrite_run h hwf (by omega), ← hrun]
      congr 1
      omega

/-- What a completion leaves at any value lies after the positions it keeps (R33). -/
theorem dstRun_completeRegion {s : State} (h : DstRegion s) (result : Nat) :
    dstRun (completeRegion result s) 0 s.dPos = dstRun s 0 s.dPos := by
  have hoff := h.off_nonneg
  refine dstRun_congr fun i hi => ?_
  have haddr : dstAddr (completeRegion result s) (0 + i) = dstAddr s (0 + i) := by simp [completeRegion, dstAddr]
  rw [dstAt, haddr, completeRegion, dstRead_openRegionFrom_outside]
  · rfl
  · left
    simp only [dstBase, dstAddr, complete_dstOff]
    omega

/-! ## Runs of steps -/

theorem steps_succ {k : Nat} {s t : State} (h : step s = .next t) : steps (k + 1) s = steps k t := by
  rw [steps, h]

theorem steps_one {s t : State} (h : step s = .next t) : steps 1 s = .next t := steps_succ h

/-- Steps from where other steps have led. -/
theorem steps_add {j k : Nat} {s t : State} (h : steps j s = .next t) : steps (j + k) s = steps k t := by
  induction j generalizing s with
  | zero =>
    cases h
    rw [Nat.zero_add]
  | succ j ih =>
    rw [steps] at h
    cases hstep : step s with
    | next u =>
      rw [hstep] at h
      rw [Nat.succ_add, steps_succ hstep]
      exact ih h
    | fault r => simp [hstep] at h
    | refused r => simp [hstep] at h

end Sys2Proof.Machine
end

section
/-! PROOFS. The decoder on the bytes of a block (43_block_decoder.md R183 to R191): the terminal test is the choice
made at the token, each field is read from the bytes that encode it, and a decode command runs over every block to its
output (30_encoding.md R80, R117). -/

namespace Sys2Proof.Machine

/-! ## CopyLiterals and the choice at the token (R88, R185, R186) -/

/-- CopyLiterals where it goes on: both bounds hold, and only DST and the two positions have changed. -/
theorem copyLiterals_eq_go {s t : State} (h : copyLiterals s = .go t) :
    s.bd.sPos + s.bd.litLen ≤ s.bd.sEnd ∧ s.dPos + s.bd.litLen ≤ s.dEnd ∧
      ∃ u, dstPutList s.dPos (srcRun s s.bd.sPos s.bd.litLen) s = .go u ∧
        t = { u with dPos := s.dPos + s.bd.litLen, bd := { u.bd with sPos := s.bd.sPos + s.bd.litLen } } := by
  unfold copyLiterals at h
  split at h
  · cases h
  · split at h
    · cases h
    · obtain ⟨lits, hlits, h⟩ := Flow.andThen_eq_go.mp h
      obtain ⟨u, hu, h⟩ := Flow.andThen_eq_go.mp h
      cases h
      rw [srcBytes_eq_run hlits] at hu
      exact ⟨by omega, by omega, u, hu, rfl⟩

/-- CopyLiterals inside its regions goes on where both bounds hold. -/
theorem copyLiterals_inside {s : State} (hsrc : SrcRegion s.bd.sEnd s) (hdst : DstRegion s)
    (hs : s.bd.sPos + s.bd.litLen ≤ s.bd.sEnd) (hd : s.dPos + s.bd.litLen ≤ s.dEnd) :
    ∃ u, dstPutList s.dPos (srcRun s s.bd.sPos s.bd.litLen) s = .go u ∧
      copyLiterals s =
        .go { u with dPos := s.dPos + s.bd.litLen, bd := { u.bd with sPos := s.bd.sPos + s.bd.litLen } } := by
  obtain ⟨u, hu⟩ := dstPutList_inside (bytes := srcRun s s.bd.sPos s.bd.litLen) (q := s.dPos) hdst
    (by rw [srcRun_length]; omega)
  refine ⟨u, hu, ?_⟩
  rw [copyLiterals, if_neg (by omega), if_neg (by omega), srcBytes_inside hsrc hs, Flow.andThen_go, hu,
    Flow.andThen_go]

/-- The choice at the token is the terminal test once the literals are copied. -/
theorem isFinal_eq_terminal {s u v : State} {t : Byte} (hu : literalLength t s = .go u)
    (hv : copyLiterals u = .go v) : isFinal t s = terminal v := by
  obtain ⟨hs, hd, w, hw, rfl⟩ := copyLiterals_eq_go hv
  obtain ⟨honly, -, -⟩ := dstPutList_frame hw
  rw [isFinal, hu]
  simp only [hs, hd, and_self, decide_true, Bool.true_and]
  rw [honly]
  rfl

/-- Settles O19: before the test only the bounds of CopyLiterals can fail, and the look-ahead makes them too. -/
theorem finalChoiceIsTerminalTest : Obligations.FinalChoiceIsTerminalTest := by
  refine fun s t => ⟨fun u v => isFinal_eq_terminal, fun r hr => by rw [isFinal, hr], ?_⟩
  intro u hu hsrc hdst hstop
  have hbound : ¬(u.bd.sPos + u.bd.litLen ≤ u.bd.sEnd ∧ u.dPos + u.bd.litLen ≤ u.dEnd) := fun ⟨hs, hd⟩ =>
    have ⟨_, _, hgo⟩ := copyLiterals_inside hsrc hdst hs hd
    hstop _ hgo
  rw [isFinal, hu]
  simp only [hbound, decide_false, Bool.false_and]

/-! ## Length extensions (R184, R188) -/

/-- The state once a length extension of `count` bytes, `added` their sum, is read. -/
def extensionRead (count added : Nat) (s : State) : State :=
  if s.bd.bdState = .readLiteralLenExtension then
    { s with
      bd := { s.bd with sPos := s.bd.sPos + count, litLen := s.bd.litLen + added, bdState := .copyLiterals } }
  else
    { s with
      bd := { s.bd with
        sPos := s.bd.sPos + count, matchLen := s.bd.matchLen + added + Config.minMatch, bdState := .copyMatch } }

/-- The state once a continuation byte is read. -/
def continued (s : State) : State :=
  { s with
    bd := if s.bd.bdState = .readLiteralLenExtension then
        { s.bd with sPos := s.bd.sPos + 1, litLen := s.bd.litLen + 255 }
      else { s.bd with sPos := s.bd.sPos + 1, matchLen := s.bd.matchLen + 255 } }

theorem fetchGuard_inside {s : State} (h : s.bd.sPos < s.bd.sEnd) : fetchGuard s = .go s := by
  rw [fetchGuard, if_neg (by omega)]

theorem takeExtension_more {s : State} (hin : InExtension s) (hp : s.bd.sPos < s.bd.sEnd) :
    takeExtension 255#8 s = .go (continued s) := by
  rw [takeExtension, fetchGuard_inside hp, Flow.andThen_go]
  rcases hin with hst | hst <;> simp [addExtension, continued, hst]

theorem takeExtension_end {s : State} {e : Byte} (he : e ≠ 255#8) (hin : InExtension s)
    (hp : s.bd.sPos < s.bd.sEnd) : takeExtension e s = .go (extensionRead 1 e.toNat s) := by
  rw [takeExtension, fetchGuard_inside hp, Flow.andThen_go]
  rcases hin with hst | hst <;> simp [addExtension, extensionRead, hst, he]

theorem continued_inExtension {s : State} (hin : InExtension s) : InExtension (continued s) := by
  rcases hin with hst | hst <;> simp [InExtension, continued, hst]

/-- A continuation byte before the rest of an extension. -/
theorem extensionRead_continued {s : State} (hin : InExtension s) (count added : Nat) :
    extensionRead count added (continued s) = extensionRead (count + 1) (255 + added) s := by
  rcases hin with hst | hst <;> simp [extensionRead, continued, hst] <;> omega

/-- An extension of `k` bytes FF and one byte below 255 is read to its end. -/
theorem runExtension_reads {k budget : Nat} {e : Byte} {s : State} (hsrc : SrcRegion s.bd.sEnd s) (he : e ≠ 255#8)
    (hin : InExtension s) (hbytes : SrcHolds s s.bd.sPos (List.replicate k 255#8 ++ [e])) (hbudget : k < budget)
    (hp : s.bd.sPos + k < s.bd.sEnd) :
    runExtension budget s = .go (extensionRead (k + 1) (255 * k + e.toNat) s) := by
  induction k generalizing s budget with
  | zero =>
    obtain ⟨budget, rfl⟩ := Nat.exists_eq_succ_of_ne_zero (Nat.ne_of_gt hbudget)
    obtain ⟨hb, -⟩ := srcHolds_cons.mp hbytes
    rw [runExtension, peek_inside hsrc hp, Flow.andThen_go, hb, takeExtension_end he hin hp, Flow.andThen_go,
      if_neg he]
    congr 2
    omega
  | succ k ih =>
    obtain ⟨budget, rfl⟩ := Nat.exists_eq_succ_of_ne_zero (Nat.ne_of_gt (Nat.zero_lt_of_lt hbudget))
    rw [List.replicate_succ, List.cons_append] at hbytes
    obtain ⟨hb, hrest⟩ := srcHolds_cons.mp hbytes
    have hpos : (continued s).bd.sPos = s.bd.sPos + 1 := by simp only [continued]; split <;> rfl
    have hend : (continued s).bd.sEnd = s.bd.sEnd := by simp only [continued]; split <;> rfl
    rw [runExtension, peek_inside hsrc (by omega), Flow.andThen_go, hb, takeExtension_more hin (by omega),
      Flow.andThen_go, if_pos rfl,
      ih (by rw [hend]; exact ⟨hsrc.off_nonneg, hsrc.fits⟩) (continued_inExtension hin) (by rw [hpos]; exact hrest)
        (by omega) (by omega), extensionRead_continued hin]
    congr 2
    omega

/-- The extension of a field value `x` of at least 15 is read to its end, and adds `x - 15`. -/
theorem readExtensionAt_writeLen {x : Nat} {s : State} (hx : 15 ≤ x) (hsrc : SrcRegion s.bd.sEnd s)
    (hin : InExtension s) (hbytes : SrcHolds s s.bd.sPos (extensionBytes x))
    (hp : s.bd.sPos + extSize x ≤ s.bd.sEnd) : readExtensionAt s = .go (extensionRead (extSize x) (x - 15) s) := by
  have hsize : extSize x = (x - 15) / 255 + 1 := by
    rw [extSize, if_neg (by simpa [Config.nibbleCap] using hx), Config.nibbleCap, Nat.add_comm]
  rw [extensionBytes_long hx] at hbytes
  rw [readExtensionAt, runExtension_reads (k := (x - 15) / 255) hsrc (writeLen_last_ne x) hin hbytes (by omega)
    (by omega), hsize]
  congr 2
  simp only [BitVec.toNat_ofNat, Config.nibbleCap]
  omega

/-! ## The fields of a sequence (R183 to R188) -/

/-- The state ReadToken leaves (R183). -/
def tokenTaken (t : Byte) (s : State) : State :=
  { s with
    bd := { s.bd with
      token := t, litLen := (highNibble t).toNat, sPos := s.bd.sPos + 1
      bdState := if highNibble t = 15#4 then .readLiteralLenExtension else .copyLiterals } }

theorem takeToken_inside {t : Byte} {s : State} (h : s.bd.sPos < s.bd.sEnd) : takeToken t s = .go (tokenTaken t s) := by
  rw [takeToken, fetchGuard_inside h]
  rfl

/-- The state in which a token and its literal length are read, the literals standing next. -/
def literalsNext (t : Byte) (l : Nat) (s : State) : State :=
  { s with
    bd := { s.bd with token := t, litLen := l, sPos := s.bd.sPos + 1 + extSize l, bdState := .copyLiterals } }

/-- The literal length is read from its nibble and its extension. -/
theorem literalLength_reads {l : Nat} {m : Nibble} {s : State} (hsrc : SrcRegion s.bd.sEnd s)
    (hbytes : SrcHolds s (s.bd.sPos + 1) (extensionBytes l)) (hp : s.bd.sPos + 1 + extSize l ≤ s.bd.sEnd) :
    literalLength (tokenByte (fieldNibble l) m) s = .go (literalsNext (tokenByte (fieldNibble l) m) l s) := by
  rw [literalLength, takeToken_inside (by omega), Flow.andThen_go]
  rcases Nat.lt_or_ge l 15 with hl | hl
  · obtain ⟨hval, hne⟩ := fieldNibble_short hl
    have hsize : extSize l = 0 := by rw [← extensionBytes_length, extensionBytes_short hl]; rfl
    rw [if_neg (by simp [tokenTaken, hne])]
    simp [tokenTaken, literalsNext, hne, hval, hsize]
  · have hstate : (tokenTaken (tokenByte (fieldNibble l) m) s).bd.bdState = .readLiteralLenExtension := by
      simp [tokenTaken, fieldNibble_long hl]
    rw [if_pos hstate, readExtensionAt_writeLen (s := tokenTaken _ s) hl ⟨hsrc.off_nonneg, hsrc.fits⟩ (.inl hstate)
      hbytes hp, extensionRead, if_pos hstate]
    simp only [tokenTaken, literalsNext, highNibble_tokenByte, fieldNibble_long hl]
    congr 3
    simp
    omega

/-- ReadOffset on the bytes of an offset that reaches back into the output. -/
theorem readOffset_reads {off : Half} {s : State} (hsrc : SrcRegion s.bd.sEnd s)
    (hbytes : SrcHolds s s.bd.sPos (offsetBytes off)) (hp : s.bd.sPos + 2 ≤ s.bd.sEnd) (h0 : off ≠ 0#16)
    (hle : off.toNat ≤ s.dPos) : readOffset s = .go (takeMatchNibble (takeOffset off s)) := by
  obtain ⟨hlo, hrest⟩ := srcHolds_cons.mp hbytes
  obtain ⟨hhi, -⟩ := srcHolds_cons.mp hrest
  rw [readOffset, if_neg (by omega), bdByte, srcByte_inside hsrc (by omega) (by omega), Flow.andThen_go, bdByte,
    srcByte_inside hsrc (by omega) (by omega), Flow.andThen_go, hlo, hhi, offsetOf_offsetBytes]
  exact (if_neg h0).trans (if_neg (Nat.not_lt.mpr hle))

/-- The rest of ReadOffset for a token with an extended match length. -/
def matchLength (s : State) : Flow State :=
  if s.bd.bdState = .readMatchLenExtension then readExtensionAt s else .go s

/-- The state in which an offset and a match length are read, the match standing next. -/
def matchNext (off : Half) (len : Nat) (s : State) : State :=
  { s with
    bd := { s.bd with
      offset := off, offAt := s.bd.sPos, sPos := s.bd.sPos + 2 + extSize (len - Config.minMatch), matchLen := len
      bdState := .copyMatch } }

/-- The match length is read from its nibble and its extension. -/
theorem matchLength_reads {off : Half} {len : Nat} {s : State} (hlen : Config.minMatch ≤ len)
    (hsrc : SrcRegion s.bd.sEnd s) (htoken : lowNibble s.bd.token = fieldNibble (len - Config.minMatch))
    (hbytes : SrcHolds s (s.bd.sPos + 2) (extensionBytes (len - Config.minMatch)))
    (hp : s.bd.sPos + 2 + extSize (len - Config.minMatch) ≤ s.bd.sEnd) :
    matchLength (takeMatchNibble (takeOffset off s)) = .go (matchNext off len s) := by
  have hstate : (takeMatchNibble (takeOffset off s)).bd.bdState =
      if fieldNibble (len - Config.minMatch) = 15#4 then .readMatchLenExtension else .copyMatch := by
    rw [← htoken]
    rfl
  rcases Nat.lt_or_ge (len - Config.minMatch) 15 with hl | hl
  · obtain ⟨hval, hne⟩ := fieldNibble_short hl
    have hsize : extSize (len - Config.minMatch) = 0 := by rw [← extensionBytes_length, extensionBytes_short hl]; rfl
    rw [matchLength, if_neg (by rw [hstate, if_neg hne]; decide)]
    simp [takeMatchNibble, takeOffset, matchNext, htoken, hne, hval, hsize, Nat.sub_add_cancel hlen]
  · rw [if_pos (fieldNibble_long hl)] at hstate
    rw [matchLength, if_pos hstate, readExtensionAt_writeLen (s := takeMatchNibble (takeOffset off s)) hl
      ⟨hsrc.off_nonneg, hsrc.fits⟩ (.inr hstate) hbytes hp]
    simp only [Config.minMatch] at hl hlen htoken
    simp [extensionRead, takeMatchNibble, takeOffset, matchNext, htoken, fieldNibble_long hl, Config.minMatch,
      Config.nibbleCap]
    omega

/-! ## Stream instructions -/

/-- The state ReadToken leaves follows the high nibble of the token (R183). -/
theorem literalLength_cases {t : Byte} {s u : State} (h : literalLength t s = .go u) :
    ∃ v, takeToken t s = .go v ∧ if highNibble t = 15#4 then readExtensionAt v = .go u else v = u := by
  obtain ⟨v, hv, h⟩ := Flow.andThen_eq_go.mp h
  refine ⟨v, hv, ?_⟩
  obtain ⟨w, hw, he⟩ := Flow.andThen_eq_go.mp hv
  cases he
  by_cases h15 : highNibble t = 15#4
  · simpa [h15] using h
  · simpa [h15] using h

/-- A non-final sequence whose fields are read and whose match is copied is one step of SEQ (R199 to R202). -/
theorem exec_seq {t : Byte} {s u v w x : State} (hu : literalLength t s = .go u) (hv : literalsThenOffset u = .go v)
    (hstate : v.bd.bdState = if lowNibble t = 15#4 then .readMatchLenExtension else .copyMatch)
    (hw : matchLength v = .go w) (hx : copyMatch w = .go x) : exec (decodeToken false t) s = .next x := by
  obtain ⟨r, hr, hlit⟩ := literalLength_cases hu
  have htoken := tokenByte_nibbles t
  simp only [decodeToken]
  by_cases hh : highNibble t = 15#4
  · simp only [hh, if_true] at hlit htoken ⊢
    by_cases hl : lowNibble t = 15#4
    · rw [if_pos hl] at hstate ⊢
      rw [matchLength, if_pos hstate] at hw
      have hff : (0xFF : Byte) = t := by rw [← htoken, hl]; decide
      simp [exec, execSeqXX, hff, hr, hlit, hv, hw, hx]
    · rw [if_neg hl] at hstate ⊢
      rw [matchLength, if_neg (by rw [hstate]; decide)] at hw
      cases hw
      simp [exec, execSeqXS, htoken, hr, hlit, hv, hx]
  · simp only [hh, if_false] at hlit ⊢
    subst hlit
    by_cases hl : lowNibble t = 15#4
    · rw [if_pos hl] at hstate ⊢
      rw [matchLength, if_pos hstate] at hw
      rw [hl] at htoken
      simp [exec, execSeqSX, htoken, hr, hv, hw, hx]
    · rw [if_neg hl] at hstate ⊢
      rw [matchLength, if_neg (by rw [hstate]; decide)] at hw
      cases hw
      simp [exec, execSeqSS, htoken, hr, hv, hx]

/-- A final sequence whose literals are copied is one step of LAST (R203, R204). -/
theorem exec_last {t : Byte} {s u v : State} (hu : literalLength t s = .go u) (hv : copyLiterals u = .go v) :
    exec (decodeToken true t) s = .next (finishDecode v) := by
  obtain ⟨r, hr, hlit⟩ := literalLength_cases hu
  have htoken := tokenByte_nibbles t
  simp only [decodeToken]
  by_cases hh : highNibble t = 15#4
  · simp only [hh, if_true] at hlit htoken ⊢
    simp [exec, execLastX, literalsThenDone, htoken, hr, hlit, hv]
  · simp only [hh, if_false] at hlit ⊢
    simp [exec, execLastS, literalsThenDone, htoken, hr, hlit, hv]

end Sys2Proof.Machine
end

section
/-! PROOFS. A decode command on a block (30_encoding.md R80, R117; 43_block_decoder.md R181 to R191): one step a
sequence, up to the final one. -/

namespace Sys2Proof.Machine

/-! ## One sequence -/

/-- `s0` has run on until `consumed` source bytes are read and the output is `out`; it stands in ReadToken. -/
structure DecodedTo (s0 : State) (consumed : Nat) (out : List Byte) (s : State) : Prop where
  same : s = { s0 with dPos := s.dPos, bd := s.bd, dst := s.dst, dstOpen := s.dstOpen }
  sPos : s.bd.sPos = consumed
  sEnd : s.bd.sEnd = s0.bd.sEnd
  state : s.bd.bdState = .readToken
  dPos : s.dPos = out.length
  wf : Memory.wf s.dst = true
  output : dstRun s 0 out.length = out

section

variable {s0 s : State} {consumed : Nat} {out : List Byte}

theorem DecodedTo.srcRegion (h : DecodedTo s0 consumed out s) (hsrc : SrcRegion s0.bd.sEnd s0) :
    SrcRegion s.bd.sEnd s := by
  rw [h.sEnd, h.same]
  exact ⟨hsrc.off_nonneg, hsrc.fits⟩

theorem DecodedTo.dstRegion (h : DecodedTo s0 consumed out s) (hdst : DstRegion s0) (hout : out.length ≤ s0.dEnd) :
    DstRegion s := by
  rw [h.same]
  exact ⟨hdst.off_nonneg, hdst.end_is_len, hdst.fits, by rw [h.dPos]; exact hout⟩

theorem DecodedTo.decoding (h : DecodedTo s0 consumed out s) (hd : Decoding s0) : Decoding s := by
  rw [h.same]
  exact ⟨hd.busy, hd.code, hd.quiet⟩

theorem DecodedTo.srcHolds (h : DecodedTo s0 consumed out s) {p : Nat} {bytes : List Byte} :
    SrcHolds s p bytes ↔ SrcHolds s0 p bytes := by
  rw [h.same]
  rfl

theorem DecodedTo.dEnd (h : DecodedTo s0 consumed out s) : s.dEnd = s0.dEnd := by
  rw [h.same]

theorem DecodedTo.cmd (h : DecodedTo s0 consumed out s) : s.cmd = s0.cmd := by
  rw [h.same]

end

/-- The state in which a token and its `l` literals are read, with the new contents of DST. -/
def literalsDone (t : Byte) (l : Nat) (dst : Memory) (ranges : List OpenRange) (s : State) : State :=
  { s with
    dPos := s.dPos + l, dst := dst, dstOpen := ranges
    bd := { s.bd with
      token := t, litLen := l, sPos := s.bd.sPos + 1 + extSize l + l, bdState := .copyLiterals } }

/-- A token, its literal length and its literals are read where they stand at S_POS and fit both regions: the literals
follow the output. -/
theorem literals_read {lits : List Byte} {m : Nibble} {s : State} (hsrc : SrcRegion s.bd.sEnd s) (hdst : DstRegion s)
    (hwf : Memory.wf s.dst = true) (hext : SrcHolds s (s.bd.sPos + 1) (extensionBytes lits.length))
    (hlits : SrcHolds s (s.bd.sPos + 1 + extSize lits.length) lits)
    (hp : s.bd.sPos + 1 + extSize lits.length + lits.length ≤ s.bd.sEnd) (hq : s.dPos + lits.length ≤ s.dEnd) :
    ∃ u dst ranges, literalLength (tokenByte (fieldNibble lits.length) m) s = .go u ∧
      copyLiterals u = .go (literalsDone (tokenByte (fieldNibble lits.length) m) lits.length dst ranges s) ∧
      Memory.wf dst = true ∧
      dstRun (literalsDone (tokenByte (fieldNibble lits.length) m) lits.length dst ranges s) 0 (s.dPos + lits.length) =
        dstRun s 0 s.dPos ++ lits := by
  have hlength := literalLength_reads (m := m) hsrc hext (by omega)
  generalize tokenByte (fieldNibble lits.length) m = t at *
  have hdst' : DstRegion (literalsNext t lits.length s) :=
    ⟨hdst.off_nonneg, hdst.end_is_len, hdst.fits, hdst.pos_le⟩
  obtain ⟨w, hput, hcopy⟩ := copyLiterals_inside (s := literalsNext t lits.length s) ⟨hsrc.off_nonneg, hsrc.fits⟩
    hdst' hp hq
  have hput : dstPutList s.dPos lits (literalsNext t lits.length s) = .go w := by
    rw [← hput]
    exact congrArg (dstPutList s.dPos · (literalsNext t lits.length s)) hlits.symm
  obtain ⟨honly, -, -⟩ := dstPutList_frame hput
  refine ⟨_, w.dst, w.dstOpen, hlength, ?_, dstPutList_wf hput hwf, ?_⟩
  · rw [hcopy, honly]
    rfl
  · refine Eq.trans ?_ (dstPutList_run (s := literalsNext t lits.length s) hdst' hwf hput)
    rw [honly]
    rfl

/-- CopyMatch where the match fits. -/
theorem copyMatch_fits {s u : State} (h : s.dPos + s.bd.matchLen ≤ s.dEnd)
    (hcopy : copyBytes (s.dPos - s.bd.offset.toNat) s.dPos s.bd.matchLen s = .go u) :
    copyMatch s = .go { u with dPos := s.dPos + s.bd.matchLen, bd := { u.bd with bdState := .readToken } } := by
  rw [copyMatch, if_neg (Nat.not_lt.mpr h), hcopy, Flow.andThen_go]

/-- An offset and a match length are read where they stand at S_POS, and the match is copied where it reaches back
into the output and fits: its bytes follow the output. -/
theorem match_read {off : Half} {len : Nat} {s : State} (hsrc : SrcRegion s.bd.sEnd s) (hdst : DstRegion s)
    (hwf : Memory.wf s.dst = true) (hoffset : SrcHolds s s.bd.sPos (offsetBytes off))
    (hmatch : SrcHolds s (s.bd.sPos + 2) (extensionBytes (len - Config.minMatch)))
    (hp : s.bd.sPos + 2 + extSize (len - Config.minMatch) ≤ s.bd.sEnd)
    (htoken : lowNibble s.bd.token = fieldNibble (len - Config.minMatch)) (hlen : Config.minMatch ≤ len)
    (h0 : off ≠ 0#16) (hback : off.toNat ≤ s.dPos) (hq : s.dPos + len ≤ s.dEnd) :
    ∃ w t, readOffset s = .go (takeMatchNibble (takeOffset off s)) ∧
      matchLength (takeMatchNibble (takeOffset off s)) = .go w ∧ copyMatch w = .go t ∧
      t = { s with dPos := s.dPos + len, bd := t.bd, dst := t.dst, dstOpen := t.dstOpen } ∧
      t.bd.sPos = s.bd.sPos + 2 + extSize (len - Config.minMatch) ∧ t.bd.sEnd = s.bd.sEnd ∧
      t.bd.bdState = .readToken ∧ Memory.wf t.dst = true ∧
      dstRun t 0 (s.dPos + len) = copyBack off.toNat len (dstRun s 0 s.dPos) := by
  have hoff1 : off.toNat ≠ 0 := fun he => h0 (BitVec.eq_of_toNat_eq he)
  obtain ⟨u, hcopy, honly, hwfu, hrun⟩ := copyBytes_run (s := matchNext off len s) (off := off.toNat) (count := len)
    (target := s.dPos) ⟨hdst.off_nonneg, hdst.end_is_len, hdst.fits, hdst.pos_le⟩ hwf (by omega) hback hq
  have hmatched := copyMatch_fits (s := matchNext off len s) hq hcopy
  refine ⟨_, _, readOffset_reads hsrc hoffset (by omega) h0 hback, matchLength_reads hlen hsrc htoken hmatch hp,
    hmatched, ?_, ?_, ?_, rfl, hwfu, hrun⟩
  all_goals
    rw [honly]
    rfl

/-- The byte at S_POS is the token of a sequence: the step is that of SEQ or LAST by the terminal test (R88). -/
theorem DecodedTo.step {s0 s u v : State} {consumed : Nat} {out : List Byte} {t : Byte}
    (h : DecodedTo s0 consumed out s) (hd : Decoding s0) (hsrc : SrcRegion s0.bd.sEnd s0)
    (hp : consumed < s0.bd.sEnd) (ht : srcAt s0 consumed = t) (hu : literalLength t s = .go u)
    (hv : copyLiterals u = .go v) : step s = exec (decodeToken (terminal v) t) s := by
  have hbyte : srcAt s s.bd.sPos = t := by rw [h.sPos, ← ht, h.same]; rfl
  obtain ⟨hstep, -⟩ := stepRunsDecodedInstruction.2 s (h.decoding hd) (h.srcRegion hsrc)
  rw [hstep h.state (by rw [h.sPos, h.sEnd]; exact hp), hbyte, isFinal_eq_terminal hu hv]

/-- One step over a non-final sequence that stands at S_POS and whose output fits. -/
theorem DecodedTo.seq {s0 s : State} {consumed : Nat} {out lits : List Byte} {off : Half} {len : Nat}
    (h : DecodedTo s0 consumed out s) (hd : Decoding s0) (hsrc : SrcRegion s0.bd.sEnd s0) (hdst : DstRegion s0)
    (hwf : (Line.seq lits off len).wf = true) (hoff : off.toNat ≤ (out ++ lits).length)
    (hbytes : SrcHolds s0 consumed (assemble (.seq lits off len)))
    (hp : consumed + (assemble (.seq lits off len)).length ≤ s0.bd.sEnd)
    (hq : out.length + lits.length + len ≤ s0.dEnd) :
    ∃ t, Machine.step s = .next t ∧
      DecodedTo s0 (consumed + (assemble (.seq lits off len)).length) (copyBack off.toNat len (out ++ lits)) t := by
  obtain ⟨hne, hlen⟩ : off ≠ 0#16 ∧ Config.minMatch ≤ len := by simpa [Line.wf] using hwf
  have hlen4 : 4 ≤ len := hlen
  have hoff1 : off.toNat ≠ 0 := fun he => hne (BitVec.eq_of_toNat_eq he)
  have hsrc' := h.srcRegion hsrc
  have hdst' := h.dstRegion hdst (by omega)
  have hpos := h.sPos
  have hend := h.sEnd
  have hdPos := h.dPos
  have hdEnd := h.dEnd
  rw [assemble_seq_length, seqSize] at hp
  rw [List.length_append] at hoff
  rw [← h.srcHolds, ← hpos, assemble, srcHolds_cons, List.append_assoc, List.append_assoc, srcHolds_append,
    srcHolds_append, srcHolds_append, extensionBytes_length, offsetBytes_length] at hbytes
  obtain ⟨htoken, hext, hlits, hoffset, hmatch⟩ := hbytes
  obtain ⟨u, dst, ranges, hu, hv, hwfv, hrun⟩ :=
    literals_read (m := fieldNibble (len - Config.minMatch)) hsrc' hdst' h.wf hext hlits (by omega) (by omega)
  rw [hdPos, h.output] at hrun
  have hstep := h.step hd hsrc (by omega) (by rw [← hpos, ← htoken, h.same]; rfl) hu hv
  have hlow := lowNibble_tokenByte (fieldNibble lits.length) (fieldNibble (len - Config.minMatch))
  generalize tokenByte (fieldNibble lits.length) (fieldNibble (len - Config.minMatch)) = t at *
  have hnot : terminal (literalsDone t lits.length dst ranges s) = false := by
    simp [terminal, literalsDone]
    omega
  have hfit : s.dPos + lits.length ≤ s.dEnd := by omega
  have hmatchEnd : s.bd.sPos + 1 + extSize lits.length + lits.length + 2 + extSize (len - Config.minMatch) ≤
      s.bd.sEnd := by omega
  have hback : off.toNat ≤ s.dPos + lits.length := by omega
  have hmatchFit : s.dPos + lits.length + len ≤ s.dEnd := by omega
  obtain ⟨w, x, hoffset, hlength, hcopy, hsame, hxPos, hxEnd, hstate, hwfx, hout⟩ :=
    match_read (s := toReadOffset (literalsDone t lits.length dst ranges s)) ⟨hsrc'.off_nonneg, hsrc'.fits⟩
      ⟨hdst'.off_nonneg, hdst'.end_is_len, hdst'.fits, hfit⟩ hwfv hoffset hmatch hmatchEnd hlow hlen hne hback
      hmatchFit
  have hlength' : (copyBack off.toNat len (out ++ lits)).length = s.dPos + lits.length + len := by
    rw [copyBack_length, List.length_append, hdPos]
  refine ⟨x, ?_, ?_, ?_, hxEnd.trans hend, hstate, ?_, hwfx, ?_⟩
  · rw [hstep, hnot]
    refine exec_seq hu (by rw [literalsThenOffset, hv, Flow.andThen_go, hoffset]) ?_ hlength hcopy
    rw [takeMatchNibble_bd]
    rfl
  · rw [hsame, h.same]
    rfl
  · rw [hxPos, assemble_seq_length, seqSize]
    simp only [toReadOffset_bd, literalsDone]
    omega
  · rw [hlength', hsame]
    rfl
  · rw [hlength', ← hrun, ← hdPos]
    exact hout

/-- The step over a final sequence that stands at S_POS and is the end of the source or fills the destination. -/
theorem DecodedTo.last {s0 s : State} {consumed : Nat} {out lits : List Byte} {ignored : Nibble}
    (h : DecodedTo s0 consumed out s) (hd : Decoding s0) (hsrc : SrcRegion s0.bd.sEnd s0) (hdst : DstRegion s0)
    (hbytes : SrcHolds s0 consumed (finalBytes ignored lits))
    (hp : consumed + (finalBytes ignored lits).length ≤ s0.bd.sEnd) (hq : (out ++ lits).length ≤ s0.dEnd)
    (hend : s0.cmd = trustCode ∧ (out ++ lits).length = s0.dEnd ∨
      s0.cmd = safeCode ∧ consumed + (finalBytes ignored lits).length = s0.bd.sEnd) :
    ∃ t, Machine.step s = .next t ∧ t.status = .done ∧ dstRun t 0 (out ++ lits).length = out ++ lits ∧
      t.result = BitVec.ofNat 32
        (if s0.cmd = trustCode then consumed + (finalBytes ignored lits).length else (out ++ lits).length) := by
  rw [List.length_append] at hq hend ⊢
  rw [finalBytes_length, lastSize] at hp hend ⊢
  have hsrc' := h.srcRegion hsrc
  have hdst' := h.dstRegion hdst (by omega)
  have hpos := h.sPos
  have hsEnd := h.sEnd
  have hdPos := h.dPos
  have hdEnd := h.dEnd
  rw [← h.srcHolds, ← hpos, finalBytes, srcHolds_cons, srcHolds_append, extensionBytes_length] at hbytes
  obtain ⟨htoken, hext, hlits⟩ := hbytes
  have hfit : s.dPos + lits.length ≤ s.dEnd := by omega
  obtain ⟨u, dst, ranges, hu, hv, hwfv, hrun⟩ := literals_read (m := ignored) hsrc' hdst' h.wf hext hlits
    (by omega) hfit
  rw [hdPos, h.output] at hrun
  have hstep := h.step hd hsrc (by omega) (by rw [← hpos, ← htoken, h.same]; rfl) hu hv
  generalize tokenByte (fieldNibble lits.length) ignored = t at *
  have hfinal : terminal (literalsDone t lits.length dst ranges s) = true := by
    rw [← h.cmd] at hend
    simp only [terminal, literalsDone, Bool.or_eq_true, Bool.and_eq_true, beq_iff_eq]
    exact hend.imp (fun ⟨hc, hl⟩ => ⟨hc, by omega⟩) fun ⟨hc, hl⟩ => ⟨hc, by omega⟩
  refine ⟨finishDecode (literalsDone t lits.length dst ranges s), by rw [hstep, hfinal, exec_last hu hv],
    by simp [finishDecode, completeRegion], ?_, ?_⟩
  · rw [← hdPos, ← hrun, ← hdPos]
    exact dstRun_completeRegion (s := { literalsDone t lits.length dst ranges s with
      bd := { (literalsDone t lits.length dst ranges s).bd with bdState := .done } })
      ⟨hdst'.off_nonneg, hdst'.end_is_len, hdst'.fits, hfit⟩ _
  · rw [← h.cmd, ← hpos, ← hdPos, ← Nat.add_assoc, ← Nat.add_assoc]
    exact openRegionFrom_result _ _

/-! ## A block -/

/-- A decode command runs over non-final sequences that stand at the start of the source to their output. -/
theorem decodes_expands {allowed : Nat → Nat → Prop} {s : State} {bytes out : List Byte}
    (h : Expands allowed bytes out) (hd : Decoding s) (hsrc : SrcRegion s.bd.sEnd s) (hdst : DstRegion s)
    (h0 : DecodedTo s 0 [] s) (hbytes : SrcHolds s 0 bytes) (hp : bytes.length ≤ s.bd.sEnd)
    (hq : out.length ≤ s.dEnd) : ∃ k t, steps k s = .next t ∧ DecodedTo s bytes.length out t := by
  induction h with
  | nil => exact ⟨0, s, rfl, h0⟩
  | seq bytes out lits off len _ hwf hoff _ ih =>
    rw [srcHolds_append, Nat.zero_add] at hbytes
    rw [List.length_append] at hp ⊢
    rw [copyBack_length, List.length_append] at hq
    obtain ⟨k, u, hrun, hu⟩ := ih hbytes.1 (by omega) (by omega)
    obtain ⟨t, hstep, ht⟩ := hu.seq hd hsrc hdst hwf hoff hbytes.2 hp hq
    exact ⟨k + 1, t, (steps_add hrun).trans (steps_one hstep), ht⟩

/-- A decode command runs over a block at the start of the source to its output, where the block ends the source or its
output fills the destination. -/
theorem decodes_block {s : State} {bytes out : List Byte} (h : IsBlock bytes out) (hd : Decoding s)
    (hsrc : SrcRegion s.bd.sEnd s) (hdst : DstRegion s) (h0 : DecodedTo s 0 [] s) (hbytes : SrcHolds s 0 bytes)
    (hp : bytes.length ≤ s.bd.sEnd) (hq : out.length ≤ s.dEnd)
    (hend : s.cmd = trustCode ∧ out.length = s.dEnd ∨ s.cmd = safeCode ∧ bytes.length = s.bd.sEnd) :
    ∃ k t, steps k s = .next t ∧ t.status = .done ∧ dstRun t 0 out.length = out ∧
      t.result = BitVec.ofNat 32 (if s.cmd = trustCode then bytes.length else out.length) := by
  obtain ⟨front, produced, lits, ignored, hfront, rfl, rfl⟩ := h
  rw [srcHolds_append, Nat.zero_add] at hbytes
  rw [show (front ++ finalBytes ignored lits).length = front.length + (finalBytes ignored lits).length from
    List.length_append] at hp hend ⊢
  obtain ⟨k, u, hrun, hu⟩ := decodes_expands hfront hd hsrc hdst h0 hbytes.1 (by omega)
    (by rw [List.length_append] at hq; omega)
  obtain ⟨t, hstep, ht⟩ := hu.last hd hsrc hdst hbytes.2 hp hq hend
  exact ⟨k + 1, t, (steps_add hrun).trans (steps_one hstep), ht⟩

/-- Settles O60: one step a sequence, by induction on the block; the lengths fit the 32 bits of RESULT. -/
theorem blocksDecode : Obligations.BlocksDecode := by
  intro s size out hd hrules hstorage hstate hsPos hdPos hsize hblock
  have hsEnd := hrules.src.limit_lt
  have hdEnd := hrules.dst.end_lt
  have h0 : DecodedTo s 0 [] s :=
    ⟨rfl, hsPos, rfl, hstate, hdPos, (storageWf_iff.mp hstorage).buffers.dst_wf, rfl⟩
  have hlength := srcRun_length s 0 size
  have hbytes : SrcHolds s 0 (srcRun s 0 size) := by rw [SrcHolds, hlength]
  have hrun := decodes_block hblock hd hrules.src hrules.dst h0 hbytes (by omega)
  rw [hlength] at hrun
  refine ⟨fun hc hsz hout => ?_, fun hc hout => ?_⟩
  · obtain ⟨k, t, hk, hdone, hrunt, hresult⟩ := hrun hout (.inr ⟨hc, hsz⟩)
    refine ⟨k, t, hk, hdone, ?_, hrunt⟩
    rw [hresult, if_neg (by rw [hc]; decide), BitVec.toNat_ofNat]
    omega
  · obtain ⟨k, t, hk, hdone, hrunt, hresult⟩ := hrun (Nat.le_of_eq hout) (.inl ⟨hc, hout⟩)
    refine ⟨k, t, hk, hdone, ?_, hrunt⟩
    rw [hresult, if_pos hc, BitVec.toNat_ofNat]
    omega

end Sys2Proof.Machine
end

section
/-! PROOFS. A compress command on any destination (40_sequence_encoder.md, 44_host_commands.md R220, R221): `s.onto d`
is `s` with the destination of `d`. What the match finders read and choose does not depend on it. -/

namespace Sys2Proof.Machine

/-! ## The destination of a state -/

/-- `s` with the destination of `d`: its arguments, its positions and its contents. -/
def State.onto (s d : State) : State :=
  { s with
    dstCap := d.dstCap, dstOff := d.dstOff, dstLen := d.dstLen, dPos := d.dPos, dEnd := d.dEnd, dst := d.dst
    dstOpen := d.dstOpen, draws := d.draws }

theorem State.onto_self (s : State) : s.onto s = s := rfl

theorem DstRegion.onto {d : State} (h : DstRegion d) (s : State) : DstRegion (s.onto d) :=
  ⟨h.off_nonneg, h.end_is_len, h.fits, h.pos_le⟩

theorem FinderRules.onto {s d : State} (h : FinderRules s) (hd : DstRegion d) : FinderRules (s.onto d) :=
  ⟨⟨h.src.off_nonneg, h.src.fits⟩, hd.onto s, h.length, h.mf_limit, h.match_limit, h.anchor_le⟩

/-! ## Reads -/

theorem srcAt_onto (s d : State) (p : Int) : srcAt (s.onto d) p = srcAt s p := rfl

theorem srcRun_onto (s d : State) (p k : Nat) : srcRun (s.onto d) p k = srcRun s p k := rfl

theorem dstRun_onto (s d : State) (q k : Nat) : dstRun (s.onto d) q k = dstRun d q k := rfl

theorem mfByte_onto (p : Int) (s d : State) : mfByte p (s.onto d) = mfByte p s := rfl

theorem rd32_onto (p : Int) (s d : State) : rd32 p (s.onto d) = rd32 p s := rfl

theorem commonFwdFrom_onto (a b : Int) (s d : State) (k count : Nat) :
    commonFwdFrom a b (s.onto d) k count = commonFwdFrom a b s k count := by
  induction count generalizing k with
  | zero => rfl
  | succ count ih => simp only [commonFwdFrom, mfByte_onto, ih]

theorem commonFwd_onto (a b limit : Int) (s d : State) : commonFwd a b limit (s.onto d) = commonFwd a b limit s :=
  commonFwdFrom_onto a b s d 0 _

theorem catchupFrom_onto (anchor : Nat) (s d : State) (ip cand : Nat) :
    catchupFrom anchor (s.onto d) ip cand = catchupFrom anchor s ip cand := by
  induction ip generalizing cand with
  | zero => simp only [catchupFrom]
  | succ ip ih => cases cand <;> simp only [catchupFrom, mfByte_onto, ih]

theorem commonBwdFrom_onto (a b amin bmin : Int) (s d : State) (k count : Nat) :
    commonBwdFrom a b amin bmin (s.onto d) k count = commonBwdFrom a b amin bmin s k count := by
  induction count generalizing k with
  | zero => rfl
  | succ count ih => simp only [commonBwdFrom, mfByte_onto, ih]

theorem commonBwd_onto (a b amin bmin : Int) (s d : State) :
    commonBwd a b amin bmin (s.onto d) = commonBwd a b amin bmin s := commonBwdFrom_onto a b amin bmin s d 0 _

theorem visitBest_onto (off : Int) (s d : State) : visitBest off (s.onto d) = visitBest off s := by
  funext c m
  simp only [visitBest, rd32_onto, commonFwd_onto]
  rfl

theorem visitWider_onto (off startLimit : Int) (s d : State) :
    visitWider off startLimit (s.onto d) = visitWider off startLimit s := by
  funext c m
  simp only [visitWider, rd32_onto, commonFwd_onto, commonBwd_onto]
  rfl

theorem walkFrom_onto (off : Int) (visit : Int → MatchReg → Flow MatchReg) (s d : State) (budget : Nat) (c : Int)
    (m : MatchReg) : walkFrom off visit (s.onto d) budget c m = walkFrom off visit s budget c m := by
  induction budget generalizing c m with
  | zero => rfl
  | succ budget ih =>
    simp only [walkFrom, ih]
    rfl

theorem walk_onto (off : Int) (visit : Int → MatchReg → Flow MatchReg) (m : MatchReg) (s d : State) :
    walk off visit m (s.onto d) = walk off visit m s := by
  simp only [walk, walkFrom_onto]
  rfl

/-! ## Searches -/

theorem addHash_onto (p : Nat) (s d : State) :
    addHash p (s.onto d) = (addHash p s).andThen fun t => .go (t.onto d) := by
  simp only [addHash, Flow.andThen_assoc, Flow.andThen_go]
  rfl

theorem insertCount_onto (count : Nat) (s d : State) :
    insertCount count (s.onto d) = (insertCount count s).andThen fun t => .go (t.onto d) := by
  induction count generalizing s with
  | zero => rfl
  | succ count ih =>
    simp only [insertCount, Flow.andThen_assoc]
    rw [show addHash (s.onto d).hc.next (s.onto d) = _ from addHash_onto s.hc.next s d, Flow.andThen_assoc]
    simp only [Flow.andThen_go, ← ih]
    rfl

theorem findBest_onto (off : Int) (s d : State) :
    findBest off (s.onto d) = (findBest off s).andThen fun r => .go (r.1.onto d, r.2) := by
  simp only [findBest, Flow.andThen_assoc, Flow.andThen_go]
  rw [show insertUpto off (s.onto d) = _ from insertCount_onto _ s d, Flow.andThen_assoc]
  simp only [Flow.andThen_go, walk_onto, visitBest_onto]
  rfl

theorem findWider_onto (off startLimit minLen : Int) (m : MatchReg) (s d : State) :
    findWider off startLimit minLen m (s.onto d) =
      (findWider off startLimit minLen m s).andThen fun r => .go (r.1.onto d, r.2) := by
  simp only [findWider, Flow.andThen_assoc, Flow.andThen_go]
  rw [show insertUpto off (s.onto d) = _ from insertCount_onto _ s d, Flow.andThen_assoc]
  simp only [Flow.andThen_go, walk_onto, visitWider_onto]
  rfl

theorem probe_onto (p : Nat) (s d : State) :
    probe p (s.onto d) = (probe p s).andThen fun r => .go (r.1, r.2.onto d) := by
  simp only [probe, Flow.andThen_assoc, rd32_onto, show (s.onto d).ht = s.ht from rfl,
    show htLog (s.onto d) = htLog s from rfl, show largeMode (s.onto d) = largeMode s from rfl]
  congr 1
  funext v
  split
  · rfl
  · split
    · rfl
    · rw [Flow.andThen_assoc]
      congr 1
      funext w
      split <;> rfl

/-! ## What a part of a compress command does, whatever its destination -/

/-- The destination `e` is `d` with `bytes` written at D_POS. -/
structure Appended (bytes : List Byte) (d e : State) : Prop where
  same : e.dstCap = d.dstCap ∧ e.dstOff = d.dstOff ∧ e.dstLen = d.dstLen ∧ e.dEnd = d.dEnd
  dPos : e.dPos = d.dPos + bytes.length
  wf : Memory.wf d.dst = true → Memory.wf e.dst = true
  output : Memory.wf d.dst = true → dstRun e 0 e.dPos = dstRun d 0 d.dPos ++ bytes

theorem Appended.refl (d : State) : Appended [] d d := ⟨⟨rfl, rfl, rfl, rfl⟩, rfl, id, fun _ => by simp⟩

theorem Appended.trans {xs ys : List Byte} {c d e : State} (h : Appended xs c d) (g : Appended ys d e) :
    Appended (xs ++ ys) c e where
  same := ⟨g.same.1.trans h.same.1, g.same.2.1.trans h.same.2.1, g.same.2.2.1.trans h.same.2.2.1,
    g.same.2.2.2.trans h.same.2.2.2⟩
  dPos := by rw [g.dPos, h.dPos, List.length_append, Nat.add_assoc]
  wf hc := g.wf (h.wf hc)
  output hc := by rw [g.output (h.wf hc), h.output hc, List.append_assoc]

theorem Appended.dstRegion {bytes : List Byte} {d e : State} (h : Appended bytes d e) (hd : DstRegion d)
    (hfit : d.dPos + bytes.length ≤ d.dEnd) : DstRegion e := by
  obtain ⟨hcap, hoff, hlen, hend⟩ := h.same
  refine ⟨hoff ▸ hd.off_nonneg, ?_, ?_, ?_⟩
  · rw [hend, hlen]; exact hd.end_is_len
  · rw [hend, hoff, hcap]; exact hd.fits
  · rw [hend, h.dPos]; exact hfit

/-- The outcome is the DestinationTooSmall fault of the block (R237). -/
def TooSmall (r : Result) : Prop := ∃ v, r = .next v ∧ v.status = .faulted .destinationTooSmall

/-- From `s` on any destination the computation comes to `u` and appends `bytes`, or they do not fit and it stops with
DestinationTooSmall. -/
def Flow.Appends (x : State → Flow State) (s : State) (bytes : List Byte) (u : State) : Prop :=
  ∀ d, DstRegion d →
    (d.dPos + bytes.length ≤ d.dEnd → ∃ e, x (s.onto d) = .go (u.onto e) ∧ Appended bytes d e) ∧
    (d.dEnd < d.dPos + bytes.length → ∃ r, x (s.onto d) = .stop r ∧ TooSmall r)

/-- `bytes` are non-final sequences that take the decoded source from before position `a` to before position `b` (R91,
R117). -/
def Encodes (s : State) (a : Nat) (bytes : List Byte) (b : Nat) : Prop :=
  ∀ front, Expands (encoderAllows s.mf.n) front (srcRun s 0 a) →
    Expands (encoderAllows s.mf.n) (front ++ bytes) (srcRun s 0 b)

/-- The registers and tables of the match finders have changed, N, SRC and the arguments have not. -/
structure FinderOnly (s u : State) : Prop where
  same : u = { s with mf := u.mf, hc := u.hc, ht := u.ht, head := u.head, chain := u.chain }
  length : u.mf.n = s.mf.n

theorem FinderOnly.trans {s t u : State} (h : FinderOnly s t) (g : FinderOnly t u) : FinderOnly s u where
  same := by
    have hu := g.same
    rw [h.same] at hu
    exact hu
  length := g.length.trans h.length

theorem FinderOnly.srcRun {s u : State} (h : FinderOnly s u) (p k : Nat) : srcRun u p k = srcRun s p k := by
  rw [h.same]
  rfl

theorem FinderOnly.srcAt {s u : State} (h : FinderOnly s u) (p : Int) : srcAt u p = srcAt s p := by
  rw [h.same]
  rfl

theorem FinderOnly.encodes {s u : State} (h : FinderOnly s u) {a b : Nat} {bytes : List Byte}
    (he : Encodes u a bytes b) : Encodes s a bytes b := by
  intro front hfront
  have hgo := he front (by rw [h.length, h.srcRun]; exact hfront)
  rwa [h.length, h.srcRun] at hgo

/-- A part of a compress command from `s`: it comes to `u` under the finder's rules, and the bytes it appends encode the
source from ANCHOR to the new ANCHOR. -/
structure Flow.Advances (x : State → Flow State) (s : State) (bytes : List Byte) (u : State) : Prop where
  appends : Flow.Appends x s bytes u
  rules : FinderRules u
  only : FinderOnly s u
  encodes : Encodes s s.mf.anchor bytes u.mf.anchor

/-- The computation advances to a state of which `P` holds. -/
def Flow.AdvancesTo (x : State → Flow State) (s : State) (P : State → Prop) : Prop :=
  ∃ bytes u, Flow.Advances x s bytes u ∧ P u

section

variable {x y : State → Flow State} {s t u : State} {P Q : State → Prop} {xs ys : List Byte}

/-- Part of a step that writes nothing: finder registers and tables that keep the rules and ANCHOR. -/
theorem Flow.Advances.silent (h : ∀ d, x (s.onto d) = .go (u.onto d)) (hrules : FinderRules u) (honly : FinderOnly s u)
    (hanchor : u.mf.anchor = s.mf.anchor) : Flow.Advances x s [] u where
  appends d hd := ⟨fun _ => ⟨d, h d, .refl d⟩, fun hlt => absurd hd.pos_le (Nat.not_le.mpr hlt)⟩
  rules := hrules
  only := honly
  encodes front hfront := by rwa [hanchor, List.append_nil]

/-- The rule of sequence. -/
theorem Flow.Advances.andThen (hx : Flow.Advances x s xs t) (hy : Flow.Advances y t ys u) :
    Flow.Advances (fun s => (x s).andThen y) s (xs ++ ys) u where
  appends d hd := by
    obtain ⟨hgo, hstop⟩ := hx.appends d hd
    rw [List.length_append]
    rcases Nat.lt_or_ge d.dEnd (d.dPos + xs.length) with hlt | hfit
    · obtain ⟨r, hr, hsmall⟩ := hstop hlt
      exact ⟨fun _ => by omega, fun _ => ⟨r, by simp only [hr, Flow.andThen_stop], hsmall⟩⟩
    · obtain ⟨e, he, happ⟩ := hgo hfit
      obtain ⟨hgo', hstop'⟩ := hy.appends e (happ.dstRegion hd hfit)
      rw [happ.dPos, happ.same.2.2.2] at hgo' hstop'
      refine ⟨fun hall => ?_, fun hlt => ?_⟩
      · obtain ⟨f, hf, happ'⟩ := hgo' (by omega)
        exact ⟨f, by simp only [he, Flow.andThen_go, hf], happ.trans happ'⟩
      · obtain ⟨r, hr, hsmall⟩ := hstop' (by omega)
        exact ⟨r, by simp only [he, Flow.andThen_go, hr], hsmall⟩
  rules := hy.rules
  only := hx.only.trans hy.only
  encodes front hfront := by
    rw [← List.append_assoc]
    exact hx.only.encodes hy.encodes _ (hx.encodes front hfront)

/-- A computation that is another one on every destination does what that one does. -/
theorem Flow.Advances.congr (hy : Flow.Advances y t ys u) (h : ∀ d, x (s.onto d) = y (t.onto d))
    (honly : FinderOnly s t) (hanchor : t.mf.anchor = s.mf.anchor) : Flow.Advances x s ys u where
  appends d hd := by
    rw [h d]
    exact hy.appends d hd
  rules := hy.rules
  only := honly.trans hy.only
  encodes := hanchor ▸ honly.encodes hy.encodes

end

/-! ## Emission (R113) -/

theorem emitBytes_fits {bytes : List Byte} {s t : State} (h : s.dPos + bytes.length ≤ s.dEnd)
    (ht : dstPutList s.dPos bytes s = .go t) : emitBytes bytes s = .go { t with dPos := s.dPos + bytes.length } := by
  rw [emitBytes, if_neg (Nat.not_lt.mpr h), ht, Flow.andThen_go]

/-- An emission appends its bytes or does not fit, and changes the destination only. -/
theorem emitBytes_appends (s : State) (bytes : List Byte) : Flow.Appends (emitBytes bytes) s bytes s := by
  intro d hd
  have hs : DstRegion (s.onto d) := hd.onto s
  refine ⟨fun hfit => ?_, fun hlt => ⟨_, emitBytes_too_small hlt, _, rfl, openRegionFrom_status _ _⟩⟩
  obtain ⟨t, ht⟩ := dstPutList_inside (q := d.dPos) hs hfit
  obtain ⟨honly, -, -⟩ := dstPutList_frame ht
  have hwft := dstPutList_wf ht
  have hrun := dstPutList_run hs (t := t) (q := d.dPos) (bytes := bytes)
  refine ⟨{ t with dPos := d.dPos + bytes.length }, ?_, ?_, rfl, hwft, fun hwf => hrun hwf ht⟩
  · rw [emitBytes_fits (s := s.onto d) hfit ht, honly]
    rfl
  · rw [honly]
    exact ⟨rfl, rfl, rfl, rfl⟩

/-- A match copied from the source before it gives the source (R117). -/
theorem copyBack_srcRun {s : State} {ref start len : Nat} (hlt : ref < start) (hsame : SameBytes s ref start len) :
    copyBack (start - ref) len (srcRun s 0 start) = srcRun s 0 (start + len) := by
  induction len generalizing ref start with
  | zero => rfl
  | succ len ih =>
    have hbyte : (srcRun s 0 start).getD ((srcRun s 0 start).length - (start - ref)) 0 = srcAt s (start : Int) := by
      have h0 := hsame 0 (Nat.succ_pos len)
      simp only [Nat.cast_zero, add_zero] at h0
      rw [srcRun_length, show start - (start - ref) = ref by omega,
        List.getD_eq_getElem _ _ (by rw [srcRun_length]; exact hlt), srcRun_getElem, Nat.zero_add, h0]
    have hnext : SameBytes s ((ref + 1 : Nat) : Int) ((start + 1 : Nat) : Int) len := fun i hi => by
      have hi' := hsame (i + 1) (by omega)
      push_cast at hi' ⊢
      rwa [add_assoc, add_assoc, add_comm (1 : Int)]
    rw [copyBack, hbyte, show srcRun s 0 start ++ [srcAt s (start : Int)] = srcRun s 0 (start + 1) by
      rw [srcRun_add, Nat.zero_add]; rfl]
    rw [show start - ref = start + 1 - (ref + 1) by omega, ih (by omega) hnext]
    congr 1
    omega

/-- A match that may be emitted at ANCHOR or later, as naturals (P1 to P7 of R112). -/
structure Emittable (s : State) (start ref len : Nat) : Prop where
  anchor_le : s.mf.anchor ≤ start
  ref_lt : ref < start
  window : start - ref ≤ 65535
  long : 4 ≤ len
  start_le : start + 12 ≤ s.mf.n
  stop_le : start + len + 5 ≤ s.mf.n
  same : SameBytes s ref start len

/-- The sequence of such a match takes the decoded source up to its end. -/
theorem Emittable.encodes {s : State} {start ref len : Nat} (h : Emittable s start ref len) :
    Encodes s s.mf.anchor
      (assemble (.seq (srcRun s s.mf.anchor (start - s.mf.anchor)) (BitVec.ofNat 16 (start - ref)) len))
      (start + len) := by
  obtain ⟨hanchor, hlt, hwindow, hlong, hstart, hstop, hsame⟩ := h
  intro front hfront
  have hoff : (BitVec.ofNat 16 (start - ref)).toNat = start - ref := by
    rw [BitVec.toNat_ofNat]
    omega
  have hlits : srcRun s 0 s.mf.anchor ++ srcRun s s.mf.anchor (start - s.mf.anchor) = srcRun s 0 start := by
    have hadd := srcRun_add s 0 s.mf.anchor (start - s.mf.anchor)
    rw [Nat.zero_add, Nat.add_sub_cancel' hanchor] at hadd
    exact hadd.symm
  have hwf : (Line.seq (srcRun s s.mf.anchor (start - s.mf.anchor)) (BitVec.ofNat 16 (start - ref)) len).wf = true := by
    have hne : BitVec.ofNat 16 (start - ref) ≠ 0#16 := fun he => by
      rw [he] at hoff
      simp only [BitVec.toNat_ofNat] at hoff
      omega
    simpa [Line.wf, Config.minMatch, hlong] using hne
  have hseq := Expands.seq _ _ (srcRun s s.mf.anchor (start - s.mf.anchor)) (BitVec.ofNat 16 (start - ref)) len hfront
    hwf (by rw [hoff, hlits, srcRun_length]; omega)
    (by rw [hlits, srcRun_length]; exact ⟨by simpa using hstart, by simpa [Config.lastLiterals] using hstop⟩)
  rwa [hoff, hlits, copyBack_srcRun hlt hsame] at hseq

/-- EMIT_SEQ emits the source bytes from ANCHOR on and the match (R113). -/
theorem emitSeq_eq {s : State} (h : FinderRules s) {start : Nat} (hstart : start ≤ s.mf.n) (ref len : Nat) :
    emitSeq start ref len s = emitBytes
      (assemble (.seq (srcRun s s.mf.anchor (start - s.mf.anchor)) (BitVec.ofNat 16 (start - ref)) len)) s := by
  have hanchor := h.anchor_le
  rw [emitSeq, srcBytes_inside h.src (by omega), Flow.andThen_go]

/-- EMIT_LAST emits the source bytes from ANCHOR on (R114). -/
theorem emitLast_eq {s : State} (h : FinderRules s) :
    emitLast s = emitBytes (finalBytes 0 (srcRun s s.mf.anchor (s.mf.n - s.mf.anchor))) s := by
  have hanchor := h.anchor_le
  rw [emitLast, srcBytes_inside h.src (by omega), Flow.andThen_go, assemble_last]

/-- EMIT_SEQ of a match that may be emitted, then its end as the new ANCHOR. -/
theorem emitSeq_advances {s u : State} (h : FinderRules s) {start ref len : Nat} (hm : Emittable s start ref len)
    {f : State → State} (hf : ∀ e, f (s.onto e) = u.onto e) (hrules : FinderRules u) (honly : FinderOnly s u)
    (hanchor : u.mf.anchor = start + len) :
    ∃ bytes, Flow.Advances (fun t => (emitSeq start ref len t).andThen fun v => .go (f v)) s bytes u := by
  have hstop := hm.stop_le
  have hstart : start ≤ s.mf.n := by omega
  refine ⟨_, fun d hd => ?_, hrules, honly, hanchor ▸ hm.encodes⟩
  obtain ⟨hgo, hsmall⟩ := emitBytes_appends s
    (assemble (.seq (srcRun s s.mf.anchor (start - s.mf.anchor)) (BitVec.ofNat 16 (start - ref)) len)) d hd
  have hread := emitSeq_eq (h.onto hd) hstart ref len
  refine ⟨fun hfit => ?_, fun hlt => ?_⟩
  · obtain ⟨e, he, happ⟩ := hgo hfit
    exact ⟨e, by simp only [hread.trans he, Flow.andThen_go, hf], happ⟩
  · obtain ⟨v, hv, hv'⟩ := hsmall hlt
    exact ⟨v, by simp only [hread.trans hv, Flow.andThen_stop], hv'⟩

end Sys2Proof.Machine
end

section
/-! PROOFS. The hash-table match finder under its rules (41_match_finder_hash_table.md R130 to R142): what its reads
find, and that every step keeps `FastRules`, encodes what it appends, and comes closer to TAIL. -/

namespace Sys2Proof.Machine

/-! ## Equal bytes -/

theorem SameBytes.mono {s : State} {a b : Int} {j k : Nat} (h : SameBytes s a b k) (hle : j ≤ k) : SameBytes s a b j :=
  fun i hi => h i (Nat.lt_of_lt_of_le hi hle)

/-- Equal bytes before and after a position. -/
theorem SameBytes.append {s : State} {a b : Int} {j k : Nat} (h : SameBytes s a b j)
    (g : SameBytes s (a + j) (b + j) k) : SameBytes s a b (j + k) := fun i hi => by
  rcases Nat.lt_or_ge i j with hlt | hge
  · exact h i hlt
  · have hi' := g (i - j) (by omega)
    rwa [show a + j + (i - j : Nat) = a + i by omega, show b + j + (i - j : Nat) = b + i by omega] at hi'

theorem SameBytes.zero (s : State) (a b : Int) : SameBytes s a b 0 := fun _ hi => absurd hi (Nat.not_lt_zero _)

theorem SameBytes.one {s : State} {a b : Int} (h : srcAt s a = srcAt s b) : SameBytes s a b 1 := fun i hi => by
  obtain rfl : i = 0 := by omega
  simpa using h

/-- Equal words of four bytes are equal bytes (R52). -/
theorem word32_inj {a0 a1 a2 a3 b0 b1 b2 b3 : Byte} (h : word32 a0 a1 a2 a3 = word32 b0 b1 b2 b3) :
    a0 = b0 ∧ a1 = b1 ∧ a2 = b2 ∧ a3 = b3 := by
  unfold word32 at h
  have := a0.isLt
  have := a1.isLt
  have := a2.isLt
  have := a3.isLt
  have := b0.isLt
  have := b1.isLt
  have := b2.isLt
  have := b3.isLt
  refine ⟨?_, ?_, ?_, ?_⟩ <;> exact BitVec.eq_of_toNat_eq (by omega)

/-- Two positions with the same `rd32` have four equal bytes. -/
theorem sameBytes_of_rd32 {s : State} (h : SrcRegion s.mf.n s) {a b : Int} (ha : 0 ≤ a) (ha' : a + 4 ≤ s.mf.n)
    (hb : 0 ≤ b) (hb' : b + 4 ≤ s.mf.n) {v : Nat} (hva : rd32 a s = .go v) (hvb : rd32 b s = .go v) :
    SameBytes s a b 4 := by
  rw [rd32_inside h ha ha'] at hva
  rw [rd32_inside h hb hb', ← hva] at hvb
  simp only [Flow.go.injEq] at hvb
  obtain ⟨h0, h1, h2, h3⟩ := word32_inj hvb
  intro i hi
  match i, hi with
  | 0, _ => simpa using h0.symm
  | 1, _ => exact h1.symm
  | 2, _ => exact h2.symm
  | 3, _ => exact h3.symm

/-- COMMON_FWD counts equal bytes, up to its limit or to the first that differ (R154). -/
theorem commonFwd_counts {a b limit : Int} {s : State} (h : FinderRules s) (ha : 0 ≤ a) (hab : a ≤ b)
    (hb : b ≤ limit) (hlimit : limit ≤ s.mf.n) :
    ∃ k : Nat, commonFwd a b limit s = .go k ∧ b + k ≤ limit ∧ SameBytes s a b k ∧
      (b + k = limit ∨ srcAt s (a + k) ≠ srcAt s (b + k)) := by
  have hcount : ∀ count k : Nat, b + k + count = limit → SameBytes s a b k →
      ∃ j : Nat, commonFwdFrom a b s k count = .go j ∧ b + j ≤ limit ∧ SameBytes s a b j ∧
        (b + j = limit ∨ srcAt s (a + j) ≠ srcAt s (b + j)) := by
    intro count
    induction count with
    | zero => exact fun k hk hsame => ⟨k, rfl, by omega, hsame, .inl (by omega)⟩
    | succ count ih =>
      intro k hk hsame
      rw [commonFwdFrom, mfByte_inside h (by omega) (by omega), Flow.andThen_go, mfByte_inside h (by omega) (by omega),
        Flow.andThen_go]
      split
      · next heq => exact ih (k + 1) (by omega) (hsame.append (.one heq))
      · next hne => exact ⟨k, rfl, by omega, hsame, .inr hne⟩
  exact hcount (limit - b).toNat 0 (by omega) fun i hi => absurd hi (Nat.not_lt_zero i)

/-- The walk of CATCHUP steps both positions back by as many equal bytes, not past ANCHOR (R136). -/
theorem catchupFrom_walks {s : State} (h : FinderRules s) {anchor ip cand : Nat} (hanchor : anchor ≤ ip)
    (hc : cand ≤ ip) (hip : ip ≤ s.mf.n) :
    ∃ i c j, catchupFrom anchor s ip cand = .go (i, c) ∧ i + j = ip ∧ c + j = cand ∧ anchor ≤ i ∧
      SameBytes s c i j := by
  induction ip generalizing cand with
  | zero => exact ⟨0, cand, 0, by simp only [catchupFrom], rfl, rfl, hanchor, .zero s _ _⟩
  | succ ip ih =>
    cases cand with
    | zero => exact ⟨ip + 1, 0, 0, by simp only [catchupFrom], rfl, rfl, hanchor, .zero s _ _⟩
    | succ cand =>
      rw [catchupFrom, mfByte_inside h (by omega) (by omega), Flow.andThen_go, mfByte_inside h (by omega) (by omega),
        Flow.andThen_go]
      split
      · split
        · next hgt heq =>
          obtain ⟨i, c, j, hgo, hi, hcj, ha, hsame⟩ := ih (cand := cand) (by omega) (by omega) (by omega)
          refine ⟨i, c, j + 1, hgo, by omega, by omega, ha, hsame.append (.one ?_)⟩
          rw [show (c : Int) + j = cand by omega, show (i : Int) + j = ip by omega]
          exact heq.symm
        · exact ⟨ip + 1, cand + 1, 0, rfl, rfl, rfl, hanchor, .zero s _ _⟩
      · exact ⟨ip + 1, cand + 1, 0, rfl, rfl, rfl, hanchor, .zero s _ _⟩

/-! ## PROBE (R133) -/

/-- A slot that takes `p` keeps every position in HT below `p + 1`. -/
theorem SlotsBelow.set {s : State} {p h : Nat} (hs : SlotsBelow s p) (hp : p + 12 ≤ s.mf.n) :
    SlotsBelow { s with ht := storeSet none s.ht h (some p) } (p + 1) := by
  intro e he q hq
  rcases mem_storeSet he with rfl | hold
  · cases hq
    exact ⟨Nat.lt_succ_self p, hp⟩
  · obtain ⟨hlt, hle⟩ := hs e hold q hq
    exact ⟨by omega, hle⟩

theorem SlotsBelow.mono {s : State} {p q : Nat} (hs : SlotsBelow s p) (hle : p ≤ q) : SlotsBelow s q :=
  fun e he c hc => ⟨Nat.lt_of_lt_of_le (hs e he c hc).1 hle, (hs e he c hc).2⟩

/-- What a probe at `p` finds: an earlier position in the window with the same four bytes. -/
def Found (s : State) (p c : Nat) : Prop := c < p ∧ p - c ≤ 65535 ∧ SameBytes s c p 4

/-- PROBE at a position below the limit goes on, puts the position in its slot, and finds a candidate only if it is
one. -/
theorem probe_finds {s : State} (h : FinderRules s) {p : Nat} (hp : p + 12 ≤ s.mf.n) (hslots : SlotsBelow s p) :
    ∃ found slot, probe p s = .go (found, { s with ht := storeSet none s.ht slot (some p) }) ∧
      ∀ c, found = some c → Found s p c := by
  obtain ⟨v, hv⟩ : ∃ v, rd32 p s = .go v := ⟨_, rd32_inside h.src (by omega) (by omega)⟩
  rw [probe, hv, Flow.andThen_go]
  simp only
  split
  · exact ⟨none, _, rfl, nofun⟩
  · next c hc =>
    obtain ⟨hlt, hle⟩ := hslots _ (mem_of_storeGet hc nofun) c rfl
    split
    · exact ⟨none, _, rfl, nofun⟩
    · next hfar =>
      have hwindow : p - c ≤ 65535 := by
        by_contra hgt
        refine hfar (Bool.and_eq_true_iff.mpr ⟨decide_eq_true ?_, decide_eq_true (Nat.lt_of_not_le hgt)⟩)
        rw [Config.smallLimit_eq]
        omega
      obtain ⟨w, hw⟩ : ∃ w, rd32 c s = .go w := ⟨_, rd32_inside h.src (by omega) (by omega)⟩
      rw [hw, Flow.andThen_go]
      split
      · next heq =>
        subst heq
        refine ⟨some c, _, rfl, fun c' hc' => ?_⟩
        cases hc'
        exact ⟨hlt, hwindow, sameBytes_of_rd32 h.src (by omega) (by omega) (by omega) (by omega) hw hv⟩
      · exact ⟨none, _, rfl, nofun⟩

/-! ## The states (R135 to R140) -/

/-- How far MF-HT is from TAIL: at one ANCHOR it passes through its labels in order, and the loop of SEARCH moves IP
on. -/
def fastMeasure (s : State) : ℕ ×ₗ ℕ :=
  toLex (s.mf.n - s.mf.anchor,
    match s.mf.htState with
    | .reprobe => s.mf.n - s.mf.ip + 6
    | .search => s.mf.n - s.mf.ip + 5
    | .searchLoop => s.mf.n - s.mf.ip + 4
    | .catchup => 3
    | .extend => 2
    | .emit => 1
    | .tail => 0)

/-- A step that keeps ANCHOR and N comes closer to TAIL by its label and IP. -/
theorem lex_lt_of_same {a b c d : Nat} (hac : a = c) (h : b < d) : toLex (a, b) < toLex (c, d) := by
  subst hac
  exact Prod.Lex.toLex_lt_toLex.mpr (.inr ⟨rfl, h⟩)

/-- What a step of MF-HT keeps, and that it comes closer to TAIL. -/
def FastNext (s u : State) : Prop := FastRules u ∧ fastMeasure u < fastMeasure s

/-- The registers EMIT leaves behind the match of `len` bytes at `ip` (R138). -/
def afterMatch (mfLimit : Int) (ip len : Nat) (t : State) : State :=
  { t with
    mf := { t.mf with
      ip := ip + len, anchor := ip + len
      htState := if ((ip + len : Nat) : Int) > mfLimit then .tail else .reprobe } }

section

variable {s : State} (h : FinderRules s)

include h

/-- A state of MF-HT that writes HT and finder registers, and keeps ANCHOR. -/
theorem fast_silent {x : State → Flow State} {ht : List (Nat × Option Nat)} {r : FinderRegs}
    (hx : ∀ d, x (s.onto d) = .go (State.onto { s with ht := ht, mf := r } d)) (hn : r.n = s.mf.n)
    (hmf : r.mfLimit = s.mf.mfLimit) (hmatch : r.matchLimit = s.mf.matchLimit) (hanchor : r.anchor = s.mf.anchor)
    (hnext : FastNext s { s with ht := ht, mf := r }) : Flow.AdvancesTo x s (FastNext s) :=
  ⟨[], _, .silent hx (h.set (c := s.hc) h.dst.pos_le hn hmf hmatch (hanchor ▸ h.anchor_le)) ⟨rfl, hn⟩ hanchor, hnext⟩

theorem searchPass_advances (hst : s.mf.htState = .searchLoop) (hanchor : s.mf.anchor ≤ s.mf.ip)
    (hslots : SlotsBelow s s.mf.ip) (hlow : 64 ≤ s.mf.attempts) (hhigh : s.mf.attempts ≤ 64 + s.mf.ip) :
    Flow.AdvancesTo searchPass s (FastNext s) := by
  have hlim := h.mf_limit
  rcases lt_or_ge s.mf.mfLimit s.mf.ip with hpast | hle
  · refine fast_silent h (ht := s.ht) (r := { s.mf with htState := .tail }) (fun d => if_pos hpast) rfl rfl rfl rfl
      ⟨trivial, lex_lt_of_same rfl ?_⟩
    simp only [hst]
    omega
  · obtain ⟨found, slot, hprobe, hfound⟩ := probe_finds h (by omega) hslots
    have hset := hslots.set (h := slot) (by omega)
    have hgo : ∀ d, probe (s.onto d).mf.ip (s.onto d) =
        .go (found, State.onto { s with ht := storeSet none s.ht slot (some s.mf.ip) } d) := fun d => by
      rw [show probe (s.onto d).mf.ip (s.onto d) = _ from probe_onto s.mf.ip s d, hprobe, Flow.andThen_go]
    cases found with
    | some c =>
      obtain ⟨hlt, hwindow, hsame⟩ := hfound c rfl
      refine fast_silent h (r := { s.mf with cand := some c, htState := .catchup })
        (fun d => (if_neg (Int.not_lt.mpr hle)).trans (by rw [hgo, Flow.andThen_go]; rfl)) rfl rfl rfl rfl
        ⟨⟨⟨c, rfl, hlt, hwindow, hanchor, by simp only; omega, hsame⟩, hset⟩, lex_lt_of_same rfl ?_⟩
      simp only [hst]
      omega
    | none =>
      have hstride : 1 ≤ s.mf.attempts >>> Config.skipStrength := by
        rw [Nat.shiftRight_eq_div_pow, Config.skipStrength_eq]
        omega
      refine fast_silent h (r := { s.mf with
          cand := none, ip := s.mf.ip + s.mf.attempts >>> Config.skipStrength, attempts := s.mf.attempts + 1 })
        (fun d => (if_neg (Int.not_lt.mpr hle)).trans (by rw [hgo, Flow.andThen_go]; rfl)) rfl rfl rfl rfl
        ⟨?_, lex_lt_of_same rfl ?_⟩
      · simp only [FastRules, hst]
        exact ⟨by omega, hset.mono (by omega), by omega, by omega⟩
      · simp only [hst]
        omega

theorem catchup_advances (hst : s.mf.htState = .catchup) (hcand : CandidateOk s 4)
    (hslots : SlotsBelow s (s.mf.ip + 1)) : Flow.AdvancesTo catchup s (FastNext s) := by
  obtain ⟨c, hc, hlt, hwindow, hanchor, hip, hsame⟩ := hcand
  obtain ⟨i, d, j, hgo, hi, hd, ha, hback⟩ := catchupFrom_walks h hanchor (cand := c) (by omega) (by omega)
  refine fast_silent h (ht := s.ht) (r := { s.mf with ip := i, cand := some d, htState := .extend }) (fun e => ?_) rfl
    rfl rfl rfl ⟨⟨s.mf.ip, by simp only; omega, by simp only; omega, ⟨d, rfl, ?_⟩, hslots⟩, lex_lt_of_same rfl ?_⟩
  · have hgo := (catchupFrom_onto s.mf.anchor s e s.mf.ip c).trans hgo
    simp only [catchup, show (s.onto e).mf = s.mf from rfl, hc, hgo, Flow.andThen_go]
    rfl
  · refine ⟨by simp only; omega, by simp only; omega, ha, by simp only; omega, ?_⟩
    simp only
    rw [show s.mf.ip + 4 - i = j + 4 by omega]
    refine hback.append ?_
    rwa [show (d : Int) + j = c by omega, show (i : Int) + j = s.mf.ip by omega]
  · simp only [hst]
    omega

theorem extend_advances (hst : s.mf.htState = .extend) {p : Nat} (hp : s.mf.ip ≤ p) (hpn : p + 12 ≤ s.mf.n)
    (hcand : CandidateOk s (p + 4 - s.mf.ip)) (hslots : SlotsBelow s (p + 1)) :
    Flow.AdvancesTo extend s (FastNext s) := by
  obtain ⟨c, hc, hlt, hwindow, hanchor, hip, hsame⟩ := hcand
  have hlim := h.match_limit
  obtain ⟨k, hgo, hk, hfwd, hstop⟩ := commonFwd_counts h (a := c + Config.minMatch) (b := s.mf.ip + Config.minMatch)
    (limit := s.mf.matchLimit) (by omega) (by omega) (by simp only [Config.minMatch]; omega) (by omega)
  simp only [Config.minMatch, Nat.cast_ofNat] at hgo hk hfwd hstop
  have hlong : p ≤ s.mf.ip + k := by
    by_contra hshort
    rcases hstop with hend | hne
    · omega
    · have heq := hsame (4 + k) (by omega)
      push_cast at heq
      rw [← add_assoc, ← add_assoc] at heq
      exact hne heq
  refine fast_silent h (ht := s.ht) (r := { s.mf with mlen := Config.minMatch + k, htState := .emit }) (fun e => ?_) rfl
    rfl rfl rfl ⟨⟨by simp [Config.minMatch], ?_, ⟨c, hc, hlt, hwindow, hanchor, hip, ?_⟩, hslots.mono ?_⟩,
      lex_lt_of_same rfl ?_⟩
  · have hgo := (commonFwd_onto _ _ _ s e).trans hgo
    simp only [extend, show (s.onto e).mf = s.mf from rfl, hc, Config.minMatch, Nat.cast_ofNat, hgo, Flow.andThen_go]
    rfl
  · simp only [Config.minMatch]
    omega
  · exact (hsame.mono (by omega : 4 ≤ p + 4 - s.mf.ip)).append hfwd
  · simp only [Config.minMatch]
    omega
  · simp only [hst]
    omega

theorem emit_advances (hlong : 4 ≤ s.mf.mlen) (hend : s.mf.ip + s.mf.mlen + 5 ≤ s.mf.n)
    (hcand : CandidateOk s s.mf.mlen) (hslots : SlotsBelow s (s.mf.ip + s.mf.mlen)) :
    Flow.AdvancesTo emit s (FastNext s) := by
  obtain ⟨c, hc, hlt, hwindow, hanchor, hip, hsame⟩ := hcand
  have hlim := h.mf_limit
  obtain ⟨bytes, hadv⟩ := emitSeq_advances h ⟨hanchor, hlt, hwindow, hlong, hip, hend, hsame⟩
    (f := afterMatch s.mf.mfLimit s.mf.ip s.mf.mlen) (u := afterMatch s.mf.mfLimit s.mf.ip s.mf.mlen s) (fun e => rfl)
    (h.set (c := s.hc) h.dst.pos_le rfl rfl rfl (by simp only; omega)) ⟨rfl, rfl⟩ rfl
  refine ⟨bytes, _, hadv.congr (fun e => ?_) ⟨rfl, rfl⟩ rfl, ?_, Prod.Lex.toLex_lt_toLex.mpr (.inl ?_)⟩
  · simp only [emit, show (s.onto e).mf = s.mf from rfl, hc]
    rfl
  · by_cases hpast : ((s.mf.ip + s.mf.mlen : Nat) : Int) > s.mf.mfLimit
    · simp only [FastRules, afterMatch, if_pos hpast]
    · simp only [FastRules, afterMatch, if_neg hpast, true_and]
      exact ⟨by omega, hslots⟩
  · simp only [afterMatch]
    omega

theorem reprobe_advances (hst : s.mf.htState = .reprobe) (hanchor : s.mf.anchor = s.mf.ip) (hip : s.mf.ip + 12 ≤ s.mf.n)
    (hslots : SlotsBelow s s.mf.ip) : Flow.AdvancesTo reprobe s (FastNext s) := by
  obtain ⟨found, slot, hprobe, hfound⟩ := probe_finds h hip hslots
  have hset := hslots.set (h := slot) hip
  have hgo : ∀ d, reprobe (s.onto d) = _ := fun d => by
    rw [reprobe, show probe (s.onto d).mf.ip (s.onto d) = _ from probe_onto s.mf.ip s d, hprobe, Flow.andThen_go,
      Flow.andThen_go]
  cases found with
  | some c =>
    obtain ⟨hlt, hwindow, hsame⟩ := hfound c rfl
    refine fast_silent h (r := { s.mf with cand := some c, htState := .extend }) hgo rfl rfl rfl rfl
      ⟨⟨s.mf.ip, Nat.le_refl _, hip, ⟨c, rfl, hlt, hwindow, hanchor.le, hip, hsame.mono (by simp only; omega)⟩, hset⟩,
        lex_lt_of_same rfl ?_⟩
    simp only [hst]
    omega
  | none =>
    refine fast_silent h (r := { s.mf with cand := none, ip := s.mf.ip + 1, htState := .search }) hgo rfl rfl rfl rfl
      ⟨⟨by simp only; omega, hset⟩, lex_lt_of_same rfl ?_⟩
    simp only [hst]
    omega

end

/-! ## A step of MF-HT -/

/-- One step of MF-HT before TAIL, as a computation. -/
def fastFlow (s : State) : Flow State :=
  match s.mf.htState with
  | .search =>
    .go { s with mf := { s.mf with attempts := 2 ^ Config.skipStrength, htState := .searchLoop } }
  | .searchLoop => searchPass s
  | .catchup => catchup s
  | .extend => extend s
  | .emit => emit s
  | .reprobe => reprobe s
  | .tail => .stop (finishCompress s)

theorem fastStep_eq (s : State) : fastStep s = (fastFlow s).finish := by
  unfold fastStep fastFlow
  cases s.mf.htState <;> rfl

/-- A step of MF-HT before TAIL (R142). -/
theorem fastFlow_advances {s : State} (h : FinderRules s) (hf : FastRules s) (hst : s.mf.htState ≠ .tail) :
    Flow.AdvancesTo fastFlow s (FastNext s) := by
  have branch : ∀ {x : State → Flow State}, (∀ d, fastFlow (s.onto d) = x (s.onto d)) →
      Flow.AdvancesTo x s (FastNext s) → Flow.AdvancesTo fastFlow s (FastNext s) :=
    fun hx ⟨bytes, u, hadv, hnext⟩ => ⟨bytes, u, hadv.congr hx ⟨rfl, rfl⟩ rfl, hnext⟩
  have label : ∀ d, (s.onto d).mf.htState = s.mf.htState := fun _ => rfl
  unfold FastRules at hf
  cases hcase : s.mf.htState <;> simp only [hcase] at hf
  case tail => exact absurd hcase hst
  case search =>
    refine fast_silent h (ht := s.ht) (r := { s.mf with attempts := 2 ^ Config.skipStrength, htState := .searchLoop })
      (fun d => by simp only [fastFlow, label, hcase]; rfl) rfl rfl rfl rfl
      ⟨⟨hf.1, hf.2, by simp, by simp⟩, lex_lt_of_same rfl ?_⟩
    simp only [hcase]
    omega
  case searchLoop =>
    exact branch (fun d => by simp only [fastFlow, label, hcase])
      (searchPass_advances h hcase hf.1 hf.2.1 hf.2.2.1 hf.2.2.2)
  case catchup => exact branch (fun d => by simp only [fastFlow, label, hcase]) (catchup_advances h hcase hf.1 hf.2)
  case extend =>
    obtain ⟨p, hp, hpn, hcand, hslots⟩ := hf
    exact branch (fun d => by simp only [fastFlow, label, hcase]) (extend_advances h hcase hp hpn hcand hslots)
  case emit =>
    exact branch (fun d => by simp only [fastFlow, label, hcase]) (emit_advances h hf.1 hf.2.1 hf.2.2.1 hf.2.2.2)
  case reprobe =>
    exact branch (fun d => by simp only [fastFlow, label, hcase]) (reprobe_advances h hcase hf.1 hf.2.1 hf.2.2)

end Sys2Proof.Machine
end

section
/-! PROOFS. The searches of the hash-chain match finder (42_match_finder_hash_chain.md R153 to R157, R165): what they
find are matches, and the trimmings of the lazy parser keep them. -/

namespace Sys2Proof.Machine

/-! ## Searches (R153 to R156) -/

section

variable {s : State} (h : FinderRules s)

include h

/-- COMMON_BWD counts equal bytes before both positions, not past `bmin` (R154). -/
theorem commonBwd_counts {a b bmin : Int} (hab : a ≤ b) (hb : b ≤ s.mf.n) (ha : 0 ≤ a) :
    ∃ k : Nat, commonBwd a b 0 bmin s = .go k ∧ k ≤ a ∧ (bmin ≤ b → bmin ≤ b - k) ∧
      SameBytes s (a - k) (b - k) k := by
  have hcount : ∀ count k : Nat, (k : Int) + count ≤ a → (bmin ≤ b → bmin ≤ b - k) → SameBytes s (a - k) (b - k) k →
      ∃ j : Nat, commonBwdFrom a b 0 bmin s k count = .go j ∧ j ≤ a ∧ (bmin ≤ b → bmin ≤ b - j) ∧
        SameBytes s (a - j) (b - j) j := by
    intro count
    induction count with
    | zero => exact fun k hk hmin hsame => ⟨k, rfl, by omega, hmin, hsame⟩
    | succ count ih =>
      intro k hk hmin hsame
      rw [commonBwdFrom]
      split
      · rw [mfByte_inside h (by omega) (by omega), Flow.andThen_go, mfByte_inside h (by omega) (by omega),
          Flow.andThen_go]
        split
        · next heq =>
          refine ih (k + 1) (by omega) (by omega) ?_
          rw [Nat.add_comm k 1]
          refine SameBytes.append (j := 1) (.one ?_) ?_
          · rwa [show a - (1 + k : Nat) = a - k - 1 by omega, show b - (1 + k : Nat) = b - k - 1 by omega]
          · rwa [show a - (1 + k : Nat) + (1 : Nat) = a - k by omega,
              show b - (1 + k : Nat) + (1 : Nat) = b - k by omega]
        · exact ⟨k, rfl, by omega, hmin, hsame⟩
      · exact ⟨k, rfl, by omega, hmin, hsame⟩
  exact hcount (a - 0).toNat 0 (by omega) (by simp) (.zero s _ _)

/-- What FIND_BEST keeps in its register: a match at `off`, or none yet. -/
def BestAt (s : State) (off : Int) (m : MatchReg) : Prop := m.start = off ∧ (m.len ≠ 0 → MatchOk s m)

/-- What FIND_WIDER keeps in its register: the one it began with, or a longer match that covers `off` to `off + 3`. -/
def WiderAt (s : State) (off startLimit minLen : Int) (m0 m : MatchReg) : Prop :=
  m = { m0 with len := minLen } ∨
    minLen < m.len ∧ MatchOk s m ∧ (startLimit ≤ off → startLimit ≤ m.start) ∧ m.start ≤ off ∧ off + 4 ≤ m.stop

theorem visitBest_finds {off c : Int} (hoff : off ≤ s.mf.mfLimit) (h0 : 0 ≤ c) (hc : c < off)
    (hwindow : off - c ≤ 65535)
    {m : MatchReg} (hm : BestAt s off m) : ∃ m', visitBest off s c m = .go m' ∧ BestAt s off m' := by
  have hlim := h.mf_limit
  have hmatch := h.match_limit
  obtain ⟨v, hv⟩ : ∃ v, rd32 c s = .go v := ⟨_, rd32_inside h.src h0 (by omega)⟩
  obtain ⟨w, hw⟩ : ∃ w, rd32 off s = .go w := ⟨_, rd32_inside h.src (by omega) (by omega)⟩
  rw [visitBest, hv, Flow.andThen_go, hw, Flow.andThen_go]
  split
  · next heq =>
    subst heq
    obtain ⟨k, hgo, hk, hsame, -⟩ := commonFwd_counts h (a := c + 4) (b := off + 4) (limit := s.mf.matchLimit)
      (by omega) (by omega) (by omega) (by omega)
    rw [hgo, Flow.andThen_go]
    simp only
    split
    · refine ⟨_, rfl, hm.1, fun _ => ⟨h0, hm.1 ▸ hc, hm.1 ▸ hwindow, by simp only; omega, ?_, ?_⟩⟩
      · simp only [MatchReg.stop, hm.1]
        omega
      · simp only [hm.1]
        rw [show ((4 : Int) + k).toNat = 4 + k by omega]
        exact (sameBytes_of_rd32 h.src h0 (by omega) (by omega) (by omega) hv hw).append hsame
    · exact ⟨m, rfl, hm⟩
  · exact ⟨m, rfl, hm⟩

theorem visitWider_finds {off startLimit minLen c : Int} {m0 m : MatchReg} (hoff : off ≤ s.mf.mfLimit) (h0 : 0 ≤ c)
    (hc : c < off) (hwindow : off - c ≤ 65535) (hm : WiderAt s off startLimit minLen m0 m) :
    ∃ m', visitWider off startLimit s c m = .go m' ∧ WiderAt s off startLimit minLen m0 m' := by
  have hlim := h.mf_limit
  have hmatch := h.match_limit
  have hmin : minLen ≤ m.len := by
    rcases hm with rfl | ⟨hlt, -⟩
    · exact le_refl _
    · exact hlt.le
  obtain ⟨v, hv⟩ : ∃ v, rd32 c s = .go v := ⟨_, rd32_inside h.src h0 (by omega)⟩
  obtain ⟨w, hw⟩ : ∃ w, rd32 off s = .go w := ⟨_, rd32_inside h.src (by omega) (by omega)⟩
  rw [visitWider, hv, Flow.andThen_go, hw, Flow.andThen_go]
  split
  · next heq =>
    subst heq
    obtain ⟨k, hfwd, hk, hsame, -⟩ := commonFwd_counts h (a := c + 4) (b := off + 4) (limit := s.mf.matchLimit)
      (by omega) (by omega) (by omega) (by omega)
    obtain ⟨j, hbwd, hj, hstart, hback⟩ := commonBwd_counts h (a := c) (b := off) (bmin := startLimit) (by omega)
      (by omega) h0
    rw [hfwd, Flow.andThen_go, hbwd, Flow.andThen_go]
    simp only
    split
    · refine ⟨_, rfl, .inr ⟨by simp only; omega, ⟨?_, ?_, ?_, ?_, ?_, ?_⟩, hstart, ?_, ?_⟩⟩
      case _ => simp only; omega
      case _ => simp only; omega
      case _ => simp only; omega
      case _ => simp only; omega
      case _ => simp only [MatchReg.stop]; omega
      case _ =>
        simp only
        rw [show ((4 : Int) + k + j).toNat = j + (4 + k) by omega]
        refine hback.append ?_
        rw [sub_add_cancel, sub_add_cancel]
        exact (sameBytes_of_rd32 h.src h0 (by omega) (by omega) (by omega) hv hw).append hsame
      case _ => simp only; omega
      case _ => simp only [MatchReg.stop]; omega
    · exact ⟨m, rfl, hm⟩
  · exact ⟨m, rfl, hm⟩

/-- The chain walk visits earlier positions in the window only, and goes on with what every visit keeps (R153). -/
theorem walk_visits {off : Int} {visit : Int → MatchReg → Flow MatchReg} {J : MatchReg → Prop} (h0 : 0 ≤ off)
    (hoff : off ≤ s.mf.mfLimit)
    (hvisit : ∀ c m, 0 ≤ c → c < off → off - c ≤ 65535 → J m → ∃ m', visit c m = .go m' ∧ J m') {m : MatchReg}
    (hm : J m) : ∃ m', walk off visit m s = .go m' ∧ J m' := by
  have hlim := h.mf_limit
  have hwalk : ∀ budget c m, J m → ∃ m', walkFrom off visit s budget c m = .go m' ∧ J m' := by
    intro budget
    induction budget with
    | zero => exact fun c m hm => ⟨m, rfl, hm⟩
    | succ budget ih =>
      intro c m hm
      rw [walkFrom]
      split
      · exact ⟨m, rfl, hm⟩
      · next hin =>
        simp only [Config.maxOffset] at hin
        obtain ⟨m', hgo, hm'⟩ := hvisit c m (by omega) (by omega) (by omega) hm
        rw [hgo, Flow.andThen_go]
        exact ih _ m' hm'
  rw [walk, headSlot, rd32_inside h.src h0 (by omega), Flow.andThen_go, Flow.andThen_go]
  split
  · exact ⟨m, rfl, hm⟩
  · exact hwalk _ _ m hm

end

/-- A match is one whatever the tables and the other registers of the finders hold. -/
theorem MatchOk.finderOnly {s u : State} {m : MatchReg} (hm : MatchOk s m) (hs : FinderRules s) (hu : FinderRules u)
    (h : FinderOnly s u) : MatchOk u m where
  ref_nonneg := hm.ref_nonneg
  ref_lt := hm.ref_lt
  window := hm.window
  long := hm.long
  stop_le := by rw [hu.match_limit, h.length, ← hs.match_limit]; exact hm.stop_le
  same i hi := by rw [h.srcAt, h.srcAt]; exact hm.same i hi

theorem MatchOk.stop_nonneg {s : State} {m : MatchReg} (h : MatchOk s m) : 0 ≤ m.stop := by
  have href := h.ref_nonneg
  have hlt := h.ref_lt
  have hlong := h.long
  simp only [MatchReg.stop]
  omega

/-- A state that differs from `s` in CHAIN, HEAD and NEXT: what INSERT_UPTO writes (R152). -/
def inserted (s : State) (chain : List (Nat × Half)) (head : List (Nat × Option Nat)) (next : Nat) : State :=
  { s with chain := chain, head := head, hc := { s.hc with next := next } }

/-- FIND_BEST below the limit goes on, and its register holds a match at `off` or none (R155). -/
theorem findBest_finds {s : State} (h : FinderRules s) {off : Nat} (hoff : (off : Int) ≤ s.mf.mfLimit) :
    ∃ chain head next m, findBest off s = .go (inserted s chain head next, m) ∧ BestAt s off m := by
  obtain ⟨chain, head, next, hins, -⟩ := insertUpto_goes h hoff
  have ht := h.setTables { s.hc with next := next } s.ht head chain
  obtain ⟨m, hgo, hm⟩ := walk_visits ht (by omega) hoff (fun c m h0 hc hw hm => visitBest_finds ht hoff h0 hc hw hm)
    (m := { start := off, ref := 0, len := 0 }) ⟨rfl, fun hne => absurd rfl hne⟩
  refine ⟨chain, head, next, m, by rw [findBest, hins, Flow.andThen_go, hgo, Flow.andThen_go]; rfl, hm.1, fun hne => ?_⟩
  exact (hm.2 hne).finderOnly ht h ⟨rfl, rfl⟩

/-- FIND_WIDER below the limit goes on, with a longer match or the register it began with (R156). -/
theorem findWider_finds {s : State} (h : FinderRules s) {off : Int} (h0 : 0 ≤ off) (hoff : off ≤ s.mf.mfLimit)
    (startLimit minLen : Int) (m0 : MatchReg) :
    ∃ chain head next m, findWider off startLimit minLen m0 s = .go (inserted s chain head next, m) ∧
      WiderAt s off startLimit minLen m0 m := by
  obtain ⟨chain, head, next, hins, -⟩ := insertUpto_goes h hoff
  have ht := h.setTables { s.hc with next := next } s.ht head chain
  obtain ⟨m, hgo, hm⟩ := walk_visits ht h0 hoff (fun c m h0 hc hw hm => visitWider_finds ht hoff h0 hc hw hm)
    (J := WiderAt (inserted s chain head next) off startLimit minLen m0) (.inl rfl)
  refine ⟨chain, head, next, m, by rw [findWider, hins, Flow.andThen_go, hgo, Flow.andThen_go]; rfl, hm.imp id ?_⟩
  rintro ⟨hlen, hok, hrest⟩
  exact ⟨hlen, hok.finderOnly ht h ⟨rfl, rfl⟩, hrest⟩

/-! ## Trimmings (R157, R162) -/

section

variable {s : State} {m m1 m2 m3 : MatchReg}

/-- What is left of a match when its first bytes are dropped. -/
theorem MatchOk.fix (h : MatchOk s m) {c : Int} (h0 : 0 ≤ c) (hlong : 4 ≤ m.len - c) : MatchOk s (m.fix c) where
  ref_nonneg := by have := h.ref_nonneg; simp only [MatchReg.fix]; omega
  ref_lt := by have := h.ref_lt; simp only [MatchReg.fix]; omega
  window := by have := h.window; simp only [MatchReg.fix]; omega
  long := hlong
  stop_le := by have := h.stop_le; simp only [MatchReg.fix, MatchReg.stop] at *; omega
  same := fun i hi => by
    simp only [MatchReg.fix] at hi ⊢
    have hsame := h.same (c.toNat + i) (by omega)
    rwa [show m.ref + (c.toNat + i : Nat) = m.ref + c + i by omega,
      show m.start + (c.toNat + i : Nat) = m.start + c + i by omega] at hsame

/-- What is left of a match when it is cut short. -/
theorem MatchOk.setLen (h : MatchOk s m) {len : Int} (hle : len ≤ m.len) (hlong : 4 ≤ len) :
    MatchOk s { m with len := len } where
  ref_nonneg := h.ref_nonneg
  ref_lt := h.ref_lt
  window := h.window
  long := hlong
  stop_le := by have := h.stop_le; simp only [MatchReg.stop] at *; omega
  same := h.same.mono (by simp only; omega)

/-- A match, or one too short for ENCODE to emit (R158). -/
def Usable (s : State) (m : MatchReg) : Prop := 4 ≤ m.len → MatchOk s m

theorem MatchOk.usable (h : MatchOk s m) : Usable s m := fun _ => h

theorem MatchOk.cut (h : MatchOk s m) {len : Int} (hle : len ≤ m.len) : Usable s { m with len := len } :=
  fun hlong => h.setLen hle hlong

/-- Part (a) of SEARCH3 keeps M2 a match with its end (R162). -/
theorem trimM2_matchOk (h2 : MatchOk s m2) : MatchOk s (trimM2 m1 m2) ∧ (trimM2 m1 m2).stop = m2.stop := by
  have hlong := h2.long
  unfold trimM2
  extract_lets capped newLen corr
  split
  · split
    · next hcorr =>
      have hnew : m1.start + newLen ≤ m2.start + m2.len - 4 := by
        by_cases hcap : m1.start + capped > m2.stop - 4
        · rw [show newLen = m2.start - m1.start + m2.len - 4 from if_pos hcap]
          omega
        · rw [show newLen = capped from if_neg hcap]
          simp only [MatchReg.stop] at hcap
          omega
      refine ⟨h2.fix (by omega) (by omega), ?_⟩
      simp only [MatchReg.fix, MatchReg.stop]
      omega
    · exact ⟨h2, rfl⟩
  · exact ⟨h2, rfl⟩

/-- Part (b) of SEARCH3 (R162). -/
theorem cutM1_usable (h1 : MatchOk s m1) : Usable s (cutM1 m1 m2) := by
  unfold cutM1
  split
  · next hover =>
    simp only [MatchReg.stop] at hover
    exact h1.cut (by omega)
  · exact h1.usable

/-- Part (c) of SEARCH3 (R162). -/
theorem savedM2_matchOk (h2 : MatchOk s m2) (h3 : MatchOk s m3) : MatchOk s (savedM2 m1 m2 m3) := by
  unfold savedM2
  split
  · next hover =>
    split
    · exact h3
    · next hlong =>
      simp only [MatchReg.fix] at hlong
      exact h2.fix (by omega) (by omega)
  · exact h2

/-- Part (d) of SEARCH3 (R162). -/
theorem trimAscending_matchOk (h1 : MatchOk s m1) (h2 : MatchOk s m2) :
    Usable s (trimAscending m1 m2).1 ∧ MatchOk s (trimAscending m1 m2).2 := by
  have hlong := h2.long
  by_cases hover : m2.start < m1.stop
  · by_cases hnear : m2.start - m1.start < Config.nibbleCap
    · rw [trimAscending_near hover hnear]
      simp only [MatchReg.stop, Config.nibbleCap] at hover hnear ⊢
      exact ⟨h1.cut (by omega), h2.fix (by omega) (by omega)⟩
    · rw [trimAscending, if_pos hover, if_neg hnear]
      simp only [MatchReg.stop] at hover
      exact ⟨h1.cut (by omega), h2⟩
  · rw [trimAscending, if_neg hover]
    exact ⟨h1.usable, h2⟩

end

end Sys2Proof.Machine
end

section
/-! PROOFS. The lazy parser under its rules (42_match_finder_hash_chain.md R158 to R166): every step of MF-HC keeps
`ChainRules`, encodes what it appends, and comes closer to TAIL. -/

namespace Sys2Proof.Machine

/-! ## Advancing -/

section

variable {x y : State → Flow State} {s t : State} {P Q : State → Prop}

/-- The rule of sequence. -/
theorem Flow.AdvancesTo.andThen (hx : Flow.AdvancesTo x s P)
    (hy : ∀ t, FinderRules t → FinderOnly s t → P t → Flow.AdvancesTo y t Q) :
    Flow.AdvancesTo (fun s => (x s).andThen y) s Q := by
  obtain ⟨xs, t, hadv, ht⟩ := hx
  obtain ⟨ys, u, hadv', hu⟩ := hy t hadv.rules hadv.only ht
  exact ⟨xs ++ ys, u, hadv.andThen hadv', hu⟩

theorem Flow.AdvancesTo.congr (hy : Flow.AdvancesTo y t P) (h : ∀ d, x (s.onto d) = y (t.onto d))
    (honly : FinderOnly s t) (hanchor : t.mf.anchor = s.mf.anchor) : Flow.AdvancesTo x s P :=
  have ⟨bytes, u, hadv, hu⟩ := hy
  ⟨bytes, u, hadv.congr h honly hanchor, hu⟩

theorem Flow.AdvancesTo.imp (hx : Flow.AdvancesTo x s P) (h : ∀ u, FinderRules u → FinderOnly s u → P u → Q u) :
    Flow.AdvancesTo x s Q :=
  have ⟨bytes, u, hadv, hu⟩ := hx
  ⟨bytes, u, hadv, h u hadv.rules hadv.only hu⟩

end

/-! ## ENCODE (R158) -/

/-- ENCODE drops a match or emits it: the registers of MF-HC are as before, and IP has reached the end of the match. -/
def Encoded (s : State) (m : MatchReg) (u : State) : Prop := u.hc = s.hc ∧ m.stop ≤ u.mf.ip

theorem MatchOk.emittable {s : State} {m : MatchReg} (h : FinderRules s) (hm : MatchOk s m)
    (hstart : m.start ≤ s.mf.mfLimit) (hanchor : s.mf.anchor ≤ m.start) :
    Emittable s m.start.toNat m.ref.toNat m.len.toNat := by
  have hlim := h.mf_limit
  have hmatch := h.match_limit
  obtain ⟨href, hlt, hwindow, hlong, hstop, hsame⟩ := hm
  simp only [MatchReg.stop] at hstop
  refine ⟨by omega, by omega, by omega, by omega, by omega, by omega, ?_⟩
  rwa [Int.toNat_of_nonneg href, Int.toNat_of_nonneg (by omega)]

theorem encodeMatch_advances {s : State} (h : FinderRules s) {m : MatchReg} (hm : Usable s m) :
    Flow.AdvancesTo (encodeMatch m) s (Encoded s m) := by
  by_cases hdrop : m.start > s.mf.mfLimit ∨ m.len < 4 ∨ m.start < s.mf.anchor
  · refine ⟨[], { s with mf := { s.mf with ip := (max (s.mf.anchor : Int) m.stop).toNat } },
      .silent (fun d => if_pos hdrop) (h.set (c := s.hc) h.dst.pos_le rfl rfl rfl h.anchor_le) ⟨rfl, rfl⟩ rfl,
      rfl, by simp only; omega⟩
  · have hok := hm (by omega)
    have hlim := h.match_limit
    have hstop := hok.stop_le
    have hpos := hok.ref_nonneg.trans hok.ref_lt.le
    have hlong := hok.long
    obtain ⟨bytes, hadv⟩ := emitSeq_advances h (hok.emittable h (by omega) (by omega))
      (f := fun t => { t with mf := { t.mf with anchor := m.stop.toNat, ip := m.stop.toNat } })
      (u := { s with mf := { s.mf with anchor := m.stop.toNat, ip := m.stop.toNat } }) (fun e => rfl)
      (h.set (c := s.hc) h.dst.pos_le rfl rfl rfl (by simp only; omega)) ⟨rfl, rfl⟩
      (by simp only [MatchReg.stop]; omega)
    refine ⟨bytes, _, hadv.congr (fun d => ?_) ⟨rfl, rfl⟩ rfl, rfl, by simp only; omega⟩
    exact if_neg hdrop

/-! ## The states (R160 to R162) -/

/-- How far MF-HC is from TAIL: IP, or the end of the last match that is under consideration, moves on. -/
def chainMeasure (s : State) : Nat :=
  match s.hc.hcState with
  | .main => 2 * (s.mf.n + 1 - s.mf.ip) + 1
  | .search2 => 2 * (s.mf.n + 1 - s.hc.m1.stop.toNat) + 2
  | .search3 => 2 * (s.mf.n + 1 - s.hc.m2.stop.toNat) + 2
  | .tail => 0

/-- What a step of MF-HC with `front` under consideration keeps, and that it comes closer to TAIL. -/
def ChainNext (n : Nat) (front : Int) (u : State) : Prop :=
  ChainRules u ∧ chainMeasure u ≤ 2 * (n + 1 - front.toNat) + 1

/-- A state of MF-HC that writes nothing: tables, MF-HC registers, and finder registers that keep the rules. -/
theorem chain_silent {x : State → Flow State} {s : State} (h : FinderRules s) {r : FinderRegs} {c : ChainRegs}
    {head : List (Nat × Option Nat)} {chain : List (Nat × Half)} {P : State → Prop}
    (hx : ∀ d, x (s.onto d) = .go (State.onto { s with mf := r, hc := c, head := head, chain := chain } d))
    (hn : r.n = s.mf.n) (hmf : r.mfLimit = s.mf.mfLimit) (hmatch : r.matchLimit = s.mf.matchLimit)
    (hanchor : r.anchor = s.mf.anchor) (hP : P { s with mf := r, hc := c, head := head, chain := chain }) :
    Flow.AdvancesTo x s P :=
  ⟨[], _, .silent hx (h.set (ht := s.ht) h.dst.pos_le hn hmf hmatch (hanchor ▸ h.anchor_le)) ⟨rfl, hn⟩ hanchor, hP⟩

/-- The match under consideration is encoded, and MAIN goes on. -/
def encodeLast (m : MatchReg) (s : State) : Flow State := (encodeMatch m s).andThen fun t => .go (goHc .main t)

/-- M1 as SEARCH2 goes on with it where a wider match is found: M0 in its place where M2 starts inside M0 (R161). -/
def keptM1 (r : ChainRegs) : MatchReg :=
  if r.m0.start < r.m1.start ∧ r.m2.start < r.m1.start + r.m0.len then r.m0 else r.m1

/-- SEARCH3 once the start of M2 is moved (R162). -/
def search3From (s : State) : Flow State :=
  if s.hc.m2.stop - 3 > s.mf.mfLimit then takeBoth s
  else
    (findWider (s.hc.m2.stop - 3) s.hc.m2.start s.hc.m2.len s.hc.m3 s).andThen fun (t, m3) =>
      if m3.len > s.hc.m2.len then weighM3 { t with hc := { t.hc with m3 := m3 } }
      else takeBoth { t with hc := { t.hc with m3 := m3 } }

theorem chainSearch3_eq (s : State) :
    chainSearch3 s = search3From { s with hc := { s.hc with m2 := trimM2 s.hc.m1 s.hc.m2 } } := rfl

section

variable {s : State} (h : FinderRules s)

include h

theorem goHc_advances (x : HcState) {P : State → Prop} (hP : P (goHc x s)) :
    Flow.AdvancesTo (fun t => .go (goHc x t)) s P := chain_silent h (fun _ => rfl) rfl rfl rfl rfl hP

/-- The last match is encoded and MAIN goes on behind it. -/
theorem encodeLast_advances {m : MatchReg} (hm : Usable s m) :
    Flow.AdvancesTo (encodeLast m) s (ChainNext s.mf.n m.stop) := by
  refine (encodeMatch_advances h hm).andThen ?_
  rintro t ht honly ⟨-, hip⟩
  refine goHc_advances ht .main ⟨trivial, ?_⟩
  simp only [chainMeasure, goHc_hc, goHc_mf, honly.length]
  omega

/-- SEARCH2 without a wider match (R161). -/
theorem takeM1_advances (h1 : MatchOk s s.hc.m1) : Flow.AdvancesTo takeM1 s (ChainNext s.mf.n s.hc.m1.stop) :=
  (encodeLast_advances h h1.usable).congr (fun _ => rfl) ⟨rfl, rfl⟩ rfl

/-- A match that ends behind what was under consideration is closer to TAIL. -/
theorem stop_closer {m : MatchReg} (hm : MatchOk s m) {front : Int} (hfront : 0 ≤ front) (hlt : front < m.stop) :
    2 * (s.mf.n + 1 - m.stop.toNat) + 2 ≤ 2 * (s.mf.n + 1 - front.toNat) + 1 := by
  have hlim := h.match_limit
  have hstop := hm.stop_le
  omega

/-- SEARCH2 with a wider match (R161). -/
theorem weighM2_advances (h0 : MatchOk s s.hc.m0) (h1 : MatchOk s s.hc.m1) (h2 : MatchOk s s.hc.m2)
    (hstop : s.hc.m1.stop < s.hc.m2.stop) :
    Flow.AdvancesTo (fun t => .go (weighM2 t)) s (ChainNext s.mf.n s.hc.m1.stop) := by
  have hclose := stop_closer h h2 h1.stop_nonneg hstop
  have hm : ∀ {m}, MatchOk s m → ∀ c, MatchOk { s with hc := c } m := fun hm c =>
    hm.finderOnly h (h.setTables c s.ht s.head s.chain) ⟨rfl, rfl⟩
  have hm1 : MatchOk s (keptM1 s.hc) := by
    unfold keptM1
    split
    · exact h0
    · exact h1
  by_cases hnear : s.hc.m2.start - (keptM1 s.hc).start < Config.lazyMinGap
  · exact chain_silent h (r := s.mf) (head := s.head) (chain := s.chain)
      (c := { s.hc with m1 := s.hc.m2, hcState := .search2 })
      (fun d => congrArg Flow.go (if_pos hnear)) rfl rfl rfl rfl ⟨⟨hm h0 _, hm h2 _⟩, hclose⟩
  · exact chain_silent h (r := s.mf) (head := s.head) (chain := s.chain)
      (c := { s.hc with m1 := keptM1 s.hc, hcState := .search3 })
      (fun d => congrArg Flow.go (if_neg hnear)) rfl rfl rfl rfl ⟨⟨hm hm1 _, hm h2 _⟩, hclose⟩

/-- Part (b) of SEARCH3 without a third match (R162). -/
theorem takeBoth_advances (h1 : MatchOk s s.hc.m1) (h2 : MatchOk s s.hc.m2) :
    Flow.AdvancesTo takeBoth s (ChainNext s.mf.n s.hc.m2.stop) := by
  have hcut := h.setTables { s.hc with m1 := cutM1 s.hc.m1 s.hc.m2 } s.ht s.head s.chain
  have honly : FinderOnly s { s with hc := { s.hc with m1 := cutM1 s.hc.m1 s.hc.m2 } } := ⟨rfl, rfl⟩
  have hfirst := encodeMatch_advances hcut (m := cutM1 s.hc.m1 s.hc.m2) fun hlong =>
    (cutM1_usable h1 hlong).finderOnly h hcut honly
  refine (hfirst.andThen (y := encodeLast s.hc.m2) (Q := ChainNext s.mf.n s.hc.m2.stop) ?_).congr
    (fun d => takeBoth_eq (s.onto d)) honly rfl
  rintro t ht hon -
  have hlast := encodeLast_advances ht (h2.finderOnly h ht (honly.trans hon)).usable
  rwa [(honly.trans hon).length] at hlast

/-- One match is encoded, and the search goes on with two others, the last of them behind what was under
consideration. -/
theorem encodeOne_advances {m a b : MatchReg} (hm : Usable s m) (ha : MatchOk s a) (hb : MatchOk s b) {front : Int}
    (hfront : 0 ≤ front) (hlt : front < b.stop) {f : ChainRegs → ChainRegs}
    (hf : ((f s.hc).hcState = .search2 ∧ (f s.hc).m0 = a ∧ (f s.hc).m1 = b) ∨
      ((f s.hc).hcState = .search3 ∧ (f s.hc).m1 = a ∧ (f s.hc).m2 = b)) :
    Flow.AdvancesTo (fun t => (encodeMatch m t).andThen fun u => .go { u with hc := f u.hc }) s
      (ChainNext s.mf.n front) := by
  have hclose := stop_closer h hb hfront hlt
  refine (encodeMatch_advances h hm).andThen ?_
  rintro t ht honly ⟨hhc, -⟩
  have hu := ht.setTables (f s.hc) t.ht t.head t.chain
  have hon := honly.trans (u := { t with hc := f s.hc }) ⟨rfl, rfl⟩
  refine chain_silent ht (r := t.mf) (c := f s.hc) (head := t.head) (chain := t.chain)
    (fun d => by rw [← hhc]; rfl) rfl rfl rfl rfl ?_
  unfold ChainNext ChainRules chainMeasure
  rcases hf with ⟨hst, h0, h1⟩ | ⟨hst, h1, h2⟩
  · simp only [hst, h0, h1, honly.length]
    exact ⟨⟨ha.finderOnly h hu hon, hb.finderOnly h hu hon⟩, hclose⟩
  · simp only [hst, h1, h2, honly.length]
    exact ⟨⟨ha.finderOnly h hu hon, hb.finderOnly h hu hon⟩, hclose⟩

/-- Part (c) of SEARCH3 where M1 can be written now (R162). -/
theorem dropM2_advances (h1 : MatchOk s s.hc.m1) (h2 : MatchOk s s.hc.m2) (h3 : MatchOk s s.hc.m3)
    (hstop : s.hc.m2.stop < s.hc.m3.stop) : Flow.AdvancesTo dropM2 s (ChainNext s.mf.n s.hc.m2.stop) := by
  have hsave := h.setTables { s.hc with m2 := savedM2 s.hc.m1 s.hc.m2 s.hc.m3 } s.ht s.head s.chain
  have honly : FinderOnly s { s with hc := { s.hc with m2 := savedM2 s.hc.m1 s.hc.m2 s.hc.m3 } } := ⟨rfl, rfl⟩
  have keep : ∀ {m}, MatchOk s m → MatchOk _ m := fun hm => hm.finderOnly h hsave honly
  exact (encodeOne_advances hsave (keep h1).usable (keep (savedM2_matchOk h2 h3)) (keep h3) h2.stop_nonneg hstop
    (f := fun r => { r with m1 := s.hc.m3, m0 := savedM2 s.hc.m1 s.hc.m2 s.hc.m3, hcState := .search2 })
    (.inl ⟨rfl, rfl, rfl⟩)).congr (fun d => dropM2_eq (s.onto d)) honly rfl

/-- Part (d) of SEARCH3 (R162). -/
theorem shiftDown_advances (h1 : MatchOk s s.hc.m1) (h2 : MatchOk s s.hc.m2) (h3 : MatchOk s s.hc.m3)
    (hstop : s.hc.m2.stop < s.hc.m3.stop) : Flow.AdvancesTo shiftDown s (ChainNext s.mf.n s.hc.m2.stop) := by
  obtain ⟨hfirst, hsecond⟩ := trimAscending_matchOk h1 h2
  have htrim := h.setTables { s.hc with
    m1 := (trimAscending s.hc.m1 s.hc.m2).1, m2 := (trimAscending s.hc.m1 s.hc.m2).2 } s.ht s.head s.chain
  have keep : ∀ {m}, MatchOk s m → MatchOk _ m := fun hm => hm.finderOnly h htrim ⟨rfl, rfl⟩
  exact (encodeOne_advances htrim (fun hlong => keep (hfirst hlong)) (keep hsecond) (keep h3) h2.stop_nonneg hstop
    (f := fun r => { r with m1 := (trimAscending s.hc.m1 s.hc.m2).2, m2 := r.m3, hcState := .search3 })
    (.inr ⟨rfl, rfl, rfl⟩)).congr (fun d => rfl) ⟨rfl, rfl⟩ rfl

/-- Parts (c) and (d) of SEARCH3 (R162). -/
theorem weighM3_advances (h1 : MatchOk s s.hc.m1) (h2 : MatchOk s s.hc.m2) (h3 : MatchOk s s.hc.m3)
    (hstop : s.hc.m2.stop < s.hc.m3.stop) : Flow.AdvancesTo weighM3 s (ChainNext s.mf.n s.hc.m2.stop) := by
  by_cases hnear : s.hc.m3.start < s.hc.m1.stop + 3
  · by_cases hafter : s.hc.m3.start ≥ s.hc.m1.stop
    · exact (dropM2_advances h h1 h2 h3 hstop).congr (fun d => (if_pos hnear).trans (if_pos hafter)) ⟨rfl, rfl⟩ rfl
    · have hset := h.setTables { s.hc with m2 := s.hc.m3, hcState := .search3 } s.ht s.head s.chain
      exact chain_silent h (r := s.mf) (head := s.head) (chain := s.chain)
        (c := { s.hc with m2 := s.hc.m3, hcState := .search3 }) (fun d => (if_pos hnear).trans (if_neg hafter)) rfl rfl
        rfl rfl ⟨⟨h1.finderOnly h hset ⟨rfl, rfl⟩, h3.finderOnly h hset ⟨rfl, rfl⟩⟩,
          stop_closer h h3 h2.stop_nonneg hstop⟩
  · exact (shiftDown_advances h h1 h2 h3 hstop).congr (fun d => if_neg hnear) ⟨rfl, rfl⟩ rfl

/-- State MAIN (R160). -/
theorem chainMain_advances (hst : s.hc.hcState = .main) :
    Flow.AdvancesTo chainMain s fun u => ChainRules u ∧ chainMeasure u < chainMeasure s := by
  have hmeasure : chainMeasure s = 2 * (s.mf.n + 1 - s.mf.ip) + 1 := by rw [chainMeasure, hst]
  have hlim := h.mf_limit
  rw [hmeasure]
  rcases lt_or_ge s.mf.mfLimit s.mf.ip with hpast | hle
  · exact chain_silent h (r := s.mf) (head := s.head) (chain := s.chain) (c := { s.hc with hcState := .tail })
      (fun d => if_pos hpast) rfl rfl rfl rfl ⟨trivial, Nat.succ_pos _⟩
  · obtain ⟨chain, head, next, m, hgo, hm⟩ := findBest_finds h hle
    have hfind : ∀ d, findBest (s.onto d).mf.ip (s.onto d) = .go ((inserted s chain head next).onto d, m) := fun d => by
      rw [show findBest (s.onto d).mf.ip (s.onto d) = _ from findBest_onto s.mf.ip s d, hgo, Flow.andThen_go]
    by_cases hfound : m.len ≠ 0
    · have hok := hm.2 hfound
      have hset := h.setTables { s.hc with next := next, m1 := m, m0 := m, hcState := .search2 } s.ht head chain
      have hok' := hok.finderOnly h hset ⟨rfl, rfl⟩
      refine chain_silent h (r := s.mf) (head := head) (chain := chain)
        (c := { s.hc with next := next, m1 := m, m0 := m, hcState := .search2 })
        (fun d => (if_neg (Int.not_lt.mpr hle)).trans (by rw [hfind, Flow.andThen_go]; exact if_pos hfound)) rfl rfl rfl
        rfl ⟨⟨hok', hok'⟩, ?_⟩
      have hlong := hok.long
      have hclose := stop_closer h hok (front := s.mf.ip) (by omega) (by simp only [MatchReg.stop, hm.1]; omega)
      simp only [chainMeasure]
      omega
    · refine chain_silent h (r := { s.mf with ip := s.mf.ip + 1 }) (head := head) (chain := chain)
        (c := { s.hc with next := next, m1 := m, hcState := .main })
        (fun d => (if_neg (Int.not_lt.mpr hle)).trans (by rw [hfind, Flow.andThen_go]; exact if_neg hfound)) rfl rfl rfl
        rfl ⟨trivial, ?_⟩
      simp only [chainMeasure]
      omega

/-- State SEARCH2 (R161). -/
theorem chainSearch2_advances (h0 : MatchOk s s.hc.m0) (h1 : MatchOk s s.hc.m1) :
    Flow.AdvancesTo chainSearch2 s (ChainNext s.mf.n s.hc.m1.stop) := by
  have hpos := h1.stop_nonneg
  have hlong := h1.long
  have href := h1.ref_nonneg.trans h1.ref_lt.le
  by_cases hpast : s.hc.m1.stop - 2 > s.mf.mfLimit
  · exact (takeM1_advances h h1).congr (fun d => if_pos hpast) ⟨rfl, rfl⟩ rfl
  · obtain ⟨chain, head, next, m, hgo, hm⟩ := findWider_finds h (off := s.hc.m1.stop - 2)
      (by simp only [MatchReg.stop]; omega) (by omega) (s.hc.m1.start + 1) s.hc.m1.len s.hc.m2
    have hset := h.setTables { s.hc with next := next, m2 := m } s.ht head chain
    have keep : ∀ {m}, MatchOk s m → MatchOk _ m := fun hm => hm.finderOnly h hset ⟨rfl, rfl⟩
    have hfind : ∀ d, chainSearch2 (s.onto d) = _ := fun d => (if_neg hpast).trans (by
      rw [show findWider ((s.onto d).hc.m1.stop - 2) ((s.onto d).hc.m1.start + 1) (s.onto d).hc.m1.len (s.onto d).hc.m2
        (s.onto d) = _ from findWider_onto (s.hc.m1.stop - 2) (s.hc.m1.start + 1) s.hc.m1.len s.hc.m2 s d, hgo,
        Flow.andThen_go, Flow.andThen_go])
    rcases hm with rfl | ⟨hlen, hok, -, -, hcover⟩
    · exact (takeM1_advances hset (keep h1)).congr (fun d => (hfind d).trans (if_neg (lt_irrefl s.hc.m1.len)))
        ⟨rfl, rfl⟩ rfl
    · exact (weighM2_advances hset (keep h0) (keep h1) (keep hok) (by simp only; omega)).congr
        (fun d => (hfind d).trans (if_pos hlen)) ⟨rfl, rfl⟩ rfl

theorem search3From_advances (h1 : MatchOk s s.hc.m1) (h2 : MatchOk s s.hc.m2) :
    Flow.AdvancesTo search3From s (ChainNext s.mf.n s.hc.m2.stop) := by
  have hlong := h2.long
  have href := h2.ref_nonneg.trans h2.ref_lt.le
  by_cases hpast : s.hc.m2.stop - 3 > s.mf.mfLimit
  · exact (takeBoth_advances h h1 h2).congr (fun d => if_pos hpast) ⟨rfl, rfl⟩ rfl
  · obtain ⟨chain, head, next, m, hgo, hm⟩ := findWider_finds h (off := s.hc.m2.stop - 3)
      (by simp only [MatchReg.stop]; omega) (by omega) s.hc.m2.start s.hc.m2.len s.hc.m3
    have hset := h.setTables { s.hc with next := next, m3 := m } s.ht head chain
    have keep : ∀ {m}, MatchOk s m → MatchOk _ m := fun hm => hm.finderOnly h hset ⟨rfl, rfl⟩
    have hfind : ∀ d, search3From (s.onto d) = _ := fun d => (if_neg hpast).trans (by
      rw [show findWider ((s.onto d).hc.m2.stop - 3) (s.onto d).hc.m2.start (s.onto d).hc.m2.len (s.onto d).hc.m3
        (s.onto d) = _ from findWider_onto (s.hc.m2.stop - 3) s.hc.m2.start s.hc.m2.len s.hc.m3 s d, hgo,
        Flow.andThen_go, Flow.andThen_go])
    rcases hm with rfl | ⟨hlen, hok, -, -, hcover⟩
    · exact (takeBoth_advances hset (keep h1) (keep h2)).congr
        (fun d => (hfind d).trans (if_neg (lt_irrefl s.hc.m2.len))) ⟨rfl, rfl⟩ rfl
    · exact (weighM3_advances hset (keep h1) (keep h2) (keep hok) (by simp only; omega)).congr
        (fun d => (hfind d).trans (if_pos hlen)) ⟨rfl, rfl⟩ rfl

/-- State SEARCH3 (R162). -/
theorem chainSearch3_advances (h1 : MatchOk s s.hc.m1) (h2 : MatchOk s s.hc.m2) :
    Flow.AdvancesTo chainSearch3 s (ChainNext s.mf.n s.hc.m2.stop) := by
  obtain ⟨htrim, hstop⟩ := trimM2_matchOk (m1 := s.hc.m1) h2
  have hset := h.setTables { s.hc with m2 := trimM2 s.hc.m1 s.hc.m2 } s.ht s.head s.chain
  have keep : ∀ {m}, MatchOk s m → MatchOk _ m := fun hm => hm.finderOnly h hset ⟨rfl, rfl⟩
  rw [← hstop]
  exact (search3From_advances hset (keep h1) (keep htrim)).congr (fun d => chainSearch3_eq (s.onto d)) ⟨rfl, rfl⟩ rfl

end

/-! ## A step of MF-HC -/

/-- One step of MF-HC before TAIL, as a computation. -/
def chainFlow (s : State) : Flow State :=
  match s.hc.hcState with
  | .main => chainMain s
  | .search2 => chainSearch2 s
  | .search3 => chainSearch3 s
  | .tail => .stop (finishCompress s)

theorem chainStep_eq (s : State) : chainStep s = (chainFlow s).finish := by
  unfold chainStep chainFlow
  cases s.hc.hcState <;> rfl

/-- A step of MF-HC before TAIL (R165, R166). -/
theorem chainFlow_advances {s : State} (h : FinderRules s) (hf : ChainRules s) (hst : s.hc.hcState ≠ .tail) :
    Flow.AdvancesTo chainFlow s fun u => ChainRules u ∧ chainMeasure u < chainMeasure s := by
  have label : ∀ d, (s.onto d).hc.hcState = s.hc.hcState := fun _ => rfl
  unfold ChainRules at hf
  cases hcase : s.hc.hcState <;> simp only [hcase] at hf
  case tail => exact absurd hcase hst
  case main =>
    exact (chainMain_advances h hcase).congr (fun d => by simp only [chainFlow, label, hcase]) ⟨rfl, rfl⟩ rfl
  case search2 =>
    refine ((chainSearch2_advances h hf.1 hf.2).imp fun u _ _ hu => ⟨hu.1, ?_⟩).congr
      (fun d => by simp only [chainFlow, label, hcase]) ⟨rfl, rfl⟩ rfl
    rw [chainMeasure.eq_def s, hcase]
    exact Nat.lt_succ_of_le hu.2
  case search3 =>
    refine ((chainSearch3_advances h hf.1 hf.2).imp fun u _ _ hu => ⟨hu.1, ?_⟩).congr
      (fun d => by simp only [chainFlow, label, hcase]) ⟨rfl, rfl⟩ rfl
    rw [chainMeasure.eq_def s, hcase]
    exact Nat.lt_succ_of_le hu.2

end Sys2Proof.Machine
end

section
/-! PROOFS. A compress command from start to end (30_encoding.md R91, R115 to R117; 44_host_commands.md R213, R214):
what it has written always decodes to the source before ANCHOR, it ends, and the block it writes depends on the source
only. -/

namespace Sys2Proof.Machine

/-! ## The size of a block (R116) -/

/-- A sequence is never longer than its output by more than one byte in 255: the match saves what the length fields
cost. -/
theorem seqSize_le {l m : Nat} (hm : 4 ≤ m) : 255 * seqSize l m ≤ 256 * (l + m) := by
  simp only [seqSize, extSize_eq_div, Config.minMatch]
  omega

theorem Expands.length_le {allowed : Nat → Nat → Prop} {bytes out : List Byte} (h : Expands allowed bytes out) :
    255 * bytes.length ≤ 256 * out.length := by
  induction h with
  | nil => exact Nat.le_refl _
  | seq bytes out lits off len _ hwf _ _ ih =>
    have hlen : 4 ≤ len := of_decide_eq_true (Bool.and_eq_true_iff.mp hwf).2
    have hseq := seqSize_le (l := lits.length) hlen
    rw [List.length_append, assemble_seq_length, copyBack_length, List.length_append]
    omega

/-- A block is at most `N + N/255 + 2` bytes long. -/
theorem IsBlock.length_le {bytes out : List Byte} (h : IsBlock bytes out) :
    bytes.length ≤ out.length + out.length / 255 + 2 := by
  obtain ⟨front, produced, lits, ignored, hfront, rfl, rfl⟩ := h
  have hlen := hfront.length_le
  rw [List.length_append, List.length_append, finalBytes_length, lastSize, extSize_eq_div]
  omega

/-! ## TAIL (R140, R163) -/

/-- The command has ended: with `bytes` written behind what `d` holds before D_POS, or with DestinationTooSmall where
they do not fit. -/
structure Finishes (bytes : List Byte) (d v : State) : Prop where
  done : d.dPos + bytes.length ≤ d.dEnd → v.status = .done ∧
    v.result = BitVec.ofNat 32 (d.dPos + bytes.length) ∧
    (Memory.wf d.dst = true → dstRun v 0 (d.dPos + bytes.length) = dstRun d 0 d.dPos ++ bytes)
  small : d.dEnd < d.dPos + bytes.length → v.status = .faulted .destinationTooSmall

/-- The command ends in one of the two ways. -/
theorem Finishes.not_busy {bytes : List Byte} {d v : State} (h : Finishes bytes d v) : v.isBusy = false := by
  rcases Nat.lt_or_ge d.dEnd (d.dPos + bytes.length) with hlt | hfit
  · simp [State.isBusy, h.small hlt, Status.faulted]
  · simp [State.isBusy, (h.done hfit).1, Status.done]

/-- Bytes appended before the end of the command. -/
theorem Finishes.prepend {xs ys : List Byte} {d e v : State} (happ : Appended xs d e) (h : Finishes ys e v) :
    Finishes (xs ++ ys) d v := by
  obtain ⟨hdone, hsmall⟩ := h
  rw [happ.dPos, happ.same.2.2.2] at hdone hsmall
  refine ⟨fun hfit => ?_, fun hlt => hsmall (by rw [List.length_append] at hlt; omega)⟩
  rw [List.length_append, ← Nat.add_assoc] at hfit ⊢
  obtain ⟨hst, hresult, hrun⟩ := hdone hfit
  exact ⟨hst, hresult, fun hwf => by rw [hrun (happ.wf hwf), ← happ.dPos, happ.output hwf, List.append_assoc]⟩

/-- The final sequence of the source from ANCHOR on. -/
def lastBytes (s : State) : List Byte := finalBytes 0 (srcRun s s.mf.anchor (s.mf.n - s.mf.anchor))

theorem finishCompress_finishes {s d : State} (h : FinderRules s) (hd : DstRegion d) :
    ∃ v, finishCompress (s.onto d) = .next v ∧ Finishes (lastBytes s) d v := by
  obtain ⟨hgo, hstop⟩ := emitBytes_appends s (lastBytes s) d hd
  have hread : emitLast (s.onto d) = emitBytes (lastBytes s) (s.onto d) := emitLast_eq (h.onto hd)
  rcases Nat.lt_or_ge d.dEnd (d.dPos + (lastBytes s).length) with hlt | hfit
  · obtain ⟨r, hr, v, rfl, hv⟩ := hstop hlt
    exact ⟨v, by rw [finishCompress, hread, hr, Flow.andThen_stop, Flow.finish_stop], fun hfit => by omega, fun _ => hv⟩
  · obtain ⟨e, he, happ⟩ := hgo hfit
    refine ⟨completeRegion e.dPos (s.onto e), by rw [finishCompress, hread, he, Flow.andThen_go, Flow.finish_go]; rfl,
      fun _ => ⟨openRegionFrom_status _ _, ?_, fun hwf => ?_⟩, fun hlt => by omega⟩
    · rw [← happ.dPos]
      exact openRegionFrom_result _ _
    · rw [← happ.output hwf, ← happ.dPos]
      exact dstRun_completeRegion (s := s.onto e) ((happ.dstRegion hd hfit).onto s) _

/-- `bytes` complete what decodes to the source before position `a` to a block of the whole source. -/
def EncodesBlock (s : State) (a : Nat) (bytes : List Byte) : Prop :=
  ∀ front, Expands (encoderAllows s.mf.n) front (srcRun s 0 a) → IsWrittenBlock (front ++ bytes) (srcRun s 0 s.mf.n)

theorem lastBytes_encodes {s : State} (h : FinderRules s) : EncodesBlock s s.mf.anchor (lastBytes s) := by
  intro front hfront
  have hadd := srcRun_add s 0 s.mf.anchor (s.mf.n - s.mf.anchor)
  rw [Nat.zero_add, Nat.add_sub_cancel' h.anchor_le] at hadd
  exact ⟨front, _, srcRun s s.mf.anchor (s.mf.n - s.mf.anchor), by rw [srcRun_length]; exact hfront, rfl, hadd⟩

theorem Encodes.block {s u : State} {xs ys : List Byte} (h : Encodes s s.mf.anchor xs u.mf.anchor)
    (honly : FinderOnly s u)
    (hu : EncodesBlock u u.mf.anchor ys) : EncodesBlock s s.mf.anchor (xs ++ ys) := by
  intro front hfront
  have hblock := hu (front ++ xs) (by rw [honly.length, honly.srcRun]; exact h front hfront)
  rwa [List.append_assoc, honly.length, honly.srcRun] at hblock

/-! ## Steps of a compress command -/

/-- A compress command runs under the rules of its unit. -/
structure CompressRun (s : State) : Prop where
  busy : s.isBusy = true
  code : s.cmd = 2 ∨ s.cmd = 3
  finder : FinderRules s
  fast : s.cmd = 2 → FastRules s
  chain : s.cmd = 3 → ChainRules s

theorem Safe.compressRun {s : State} (h : Safe s) (hb : s.isBusy = true) (hc : s.cmd = 2 ∨ s.cmd = 3) : CompressRun s :=
  ⟨hb, hc, h.finder hb hc, h.fast hb, h.chain hb⟩

/-- The finder of the command stands at TAIL. -/
def AtTail (s : State) : Prop := s.cmd = 2 ∧ s.mf.htState = .tail ∨ s.cmd = 3 ∧ s.hc.hcState = .tail

/-- How far the command is from TAIL. -/
def compressMeasure (s : State) : ℕ ×ₗ ℕ := if s.cmd = 2 then fastMeasure s else toLex (0, chainMeasure s)

/-- One step of the command before TAIL, as a computation. -/
def compressFlow (s : State) : Flow State := if s.cmd = 2 then fastFlow s else chainFlow s

theorem coreStep_compress {s : State} (hb : s.isBusy = true) (hc : s.cmd = 2 ∨ s.cmd = 3) :
    coreStep s = (compressFlow s).finish := by
  rw [coreStep, coreFetch, if_pos hb, compressFlow]
  rcases hc with hc | hc
  · rw [if_pos hc, ← fastStep_eq, hc]
    rfl
  · rw [if_neg (by rw [hc]; decide), ← chainStep_eq, hc]
    rfl

theorem coreStep_tail {s : State} (hb : s.isBusy = true) (ht : AtTail s) : coreStep s = finishCompress s := by
  rw [coreStep, coreFetch, if_pos hb]
  rcases ht with ⟨hc, ht⟩ | ⟨hc, ht⟩
  · rw [hc]
    simp [Fetched.result, fastStep, ht]
  · rw [hc]
    simp [Fetched.result, chainStep, ht]

theorem CompressRun.advances {s : State} (h : CompressRun s) (ht : ¬AtTail s) :
    Flow.AdvancesTo compressFlow s fun u => CompressRun u ∧ compressMeasure u < compressMeasure s := by
  have busy : ∀ {u}, FinderOnly s u → u.isBusy = true := fun honly => by rw [honly.same]; exact h.busy
  have code : ∀ {u}, FinderOnly s u → u.cmd = s.cmd := fun honly => by rw [honly.same]
  rcases h.code with hc | hc
  · refine ((fastFlow_advances h.finder (h.fast hc) fun hst => ht (.inl ⟨hc, hst⟩)).imp
      fun u hu honly hnext => ?_).congr (fun d => if_pos hc) ⟨rfl, rfl⟩ rfl
    have hcu : u.cmd = 2 := (code honly).trans hc
    refine ⟨⟨busy honly, .inl hcu, hu, fun _ => hnext.1, fun h3 => ?_⟩, ?_⟩
    · rw [hcu] at h3
      exact absurd h3 (by decide)
    · rw [compressMeasure, if_pos hcu, compressMeasure, if_pos hc]
      exact hnext.2
  · have hne : s.cmd ≠ 2 := by rw [hc]; decide
    refine ((chainFlow_advances h.finder (h.chain hc) fun hst => ht (.inr ⟨hc, hst⟩)).imp
      fun u hu honly hnext => ?_).congr (fun d => if_neg hne) ⟨rfl, rfl⟩ rfl
    have hcu : u.cmd = 3 := (code honly).trans hc
    have hne' : u.cmd ≠ 2 := by rw [hcu]; decide
    refine ⟨⟨busy honly, .inr hcu, hu, fun h2 => absurd h2 hne', fun _ => hnext.1⟩, ?_⟩
    rw [compressMeasure, if_neg hne', compressMeasure, if_neg hne]
    exact lex_lt_of_same rfl hnext.2

end Sys2Proof.Machine
end

section
/-! PROOFS. What a compress command's steps come to (30_encoding.md R91, R115 to R117): every step keeps the block so
far, the last one completes the block, and from accepted arguments the command writes the one block of its source. -/

namespace Sys2Proof.Machine

/-! ## One step -/

/-- The next states of a core step of a compress command: the unit goes on with what it has written still encoding the
source before ANCHOR, or the command ends. -/
inductive CompressFrom (s : State) : State → Prop where
  | goesOn (bytes : List Byte) (u e : State) : CompressRun u → FinderOnly s u →
    Encodes s s.mf.anchor bytes u.mf.anchor → Appended bytes s e → CompressFrom s (u.onto e)
  | ends (t : State) : Finishes (lastBytes s) s t → CompressFrom s t
  | tooSmall (t : State) : t.status = .faulted .destinationTooSmall → CompressFrom s t

theorem CompressRun.coreStep_cases {s t : State} (h : CompressRun s) (hstep : coreStep s = .next t) :
    CompressFrom s t := by
  have hd := h.finder.dst
  by_cases ht : AtTail s
  · obtain ⟨v, hv, hfin⟩ := finishCompress_finishes h.finder hd
    rw [State.onto_self, ← coreStep_tail h.busy ht, hstep] at hv
    cases hv
    exact .ends t hfin
  · obtain ⟨bytes, u, hadv, hrun, -⟩ := h.advances ht
    obtain ⟨hgo, hstop⟩ := hadv.appends s hd
    rw [coreStep_compress h.busy h.code, ← State.onto_self s] at hstep
    rcases Nat.lt_or_ge s.dEnd (s.dPos + bytes.length) with hlt | hfit
    · obtain ⟨r, hr, v, rfl, hv⟩ := hstop hlt
      rw [hr] at hstep
      cases hstep
      exact .tooSmall _ hv
    · obtain ⟨e, he, happ⟩ := hgo hfit
      rw [he] at hstep
      cases hstep
      exact .goesOn bytes u e hrun hadv.only hadv.encodes happ

/-! ## The block so far -/

theorem BlockSoFar.of_not_busy {s : State} (h : s.isBusy = false) : BlockSoFar s := fun hb => by simp [h] at hb

theorem BlockSoFar.of_decode {s : State} (h : s.cmd = 4 ∨ s.cmd = 5) : BlockSoFar s := fun _ hc => by
  rcases h with h | h <;> rw [h] at hc <;> exact absurd hc (by decide)

/-- Nothing is written at the start. -/
theorem BlockSoFar.of_start {s : State} (hpos : s.dPos = 0) (hanchor : s.mf.anchor = 0) : BlockSoFar s := fun _ _ => by
  rw [hpos, hanchor]
  exact .nil

theorem CommandFrom.blockSoFar {s t : State} (h : CommandFrom s t) (hs : BlockSoFar s) : BlockSoFar t := by
  cases h with
  | ignored hb => exact hs
  | clear hb => exact .of_not_busy rfl
  | maxlen hb hbad => exact .of_not_busy rfl
  | refused code hb => exact .of_not_busy rfl
  | compressFast hb hbad => exact .of_start rfl rfl
  | compressHc hb hbad => exact .of_start rfl rfl
  | decompressTrust hb hbad => exact .of_decode (.inl rfl)
  | decompressSafe hb hbad => exact .of_decode (.inr rfl)

theorem CompressFrom.blockSoFar {s t : State} (h : CompressFrom s t) (hwf : Memory.wf s.dst = true)
    (hs : Expands (encoderAllows s.mf.n) (dstRun s 0 s.dPos) (srcRun s 0 s.mf.anchor)) : BlockSoFar t := by
  cases h with
  | goesOn bytes u e hrun honly hencodes happ =>
    intro _ _
    have hall := hencodes _ hs
    rw [← happ.output hwf, ← honly.length, ← honly.srcRun] at hall
    exact hall
  | ends t hfin => exact .of_not_busy hfin.not_busy
  | tooSmall t hst => exact .of_not_busy (by simp [State.isBusy, hst, Status.faulted])

theorem coreStep_blockSoFar {s t : State} (hsafe : Safe s) (hwf : Memory.wf s.dst = true) (hs : BlockSoFar s)
    (h : coreStep s = .next t) : BlockSoFar t := by
  rcases coreStep_cases h with ⟨-, rfl⟩ | ⟨hb, hmove⟩
  · exact hs
  · intro hbt hct
    have hcmd : t.cmd = s.cmd := by rw [hmove.frame.same]
    rw [hcmd] at hct
    exact ((hsafe.compressRun hb hct).coreStep_cases h).blockSoFar hwf (hs hb hct) hbt (hcmd ▸ hct)

theorem StepFrom.blockSoFar {s t : State} (h : StepFrom s t) (hsafe : Safe s) (hwf : Memory.wf s.dst = true)
    (hs : BlockSoFar s) : BlockSoFar t := by
  cases h with
  | core _ hc => exact coreStep_blockSoFar hsafe hwf hs hc
  | command _ hc => exact hc.blockSoFar hs
  | arguments _ _ _ _ _ _ hb => exact .of_not_busy hb
  | hostData => exact hs
  | writeSrc a b hb => exact .of_not_busy hb
  | writeDst a b hb => exact .of_not_busy hb
  | reset => exact .of_not_busy rfl

/-- Settles O57, by the cases of a step: a compress step appends whole sequences for the source between the old and the
new ANCHOR. -/
theorem compressedPrefixDecodes : Obligations.CompressedPrefixDecodes := by
  intro s t hsafe hstorage hs h
  obtain ⟨q, hq⟩ := step_cases h
  exact hq.blockSoFar (hsafe.setHost q) (storageWf_iff.mp hstorage).buffers.dst_wf hs

/-! ## The last step -/

/-- A command that ends in DONE has written its bytes behind what stood before D_POS, and RESULT counts both. -/
theorem Finishes.output {bytes : List Byte} {d t : State} (h : Finishes bytes d t) (hd : DstRegion d)
    (hwf : Memory.wf d.dst = true) (hdone : t.status.run = .done) :
    t.result.toNat = d.dPos + bytes.length ∧ dstRun t 0 t.result.toNat = dstRun d 0 d.dPos ++ bytes := by
  have hend := hd.end_lt
  rcases Nat.lt_or_ge d.dEnd (d.dPos + bytes.length) with hlt | hfit
  · rw [h.small hlt] at hdone
    cases hdone
  · obtain ⟨-, hresult, hrun⟩ := h.done hfit
    have hlen : t.result.toNat = d.dPos + bytes.length := by
      rw [hresult, BitVec.toNat_ofNat]
      omega
    exact ⟨hlen, hlen ▸ hrun hwf⟩

/-- Settles O58: the step that ends in DONE is the one at TAIL, which appends the final sequence for the source from
ANCHOR on. -/
theorem compressCompletesWithBlock : Obligations.CompressCompletesWithBlock := by
  intro s t hcompress hsafe hstorage hs h hdone
  have hb : s.isBusy = true := hcompress.elim Compressing.busy Compressing.busy
  have hc : s.cmd = 2 ∨ s.cmd = 3 := hcompress.imp Compressing.code Compressing.code
  have hquiet : s.host = [] := hcompress.elim Compressing.quiet Compressing.quiet
  have hrun := hsafe.compressRun hb hc
  rw [step_quiet hquiet] at h
  cases hrun.coreStep_cases h with
  | goesOn bytes u e hu honly hencodes happ =>
    have hbusy : u.status.run = .busy := by simpa [State.isBusy] using hu.busy
    cases hbusy.symm.trans hdone
  | ends t hfin =>
    rw [(hfin.output hrun.finder.dst (storageWf_iff.mp hstorage).buffers.dst_wf hdone).2]
    exact lastBytes_encodes hrun.finder _ (hs hb hc)
  | tooSmall t hst =>
    rw [hst] at hdone
    cases hdone

/-! ## The whole command -/

/-- From any point between two steps of a compress command on, the bytes it will write depend on the source and the
finder only: it ends with them in every destination they fit, and with the fault in every other. -/
theorem CompressRun.runs {s : State} (h : CompressRun s) (hquiet : s.host = []) :
    ∃ bytes, EncodesBlock s s.mf.anchor bytes ∧
      ∀ d, DstRegion d → ∃ k v, steps k (s.onto d) = .next v ∧ Finishes bytes d v := by
  by_cases ht : AtTail s
  · refine ⟨lastBytes s, lastBytes_encodes h.finder, fun d hd => ?_⟩
    obtain ⟨v, hv, hfin⟩ := finishCompress_finishes h.finder hd
    have hstep : step (s.onto d) = finishCompress (s.onto d) :=
      (step_quiet (s := s.onto d) hquiet).trans (coreStep_tail (s := s.onto d) h.busy ht)
    exact ⟨1, v, steps_one (hstep.trans hv), hfin⟩
  · obtain ⟨xs, u, hadv, hrun, hlt⟩ := h.advances ht
    have hu : u.host = [] := by
      rw [hadv.only.same]
      exact hquiet
    obtain ⟨ys, hblock, hruns⟩ := hrun.runs hu
    refine ⟨xs ++ ys, hadv.encodes.block hadv.only hblock, fun d hd => ?_⟩
    have hstep : step (s.onto d) = (compressFlow (s.onto d)).finish :=
      (step_quiet (s := s.onto d) hquiet).trans (coreStep_compress (s := s.onto d) h.busy h.code)
    obtain ⟨hgo, hstop⟩ := hadv.appends d hd
    rcases Nat.lt_or_ge d.dEnd (d.dPos + xs.length) with hover | hfit
    · obtain ⟨r, hr, v, rfl, hv⟩ := hstop hover
      refine ⟨1, v, steps_one (by rw [hstep, hr, Flow.finish_stop]), fun hfit => ?_, fun _ => hv⟩
      rw [List.length_append] at hfit
      omega
    · obtain ⟨e, he, happ⟩ := hgo hfit
      obtain ⟨k, v, hk, hv⟩ := hruns e (happ.dstRegion hd hfit)
      exact ⟨k + 1, v, (steps_succ (by rw [hstep, he, Flow.finish_go])).trans hk, hv.prepend happ⟩
termination_by compressMeasure s
decreasing_by exact hlt

/-- The state a compress command starts its finder in. -/
def compressStart (i : Instr) (s : State) : State :=
  if i = .compressFast then setupFast (startCommand 2 s) else setupChain (startCommand 3 s)

/-- A command with checks that is BUSY once it has started had accepted arguments. -/
theorem checkedCommand_starts {code : Word} {bad : State → Bool} {start : State → State} {s u : State}
    (hb : s.isBusy = false)
    (h : hostCommand code (fun t => if bad t then raiseInvalidArgument t else .next (start t)) s = .next u)
    (hbusy : u.isBusy = true) : bad (startCommand code s) = false ∧ u = start (startCommand code s) := by
  rw [hostCommand_start hb] at h
  cases hbad : bad (startCommand code s) with
  | true =>
    simp only [hbad, if_true, raiseInvalidArgument_eq] at h
    cases h
    cases hbusy
  | false =>
    simp only [hbad] at h
    cases h
    exact ⟨rfl, rfl⟩

theorem exec_compress_busy {i : Instr} (hi : i = .compressFast ∨ i = .compressHc) {s u : State} (hb : s.isBusy = false)
    (h : exec i s = .next u) (hbusy : u.isBusy = true) : badCompressArgs s = false ∧ u = compressStart i s := by
  rcases hi with rfl | rfl
  · exact checkedCommand_starts hb h hbusy
  · exact checkedCommand_starts hb h hbusy

theorem compressStart_rules {i : Instr} (hi : i = .compressFast ∨ i = .compressHc) {s : State}
    (h : badCompressArgs s = false) : FinderRules (compressStart i s) := by
  simp only [badCompressArgs, Bool.or_eq_false_iff, checkK1, checkK2, checkK3, checkK4, checkK6,
    decide_eq_false_iff_not] at h
  rcases hi with rfl | rfl <;>
    refine ⟨⟨?_, ?_⟩, ⟨?_, ?_, ?_, Nat.zero_le _⟩, ?_, rfl, rfl, Nat.zero_le _⟩ <;>
    simp [compressStart, setupFast, setupChain, setupFinder, startCommand] <;> omega

theorem compressStart_run {i : Instr} (hi : i = .compressFast ∨ i = .compressHc) {s : State}
    (h : badCompressArgs s = false) : CompressRun (compressStart i s) := by
  have hrules : FinderRules (compressStart i s) := compressStart_rules hi h
  rcases hi with rfl | rfl
  · exact ⟨rfl, .inl rfl, hrules, fun _ => ⟨Nat.le_refl _, fun e he => nomatch he⟩,
      fun hc => absurd hc (of_decide_eq_false rfl)⟩
  · exact ⟨rfl, .inr rfl, hrules, fun hc => absurd hc (of_decide_eq_false rfl), fun _ => trivial⟩

/-- `s` with other destination arguments. -/
def State.withDst (s : State) (cap off len : Word) : State := { s with dstCap := cap, dstOff := off, dstLen := len }

/-- The destination arguments reach a compress command's start in its destination only. -/
theorem compressStart_onto {i : Instr} (hi : i = .compressFast ∨ i = .compressHc) (s : State)
    (cap off len cap' off' len' : Word) :
    (compressStart i (s.withDst cap off len)).onto (compressStart i (s.withDst cap' off' len')) =
      compressStart i (s.withDst cap' off' len') := by
  rcases hi with rfl | rfl <;> rfl

theorem compressStart_fields {i : Instr} (hi : i = .compressFast ∨ i = .compressHc) (s : State) :
    (compressStart i s).dPos = 0 ∧ (compressStart i s).dEnd = s.dstLen.toInt.toNat ∧
      (compressStart i s).mf.n = s.srcLen.toInt.toNat ∧ (compressStart i s).mf.anchor = 0 ∧
      (compressStart i s).host = s.host ∧ (compressStart i s).dst = s.dst ∧
      (∀ p k, srcRun (compressStart i s) p k = srcRun s p k) := by
  rcases hi with rfl | rfl <;> exact ⟨rfl, rfl, rfl, rfl, rfl, rfl, fun _ _ => rfl⟩

/-- One block for every accepted destination (R117): the command ends in every way `Finishes` says. -/
theorem compress_one_block {i : Instr} (hi : i = .compressFast ∨ i = .compressHc) {s : State} (hquiet : s.host = []) :
    ∃ block, ∀ cap off len, badCompressArgs (s.withDst cap off len) = false →
      IsWrittenBlock block (srcRun s 0 s.srcLen.toInt.toNat) ∧
      ∃ k t, steps k (compressStart i (s.withDst cap off len)) = .next t ∧
        Finishes block (compressStart i (s.withDst cap off len)) t := by
  by_cases hsome : ∃ cap off len, badCompressArgs (s.withDst cap off len) = false
  · obtain ⟨cap, off, len, hok⟩ := hsome
    obtain ⟨-, -, hn, hanchor, hhost, -, hsrc⟩ := compressStart_fields hi (s.withDst cap off len)
    obtain ⟨block, hblock, hruns⟩ := (compressStart_run hi hok).runs (hhost.trans hquiet)
    have hwritten := hblock [] (by rw [hanchor]; exact .nil)
    rw [hn, hsrc] at hwritten
    refine ⟨block, fun cap' off' len' hok' => ⟨hwritten, ?_⟩⟩
    have hrun := hruns _ (compressStart_rules hi hok').dst
    rwa [compressStart_onto hi] at hrun
  · exact ⟨[], fun cap off len hok => absurd ⟨cap, off, len, hok⟩ hsome⟩

/-- Settles O59: the bytes do not depend on the destination, so the one run of the source decides for all of them. -/
theorem compressCommandsRunToBlock : Obligations.CompressCommandsRunToBlock := by
  intro s i hi hb hquiet hstorage
  obtain ⟨block, hall⟩ := compress_one_block hi hquiet
  refine ⟨block, fun cap off len u hexec hbusy => ?_⟩
  obtain ⟨hok, rfl⟩ := exec_compress_busy hi (s := s.withDst cap off len) hb hexec hbusy
  obtain ⟨hwritten, k, t, hk, hfin⟩ := hall cap off len hok
  obtain ⟨hpos, hend, -, -, -, hdst, -⟩ := compressStart_fields hi (s.withDst cap off len)
  have hregion := (compressStart_rules hi hok).dst
  have hlen : ((compressStart i (s.withDst cap off len)).dEnd : Int) = len.toInt := hregion.end_is_len.trans (by
    rcases hi with rfl | rfl <;> rfl)
  have hwf : Memory.wf (compressStart i (s.withDst cap off len)).dst = true :=
    hdst ▸ (storageWf_iff.mp hstorage).buffers.dst_wf
  have hmax : block.length ≤ maxCompressedLength s.srcLen.toInt.toNat := by
    have hle := hwritten.isBlock.length_le
    rw [srcRun_length] at hle
    simp only [maxCompressedLength]
    omega
  have hdone : block.length ≤ len.toInt → t.status = .done := fun hfit => (hfin.done (by rw [hpos]; omega)).1
  refine ⟨hwritten, k, t, hk, fun hfit => ?_, fun hlt => hfin.small (by rw [hpos]; omega), fun hfit => hdone (by omega)⟩
  have hout := hfin.output hregion hwf (by rw [hdone hfit]; rfl)
  rw [hpos, Nat.zero_add] at hout
  obtain ⟨hresult, hrun⟩ := hout
  refine ⟨hdone hfit, hresult, ?_⟩
  rw [← hresult, hrun]
  rfl

end Sys2Proof.Machine
end

section
/-! PROOFS. The sequence encoder (40_sequence_encoder.md R111 to R116): the bytes of a length field, the size of a block,
and the exact state an emission and TAIL leave. -/

namespace Sys2Proof.Machine

/-! ## The size of a block (R116) -/

/-- Settles O8: a non-final sequence exceeds its output by at most one byte in 255 (`seqSize_le`, summed by
`Expands.length_le`), and the final one adds at most two bytes (`IsBlock.length_le`). -/
theorem blockSizeBound : Obligations.BlockSizeBound := by
  intro bytes out h
  have hle := h.length_le
  exact ⟨hle, by unfold maxCompressedLength; omega⟩

/-! ## Length fields (R111) -/

theorem writeLen_length {x : Nat} (h : 15 ≤ x) : (writeLen x).length = extSize x := by
  rw [← extensionBytes_long h, extensionBytes_length]

/-- The FF bytes count `(x - 15) / 255` times 255 and the last byte the remainder. -/
theorem writeLen_sum (x : Nat) : ((writeLen x).map BitVec.toNat).sum = x - 15 := by
  have hlast : (BitVec.ofNat 8 ((x - 15) % 255)).toNat = (x - 15) % 255 := by
    rw [BitVec.toNat_ofNat]
    omega
  simp only [writeLen, Config.nibbleCap, List.map_append, List.map_replicate, List.map_singleton, List.sum_append,
    List.sum_replicate, List.sum_singleton, hlast, smul_eq_mul]
  exact Nat.div_add_mod' (x - 15) 255

/-- Settles O5: `writeLen` is a run of FF bytes and the remainder by 255. -/
theorem writeLenBytes : Obligations.WriteLenBytes := fun x hx =>
  ⟨writeLen_length hx, writeLen_sum x, _, _, rfl, fun _ hb => List.eq_of_mem_replicate hb, writeLen_last_ne x⟩

/-! ## Emission (R113, R114) -/

/-- `t` is `s` with `bytes` written at D_POS and D_POS moved over them; no other byte of DST differs. -/
structure Wrote (bytes : List Byte) (s t : State) : Prop where
  same : t = { s with dPos := s.dPos + bytes.length, dst := t.dst, dstOpen := t.dstOpen }
  run : dstRun t s.dPos bytes.length = bytes
  frame : ∀ a : Nat, (a : Int) < dstAddr s s.dPos ∨ dstAddr s (s.dPos + bytes.length) ≤ a → dstRead t a = dstRead s a

/-- An emission that fits goes on, and writes its bytes and nothing else. -/
theorem emitBytes_wrote {bytes : List Byte} {s : State} (h : DstRegion s) (hwf : Memory.wf s.dst = true)
    (hfit : s.dPos + bytes.length ≤ s.dEnd) : ∃ t, emitBytes bytes s = .go t ∧ Wrote bytes s t := by
  obtain ⟨u, hu⟩ := dstPutList_inside h hfit
  obtain ⟨honly, -, hframe⟩ := dstPutList_frame hu
  refine ⟨_, emitBytes_fits hfit hu, by rw [honly], dstRun_eq_iff.mpr fun i hi => dstPutList_value hu hwf i hi,
    fun a ha => hframe a fun i hi => ?_⟩
  have hoff := h.off_nonneg
  unfold dstAddr at ha ⊢
  omega

/-- Settles O41: EMIT_SEQ is one emission of the assembled sequence, whose length is `seqSize`. -/
theorem emitSeqWrites : Obligations.EmitSeqWrites := by
  intro s start ref len h hwf _ _ _ _ hend
  have hemit := emitSeq_eq h (by omega : start ≤ s.mf.n) ref len
  have hlen := assemble_seq_length (srcRun s s.mf.anchor (start - s.mf.anchor)) (BitVec.ofNat 16 (start - ref)) len
  rw [srcRun_length] at hlen
  simp only [hemit, ← hlen]
  refine ⟨emitBytes_too_small, fun hfit => ?_⟩
  obtain ⟨t, ht, hwrote⟩ := emitBytes_wrote h.dst hwf hfit
  exact ⟨t, ht, hwrote.same, hwrote.run, hwrote.frame⟩

/-! ## TAIL (R140, R163, R218) -/

/-- A completion changes STATUS, RESULT and what the destination region holds. -/
theorem completeRegion_same (result : Nat) (s : State) :
    completeRegion result s =
      { s with
        status := .done, result := BitVec.ofNat 32 result
        dst := (completeRegion result s).dst, dstOpen := (completeRegion result s).dstOpen
        draws := (completeRegion result s).draws } := by
  unfold completeRegion openRegionFrom openDst
  split <;> rfl

/-- A completion leaves every byte before D_POS and every byte after the destination region as it was (R33). -/
theorem dstRead_completeRegion_outside {result a : Nat} {s : State} (h : a < dstBase s + s.dPos ∨ dstLimit s ≤ a) :
    dstRead (completeRegion result s) a = dstRead s a :=
  dstRead_openRegionFrom_outside (s := complete result s) h

/-- The addresses of the destination region, as naturals. -/
theorem DstRegion.dstAddr_eq {s : State} (h : DstRegion s) (q : Nat) : dstAddr s q = (dstBase s + q : Nat) := by
  have hoff := h.off_nonneg
  unfold dstAddr dstBase
  omega

/-- DST_LEN of a running command is D_END. -/
theorem DstRegion.dstLimit_eq {s : State} (h : DstRegion s) : dstLimit s = dstBase s + s.dEnd := by
  have hend := h.end_is_len
  unfold dstLimit dstBase
  omega

/-- What TAIL leaves where the final sequence fits: the sequence at D_POS, then a completion with RESULT behind it. -/
theorem finishCompress_completes {s : State} (h : FinderRules s) (hwf : Memory.wf s.dst = true)
    (hfit : s.dPos + (lastBytes s).length ≤ s.dEnd) :
    ∃ u, Wrote (lastBytes s) s u ∧ finishCompress s = .next (completeRegion u.dPos u) := by
  obtain ⟨u, hu, hwrote⟩ := emitBytes_wrote h.dst hwf hfit
  refine ⟨u, hwrote, ?_⟩
  rw [finishCompress, emitLast_eq h, ← lastBytes, hu, Flow.andThen_go, Flow.finish_go]

theorem finishCompress_too_small {s : State} (h : FinderRules s) (hlt : s.dPos + (lastBytes s).length > s.dEnd) :
    finishCompress s = raiseDestinationTooSmall s := by
  rw [finishCompress, emitLast_eq h, ← lastBytes, emitBytes_too_small hlt, Flow.andThen_stop, Flow.finish_stop]

/-- The bytes just written lie before D_POS, so a completion keeps them, and all that the writing has left alone. -/
theorem Wrote.completed {bytes : List Byte} {s u : State} (h : Wrote bytes s u) (hd : DstRegion s)
    (hfit : s.dPos + bytes.length ≤ s.dEnd) :
    dstRun (completeRegion u.dPos u) s.dPos bytes.length = bytes ∧
      ∀ a : Nat, (a : Int) < dstAddr s s.dPos ∨ (dstLimit s : Int) ≤ a →
        dstRead (completeRegion u.dPos u) a = dstRead s a := by
  have hbase : dstBase u = dstBase s := by rw [h.same]; rfl
  have hlimit : dstLimit u = dstLimit s := by rw [h.same]; rfl
  have hpos : u.dPos = s.dPos + bytes.length := by rw [h.same]
  have haddr : ∀ q, dstAddr (completeRegion u.dPos u) q = dstAddr u q := fun q => by
    rw [completeRegion_same]
    rfl
  have haddr' : ∀ q, dstAddr u q = dstAddr s q := fun q => by rw [h.same]; rfl
  refine ⟨?_, fun a ha => ?_⟩
  · refine Eq.trans (dstRun_congr fun i hi => ?_) h.run
    rw [dstAt, dstAt, haddr, haddr', hd.dstAddr_eq, Int.toNat_natCast]
    exact dstRead_completeRegion_outside (by omega)
  · have hend := hd.dstLimit_eq
    rw [hd.dstAddr_eq] at ha
    rw [dstRead_completeRegion_outside (by omega)]
    exact h.frame a (by rw [hd.dstAddr_eq, hd.dstAddr_eq]; omega)

/-- Settles O42: a step of either finder at TAIL is `finishCompress`, one emission of the final sequence and a
completion. -/
theorem tailCompletes : Obligations.TailCompletes := by
  intro s htail h hwf
  have hquiet : s.host = [] := htail.elim (·.1.quiet) (·.1.quiet)
  have hbusy : s.isBusy = true := htail.elim (·.1.busy) (·.1.busy)
  have hat : AtTail s := htail.imp (And.imp_left Compressing.code) (And.imp_left Compressing.code)
  have hstep : step s = finishCompress s := by rw [step_quiet hquiet, coreStep_tail hbusy hat]
  have hlen : (lastBytes s).length = lastSize (s.mf.n - s.mf.anchor) := by
    rw [lastBytes, finalBytes_length, srcRun_length]
  simp only [hstep, ← hlen]
  refine ⟨finishCompress_too_small h, fun hfit => ?_⟩
  obtain ⟨u, hwrote, hfin⟩ := finishCompress_completes h hwf hfit
  obtain ⟨hrun, hframe⟩ := hwrote.completed h.dst hfit
  refine ⟨_, hfin, ?_, hrun, hframe⟩
  rw [completeRegion_same, hwrote.same]

end Sys2Proof.Machine
end

section
/-! PROOFS. The hash-table match finder, state by state (41_match_finder_hash_table.md R131 to R139): the hash, what
PROBE accepts, where the walks of CATCHUP and EXTEND stop, and the next state of each label. -/

namespace Sys2Proof.Machine

/-! ## The hash (R131) -/

/-- HASH as a division: the top `log` bits of the low 32 bits of the product. -/
theorem hash_eq_div (v log : Nat) : hash v log = v * 2654435761 % 2 ^ 32 / 2 ^ (32 - log) := by
  rw [hash, Nat.shiftRight_eq_div_pow, Config.hashMult_eq]

/-- Settles O36, by `hash_eq_div` and `hash_lt`; the worked values are computed. -/
theorem hashRange : Obligations.HashRange :=
  ⟨fun v log hlog => ⟨hash_eq_div v log, hash_lt hlog v⟩, by decide, by decide, by decide⟩

/-! ## PROBE (R133) -/

/-- Two positions have four equal bytes exactly when `rd32` reads the same there. -/
theorem sameBytes_iff_rd32 {s : State} (h : SrcRegion s.mf.n s) {a b : Int} (ha : 0 ≤ a) (ha' : a + 4 ≤ s.mf.n)
    (hb : 0 ≤ b) (hb' : b + 4 ≤ s.mf.n) {v w : Nat} (hva : rd32 a s = .go v) (hwb : rd32 b s = .go w) :
    SameBytes s a b 4 ↔ v = w := by
  constructor
  · intro hsame
    have h0 := hsame 0 (by decide)
    have h1 := hsame 1 (by decide)
    have h2 := hsame 2 (by decide)
    have h3 := hsame 3 (by decide)
    simp only [Nat.cast_zero, Nat.cast_one, Nat.cast_ofNat, add_zero] at h0 h1 h2 h3
    rw [rd32_inside h ha ha', h0, h1, h2, h3, ← rd32_inside h hb hb', hwb] at hva
    exact (Flow.go.inj hva).symm
  · rintro rfl
    exact sameBytes_of_rd32 h ha ha' hb hb' hva hwb

/-- What PROBE at `p` accepts of a slot: a position in the window with the same four bytes. Only large mode tests the
window, for in small mode every earlier position is in it. -/
def Accepted (s : State) (p : Nat) (slot : Option Nat) (q : Nat) : Prop :=
  slot = some q ∧ ¬(65536 ≤ s.mf.n ∧ p - q > 65535) ∧ SameBytes s q p 4

theorem tooFar_iff {s : State} {p c : Nat} :
    (largeMode s && decide (p - c > Config.maxOffset)) = true ↔ 65536 ≤ s.mf.n ∧ p - c > 65535 :=
  Bool.and_eq_true_iff.trans (and_congr decide_eq_true_iff decide_eq_true_iff)

/-- PROBE goes on with the slot of its word replaced, and the candidate it answers is the accepted one. -/
theorem probe_accepts {s : State} (h : FinderRules s) {p : Nat} (hslots : SlotsBelow s p) (hp : p + 4 ≤ s.mf.n)
    {v : Nat} (hv : rd32 p s = .go v) :
    ∃ c, probe p s = .go (c, { s with ht := storeSet none s.ht (hash v (htLog s)) (some p) }) ∧
      ∀ q, c = some q ↔ Accepted s p (storeGet none s.ht (hash v (htLog s))) q := by
  rw [probe, hv, Flow.andThen_go]
  cases hslot : storeGet none s.ht (hash v (htLog s)) with
  | none => exact ⟨none, by simp only [hslot], fun q => ⟨nofun, fun hq => nomatch hq.1⟩⟩
  | some c =>
    obtain ⟨hlt, hle⟩ := hslots _ (mem_of_storeGet hslot nofun) c rfl
    obtain ⟨w, hw⟩ : ∃ w, rd32 c s = .go w := ⟨_, rd32_inside h.src (by omega) (by omega)⟩
    have hsame : SameBytes s c p 4 ↔ w = v :=
      sameBytes_iff_rd32 h.src (by omega) (by omega) (by omega) (by omega) hw hv
    simp only [hslot, tooFar_iff, hw, Flow.andThen_go]
    split
    · next hfar => exact ⟨none, rfl, fun q => ⟨nofun, fun ⟨hq, hnear, _⟩ => absurd (Option.some.inj hq ▸ hfar) hnear⟩⟩
    · next hnear =>
      split
      · next heq =>
        refine ⟨some c, rfl, fun q => ⟨fun hq => ⟨hq, ?_⟩, fun hq => hq.1⟩⟩
        obtain rfl := Option.some.inj hq
        exact ⟨hnear, hsame.mpr heq⟩
      · next hne =>
        exact ⟨none, rfl, fun q => ⟨nofun, fun ⟨hq, _, hq'⟩ => absurd (hsame.mp (Option.some.inj hq ▸ hq')) hne⟩⟩

/-- Settles O37: `probe_accepts`; an accepted position stood in HT, so it is earlier, and in small mode every earlier
position is in the window. -/
theorem probeAccepts : Obligations.ProbeAccepts := by
  intro s p h hwf hslots hp
  obtain ⟨v, hv⟩ : ∃ v, rd32 p s = .go v := ⟨_, rd32_inside h.src (by omega) (by omega)⟩
  obtain ⟨c, hprobe, hc⟩ := probe_accepts h hslots hp hv
  refine ⟨v, c, hv, hprobe, storeGet_storeSet_same (storageWf_iff.mp hwf).ht.canonical _ _, hc, fun q hq => ?_⟩
  obtain ⟨hslot, hnear, -⟩ := (hc q).mp hq
  obtain ⟨hlt, -⟩ := hslots _ (mem_of_storeGet hslot nofun) q rfl
  omega

/-! ## The walk of CATCHUP (R136) -/

/-- The walk of CATCHUP stops at ANCHOR, at position 0, or where the bytes before both positions differ. -/
theorem catchupFrom_stops {s : State} (h : FinderRules s) {anchor ip cand i c : Nat} (hanchor : anchor ≤ ip)
    (hc : cand ≤ ip) (hip : ip ≤ s.mf.n) (hgo : catchupFrom anchor s ip cand = .go (i, c)) :
    i = anchor ∨ c = 0 ∨ srcAt s ((i - 1 : Nat) : Int) ≠ srcAt s ((c - 1 : Nat) : Int) := by
  induction ip generalizing cand with
  | zero =>
    simp only [catchupFrom, Flow.go.injEq, Prod.mk.injEq] at hgo
    omega
  | succ ip ih =>
    cases cand with
    | zero =>
      simp only [catchupFrom, Flow.go.injEq, Prod.mk.injEq] at hgo
      omega
    | succ cand =>
      rw [catchupFrom, mfByte_inside h (by omega) (by omega), Flow.andThen_go, mfByte_inside h (by omega) (by omega),
        Flow.andThen_go] at hgo
      split at hgo
      · split at hgo
        · exact ih (by omega) (by omega) (by omega) hgo
        · next hne =>
          cases hgo
          exact .inr (.inr hne)
      · cases hgo
        exact .inl (by omega)

/-! ## The next state of a label (R135 to R139) -/

section

variable {s t : State} {c : Nat}

/-- One pass of the loop of SEARCH past MFLIMIT. -/
theorem searchPass_past (h : (s.mf.ip : Int) > s.mf.mfLimit) :
    searchPass s = .go { s with mf := { s.mf with htState := .tail } } := if_pos h

theorem searchPass_found (h : (s.mf.ip : Int) ≤ s.mf.mfLimit) (hprobe : probe s.mf.ip s = .go (some c, t)) :
    searchPass s = .go { s with ht := t.ht, mf := { s.mf with cand := some c, htState := .catchup } } := by
  rw [searchPass, if_neg (Int.not_lt.mpr h), hprobe, Flow.andThen_go]
  obtain ⟨v, -, rfl⟩ := probe_frame hprobe
  rfl

theorem searchPass_missed (h : (s.mf.ip : Int) ≤ s.mf.mfLimit) (hprobe : probe s.mf.ip s = .go (none, t)) :
    searchPass s = .go { s with
      ht := t.ht
      mf := { s.mf with cand := none, ip := s.mf.ip + s.mf.attempts / 64, attempts := s.mf.attempts + 1 } } := by
  rw [searchPass, if_neg (Int.not_lt.mpr h), hprobe, Flow.andThen_go]
  obtain ⟨v, -, rfl⟩ := probe_frame hprobe
  simp only [Nat.shiftRight_eq_div_pow, Config.skipStrength_eq, Nat.reducePow]

theorem reprobe_found (hprobe : probe s.mf.ip s = .go (some c, t)) :
    reprobe s = .go { s with ht := t.ht, mf := { s.mf with cand := some c, htState := .extend } } := by
  rw [reprobe, hprobe, Flow.andThen_go]
  obtain ⟨v, -, rfl⟩ := probe_frame hprobe
  rfl

theorem reprobe_missed (hprobe : probe s.mf.ip s = .go (none, t)) :
    reprobe s = .go { s with
      ht := t.ht, mf := { s.mf with cand := none, ip := s.mf.ip + 1, htState := .search } } := by
  rw [reprobe, hprobe, Flow.andThen_go]
  obtain ⟨v, -, rfl⟩ := probe_frame hprobe
  rfl

/-- EMIT is EMIT_SEQ of the candidate, then the registers behind the match. -/
theorem emit_eq (hc : s.mf.cand = some c) :
    emit s = (emitSeq s.mf.ip c s.mf.mlen s).andThen fun t =>
      .go (afterMatch s.mf.mfLimit s.mf.ip s.mf.mlen t) := by
  simp only [emit, hc]
  rfl

theorem catchup_eq (hc : s.mf.cand = some c) :
    catchup s = (catchupFrom s.mf.anchor s s.mf.ip c).andThen fun r =>
      .go { s with mf := { s.mf with ip := r.1, cand := some r.2, htState := .extend } } := by
  simp only [catchup, hc]

theorem extend_eq (hc : s.mf.cand = some c) :
    extend s = (commonFwd (c + 4) (s.mf.ip + 4) s.mf.matchLimit s).andThen fun k =>
      .go { s with mf := { s.mf with mlen := 4 + k, htState := .emit } } := by
  simp only [extend, hc]
  rfl

end

/-! ## A step of COMPRESS_FAST -/

section

variable {s : State} (h : Compressing 2 s)

include h

theorem step_fast : step s = (fastFlow s).finish := by
  rw [step_quiet h.quiet, coreStep_compress h.busy (.inl h.code), compressFlow, if_pos h.code]

theorem step_search (hst : s.mf.htState = .search) :
    step s = .next { s with mf := { s.mf with attempts := 64, htState := .searchLoop } } := by
  rw [step_fast h, fastFlow, hst]
  rfl

theorem step_searchLoop (hst : s.mf.htState = .searchLoop) : step s = (searchPass s).finish := by
  rw [step_fast h, fastFlow, hst]

theorem step_catchup (hst : s.mf.htState = .catchup) : step s = (catchup s).finish := by
  rw [step_fast h, fastFlow, hst]

theorem step_extend (hst : s.mf.htState = .extend) : step s = (extend s).finish := by
  rw [step_fast h, fastFlow, hst]

theorem step_emit (hst : s.mf.htState = .emit) : step s = (emit s).finish := by
  rw [step_fast h, fastFlow, hst]

theorem step_reprobe (hst : s.mf.htState = .reprobe) : step s = (reprobe s).finish := by
  rw [step_fast h, fastFlow, hst]

end

/-- Settles O38: a step is one pass at the label, by the equations of the labels above. -/
theorem searchLoop : Obligations.SearchLoop := by
  intro s h
  refine ⟨step_search h, fun hst hpast => ?_, fun hst hle t c hprobe => ?_, fun hst hle t hprobe => ?_,
    fun hst c hc => ?_, fun hst t c hprobe => ?_, fun hst t hprobe => ?_⟩
  · rw [step_searchLoop h hst, searchPass_past hpast, Flow.finish_go]
  · rw [step_searchLoop h hst, searchPass_found hle hprobe, Flow.finish_go]
  · rw [step_searchLoop h hst, searchPass_missed hle hprobe, Flow.finish_go]
  · rw [step_emit h hst, emit_eq hc]
    exact ⟨fun r hr => by rw [hr, Flow.andThen_stop, Flow.finish_stop],
      fun t ht => by rw [ht, Flow.andThen_go, Flow.finish_go, afterMatch]⟩
  · rw [step_reprobe h hst, reprobe_found hprobe, Flow.finish_go]
  · rw [step_reprobe h hst, reprobe_missed hprobe, Flow.finish_go]

/-- Settles O39: `catchupFrom_walks` says what the walk passes, `catchupFrom_stops` why it ends. -/
theorem catchupWalksBack : Obligations.CatchupWalksBack := by
  intro s h hsafe hst
  have hrules := hsafe.finder h.busy (.inl h.code)
  have hfast := hsafe.fast h.busy h.code
  simp only [FastRules, hst] at hfast
  obtain ⟨⟨cand, hcand, hlt, -, hanchor, hip, -⟩, -⟩ := hfast
  obtain ⟨i, c, d, hgo, hi, hd, ha, hsame⟩ :=
    catchupFrom_walks hrules hanchor (cand := cand) (by omega) (by omega)
  have hstop := catchupFrom_stops hrules hanchor (by omega) (by omega) hgo
  obtain rfl : i = s.mf.ip - d := by omega
  refine ⟨c, d, by rw [hcand, hd], by omega, ha, hsame, hstop, ?_⟩
  rw [step_catchup h hst, catchup_eq hcand, hgo, Flow.andThen_go, Flow.finish_go]

/-- Settles O40: the candidate holds four equal bytes, and `commonFwd_counts` says how many more EXTEND finds. -/
theorem extendIsGreedy : Obligations.ExtendIsGreedy := by
  intro s h hsafe hst
  have hrules := hsafe.finder h.busy (.inl h.code)
  have hfast := hsafe.fast h.busy h.code
  simp only [FastRules, hst] at hfast
  obtain ⟨p, hp, -, ⟨c, hcand, hlt, -, -, hip, hsame⟩, -⟩ := hfast
  have hlimit := hrules.match_limit
  obtain ⟨k, hgo, hk, hfwd, hstop⟩ := commonFwd_counts hrules (a := c + 4) (b := s.mf.ip + 4)
    (limit := s.mf.matchLimit) (by omega) (by omega) (by omega) (by omega)
  refine ⟨c, 4 + k, hcand, by omega, by omega, (hsame.mono (by omega : 4 ≤ p + 4 - s.mf.ip)).append hfwd, ?_, ?_⟩
  · push_cast
    rwa [← add_assoc, ← add_assoc]
  · rw [step_extend h hst, extend_eq hcand, hgo, Flow.andThen_go, Flow.finish_go]

end Sys2Proof.Machine
end

section
/-! PROOFS. The compress commands from start to end, and the invariant of the whole block: accepted arguments start
the finder (44_host_commands.md R210 to R214), both finders end (R142, R166), and every step keeps `Safe` (R142, R165,
R181 to R189). -/

namespace Sys2Proof.Machine

/-! ## Starting (R210 to R214) -/

/-- The checks of a compress command pass when its regions lie in their buffers and the source is short enough
(R211). -/
theorem badCompressArgs_eq_false {s : State} {n d : Nat} (hn : s.srcLen.toInt = n) (hd : s.dstLen.toInt = d)
    (hsrc : 0 ≤ s.srcOff.toInt) (hdst : 0 ≤ s.dstOff.toInt) (hsrcFits : s.srcOff.toInt + n ≤ s.srcCap.toInt)
    (hdstFits : s.dstOff.toInt + d ≤ s.dstCap.toInt) (hmax : n ≤ 2113929216) : badCompressArgs s = false := by
  simp only [badCompressArgs, checkK1, checkK2, checkK3, checkK4, checkK6, checkK7, Bool.or_eq_false_iff,
    decide_eq_false_iff_not]
  rw [Config.maxInputSize_eq]
  omega

/-- A command with checks that pass starts its unit. -/
theorem checkedCommand_accepted {code : Word} {bad : State → Bool} {start : State → State} {s : State}
    (hb : s.isBusy = false) (hok : bad (startCommand code s) = false) :
    hostCommand code (fun u => if bad u then raiseInvalidArgument u else .next (start u)) s =
      .next (start (startCommand code s)) := by
  rw [hostCommand_start hb, hok]
  rfl

/-- Settles O22: the checks pass, so the command is its setup from the command start. -/
theorem compressCommandsStart : Obligations.CompressCommandsStart := by
  intro s n d hb hn hd hsrc hdst hsrcFits hdstFits hmax
  have hok := badCompressArgs_eq_false hn hd hsrc hdst hsrcFits hdstFits hmax
  constructor
  · refine (checkedCommand_accepted (code := 2) (start := setupFast) hb hok).trans ?_
    simp [setupFast, setupFinder, startCommand, hn, hd, Status.busy, Config.lastLiterals]
  · refine (checkedCommand_accepted (code := 3) (start := setupChain) hb hok).trans ?_
    simp [setupChain, setupFinder, startCommand, hn, hd, Status.busy, Config.lastLiterals]

/-! ## Ending (R142 (e), R166) -/

/-- Settles O49, by `CompressRun.runs` on the destination the command has. -/
theorem compressEnds : Obligations.CompressEnds := by
  intro s hcompress hsafe
  have hb : s.isBusy = true := hcompress.elim Compressing.busy Compressing.busy
  have hc : s.cmd = 2 ∨ s.cmd = 3 := hcompress.imp Compressing.code Compressing.code
  have hquiet : s.host = [] := hcompress.elim Compressing.quiet Compressing.quiet
  obtain ⟨bytes, -, hruns⟩ := (hsafe.compressRun hb hc).runs hquiet
  obtain ⟨k, t, hk, hfin⟩ := hruns s (hsafe.finder hb hc).dst
  exact ⟨k, t, hk, hfin.not_busy⟩

/-! ## The invariant of the whole block, by the unit that runs -/

theorem Safe.of_not_busy {s : State} (h : s.isBusy = false) : Safe s := by
  constructor <;> intro hb <;> exact absurd hb (by simp [h])

theorem Safe.of_compressRun {s : State} (h : CompressRun s) : Safe s where
  unit _ := h.code.imp_right .inl
  decoder _ hc := by rcases h.code with h | h <;> rw [h] at hc <;> exact absurd hc (by decide)
  finder _ _ := h.finder
  fast _ := h.fast
  chain _ := h.chain

theorem Safe.of_decoderRules {s : State} (hc : s.cmd = 4 ∨ s.cmd = 5) (h : DecoderRules s) : Safe s := by
  have hne : s.cmd ≠ 2 ∧ s.cmd ≠ 3 := by rcases hc with hc | hc <;> rw [hc] <;> decide
  exact ⟨fun _ => .inr (.inr hc), fun _ _ => h, fun _ hf => absurd hf (not_or.mpr hne), fun _ hf => absurd hf hne.1,
    fun _ hf => absurd hf hne.2⟩

/-! ## What the rules of the units do not read -/

theorem MatchOk.retarget {s : State} {m : MatchReg} (h : MatchOk s m) (d : State) (v : Word) :
    MatchOk { s.onto d with hostData := v } m :=
  ⟨h.ref_nonneg, h.ref_lt, h.window, h.long, h.stop_le, h.same⟩

theorem ChainRules.retarget {s : State} (h : ChainRules s) (d : State) (v : Word) :
    ChainRules { s.onto d with hostData := v } := by
  unfold ChainRules at h ⊢
  cases hst : s.hc.hcState <;> simp only [State.onto, hst] at h ⊢
  case search2 => exact ⟨h.1.retarget d v, h.2.retarget d v⟩
  case search3 => exact ⟨h.1.retarget d v, h.2.retarget d v⟩

/-- A compress command runs on under the rules of its finder whatever its destination and the host's last read are, as
long as the destination region is one. -/
theorem CompressRun.retarget {s : State} (h : CompressRun s) {d : State} (v : Word) (hd : DstRegion d) :
    CompressRun { s.onto d with hostData := v } :=
  have hrules := h.finder.onto hd
  ⟨h.busy, h.code,
    ⟨⟨hrules.src.off_nonneg, hrules.src.fits⟩,
      ⟨hrules.dst.off_nonneg, hrules.dst.end_is_len, hrules.dst.fits, hrules.dst.pos_le⟩, hrules.length,
      hrules.mf_limit, hrules.match_limit, hrules.anchor_le⟩,
    h.fast, fun hc => (h.chain hc).retarget d v⟩

theorem DecoderRules.setHostData {s : State} (h : DecoderRules s) (v : Word) : DecoderRules { s with hostData := v } :=
  ⟨⟨h.src.off_nonneg, h.src.fits⟩, ⟨h.dst.off_nonneg, h.dst.end_is_len, h.dst.fits, h.dst.pos_le⟩, h.bound, h.pos_le,
    h.not_faulted, h.literal, h.match_extension, h.match_length, h.match_source⟩

/-- A read of the host changes nothing the unit invariants speak of. -/
theorem Safe.setHostData {s : State} (h : Safe s) (v : Word) : Safe { s with hostData := v } := by
  cases hb : s.isBusy with
  | false => exact .of_not_busy hb
  | true =>
    have finder : s.cmd = 2 ∨ s.cmd = 3 → Safe { s with hostData := v } := fun hc =>
      .of_compressRun ((h.compressRun hb hc).retarget v (h.finder hb hc).dst)
    have decoder : s.cmd = 4 ∨ s.cmd = 5 → Safe { s with hostData := v } := fun hc =>
      .of_decoderRules hc ((h.decoder hb hc).setHostData v)
    rcases h.unit hb with hc | hc | hc
    · exact finder (.inl hc)
    · exact finder (.inr hc)
    · exact decoder hc

/-! ## Every step keeps it -/

/-- The decoder's rules hold where a decode command with accepted arguments starts (R181). -/
theorem setupDecoder_rules {s : State} {sEnd : Nat} (hsrc : SrcRegion sEnd s) (hdst : 0 ≤ s.dstOff.toInt)
    (hlen : 0 ≤ s.dstLen.toInt) (hfits : s.dstOff.toInt + s.dstLen.toInt ≤ s.dstCap.toInt)
    (hbound : (sEnd : Int) = if s.cmd = trustCode then s.srcCap.toInt - s.srcOff.toInt else s.srcLen.toInt) :
    DecoderRules (setupDecoder sEnd s) where
  src := ⟨hsrc.off_nonneg, hsrc.fits⟩
  dst := ⟨hdst, Int.toNat_of_nonneg hlen, by rw [setupDecoder_dEnd, Int.toNat_of_nonneg hlen]; exact hfits,
    Nat.zero_le _⟩
  bound := hbound
  pos_le := Nat.zero_le _
  not_faulted := nofun
  literal := nofun
  match_extension := nofun
  match_length := nofun
  match_source := nofun

theorem setupDecoder_trust_rules {s : State} (h : badTrustArgs s = false) :
    DecoderRules (setupDecoder (s.srcCap.toInt - s.srcOff.toInt).toNat (startCommand 4 s)) := by
  simp only [badTrustArgs, Bool.or_eq_false_iff, checkK1, checkK2, checkK5, checkK6, decide_eq_false_iff_not] at h
  have hend : ((s.srcCap.toInt - s.srcOff.toInt).toNat : Int) = s.srcCap.toInt - s.srcOff.toInt :=
    Int.toNat_of_nonneg (by omega)
  refine setupDecoder_rules ⟨?_, ?_⟩ ?_ ?_ ?_ (hend.trans (if_pos rfl).symm) <;> simp only [startCommand] <;> omega

theorem setupDecoder_safe_rules {s : State} (h : badSafeArgs s = false) :
    DecoderRules (setupDecoder s.srcLen.toInt.toNat (startCommand 5 s)) := by
  simp only [badSafeArgs, Bool.or_eq_false_iff, checkK1, checkK2, checkK3, checkK4, checkK6,
    decide_eq_false_iff_not] at h
  have hend : (s.srcLen.toInt.toNat : Int) = s.srcLen.toInt := Int.toNat_of_nonneg (by omega)
  have hsafe : (5 : Word) ≠ trustCode := by decide
  refine setupDecoder_rules ⟨?_, ?_⟩ ?_ ?_ ?_ (hend.trans (if_neg hsafe).symm) <;> simp only [startCommand] <;> omega

theorem CommandFrom.safe {s t : State} (h : CommandFrom s t) (hs : Safe s) : Safe t := by
  cases h with
  | ignored hb => exact hs
  | clear hb => exact .of_not_busy rfl
  | maxlen hb hbad => exact .of_not_busy rfl
  | refused code hb => exact .of_not_busy rfl
  | compressFast hb hbad => exact .of_compressRun (compressStart_run (i := .compressFast) (.inl rfl) hbad)
  | compressHc hb hbad => exact .of_compressRun (compressStart_run (i := .compressHc) (.inr rfl) hbad)
  | decompressTrust hb hbad => exact .of_decoderRules (.inl rfl) (setupDecoder_trust_rules hbad)
  | decompressSafe hb hbad => exact .of_decoderRules (.inr rfl) (setupDecoder_safe_rules hbad)

/-- A compress step that goes on keeps the rules of its finder, which do not depend on what it has written. -/
theorem CompressFrom.safe {s t : State} (h : CompressFrom s t) (hd : DstRegion t) : Safe t := by
  cases h with
  | goesOn bytes u e hrun honly hencodes happ => exact .of_compressRun (hrun.retarget (d := u.onto e) u.hostData hd)
  | ends t hfin => exact .of_not_busy hfin.not_busy
  | tooSmall t hst => exact .of_not_busy (by simp [State.isBusy, hst, Status.faulted])

theorem coreStep_safe {s t : State} (hs : Safe s) (h : coreStep s = .next t) : Safe t := by
  obtain ⟨t', ht', -, hrules⟩ := coreStep_answers hs
  obtain rfl : t = t' := Host.Outcome.next.inj (h.symm.trans ht')
  rcases coreStep_cases h with ⟨-, rfl⟩ | ⟨hb, hmove⟩
  · exact hs
  · cases hbt : t.isBusy with
    | false => exact .of_not_busy hbt
    | true =>
      obtain ⟨hdecoder, hfinder⟩ := hrules hbt
      have compress : s.cmd = 2 ∨ s.cmd = 3 → Safe t := fun hc =>
        ((hs.compressRun hb hc).coreStep_cases h).safe (hfinder hc).dst
      have hcmd : t.cmd = s.cmd := by rw [hmove.frame.same]
      rcases hs.unit hb with hc | hc | hc
      · exact compress (.inl hc)
      · exact compress (.inr hc)
      · exact .of_decoderRules (hcmd ▸ hc) (hdecoder hc)

theorem StepFrom.safe {s t : State} (h : StepFrom s t) (hs : Safe s) : Safe t := by
  cases h with
  | core _ hc => exact coreStep_safe hs hc
  | command _ hc => exact hc.safe hs
  | arguments _ _ _ _ _ _ hb => exact .of_not_busy hb
  | hostData v => exact hs.setHostData v
  | writeSrc a b hb => exact .of_not_busy hb
  | writeDst a b hb => exact .of_not_busy hb
  | reset => exact .of_not_busy rfl

/-- Settles O50, by the cases of a step; only a step of the running unit and a command start leave the block BUSY under
rules that have to be shown again. -/
theorem safeKept : Obligations.SafeKept := by
  intro s t hs h
  obtain ⟨q, hq⟩ := step_cases h
  exact hq.safe (hs.setHost q)

end Sys2Proof.Machine
end

section
/-! PROOFS. The hash-chain match finder, operation by operation (42_match_finder_hash_chain.md R151 to R162): what
ADD_HASH writes, what the two searches find and leave unchanged, what ENCODE does, how the trimmings place the matches,
and the next state of each state of the lazy parser. -/

namespace Sys2Proof.Machine

/-! ## ADD_HASH (R151) -/

theorem addHash_eq {s : State} {p v : Nat} (hv : rd32 p s = .go v) :
    addHash p s = .go { s with
      chain := storeSet 0 s.chain (p % 65536) (BitVec.ofNat 16 (chainDelta p (storeGet none s.head (hash v 15))))
      head := storeSet none s.head (hash v 15) (some p) } := by
  rw [addHash, headSlot, hv, Flow.andThen_go, Flow.andThen_go, Config.hashLogHc_eq, Config.chainSize_eq]

/-- Every key of a canonical store after a write. -/
theorem storeGet_storeSet {α : Type} [DecidableEq α] {d : α} {l : List (Nat × α)} (hl : storeWf d l = true)
    (a : Nat) (v : α) (b : Nat) : storeGet d (storeSet d l a v) b = if b = a then v else storeGet d l b := by
  split
  · next heq => rw [heq, storeGet_storeSet_same hl]
  · next hne => exact storeGet_storeSet_ne hne

/-- Settles O43: the two writes of `addHash_eq`, read back from canonical tables. -/
theorem addHashWrites : Obligations.AddHashWrites := by
  intro s p hsrc hwf hp
  obtain ⟨v, hv⟩ : ∃ v, rd32 p s = .go v := ⟨_, rd32_inside hsrc (by omega) (by omega)⟩
  have hstorage := storageWf_iff.mp hwf
  refine ⟨v, _, hv, addHash_eq hv, rfl, fun i => ?_, fun h => storeGet_storeSet hstorage.head.canonical _ _ h⟩
  rw [storeGet_storeSet hstorage.chain.canonical]
  cases storeGet none s.head (hash v 15) <;> rfl

/-! ## FIND_BEST and FIND_WIDER (R155, R156) -/

/-- INSERT_UPTO moves NEXT to `off`, never back, and writes nothing else but CHAIN and HEAD (R152). -/
theorem insertUpto_frame {off : Int} {s t : State} (h : insertUpto off s = .go t) :
    ∃ chain head, t = inserted s chain head (s.hc.next + (off - s.hc.next).toNat) :=
  ⟨_, _, insertCount_frame h⟩

/-- A search that inserts up to `off` and then fills a match register changes the state by its insertions only. -/
theorem search_frame {off : Int} {s t : State} {m : MatchReg} {fill : State → Flow MatchReg}
    (h : (insertUpto off s).andThen (fun u => (fill u).andThen fun m => .go (u, m)) = .go (t, m)) :
    ∃ chain head, t = inserted s chain head (s.hc.next + (off - s.hc.next).toNat) := by
  obtain ⟨u, hins, hrest⟩ := Flow.andThen_eq_go.mp h
  obtain ⟨_, -, ⟨⟩⟩ := Flow.andThen_eq_go.mp hrest
  exact insertUpto_frame hins

theorem findBest_frame {off : Int} {s t : State} {m : MatchReg} (h : findBest off s = .go (t, m)) :
    ∃ chain head, t = inserted s chain head (s.hc.next + (off - s.hc.next).toNat) := search_frame h

theorem findWider_frame {off startLimit minLen : Int} {m0 m : MatchReg} {s t : State}
    (h : findWider off startLimit minLen m0 s = .go (t, m)) :
    ∃ chain head, t = inserted s chain head (s.hc.next + (off - s.hc.next).toNat) := search_frame h

theorem next_insertUpto (next off : Nat) : next + ((off : Int) - next).toNat = max next off := by omega

/-- Settles O44: `findBest_finds` says what the register holds, `findBest_frame` where NEXT stands. -/
theorem findBestFindsMatches : Obligations.FindBestFindsMatches := by
  intro s off h hoff
  obtain ⟨_, _, _, m, hgo, hstart, hok⟩ := findBest_finds h hoff
  obtain ⟨chain, head, hframe⟩ := findBest_frame hgo
  rw [next_insertUpto] at hframe
  rw [hframe] at hgo
  exact ⟨_, m, hgo, rfl, hstart, hok⟩

/-- Settles O45: `findWider_finds` says what the register holds, `findWider_frame` where NEXT stands. -/
theorem findWiderFindsMatches : Obligations.FindWiderFindsMatches := by
  intro s off startLimit minLen m0 h hoff hstart hmin
  obtain ⟨_, _, _, m, hgo, hm⟩ := findWider_finds h (Int.natCast_nonneg off) hoff startLimit minLen m0
  obtain ⟨chain, head, hframe⟩ := findWider_frame hgo
  rw [next_insertUpto] at hframe
  rw [hframe] at hgo
  refine ⟨_, m, hgo, rfl, ?_⟩
  rcases hm with rfl | ⟨hlen, hok, hlimit, hle, hcover⟩
  · exact ⟨fun hlt => absurd hlt (lt_irrefl minLen), fun _ => rfl⟩
  · exact ⟨fun _ => ⟨hok, hlimit (by omega), hle, hcover⟩, fun hnot => absurd hlen hnot⟩

/-! ## ENCODE (R158) -/

section

variable {s t : State} {m : MatchReg}

theorem encodeMatch_dropped (h : m.start > s.mf.mfLimit ∨ m.len < 4 ∨ m.start < s.mf.anchor) :
    encodeMatch m s = .go { s with mf := { s.mf with ip := (max (s.mf.anchor : Int) m.stop).toNat } } := if_pos h

theorem encodeMatch_emitted (h : ¬(m.start > s.mf.mfLimit ∨ m.len < 4 ∨ m.start < s.mf.anchor)) :
    encodeMatch m s = (emitSeq m.start.toNat m.ref.toNat m.len.toNat s).andThen fun t =>
      .go { t with mf := { t.mf with anchor := m.stop.toNat, ip := m.stop.toNat } } := if_neg h

/-- EMIT_SEQ writes D_POS and DST bytes only (R113). -/
theorem emitSeq_frame {start ref len : Nat} (h : emitSeq start ref len s = .go t) : Emitted s t := by
  obtain ⟨lits, -, hemit⟩ := Flow.andThen_eq_go.mp h
  obtain ⟨-, u, hput, rfl⟩ := emitBytes_eq_go hemit
  obtain ⟨honly, -⟩ := dstPutList_frame hput
  rw [Emitted, honly]

/-- ENCODE writes no register of MF-HC. -/
theorem encodeMatch_hc (h : encodeMatch m s = .go t) : t.hc = s.hc := by
  by_cases hdrop : m.start > s.mf.mfLimit ∨ m.len < 4 ∨ m.start < s.mf.anchor
  · rw [encodeMatch_dropped hdrop] at h
    cases h
    rfl
  · rw [encodeMatch_emitted hdrop] at h
    obtain ⟨u, hu, ⟨⟩⟩ := Flow.andThen_eq_go.mp h
    rw [emitSeq_frame hu]

end

/-- Settles O46, by `encodeMatch_dropped` and `encodeMatch_emitted`. -/
theorem encodeDropsOrEmits : Obligations.EncodeDropsOrEmits := by
  intro s m
  refine ⟨encodeMatch_dropped, fun hstart hlen hanchor => ?_⟩
  rw [encodeMatch_emitted (by omega)]
  exact ⟨fun t ht => by rw [ht, Flow.andThen_go]; rfl, fun r hr => by rw [hr, Flow.andThen_stop]⟩

/-! ## Trimmings (R157, R162) -/

section

variable {s : State} {m1 m2 : MatchReg}

/-- What part (a) of SEARCH3 leaves to M1: its first 18 bytes, or fewer where M2 would keep fewer than 4 (R162). -/
def leftToM1 (m1 m2 : MatchReg) : Int :=
  if m1.start + min m1.len 18 > m2.stop - 4 then m2.start - m1.start + m2.len - 4 else min m1.len 18

theorem trimM2_eq (m1 m2 : MatchReg) :
    trimM2 m1 m2 =
      if m2.start - m1.start < 18 ∧ leftToM1 m1 m2 - (m2.start - m1.start) > 0 then
        m2.fix (leftToM1 m1 m2 - (m2.start - m1.start))
      else m2 :=
  (ite_and _ _ _ _).symm

/-- What is left of a match behind its first bytes has the end and the distance of the match. -/
theorem fix_stop (m : MatchReg) (c : Int) : (m.fix c).stop = m.stop := by
  simp only [MatchReg.fix, MatchReg.stop]
  omega

theorem fix_distance (m : MatchReg) (c : Int) : (m.fix c).start - (m.fix c).ref = m.start - m.ref :=
  add_sub_add_right_eq_sub ..

theorem trimM2_distance (m1 m2 : MatchReg) :
    (trimM2 m1 m2).start - (trimM2 m1 m2).ref = m2.start - m2.ref := by
  rw [trimM2_eq]
  split
  · exact fix_distance ..
  · rfl

/-- Part (a) of SEARCH3 moves the start of M2 to the end of M1 capped at 18 bytes, but not past its last 4 bytes. -/
theorem trimM2_start (hlong : 4 ≤ m2.len) :
    (trimM2 m1 m2).start =
      if m2.start - m1.start < 18 then max m2.start (min (m1.start + min m1.len 18) (m2.stop - 4)) else m2.start := by
  have hleft : m1.start + leftToM1 m1 m2 = min (m1.start + min m1.len 18) (m2.stop - 4) := by
    unfold leftToM1 MatchReg.stop
    split <;> omega
  have hlast : m2.start ≤ m2.stop - 4 := by unfold MatchReg.stop; omega
  rw [trimM2_eq, ← hleft]
  by_cases hnear : m2.start - m1.start < 18
  · rw [if_pos hnear]
    split
    · simp only [MatchReg.fix]
      omega
    · omega
  · rw [if_neg hnear, if_neg fun h => hnear h.1]

/-- Part (d) of SEARCH3 where M2 starts inside M1, but not inside its first 15 bytes. -/
theorem trimAscending_far (hover : m2.start < m1.stop) (hfar : ¬m2.start - m1.start < Config.nibbleCap) :
    trimAscending m1 m2 = ({ m1 with len := m2.start - m1.start }, m2) := (if_pos hover).trans (if_neg hfar)

theorem trimAscending_apart (h : ¬m2.start < m1.stop) : trimAscending m1 m2 = (m1, m2) := if_neg h

/-- The trimming of part (d) of SEARCH3, by its three cases. -/
theorem trimAscending_eq (m1 m2 : MatchReg) :
    let near := m2.start < m1.stop ∧ m2.start - m1.start < 15
    let first : MatchReg :=
      if near then { m1 with len := min (min m1.len 18) (m2.stop - 4 - m1.start) } else cutM1 m1 m2
    trimAscending m1 m2 = (first, if near then m2.fix (first.stop - m2.start) else m2) := by
  intro near first
  by_cases hover : m2.start < m1.stop
  · by_cases hnear : m2.start - m1.start < 15
    · have hboth : near := ⟨hover, hnear⟩
      rw [trimAscending_near hover hnear, if_pos hboth, show first = _ from if_pos hboth]
      rfl
    · have hnot : ¬near := fun hboth => hnear hboth.2
      rw [trimAscending_far hover hnear, if_neg hnot, show first = _ from if_neg hnot, cutM1, if_pos hover]
  · have hnot : ¬near := fun hboth => hover hboth.1
    rw [trimAscending_apart hover, if_neg hnot, show first = _ from if_neg hnot, cutM1, if_neg hover]

/-- Part (d) of SEARCH3 leaves M1 where it starts, makes it end where M2 then starts if it reached over that, and keeps
the end and the distance of M2. -/
theorem trimAscending_places (m1 m2 : MatchReg) :
    (trimAscending m1 m2).2.stop = m2.stop ∧
      (trimAscending m1 m2).2.start - (trimAscending m1 m2).2.ref = m2.start - m2.ref ∧
      (trimAscending m1 m2).1 = { m1 with len := (trimAscending m1 m2).1.len } ∧
      (trimAscending m1 m2).1.len ≤ m1.len ∧ (trimAscending m1 m2).1.stop ≤ (trimAscending m1 m2).2.start ∧
      (m2.start < m1.stop → (trimAscending m1 m2).1.stop = (trimAscending m1 m2).2.start) := by
  by_cases hover : m2.start < m1.stop
  · by_cases hnear : m2.start - m1.start < Config.nibbleCap
    · rw [trimAscending_near hover hnear]
      have hmeet : m2.start + (m1.start + min (min m1.len 18) (m2.stop - 4 - m1.start) - m2.start) =
          m1.start + min (min m1.len 18) (m2.stop - 4 - m1.start) := add_sub_cancel ..
      exact ⟨fix_stop .., fix_distance .., rfl, by simp only; omega, hmeet.ge, fun _ => hmeet.symm⟩
    · rw [trimAscending_far hover hnear]
      have hmeet : m1.start + (m2.start - m1.start) = m2.start := add_sub_cancel ..
      unfold MatchReg.stop at hover
      exact ⟨rfl, rfl, rfl, by simp only; omega, hmeet.le, fun _ => hmeet⟩
  · rw [trimAscending_apart hover]
    exact ⟨rfl, rfl, rfl, le_refl _, not_lt.mp hover, fun h => absurd h hover⟩

end

/-- Settles O48: the trimmings keep matches by the lemmas on `MatchOk`, and the places are those of `trimM2_start`,
`fix_stop` and `trimAscending_places`. -/
theorem trimmingKeepsMatches : Obligations.TrimmingKeepsMatches := by
  intro s m1 m2 h1 h2
  obtain ⟨htrim, hstop⟩ := trimM2_matchOk (m1 := m1) h2
  obtain ⟨hstop', hdistance, hfirst, hlen, hle, hmeet⟩ := trimAscending_places m1 m2
  refine ⟨⟨htrim, hstop, trimM2_distance m1 m2, trimM2_start h2.long⟩, fun hover => ⟨add_sub_cancel .., ?_⟩,
    fun m3 h3 hover => ⟨add_sub_cancel .., fix_stop .., fix_distance .., ?_⟩,
    ⟨(trimAscending_matchOk h1 h2).2, hstop', hdistance, by rw [hfirst], by rw [hfirst], hlen, hle, hmeet⟩⟩
  · exact h1.cut (by unfold MatchReg.stop at hover; omega)
  · have hsaved := savedM2_matchOk (m1 := m1) h2 h3
    rwa [savedM2, if_pos hover] at hsaved

/-! ## The next state of a state of the lazy parser (R160 to R162) -/

/-- A step that is a computation and what follows it ends with the outcome that stops the computation, or as what
follows ends. -/
theorem Flow.finish_andThen {α : Type} {x : Flow α} {f : α → Flow State} {r : Result}
    (hr : r = (x.andThen f).finish) :
    (∀ q, x = .stop q → r = q) ∧ ∀ a, x = .go a → r = (f a).finish := by
  subst hr
  exact ⟨fun q hq => by rw [hq, Flow.andThen_stop, Flow.finish_stop], fun a ha => by rw [ha, Flow.andThen_go]⟩

section

variable {s t : State} {m : MatchReg} (h : Compressing 3 s)

include h

theorem step_chain : step s = (chainFlow s).finish := by
  rw [step_quiet h.quiet, coreStep_compress h.busy (.inr h.code), compressFlow, if_neg (by rw [h.code]; decide)]

theorem step_main (hst : s.hc.hcState = .main) : step s = (chainMain s).finish := by
  rw [step_chain h, chainFlow, hst]

theorem step_search2 (hst : s.hc.hcState = .search2) : step s = (chainSearch2 s).finish := by
  rw [step_chain h, chainFlow, hst]

theorem step_search3 (hst : s.hc.hcState = .search3) :
    step s = (search3From { s with hc := { s.hc with m2 := trimM2 s.hc.m1 s.hc.m2 } }).finish := by
  rw [step_chain h, chainFlow, hst, ← chainSearch3_eq]

end

section

variable {s t : State} {m : MatchReg}

theorem chainMain_past (hpast : (s.mf.ip : Int) > s.mf.mfLimit) : chainMain s = .go (goHc .tail s) := if_pos hpast

theorem chainMain_searches (hle : (s.mf.ip : Int) ≤ s.mf.mfLimit) (hfind : findBest s.mf.ip s = .go (t, m)) :
    chainMain s =
      if m.len ≠ 0 then .go { t with hc := { t.hc with m1 := m, m0 := m, hcState := .search2 } }
      else .go { t with hc := { t.hc with m1 := m, hcState := .main }, mf := { t.mf with ip := t.mf.ip + 1 } } := by
  rw [chainMain, if_neg (Int.not_lt.mpr hle), hfind, Flow.andThen_go]

theorem chainSearch2_past (hpast : s.hc.m1.stop - 2 > s.mf.mfLimit) : chainSearch2 s = takeM1 s := if_pos hpast

theorem chainSearch2_searches (hle : s.hc.m1.stop - 2 ≤ s.mf.mfLimit)
    (hfind : findWider (s.hc.m1.stop - 2) (s.hc.m1.start + 1) s.hc.m1.len s.hc.m2 s = .go (t, m)) :
    chainSearch2 s =
      if m.len > s.hc.m1.len then .go (weighM2 { t with hc := { t.hc with m2 := m } })
      else takeM1 { t with hc := { t.hc with m2 := m } } := by
  rw [chainSearch2]
  simp only [if_neg (Int.not_lt.mpr hle), hfind, Flow.andThen_go]

theorem search3From_past (hpast : s.hc.m2.stop - 3 > s.mf.mfLimit) : search3From s = takeBoth s := if_pos hpast

theorem search3From_searches (hle : s.hc.m2.stop - 3 ≤ s.mf.mfLimit)
    (hfind : findWider (s.hc.m2.stop - 3) s.hc.m2.start s.hc.m2.len s.hc.m3 s = .go (t, m)) :
    search3From s =
      if m.len > s.hc.m2.len then weighM3 { t with hc := { t.hc with m3 := m } }
      else takeBoth { t with hc := { t.hc with m3 := m } } := by
  rw [search3From, if_neg (Int.not_lt.mpr hle), hfind, Flow.andThen_go]

theorem weighM3_inside (hin : s.hc.m3.start < s.hc.m1.stop) :
    weighM3 s = .go { s with hc := { s.hc with m2 := s.hc.m3, hcState := .search3 } } := by
  rw [weighM3, if_pos (by omega), if_neg (by omega)]

theorem weighM3_behind (hge : s.hc.m1.stop ≤ s.hc.m3.start) (hnear : s.hc.m3.start < s.hc.m1.stop + 3) :
    weighM3 s = dropM2 s := by
  rw [weighM3, if_pos hnear, if_pos hge]

theorem weighM3_ascending (hfar : s.hc.m1.stop + 3 ≤ s.hc.m3.start) : weighM3 s = shiftDown s :=
  if_neg (by omega)

/-- SEARCH2 with a wider match: it becomes M1 where the match kept before it would keep fewer than 3 bytes. -/
theorem weighM2_eq (s : State) :
    weighM2 s =
      if s.hc.m2.start - (keptM1 s.hc).start < 3 then { s with hc := { s.hc with m1 := s.hc.m2, hcState := .search2 } }
      else { s with hc := { s.hc with m1 := keptM1 s.hc, hcState := .search3 } } := rfl

variable {r : Result}

/-- The end of a step that takes M1 and M2 (R162 (b)). -/
theorem takeBoth_finish (hr : r = (takeBoth s).finish) :
    let w : State := { s with hc := { s.hc with m1 := cutM1 s.hc.m1 s.hc.m2 } }
    (∀ q, encodeMatch w.hc.m1 w = .stop q → r = q) ∧ ∀ t, encodeMatch w.hc.m1 w = .go t →
      (∀ q, encodeMatch s.hc.m2 t = .stop q → r = q) ∧
        ∀ u, encodeMatch s.hc.m2 t = .go u → r = .next (goHc .main u) := by
  obtain ⟨hstop, hgo⟩ := Flow.finish_andThen (hr.trans (congrArg Flow.finish (takeBoth_eq s)))
  exact ⟨hstop, fun t ht => Flow.finish_andThen (hgo t ht)⟩

/-- The end of a step that writes M1 with M3 behind it (R162 (c)). -/
theorem dropM2_finish (hr : r = (dropM2 s).finish) :
    let saved := savedM2 s.hc.m1 s.hc.m2 s.hc.m3
    let w : State := { s with hc := { s.hc with m2 := saved } }
    (∀ q, encodeMatch s.hc.m1 w = .stop q → r = q) ∧ ∀ u, encodeMatch s.hc.m1 w = .go u →
      r = .next { u with hc := { u.hc with m1 := s.hc.m3, m0 := saved, hcState := .search2 } } :=
  Flow.finish_andThen (hr.trans (congrArg Flow.finish (dropM2_eq s)))

/-- The end of a step that writes the first of three ascending matches (R162 (d)); ENCODE leaves M3 as it is. -/
theorem shiftDown_finish {first second : MatchReg} (htrim : trimAscending s.hc.m1 s.hc.m2 = (first, second))
    (hr : r = (shiftDown s).finish) :
    let w : State := { s with hc := { s.hc with m1 := first, m2 := second } }
    (∀ q, encodeMatch first w = .stop q → r = q) ∧ ∀ u, encodeMatch first w = .go u →
      r = .next { u with hc := { u.hc with m1 := second, m2 := s.hc.m3, hcState := .search3 } } := by
  rw [shiftDown, htrim] at hr
  obtain ⟨hstop, hgo⟩ := Flow.finish_andThen hr
  exact ⟨hstop, fun u hu => (hgo u hu).trans (by rw [Flow.finish_go, encodeMatch_hc hu])⟩

end

/-- Settles O47: a step is one pass at the state; the searches change only CHAIN, HEAD and NEXT, so M1, M2 and IP are
still those the step began with. -/
theorem lazyParserStates : Obligations.LazyParserStates := by
  intro s h
  refine ⟨fun hst hpast => ?_, fun hst hle t m hfind => ?_, fun hst => ⟨fun hpast => ?_, fun hle t m hfind => ?_⟩,
    fun hst => ?_⟩
  · rw [step_main h hst, chainMain_past hpast]; rfl
  · obtain ⟨chain, head, rfl⟩ := findBest_frame hfind
    rw [step_main h hst, chainMain_searches hle hfind]
    exact ⟨fun hzero => by rw [if_neg (not_not.mpr hzero)]; rfl, fun hfound => by rw [if_pos hfound]; rfl⟩
  · have hstep := step_search2 h hst
    rw [chainSearch2_past hpast] at hstep
    exact (Flow.finish_andThen hstep).symm
  · obtain ⟨chain, head, rfl⟩ := findWider_frame hfind
    have hstep := step_search2 h hst
    rw [chainSearch2_searches hle hfind] at hstep
    refine ⟨fun hlen => ?_, fun hlen => ⟨_, rfl, fun hnear => ?_, fun hfar => ?_⟩⟩
    · rw [if_neg (Int.not_lt.mpr hlen)] at hstep
      exact (Flow.finish_andThen hstep).symm
    · rw [if_pos hlen] at hstep
      exact hstep.trans (congrArg Host.Outcome.next ((weighM2_eq _).trans (if_pos hnear)))
    · rw [if_pos hlen] at hstep
      exact hstep.trans (congrArg Host.Outcome.next ((weighM2_eq _).trans (if_neg (Int.not_lt.mpr hfar))))
  · intro m1 gap newLen m2 trimmed takeBoth
    have htrim : trimM2 s.hc.m1 s.hc.m2 = m2 := trimM2_eq ..
    have hstep : step s = (search3From trimmed).finish := by rw [step_search3 h hst, htrim]
    refine ⟨fun hpast => ?_, fun hle t m3 hfind => ?_⟩
    · exact takeBoth_finish (s := trimmed) (hstep.trans (congrArg Flow.finish (search3From_past hpast)))
    · intro v
      obtain ⟨chain, head, rfl⟩ := findWider_frame hfind
      rw [search3From_searches (s := trimmed) hle hfind] at hstep
      refine ⟨fun hlen => ?_, fun hlen hin => ?_, fun hlen hge hnear => ?_, fun hlen hfar => ?_⟩
      · exact takeBoth_finish (s := v) (hstep.trans (congrArg Flow.finish (if_neg (Int.not_lt.mpr hlen))))
      · exact hstep.trans (congrArg Flow.finish ((if_pos hlen).trans (weighM3_inside hin)))
      · exact dropM2_finish (s := v)
          (hstep.trans (congrArg Flow.finish ((if_pos hlen).trans (weighM3_behind hge hnear))))
      · intro near first second w
        have hshift : trimAscending m1 m2 = (first, second) := trimAscending_eq m1 m2
        exact shiftDown_finish (s := v) hshift
          (hstep.trans (congrArg Flow.finish ((if_pos hlen).trans (weighM3_ascending hfar))))

end Sys2Proof.Machine
end

section
/-! PROOFS. The states of the block decoder where they go on (43_block_decoder.md R183 to R189), and one step over a
sequence as the walk through them, which ends the command or comes closer to the end of the source (R191, R195). -/

namespace Sys2Proof.Machine

/-! ## What a state leaves where it goes on -/

theorem fetchGuard_eq_go {s t : State} (h : fetchGuard s = .go t) : s.bd.sPos < s.bd.sEnd ∧ t = s := by
  unfold fetchGuard at h
  split at h
  · cases h
  · cases h
    exact ⟨by omega, rfl⟩

/-- ReadToken (R183). -/
theorem takeToken_eq_go {t : Byte} {s u : State} (h : takeToken t s = .go u) : u = tokenTaken t s := by
  obtain ⟨v, hv, hset⟩ := Flow.andThen_eq_go.mp h
  obtain ⟨-, rfl⟩ := fetchGuard_eq_go hv
  cases hset
  rfl

/-- An extension byte is taken in a length extension only (R184, R188). -/
theorem takeExtension_eq_go {b : Byte} {s u : State} (h : takeExtension b s = .go u) :
    InExtension s ∧ u = if b = 255#8 then continued s else extensionRead 1 b.toNat s := by
  obtain ⟨v, hv, hadd⟩ := Flow.andThen_eq_go.mp h
  obtain ⟨hp, rfl⟩ := fetchGuard_eq_go hv
  have hin : InExtension v := by
    cases hst : v.bd.bdState <;> simp only [addExtension, hst, reduceCtorEq] at hadd
    · exact .inl hst
    · exact .inr hst
  refine ⟨hin, ?_⟩
  split
  · next hb =>
    subst hb
    rw [takeExtension_more hin hp] at h
    cases h
    rfl
  · next hb =>
    rw [takeExtension_end hb hin hp] at h
    cases h
    rfl

/-- ReadOffset (R187). -/
theorem readOffset_eq_go {s t : State} (h : readOffset s = .go t) :
    ∃ off, t = takeMatchNibble (takeOffset off s) := by
  unfold readOffset at h
  split at h
  · cases h
  · obtain ⟨lo, -, h⟩ := Flow.andThen_eq_go.mp h
    obtain ⟨hi, -, h⟩ := Flow.andThen_eq_go.mp h
    simp only at h
    split at h
    · cases h
    · split at h
      · cases h
      · cases h
        exact ⟨offsetOf lo hi, rfl⟩

/-- CopyMatch (R189). -/
theorem copyMatch_eq_go {s t : State} (h : copyMatch s = .go t) :
    ∃ u, DstOnly s u ∧
      t = { u with dPos := s.dPos + s.bd.matchLen, bd := { u.bd with bdState := .readToken } } := by
  unfold copyMatch at h
  split at h
  · cases h
  · obtain ⟨u, hu, h⟩ := Flow.andThen_eq_go.mp h
    cases h
    exact ⟨u, (copyBytes_frame hu).1, rfl⟩

/-! ## The source position only grows -/

/-- From `s` to `t` the bound of the source is the same and S_POS has not moved back. -/
structure Advances (s t : State) : Prop where
  sEnd : t.bd.sEnd = s.bd.sEnd
  sPos : s.bd.sPos ≤ t.bd.sPos

theorem Advances.trans {s t u : State} (h : Advances s t) (g : Advances t u) : Advances s u :=
  ⟨g.sEnd.trans h.sEnd, h.sPos.trans g.sPos⟩

theorem extensionRead_advances (count added : Nat) (s : State) : Advances s (extensionRead count added s) := by
  unfold extensionRead
  split <;> exact ⟨rfl, Nat.le_add_right _ _⟩

theorem continued_advances (s : State) : Advances s (continued s) := by
  unfold continued
  split <;> exact ⟨rfl, Nat.le_succ _⟩

theorem takeExtension_advances {b : Byte} {s u : State} (h : takeExtension b s = .go u) : Advances s u := by
  obtain ⟨-, rfl⟩ := takeExtension_eq_go h
  split
  · exact continued_advances s
  · exact extensionRead_advances 1 _ s

theorem copyLiterals_advances {s t : State} (h : copyLiterals s = .go t) : Advances s t := by
  obtain ⟨-, -, u, hu, rfl⟩ := copyLiterals_eq_go h
  rw [(dstPutList_frame hu).1]
  exact ⟨rfl, Nat.le_add_right _ _⟩

theorem readOffset_advances {s t : State} (h : readOffset s = .go t) : Advances s t := by
  obtain ⟨off, rfl⟩ := readOffset_eq_go h
  exact ⟨rfl, Nat.le_add_right _ _⟩

theorem copyMatch_advances {s t : State} (h : copyMatch s = .go t) : Advances s t := by
  obtain ⟨u, hu, rfl⟩ := copyMatch_eq_go h
  rw [hu]
  exact ⟨rfl, Nat.le_refl _⟩

/-- A step that ends the command leaves the block not BUSY. -/
theorem Ends.not_busy {s t : State} (h : Ends s t) : t.isBusy = false := by
  rcases h.reason with ⟨hst, -⟩ | ⟨hst, -⟩ | ⟨hst, -⟩ <;> rw [State.isBusy, hst] <;> rfl

theorem Runs.isBusy {s t : State} (h : Runs s t) : t.isBusy = s.isBusy := by rw [State.isBusy, h.status]; rfl

theorem Flow.RunsFrom.runs {s t : State} {x : Flow State} (hx : x.RunsFrom s) (h : x = .go t) : Runs s t := by
  rw [h] at hx
  exact hx

/-- A computation that leaves the block BUSY went on. -/
theorem Flow.RunsFrom.go_of_busy {s t : State} {x : Flow State} (hx : x.RunsFrom s) (h : x.finish = .next t)
    (hb : t.isBusy = true) : x = .go t := by
  rcases Flow.finish_eq_next.mp h with hgo | hstop
  · exact hgo
  · rw [hstop] at hx
    rw [(hx t rfl).not_busy] at hb
    cases hb

theorem peek_takeExtension_runs (s : State) : ((peek s).andThen fun b => takeExtension b s).RunsFrom s :=
  (peek_holds s).andThen (fun _ => id) fun b _ => takeExtension_runs b s

theorem peek_takeToken_runs (s : State) : ((peek s).andThen fun t => takeToken t s).RunsFrom s :=
  (peek_holds s).andThen (fun _ => id) fun t _ => takeToken_runs t s

/-- A state of the decoder after which the command is still running; ReadToken passes a byte. -/
theorem decoderUnitStep_advances {s t : State} (h : decoderUnitStep s = .next t) (hb : t.isBusy = true) :
    Advances s t ∧ (s.bd.bdState = .readToken → s.bd.sPos < t.bd.sPos) := by
  have extension : ((peek s).andThen fun b => takeExtension b s).finish = .next t → Advances s t := fun h => by
    obtain ⟨b, -, hgo⟩ := Flow.andThen_eq_go.mp ((peek_takeExtension_runs s).go_of_busy h hb)
    exact takeExtension_advances hgo
  unfold decoderUnitStep at h
  cases hst : s.bd.bdState <;> simp only [hst] at h
  case readToken =>
    obtain ⟨b, -, hgo⟩ := Flow.andThen_eq_go.mp ((peek_takeToken_runs s).go_of_busy h hb)
    rw [takeToken_eq_go hgo]
    exact ⟨⟨rfl, Nat.le_succ _⟩, fun _ => Nat.lt_succ_self _⟩
  all_goals refine ⟨?_, nofun⟩
  case readLiteralLenExtension => exact extension h
  case readMatchLenExtension => exact extension h
  case copyLiterals =>
    cases hv : copyLiterals s with
    | go v =>
      rw [hv] at h
      cases h
      split at hb
      · rw [(finishDecode_ends v).not_busy] at hb
        cases hb
      · next hnot =>
        rw [if_neg hnot]
        exact (copyLiterals_advances hv).trans ⟨rfl, Nat.le_refl _⟩
    | stop r =>
      have hruns := copyLiterals_runs s
      rw [hv] at h hruns
      rw [(hruns t h).not_busy] at hb
      cases hb
  case readOffset => exact readOffset_advances ((readOffset_runs s).go_of_busy h hb)
  case copyMatch => exact copyMatch_advances ((copyMatch_runs s).go_of_busy h hb)
  case done =>
    cases h
    rw [(finishDecode_ends s).not_busy] at hb
    cases hb
  case faulted => cases h

/-! ## The walk through the states -/

/-- The decoder's states, taken one at a time from `s`, lead to `t`, which is the first of them that stands in ReadToken
or is not BUSY. -/
inductive WalksTo : State → State → Prop where
  | last {s t : State} : decoderUnitStep s = .next t → t.isBusy = false ∨ t.bd.bdState = .readToken → WalksTo s t
  | on {s u t : State} : decoderUnitStep s = .next u → u.isBusy = true → u.bd.bdState ≠ .readToken → WalksTo u t →
    WalksTo s t

/-- A walk as a number of single states. -/
theorem WalksTo.run {s t : State} (h : WalksTo s t) :
    ∃ k, 1 ≤ k ∧ decoderUnitRun k s = .next t ∧ (t.isBusy = false ∨ t.bd.bdState = .readToken) ∧
      ∀ j, 1 ≤ j → j < k → ∃ u, decoderUnitRun j s = .next u ∧ u.isBusy = true ∧ u.bd.bdState ≠ .readToken := by
  induction h with
  | last hstep hend => exact ⟨1, Nat.le_refl 1, by simp [decoderUnitRun, hstep], hend, fun j h1 hj => by omega⟩
  | @on s u t hstep hb hst _ ih =>
    obtain ⟨k, hk, hrun, hend, hbetween⟩ := ih
    refine ⟨k + 1, by omega, by simp [decoderUnitRun, hstep, hrun], hend, fun j h1 hj => ?_⟩
    obtain ⟨j, rfl⟩ := Nat.exists_eq_succ_of_ne_zero (Nat.ne_of_gt h1)
    cases j with
    | zero => exact ⟨u, by simp [decoderUnitRun, hstep], hb, hst⟩
    | succ j =>
      obtain ⟨v, hv, hvb, hvst⟩ := hbetween (j + 1) (by omega) (by omega)
      exact ⟨v, by rw [← hv]; conv_lhs => rw [decoderUnitRun, hstep], hvb, hvst⟩

/-- A walk after which the command is still running; one from ReadToken passes a byte. -/
theorem WalksTo.advances {s t : State} (h : WalksTo s t) (hb : t.isBusy = true) :
    Advances s t ∧ (s.bd.bdState = .readToken → s.bd.sPos < t.bd.sPos) := by
  induction h with
  | last hstep _ => exact decoderUnitStep_advances hstep hb
  | on hstep hub _ _ ih =>
    obtain ⟨hadv, hlt⟩ := decoderUnitStep_advances hstep hub
    have hrest := (ih hb).1
    exact ⟨hadv.trans hrest, fun hst => (hlt hst).trans_le hrest.sPos⟩

/-- A computation that answers what the walk from `s` leads to. -/
def Flow.WalksFrom (s : State) (x : Flow State) : Prop := ∀ t, x.finish = .next t → WalksTo s t

/-- A state of the decoder that ends the command ends the walk. -/
theorem Flow.WalksFrom.stop {s : State} {r : Result} (hstep : decoderUnitStep s = r) (hr : Stops s r) :
    (Flow.stop r : Flow State).WalksFrom s := by
  rintro t rfl
  exact .last hstep (.inl (hr t rfl).not_busy)

/-- The state of the decoder at `s` runs `x`, after which the walk goes on. -/
theorem Flow.WalksFrom.andThen {s : State} {x : Flow State} {f : State → Flow State}
    (hstep : decoderUnitStep s = x.finish) (hx : x.RunsFrom s) (hb : s.isBusy = true)
    (hf : ∀ u, x = .go u → u.isBusy = true → u.bd.bdState ≠ .readToken ∧ (f u).WalksFrom u) :
    (x.andThen f).WalksFrom s := by
  intro t h
  cases x with
  | go u =>
    have hub : u.isBusy = true := (Runs.isBusy hx).trans hb
    obtain ⟨hst, hwalk⟩ := hf u rfl hub
    exact .on hstep hub hst (hwalk t h)
  | stop r => exact Flow.WalksFrom.stop hstep hx t h

/-- CopyMatch ends a walk (R189). -/
theorem copyMatch_walks {s : State} (hst : s.bd.bdState = .copyMatch) : (copyMatch s).WalksFrom s := by
  intro t h
  have hstep : decoderUnitStep s = .next t := by rw [decoderUnitStep, hst]; exact h
  have hruns := copyMatch_runs s
  cases hx : copyMatch s with
  | go u =>
    rw [hx] at h
    cases h
    obtain ⟨v, -, rfl⟩ := copyMatch_eq_go hx
    exact .last hstep (.inr rfl)
  | stop r =>
    rw [hx] at h hruns
    exact .last hstep (.inl (hruns t h).not_busy)

theorem InExtension.ne_readToken {s : State} (hin : InExtension s) : s.bd.bdState ≠ .readToken := by
  rcases hin with hst | hst <;> rw [hst] <;> decide

theorem continued_sPos (s : State) : (continued s).bd.sPos = s.bd.sPos + 1 := by
  unfold continued
  split <;> rfl

theorem extensionRead_ne_readToken (count added : Nat) (s : State) :
    (extensionRead count added s).bd.bdState ≠ .readToken := by
  unfold extensionRead
  split <;> nofun

theorem decoderUnitStep_extension {s : State} (hin : InExtension s) :
    decoderUnitStep s = ((peek s).andThen fun b => takeExtension b s).finish := by
  rcases hin with hst | hst <;> simp only [decoderUnitStep, hst]

/-- A length extension is a walk with one state a byte; the budget of `runExtension` reaches the end of the source. -/
theorem runExtension_walks {budget : Nat} {s : State} {f : State → Flow State} (hin : InExtension s)
    (hb : s.isBusy = true) (hbudget : s.bd.sEnd ≤ s.bd.sPos + budget)
    (hf : ∀ count added, runExtension budget s = .go (extensionRead count added s) →
      (f (extensionRead count added s)).WalksFrom (extensionRead count added s)) :
    ((runExtension budget s).andThen f).WalksFrom s := by
  have hstep := decoderUnitStep_extension hin
  induction budget generalizing s with
  | zero =>
    rw [peek_exhausted hbudget, Flow.andThen_stop, Flow.finish_stop] at hstep
    rw [runExtension, Flow.andThen_stop]
    exact .stop hstep (stops_raiseCorruptInput _ s)
  | succ budget ih =>
    have hpeek := peek_holds s
    cases hx : peek s with
    | stop r =>
      rw [hx] at hpeek hstep
      rw [runExtension, hx, Flow.andThen_stop, Flow.andThen_stop]
      exact .stop hstep hpeek
    | go b =>
      rw [hx] at hstep
      have heq : runExtension (budget + 1) s =
          (takeExtension b s).andThen fun t => if b = 255#8 then runExtension budget t else .go t := by
        rw [runExtension, hx, Flow.andThen_go]
      rw [heq] at hf ⊢
      rw [Flow.andThen_assoc]
      refine Flow.WalksFrom.andThen hstep (takeExtension_runs b s) hb fun u hu hub => ?_
      rw [hu] at hf
      obtain ⟨-, rfl⟩ := takeExtension_eq_go hu
      by_cases hmore : b = 255#8
      · rw [if_pos hmore] at hub
        simp only [if_pos hmore, Flow.andThen_go] at hf ⊢
        have hin' := continued_inExtension hin
        have hbudget' : (continued s).bd.sEnd ≤ (continued s).bd.sPos + budget := by
          rw [(continued_advances s).sEnd, continued_sPos]
          omega
        refine ⟨hin'.ne_readToken, ih hin' hub hbudget' (fun count added hread => ?_)
          (decoderUnitStep_extension hin')⟩
        rw [extensionRead_continued hin] at hread ⊢
        exact hf _ _ hread
      · simp only [if_neg hmore, Flow.andThen_go] at hf ⊢
        exact ⟨extensionRead_ne_readToken 1 _ s, hf 1 b.toNat rfl⟩

theorem readExtensionAt_walks {s : State} {f : State → Flow State} (hin : InExtension s) (hb : s.isBusy = true)
    (hf : ∀ count added, readExtensionAt s = .go (extensionRead count added s) →
      (f (extensionRead count added s)).WalksFrom (extensionRead count added s)) :
    ((readExtensionAt s).andThen f).WalksFrom s := runExtension_walks hin hb (by omega) hf

/-- The walk from ReadToken to CopyLiterals (R183, R184). -/
theorem literalLength_walks {t : Byte} {s : State} {f : State → Flow State} (hst : s.bd.bdState = .readToken)
    (hpeek : peek s = .go t) (hb : s.isBusy = true)
    (hf : ∀ u, literalLength t s = .go u → u.bd.bdState = .copyLiterals → u.bd.token = t → u.isBusy = true →
      (f u).WalksFrom u) : ((literalLength t s).andThen f).WalksFrom s := by
  have hstep : decoderUnitStep s = (takeToken t s).finish := by
    rw [decoderUnitStep, hst, hpeek]
    rfl
  rw [literalLength, Flow.andThen_assoc]
  refine Flow.WalksFrom.andThen hstep (takeToken_runs t s) hb fun u hu hub => ?_
  have hlit : literalLength t s = if u.bd.bdState = .readLiteralLenExtension then readExtensionAt u else .go u := by
    rw [literalLength, hu, Flow.andThen_go]
  obtain rfl := takeToken_eq_go hu
  by_cases h15 : highNibble t = 15#4
  · have hext : (tokenTaken t s).bd.bdState = .readLiteralLenExtension := if_pos h15
    refine ⟨by rw [hext]; decide, ?_⟩
    rw [if_pos hext] at hlit ⊢
    refine readExtensionAt_walks (.inl hext) hub fun count added hread => ?_
    have hcopy : (extensionRead count added (tokenTaken t s)).bd.bdState = .copyLiterals := by
      rw [extensionRead, if_pos hext]
    have htoken : (extensionRead count added (tokenTaken t s)).bd.token = t := by
      rw [extensionRead, if_pos hext]
      rfl
    have hbusy : (extensionRead count added (tokenTaken t s)).isBusy = true := by
      rw [extensionRead, if_pos hext]
      exact hb
    exact hf _ (hlit.trans hread) hcopy htoken hbusy
  · have hcopy : (tokenTaken t s).bd.bdState = .copyLiterals := if_neg h15
    have hne : (tokenTaken t s).bd.bdState ≠ .readLiteralLenExtension := by rw [hcopy]; decide
    refine ⟨by rw [hcopy]; decide, ?_⟩
    rw [if_neg hne] at hlit ⊢
    exact hf _ hlit hcopy rfl hub

/-- A computation that goes on from CopyLiterals where the terminal test says that the sequence is not final (R185,
R186). -/
theorem copyLiterals_walks {s : State} {f : State → Flow State} (hst : s.bd.bdState = .copyLiterals)
    (hb : s.isBusy = true)
    (hf : ∀ v, copyLiterals s = .go v → terminal v = false ∧ (f v).WalksFrom (toReadOffset v)) :
    ((copyLiterals s).andThen f).WalksFrom s := by
  have hruns := copyLiterals_runs s
  cases hx : copyLiterals s with
  | stop r =>
    rw [hx] at hruns
    refine .stop ?_ hruns
    simp only [decoderUnitStep, hst, hx, Flow.andThen_stop, Flow.finish_stop]
  | go v =>
    obtain ⟨hnot, hwalk⟩ := hf v hx
    intro t h
    refine .on ?_ (((hruns.runs hx).trans (toReadOffset_runs v)).isBusy.trans hb) (by simp) (hwalk t h)
    simp [decoderUnitStep, hst, hx, hnot]

/-- The last literals end the command where the terminal test says that the sequence is final (R186, R191). -/
theorem literalsThenDone_walks {s : State} (hst : s.bd.bdState = .copyLiterals)
    (hf : ∀ v, copyLiterals s = .go v → terminal v = true) : (literalsThenDone s).WalksFrom s := by
  have hruns := copyLiterals_runs s
  rw [literalsThenDone]
  cases hx : copyLiterals s with
  | stop r =>
    rw [hx] at hruns
    refine .stop ?_ hruns
    simp only [decoderUnitStep, hst, hx, Flow.andThen_stop, Flow.finish_stop]
  | go v =>
    rintro t ⟨⟩
    refine .last ?_ (.inl (finishDecode_ends v).not_busy)
    simp [decoderUnitStep, hst, hx, hf v hx]

/-- The walk over a match, from ReadOffset on (R187 to R189). -/
theorem match_walks {t : Byte} {s : State} (hst : s.bd.bdState = .readOffset) (htoken : s.bd.token = t)
    (hb : s.isBusy = true) :
    ((readOffset s).andThen fun v =>
      (if lowNibble t = 15#4 then readExtensionAt v else .go v).andThen copyMatch).WalksFrom s := by
  have hstep : decoderUnitStep s = (readOffset s).finish := by rw [decoderUnitStep, hst]
  refine Flow.WalksFrom.andThen hstep (readOffset_runs s) hb fun v hv hvb => ?_
  obtain ⟨off, rfl⟩ := readOffset_eq_go hv
  have hstate : (takeMatchNibble (takeOffset off s)).bd.bdState =
      if lowNibble t = 15#4 then .readMatchLenExtension else .copyMatch := by
    rw [← htoken]
    rfl
  by_cases h15 : lowNibble t = 15#4
  · simp only [if_pos h15] at hstate ⊢
    refine ⟨by rw [hstate]; decide, readExtensionAt_walks (.inr hstate) hvb fun count added _ => copyMatch_walks ?_⟩
    rw [extensionRead, if_neg (by rw [hstate]; decide)]
  · simp only [if_neg h15] at hstate ⊢
    exact ⟨by rw [hstate]; decide, copyMatch_walks hstate⟩

/-! ## One step over a sequence -/

/-- What ReadToken leaves follows the high nibble of the token. -/
theorem literalLength_eq (t : Byte) (s : State) :
    literalLength t s =
      (takeToken t s).andThen fun u => if highNibble t = 15#4 then readExtensionAt u else .go u := by
  rw [literalLength]
  cases hu : takeToken t s with
  | stop r => rfl
  | go u =>
    obtain rfl := takeToken_eq_go hu
    simp [tokenTaken]

/-- The two classes of LAST as one computation (R203, R204). -/
theorem exec_last_eq (t : Byte) (s : State) :
    exec (decodeToken true t) s = ((literalLength t s).andThen literalsThenDone).finish := by
  have htoken := tokenByte_nibbles t
  rw [literalLength_eq, Flow.andThen_assoc, decodeToken]
  by_cases hh : highNibble t = 15#4
  · rw [hh] at htoken
    simp [hh, exec, execLastX, htoken]
  · simp [hh, exec, execLastS, htoken]

/-- The four classes of SEQ as one computation (R199 to R202). -/
theorem exec_seq_eq (t : Byte) (s : State) :
    exec (decodeToken false t) s =
      ((literalLength t s).andThen fun u => (literalsThenOffset u).andThen fun v =>
        (if lowNibble t = 15#4 then readExtensionAt v else .go v).andThen copyMatch).finish := by
  have htoken := tokenByte_nibbles t
  rw [literalLength_eq, Flow.andThen_assoc, decodeToken]
  by_cases hh : highNibble t = 15#4
  · by_cases hl : lowNibble t = 15#4
    · have hff : (0xFF : Byte) = t := by rw [← htoken, hh, hl]; decide
      simp [hh, hl, exec, execSeqXX, hff]
    · rw [hh] at htoken
      simp [hh, hl, exec, execSeqXS, htoken]
  · by_cases hl : lowNibble t = 15#4
    · rw [hl] at htoken
      simp [hh, hl, exec, execSeqSX, htoken]
    · simp [hh, hl, exec, execSeqSS, htoken]

/-- The step over a sequence is a walk, whichever class the look-ahead chooses: the choice is the terminal test. -/
theorem exec_token_walks {t : Byte} {s u : State} (hst : s.bd.bdState = .readToken) (hpeek : peek s = .go t)
    (hb : s.isBusy = true) (h : exec (decodeToken (isFinal t s) t) s = .next u) : WalksTo s u := by
  cases hfinal : isFinal t s with
  | true =>
    rw [hfinal, exec_last_eq] at h
    refine literalLength_walks hst hpeek hb (fun v hv hvst _ _ => ?_) u h
    exact literalsThenDone_walks hvst fun w hw => (isFinal_eq_terminal hv hw).symm.trans hfinal
  | false =>
    rw [hfinal, exec_seq_eq] at h
    refine literalLength_walks hst hpeek hb (fun v hv hvst htoken hvb => ?_) u h
    rw [literalsThenOffset, Flow.andThen_assoc]
    refine copyLiterals_walks hvst hvb fun w hw => ⟨(isFinal_eq_terminal hv hw).symm.trans hfinal, ?_⟩
    have hwb : (toReadOffset w).isBusy = true :=
      (((copyLiterals_runs v).runs hw).trans (toReadOffset_runs w)).isBusy.trans hvb
    have hwt : (toReadOffset w).bd.token = t := by
      obtain ⟨-, -, x, hx, rfl⟩ := copyLiterals_eq_go hw
      rw [(dstPutList_frame hx).1]
      exact htoken
    exact match_walks rfl hwt hwb

/-- A step of a decode command from ReadToken. -/
theorem step_walks {s t : State} (hd : Decoding s) (hst : s.bd.bdState = .readToken) (h : step s = .next t) :
    WalksTo s t := by
  have hpeek := peek_holds s
  rw [step_decoding hd, decoderFetch, hst] at h
  cases hx : peek s with
  | go b =>
    rw [hx] at h
    exact exec_token_walks hst hx hd.busy h
  | stop r =>
    rw [hx] at h hpeek
    exact Flow.WalksFrom.stop (by simp [decoderUnitStep, hst, hx]) hpeek t h

/-- A step of a decode command answers a next state; if the command is still running, it is one under the decoder's
rules. -/
theorem step_decoding_answers {s : State} (hd : Decoding s) (h : DecoderRules s) :
    ∃ t, step s = .next t ∧ (t.isBusy = true → Decoding t ∧ DecoderRules t) := by
  obtain ⟨t, ht, -, hrules⟩ := decoderFetch_answers h
  refine ⟨t, (step_decoding hd).trans ht, fun hb => ⟨⟨hb, ?_, ?_⟩, hrules hb⟩⟩
  all_goals
    have hframe : Frame s t := (decoderFetch_moves s t ht).elim (·.toFrame) (·.toFrame)
    rw [hframe.same]
  · exact hd.code
  · exact hd.quiet

/-- Settles O34: the step is a walk through the states, with the terminal test for the look-ahead. -/
theorem sequenceStepIsStateWalk : Obligations.SequenceStepIsStateWalk := by
  intro s hd hrules hst
  obtain ⟨t, ht, -⟩ := step_decoding_answers hd hrules
  obtain ⟨k, hk, hrun, hend, hbetween⟩ := (step_walks hd hst ht).run
  exact ⟨k, t, hk, ht, hrun, hend, hbetween⟩

/-- Settles O35, by induction on the source bytes that are left: a step ends the command or passes a token. -/
theorem decodeEnds : Obligations.DecodeEnds := by
  intro s hd hrules hst
  induction hleft : s.bd.sEnd - s.bd.sPos using Nat.strong_induction_on generalizing s with
  | _ left ih =>
    obtain ⟨t, ht, hnext⟩ := step_decoding_answers hd hrules
    have hwalk := step_walks hd hst ht
    cases hb : t.isBusy with
    | false => exact ⟨1, t, by omega, steps_one ht, hb⟩
    | true =>
      obtain ⟨hdt, hrulest⟩ := hnext hb
      obtain ⟨-, -, -, hend, -⟩ := hwalk.run
      obtain ⟨hadv, hlt⟩ := hwalk.advances hb
      have hpos := hlt hst
      have hle := hrulest.pos_le
      have hsEnd := hadv.sEnd
      obtain ⟨k, u, hk, hu, hub⟩ := ih _ (by omega) t hdt hrulest (hend.resolve_left (by simp [hb])) rfl
      exact ⟨k + 1, u, by omega, (steps_succ ht).trans hu, hub⟩

end Sys2Proof.Machine
end

section
/-! PROOFS. What the copies of the block decoder leave in DST, byte by byte (43_block_decoder.md R185, R189, R190), and
what its states and its whole sequences do (R184 to R190, R196, R199 to R206); the start of a decode command (R181). -/

namespace Sys2Proof.Machine

/-! ## A range of DST filled with given bytes -/

/-- From `s` to `t` the `k` positions from `q` on have taken the bytes `byte`, and no other DST byte has changed. -/
structure Filled (q k : Nat) (byte : Nat → Byte) (s t : State) : Prop where
  wf : Memory.wf t.dst = true
  bytes : ∀ i, i < k → dstAt t (q + i) = byte i
  kept : ∀ a : Nat, (a : Int) < dstAddr s q ∨ dstAddr s (q + k) ≤ a → dstRead t a = dstRead s a

/-- The positions before the range are as they were. -/
theorem Filled.before {q k p : Nat} {byte : Nat → Byte} {s t : State} (h : Filled q k byte s t)
    (hoff : t.dstOff = s.dstOff) (hpos : 0 ≤ s.dstOff.toInt) (hp : p < q) : dstAt t p = dstAt s p := by
  have haddr : dstAddr t p = dstAddr s p := by rw [dstAddr, hoff]; rfl
  rw [dstAt, haddr]
  refine h.kept _ (.inl ?_)
  unfold dstAddr
  omega

/-- An address outside the range is none of its positions'. -/
theorem ne_dstAddr_toNat {q k i a : Nat} {s : State} (hpos : 0 ≤ s.dstOff.toInt) (hi : i < k)
    (ha : (a : Int) < dstAddr s q ∨ dstAddr s (q + k) ≤ a) : a ≠ (dstAddr s (q + i)).toNat := by
  unfold dstAddr at *
  omega

/-- A match copy leaves the bytes before it as they are (R189). -/
theorem copyBack_getElem?_of_lt {off len j : Nat} {out : List Byte} (hj : j < out.length) :
    (copyBack off len out)[j]? = out[j]? := by
  induction len generalizing out with
  | zero => rfl
  | succ len ih =>
    rw [copyBack, ih (by rw [List.length_append]; omega), List.getElem?_append_left hj]

/-- A match copy repeats the `off` bytes before it, however long it is (R190). -/
theorem copyBack_getElem? {off len i : Nat} {out : List Byte} (h1 : 1 ≤ off) (hoff : off ≤ out.length)
    (hi : i < len) : (copyBack off len out)[out.length + i]? = out[out.length - off + i % off]? := by
  induction len generalizing out i with
  | zero => omega
  | succ len ih =>
    have hlast : out.getD (out.length - off) 0 = out[out.length - off] := List.getD_eq_getElem _ _ (by omega)
    rw [copyBack, hlast]
    cases i with
    | zero =>
      rw [copyBack_getElem?_of_lt (by simp), Nat.zero_mod]
      simp
    | succ i =>
      have hlt := Nat.mod_lt i h1
      have hrest := ih (i := i) (out := out ++ [out[out.length - off]]) (by simp; omega) (by omega)
      rw [List.length_append, List.length_singleton] at hrest
      rw [show out.length + (i + 1) = out.length + 1 + i by omega, hrest, ← Nat.mod_add_mod]
      rcases Nat.lt_or_ge (i % off + 1) off with hin | hwrap
      · rw [Nat.mod_eq_of_lt hin, List.getElem?_append_left (by omega)]
        congr 1
        omega
      · rw [show i % off + 1 = off by omega, Nat.mod_self,
          show out.length + 1 - off + i % off = out.length by omega]
        simp

/-! ## CopyLiterals and CopyMatch where they go on (R185, R189) -/

/-- The state CopyLiterals leaves before the terminal test, with the new contents of DST. -/
def literalsCopied (dst : Memory) (ranges : List OpenRange) (s : State) : State :=
  { s with
    dPos := s.dPos + s.bd.litLen, dst := dst, dstOpen := ranges
    bd := { s.bd with sPos := s.bd.sPos + s.bd.litLen } }

/-- The state CopyMatch leaves, with the new contents of DST. -/
def matchCopied (dst : Memory) (ranges : List OpenRange) (s : State) : State :=
  { s with
    dPos := s.dPos + s.bd.matchLen, dst := dst, dstOpen := ranges
    bd := { s.bd with bdState := .readToken } }

/-- CopyLiterals inside its bounds copies the source bytes at S_POS. -/
theorem copyLiterals_fills {s : State} (hsrc : SrcRegion s.bd.sEnd s) (hdst : DstRegion s)
    (hwf : Memory.wf s.dst = true) (hs : s.bd.sPos + s.bd.litLen ≤ s.bd.sEnd) (hd : s.dPos + s.bd.litLen ≤ s.dEnd) :
    ∃ dst ranges, copyLiterals s = .go (literalsCopied dst ranges s) ∧
      Filled s.dPos s.bd.litLen (fun i => srcAt s ((s.bd.sPos + i : Nat) : Int)) s (literalsCopied dst ranges s) := by
  obtain ⟨u, hput, hcopy⟩ := copyLiterals_inside hsrc hdst hs hd
  obtain ⟨honly, -, hframe⟩ := dstPutList_frame hput
  have hwfu := dstPutList_wf hput hwf
  refine ⟨u.dst, u.dstOpen, by rw [hcopy, honly]; rfl, hwfu, fun i hi => ?_, fun a ha => ?_⟩
  · have hvalue := dstPutList_value hput hwf i (by rwa [srcRun_length])
    rw [srcRun_getElem, honly] at hvalue
    exact hvalue
  · have hread := hframe a fun i hi => ne_dstAddr_toNat hdst.off_nonneg (by rwa [srcRun_length] at hi) ha
    rw [honly] at hread
    exact hread

/-- CopyMatch inside its bounds repeats the OFFSET bytes before D_POS. -/
theorem copyMatch_fills {s : State} (hdst : DstRegion s) (hwf : Memory.wf s.dst = true) (h1 : 1 ≤ s.bd.offset.toNat)
    (hback : s.bd.offset.toNat ≤ s.dPos) (hd : s.dPos + s.bd.matchLen ≤ s.dEnd) :
    ∃ dst ranges, copyMatch s = .go (matchCopied dst ranges s) ∧
      Filled s.dPos s.bd.matchLen (fun i => dstAt s (s.dPos - s.bd.offset.toNat + i % s.bd.offset.toNat)) s
        (matchCopied dst ranges s) := by
  obtain ⟨u, hcopy, honly, hwfu, hrun⟩ := copyBytes_run hdst hwf h1 hback hd
  have hframe := (copyBytes_frame hcopy).2
  refine ⟨u.dst, u.dstOpen, by rw [copyMatch_fits hd hcopy, honly]; rfl, hwfu, fun i hi => ?_, fun a ha => ?_⟩
  · have hmod := Nat.mod_lt i h1
    have hvalue := copyBack_getElem? (out := dstRun s 0 s.dPos) h1 (by rwa [dstRun_length]) hi
    rw [← hrun, dstRun_length, List.getElem?_eq_getElem (by rw [dstRun_length]; omega),
      List.getElem?_eq_getElem (by rw [dstRun_length]; omega), dstRun_getElem, dstRun_getElem, Option.some.injEq,
      Nat.zero_add, Nat.zero_add, honly] at hvalue
    exact hvalue
  · have hread := hframe a fun i hi => ne_dstAddr_toNat hdst.off_nonneg hi ha
    rw [honly] at hread
    exact hread

/-! ## Done (R191, R196, R218) -/

/-- Leaving the rest of the region at any value changes the contents of DST only. -/
theorem openRegionFrom_eq (q : Nat) (s : State) :
    openRegionFrom q s = { s with
      dst := (openRegionFrom q s).dst, dstOpen := (openRegionFrom q s).dstOpen
      draws := (openRegionFrom q s).draws } := by
  unfold openRegionFrom openDst
  split <;> rfl

/-- Completion changes STATUS, RESULT, BD_STATE and the contents of DST. -/
theorem finishDecode_eq (s : State) :
    finishDecode s = { s with
      status := .done, result := BitVec.ofNat 32 (if s.cmd = trustCode then s.bd.sPos else s.dPos)
      dst := (finishDecode s).dst, dstOpen := (finishDecode s).dstOpen, draws := (finishDecode s).draws
      bd := { s.bd with bdState := .done } } := openRegionFrom_eq _ _

/-- Completion keeps every DST byte before D_POS and outside the destination region (R33). -/
theorem finishDecode_dstRead {s : State} {a : Nat} (h : a < dstBase s + s.dPos ∨ dstLimit s ≤ a) :
    dstRead (finishDecode s) a = dstRead s a := dstRead_openRegionFrom_outside h

@[simp] theorem finishDecode_status (s : State) : (finishDecode s).status = .done := by
  simp [finishDecode, completeRegion]

@[simp] theorem finishDecode_dPos (s : State) : (finishDecode s).dPos = s.dPos := by simp [finishDecode, completeRegion]

@[simp] theorem finishDecode_bd (s : State) : (finishDecode s).bd = { s.bd with bdState := .done } := by
  simp [finishDecode, completeRegion]

theorem finishDecode_dstAddr (s : State) (q : Nat) : dstAddr (finishDecode s) q = dstAddr s q := by
  rw [finishDecode_eq]
  rfl

theorem finishDecode_dstAt {s : State} {q : Nat} (hoff : 0 ≤ s.dstOff.toInt) (hq : q < s.dPos) :
    dstAt (finishDecode s) q = dstAt s q := by
  rw [dstAt, finishDecode_dstAddr]
  refine finishDecode_dstRead (.inl ?_)
  simp only [dstAddr, dstBase]
  omega

theorem terminal_iff {s : State} :
    terminal s = true ↔ s.cmd = trustCode ∧ s.dPos = s.dEnd ∨ s.cmd = safeCode ∧ s.bd.sPos = s.bd.sEnd := by
  simp [terminal]

/-! ## Whole sequences (R199 to R204) -/

theorem srcHolds_getElem {s : State} {p i : Nat} {bytes : List Byte} (h : SrcHolds s p bytes) (hi : i < bytes.length) :
    srcAt s ((p + i : Nat) : Int) = bytes[i] := by
  have hget := srcRun_getElem (s := s) (p := p) (k := bytes.length) (i := i) (by rwa [srcRun_length])
  rw [← hget]
  simp only [show srcRun s p bytes.length = bytes from h]

/-- A token, its literal length and its literals are read where they stand at S_POS and fit both regions: the literals
fill DST from D_POS on, and no other byte changes. -/
theorem literals_fill {lits : List Byte} {m : Nibble} {s : State} (hsrc : SrcRegion s.bd.sEnd s) (hdst : DstRegion s)
    (hwf : Memory.wf s.dst = true) (hext : SrcHolds s (s.bd.sPos + 1) (extensionBytes lits.length))
    (hp : s.bd.sPos + 1 + extSize lits.length + lits.length ≤ s.bd.sEnd) (hq : s.dPos + lits.length ≤ s.dEnd) :
    let token := tokenByte (fieldNibble lits.length) m
    ∃ dst ranges, literalLength token s = .go (literalsNext token lits.length s) ∧
      copyLiterals (literalsNext token lits.length s) = .go (literalsDone token lits.length dst ranges s) ∧
      Filled s.dPos lits.length (fun i => srcAt s ((s.bd.sPos + 1 + extSize lits.length + i : Nat) : Int)) s
        (literalsDone token lits.length dst ranges s) := by
  intro token
  obtain ⟨dst, ranges, hcopy, hfill⟩ := copyLiterals_fills (s := literalsNext token lits.length s)
    ⟨hsrc.off_nonneg, hsrc.fits⟩ ⟨hdst.off_nonneg, hdst.end_is_len, hdst.fits, hdst.pos_le⟩ hwf hp hq
  exact ⟨dst, ranges, literalLength_reads hsrc hext (by omega), hcopy, hfill.wf, hfill.bytes, hfill.kept⟩

/-- An offset and a match length are read where they stand at S_POS, and the match fills DST from D_POS on where it
reaches back into the output and fits. -/
theorem match_fill {off : Half} {len : Nat} {s : State} (hsrc : SrcRegion s.bd.sEnd s) (hdst : DstRegion s)
    (hwf : Memory.wf s.dst = true) (hoffset : SrcHolds s s.bd.sPos (offsetBytes off))
    (hmatch : SrcHolds s (s.bd.sPos + 2) (extensionBytes (len - Config.minMatch)))
    (hp : s.bd.sPos + 2 + extSize (len - Config.minMatch) ≤ s.bd.sEnd)
    (htoken : lowNibble s.bd.token = fieldNibble (len - Config.minMatch)) (hlen : Config.minMatch ≤ len)
    (h0 : off ≠ 0#16) (hback : off.toNat ≤ s.dPos) (hq : s.dPos + len ≤ s.dEnd) :
    ∃ dst ranges, readOffset s = .go (takeMatchNibble (takeOffset off s)) ∧
      matchLength (takeMatchNibble (takeOffset off s)) = .go (matchNext off len s) ∧
      copyMatch (matchNext off len s) = .go (matchCopied dst ranges (matchNext off len s)) ∧
      Filled s.dPos len (fun i => dstAt s (s.dPos - off.toNat + i % off.toNat)) s
        (matchCopied dst ranges (matchNext off len s)) := by
  have h1 : 1 ≤ off.toNat := Nat.one_le_iff_ne_zero.mpr fun he => h0 (BitVec.eq_of_toNat_eq he)
  obtain ⟨dst, ranges, hcopy, hfill⟩ := copyMatch_fills (s := matchNext off len s)
    ⟨hdst.off_nonneg, hdst.end_is_len, hdst.fits, hdst.pos_le⟩ hwf h1 hback hq
  exact ⟨dst, ranges, readOffset_reads hsrc hoffset (by omega) h0 hback,
    matchLength_reads hlen hsrc htoken hmatch hp, hcopy, hfill.wf, hfill.bytes, hfill.kept⟩

/-- Settles O26: the literals fill DST, then the match repeats the bytes before it. -/
theorem sequencesExecute : Obligations.SequencesExecute := by
  intro s lits off len
  dsimp only
  intro hline hsrc hdst hwf hbytes hp hback hq
  obtain ⟨hne, hlen⟩ : off ≠ 0#16 ∧ Config.minMatch ≤ len := by simpa [Line.wf] using hline
  have h1 : 1 ≤ off.toNat := Nat.one_le_iff_ne_zero.mpr fun he => hne (BitVec.eq_of_toNat_eq he)
  have hholds : SrcHolds s s.bd.sPos (assemble (.seq lits off len)) := by rwa [SrcHolds, assemble_seq_length]
  rw [assemble, srcHolds_cons, List.append_assoc, List.append_assoc, srcHolds_append, srcHolds_append,
    srcHolds_append, extensionBytes_length, offsetBytes_length] at hholds
  obtain ⟨-, hext, hlits, hoffset, hmatch⟩ := hholds
  have hsize : seqSize lits.length len =
      1 + extSize lits.length + lits.length + 2 + extSize (len - Config.minMatch) := rfl
  rw [hsize] at hp ⊢
  rw [show len - 4 = len - Config.minMatch from rfl]
  obtain ⟨dst, ranges, hread, hcopy, hlitFill⟩ :=
    literals_fill (m := fieldNibble (len - Config.minMatch)) hsrc hdst hwf hext (by omega) (by omega)
  have hlow := lowNibble_tokenByte (fieldNibble lits.length) (fieldNibble (len - Config.minMatch))
  generalize tokenByte (fieldNibble lits.length) (fieldNibble (len - Config.minMatch)) = token at *
  have hfit : s.dPos + lits.length ≤ s.dEnd := by omega
  have hend : s.bd.sPos + 1 + extSize lits.length + lits.length + 2 + extSize (len - Config.minMatch) ≤ s.bd.sEnd := by
    omega
  obtain ⟨dst', ranges', hoff, hlength, hmatched, hmatchFill⟩ :=
    match_fill (s := toReadOffset (literalsDone token lits.length dst ranges s)) ⟨hsrc.off_nonneg, hsrc.fits⟩
      ⟨hdst.off_nonneg, hdst.end_is_len, hdst.fits, hfit⟩ hlitFill.wf hoffset hmatch hend hlow hlen hne hback hq
  refine ⟨_, exec_seq hread (by rw [literalsThenOffset, hcopy, Flow.andThen_go, hoff]) ?_ hlength hmatched, ?_,
    fun i hi => ?_, fun i hi => ?_, fun a ha => ?_⟩
  · rw [takeMatchNibble_bd]
    rfl
  · simp only [matchCopied, matchNext, toReadOffset, literalsDone, Nat.add_assoc]
  · rw [hmatchFill.before rfl hdst.off_nonneg (Nat.add_lt_add_left hi _), ← srcHolds_getElem hlits hi]
    exact hlitFill.bytes i hi
  · have hmod := Nat.mod_lt i h1
    have hsource : s.dPos + lits.length - off.toNat + i % off.toNat < s.dPos + lits.length := by omega
    rw [hmatchFill.before rfl hdst.off_nonneg hsource]
    exact hmatchFill.bytes i hi
  · refine (hmatchFill.kept a ?_).trans (hlitFill.kept a ?_)
    · simp only [dstAddr, toReadOffset, literalsDone] at ha ⊢
      omega
    · simp only [dstAddr] at ha ⊢
      omega

/-- Settles O27: the literals fill DST, and completion leaves them and what lies before them. -/
theorem finalSequencesExecute : Obligations.FinalSequencesExecute := by
  intro s lits ignored
  dsimp only
  intro hsrc hdst hwf hbytes hp hq
  have hoffset := hdst.off_nonneg
  have hend := hdst.end_is_len
  have hholds : SrcHolds s s.bd.sPos (finalBytes ignored lits) := by rwa [SrcHolds, finalBytes_length]
  rw [finalBytes, srcHolds_cons, srcHolds_append, extensionBytes_length] at hholds
  obtain ⟨-, hext, hlits⟩ := hholds
  have hsize : lastSize lits.length = 1 + extSize lits.length + lits.length := rfl
  rw [hsize] at hp ⊢
  obtain ⟨dst, ranges, hread, hcopy, hfill⟩ := literals_fill (m := ignored) hsrc hdst hwf hext (by omega) hq
  generalize tokenByte (fieldNibble lits.length) ignored = token at *
  refine ⟨_, exec_last hread hcopy, ?_, fun i hi => ?_, fun a ha => ?_⟩
  · conv_lhs => rw [finishDecode_eq]
    simp only [literalsDone, Nat.add_assoc]
    rfl
  · rw [← srcHolds_getElem hlits hi, ← hfill.bytes i hi]
    exact finishDecode_dstAt (s := literalsDone token lits.length dst ranges s) hoffset (Nat.add_lt_add_left hi _)
  · refine (finishDecode_dstRead ?_).trans (hfill.kept a ?_)
    · simp only [dstAddr, dstBase, dstLimit, literalsDone] at ha ⊢
      omega
    · simp only [dstAddr, dstLimit] at ha ⊢
      omega

/-! ## The states, one step each (R184 to R189) -/

/-- The decoder states that read no instruction run on their own. -/
theorem step_eq_decoderUnitStep {s : State} (hd : Decoding s)
    (hst : s.bd.bdState = .copyLiterals ∨ s.bd.bdState = .readOffset ∨ s.bd.bdState = .copyMatch) :
    step s = decoderUnitStep s := by
  rw [step_decoding hd, decoderFetch]
  rcases hst with hst | hst | hst <;> rw [hst] <;> rfl

/-- An extension byte outside a length extension is refused (R94). -/
theorem takeExtension_outside {b : Byte} {s : State} (hout : ¬InExtension s) (hp : s.bd.sPos < s.bd.sEnd) :
    takeExtension b s = .stop (.refused .extensionOutsideLength) := by
  rw [takeExtension, fetchGuard_inside hp, Flow.andThen_go, addExtension]
  cases hst : s.bd.bdState
  case readLiteralLenExtension => exact absurd (.inl hst) hout
  case readMatchLenExtension => exact absurd (.inr hst) hout
  all_goals rfl

/-- In a length extension with no byte left the step is the fault of FETCH (R182). -/
theorem step_exhausted {s : State} (hd : Decoding s) (hin : InExtension s) (hp : s.bd.sEnd ≤ s.bd.sPos) :
    step s = raiseCorruptInput s.bd.sPos s := by
  rw [step_decoding hd, decoderFetch, peek_exhausted hp]
  rcases hin with hst | hst <;> rw [hst] <;> rfl

/-- Settles O28: the byte is FF, so the length goes on; at the bound FETCH raises. -/
theorem extMoreAdds255 : Obligations.ExtMoreAdds255 := by
  intro s hp
  have more : InExtension s → exec .extMore s = .next (continued s) := fun hin =>
    congrArg Flow.finish (takeExtension_more hin hp)
  refine ⟨fun hst => ?_, fun hst => ?_, fun t hd hlast ht => ?_⟩
  · rw [more (.inl hst), continued, if_pos hst]
  · rw [more (.inr hst), continued, if_neg (by rw [hst]; decide)]
  · by_cases hin : InExtension s
    · rw [more hin] at ht
      cases ht
      have hpos : (continued s).bd.sPos = s.bd.sEnd := (continued_sPos s).trans hlast
      have hd' : Decoding (continued s) := ⟨hd.busy, hd.code, hd.quiet⟩
      rw [step_exhausted hd' (continued_inExtension hin) (by rw [hpos, (continued_advances s).sEnd]), hpos]
    · rw [exec, execExtMore, takeExtension_outside hin hp] at ht
      cases ht

/-- Settles O29: the byte is below FF, so the extension ends. -/
theorem extEndAddsByte : Obligations.ExtEndAddsByte := by
  intro s e he hp
  have last : InExtension s → exec (.extEnd e) s = .next (extensionRead 1 e.toNat s) := fun hin =>
    congrArg Flow.finish (takeExtension_end he hin hp)
  refine ⟨fun hst => ?_, fun hst => ?_⟩
  · rw [last (.inl hst), extensionRead, if_pos hst]
  · rw [last (.inr hst), extensionRead, if_neg (by rw [hst]; decide)]
    rfl

/-- Settles O30: the two tests, then the copy, then the terminal test on the state it leaves. -/
theorem copyLiteralsState : Obligations.CopyLiteralsState := by
  intro s hd hsrc hdst hwf hst hpos
  have hoff := hdst.off_nonneg
  have hend := hdst.end_is_len
  have hdPos := hdst.pos_le
  have hstep : step s = ((copyLiterals s).andThen fun t =>
      .go (if terminal t then finishDecode t else toReadOffset t)).finish := by
    rw [step_eq_decoderUnitStep hd (.inl hst), decoderUnitStep, hst]
  refine ⟨fun hbad => ?_, fun hs hq => ?_⟩
  · rw [hstep, copyLiterals]
    split
    · rfl
    · rw [if_pos (by omega)]
      rfl
  · obtain ⟨dst, ranges, hcopy, hfill⟩ := copyLiterals_fills hsrc hdst hwf (by omega) (by omega)
    rw [hstep, hcopy, Flow.andThen_go, Flow.finish_go]
    have hterminal := terminal_iff (s := literalsCopied dst ranges s)
    have hframe : ∀ a : Nat, (a : Int) < dstAddr s s.dPos ∨ (dstLimit s : Int) ≤ a →
        dstRead (literalsCopied dst ranges s) a = dstRead s a := fun a ha => hfill.kept a (by
      simp only [dstAddr, dstLimit] at ha ⊢
      omega)
    refine ⟨_, rfl, ?_⟩
    split
    · next hfinal =>
      refine ⟨by simp [literalsCopied], by simp [literalsCopied], fun i hi => ?_, fun a ha => ?_,
        fun _ => ⟨by simp, by simp⟩, fun hnot => absurd ?_ hnot⟩
      · rw [finishDecode_dstAt (s := literalsCopied dst ranges s) hoff (Nat.add_lt_add_left hi _)]
        exact hfill.bytes i hi
      · refine (finishDecode_dstRead ?_).trans (hframe a ha)
        simp only [dstAddr, dstBase, dstLimit, literalsCopied] at ha ⊢
        omega
      · simpa [literalsCopied] using hterminal.mp hfinal
    · next hnot =>
      refine ⟨rfl, rfl, hfill.bytes, hframe, fun hend => ?_, fun _ => ⟨rfl, rfl⟩⟩
      exact absurd (hterminal.mpr hend) hnot

/-- The two bytes of an offset, low byte first, as a number (R86, R187). -/
theorem offsetOf_toNat (lo hi : Byte) : (offsetOf lo hi).toNat = lo.toNat + 256 * hi.toNat := by
  rw [offsetOf, BitVec.toNat_append, Nat.shiftLeft_eq, Nat.mul_comm, ← Nat.two_pow_add_eq_or_of_lt lo.isLt,
    Nat.add_comm]

/-- ReadOffset where both offset bytes stand before the bound: the two tests on the offset they hold (R187). -/
theorem readOffset_inside {s : State} {off : Half} (hsrc : SrcRegion s.bd.sEnd s) (hp : s.bd.sPos + 2 ≤ s.bd.sEnd)
    (hoff : offsetOf (srcAt s s.bd.sPos) (srcAt s (s.bd.sPos + 1)) = off) :
    readOffset s =
      if off.toNat = 0 ∨ off.toNat > s.dPos then .stop (raiseCorruptInput s.bd.sPos (takeOffset off s))
      else .go (takeMatchNibble (takeOffset off s)) := by
  have hhi : srcAt s ((s.bd.sPos + 1 : Nat) : Int) = srcAt s (s.bd.sPos + 1) := rfl
  rw [readOffset, if_neg (by omega), bdByte, srcByte_inside hsrc (by omega) (by omega), Flow.andThen_go, bdByte,
    srcByte_inside hsrc (by omega) (by omega), Flow.andThen_go, hhi, hoff]
  by_cases h0 : off = 0#16
  · exact (if_pos h0).trans (if_pos (.inl (congrArg BitVec.toNat h0))).symm
  · refine (if_neg h0).trans ?_
    by_cases hbeyond : off.toNat > s.dPos
    · exact (if_pos hbeyond).trans (if_pos (.inr hbeyond)).symm
    · have hok : ¬(off.toNat = 0 ∨ off.toNat > s.dPos) :=
        not_or.mpr ⟨fun he => h0 (BitVec.eq_of_toNat_eq he), hbeyond⟩
      exact (if_neg hbeyond).trans (if_neg hok).symm

/-- Settles O31: the offset is its two bytes, and the nibble 15 is the one that is extended. -/
theorem readOffsetState : Obligations.ReadOffsetState := by
  intro s hd hsrc hst hpos
  have hstep : step s = (readOffset s).finish := by
    rw [step_eq_decoderUnitStep hd (.inr (.inl hst)), decoderUnitStep, hst]
  refine ⟨fun hshort => ?_, fun hp => ?_⟩
  · rw [hstep, readOffset, if_pos (by omega)]
    rfl
  · have hvalue := offsetOf_toNat (srcAt s s.bd.sPos) (srcAt s (s.bd.sPos + 1))
    rw [hstep, readOffset_inside hsrc (by omega) rfl]
    generalize offsetOf (srcAt s s.bd.sPos) (srcAt s (s.bd.sPos + 1)) = off at *
    intro value m read
    have hread : takeOffset off s = read := by
      simp only [read, value, ← hvalue, BitVec.ofNat_toNat, BitVec.setWidth_eq]
      rfl
    rw [hread, hvalue]
    refine ⟨fun hbad => ⟨s.bd.matchLen, ?_⟩, fun h0 hle => ?_⟩
    · rw [if_pos hbad]
      rfl
    · rw [if_neg (by omega)]
      have h15 : lowNibble s.bd.token = 15#4 ↔ m = 15 := by
        rw [← BitVec.toNat_inj]
        rfl
      simp only [takeMatchNibble, Flow.finish_go, read, h15]
      rfl

/-- Settles O32: the copy fills DST with the OFFSET bytes before D_POS, again and again. -/
theorem copyMatchState : Obligations.CopyMatchState := by
  intro s hd hdst hwf hst h1 hback
  have hdPos := hdst.pos_le
  have hstep : step s = (copyMatch s).finish := by
    rw [step_eq_decoderUnitStep hd (.inr (.inr hst)), decoderUnitStep, hst]
  refine ⟨fun hbad => ?_, fun hq => ?_⟩
  · rw [hstep, copyMatch, if_pos (by omega)]
    rfl
  · obtain ⟨dst, ranges, hcopy, hfill⟩ := copyMatch_fills hdst hwf h1 hback (by omega)
    refine ⟨_, by rw [hstep, hcopy, Flow.finish_go], rfl, fun i hi => ⟨?_, hfill.bytes i hi⟩, hfill.kept⟩
    rw [hfill.bytes i hi]
    rcases Nat.lt_or_ge i s.bd.offset.toNat with hin | hout
    · rw [Nat.mod_eq_of_lt hin, hfill.before rfl hdst.off_nonneg (by omega)]
    · rw [show s.dPos - s.bd.offset.toNat + i = s.dPos + (i - s.bd.offset.toNat) by omega,
        hfill.bytes _ (by omega), ← Nat.mod_eq_sub_mod hout]

/-! ## The start of a decode command (R181, R210, R211) -/

section

variable {s : State} {e d : Nat} (hd : s.dstLen.toInt = d) (hsrc : 0 ≤ s.srcOff.toInt) (hdst : 0 ≤ s.dstOff.toInt)
  (hfits : s.dstOff.toInt + d ≤ s.dstCap.toInt)

include hd hsrc hdst hfits

/-- The checks of DECOMPRESS_TRUST pass where the destination region lies in its buffer and the source offset too
(R211). -/
theorem badTrustArgs_eq_false (he : s.srcCap.toInt - s.srcOff.toInt = e) : badTrustArgs s = false := by
  simp only [badTrustArgs, checkK1, checkK2, checkK5, checkK6, Bool.or_eq_false_iff, decide_eq_false_iff_not]
  omega

/-- The checks of DECOMPRESS_SAFE pass where both regions lie in their buffers (R211). -/
theorem badSafeArgs_eq_false (he : s.srcLen.toInt = e) (hsrcFits : s.srcOff.toInt + e ≤ s.srcCap.toInt) :
    badSafeArgs s = false := by
  simp only [badSafeArgs, checkK1, checkK2, checkK3, checkK4, checkK6, Bool.or_eq_false_iff, decide_eq_false_iff_not]
  omega

end

/-- The registers of a decode command that has started (R181, R210). -/
theorem setupDecoder_startCommand {s : State} {code : Word} {e d : Nat} (hd : s.dstLen.toInt = d) :
    setupDecoder e (startCommand code s) = { s with
      cmd := code, status := .busy, result := 0, faultOff := 0, dPos := 0, dEnd := d
      bd := { s.bd with sPos := 0, sEnd := e, bdState := .readToken } } := by
  simp [setupDecoder, startCommand, hd]

/-- Settles O23: the checks pass, so the command is its setup from the command start. -/
theorem decompressCommandsStart : Obligations.DecompressCommandsStart := by
  intro s e d hb hd hsrc hdst hfits
  refine ⟨fun he => ?_, fun he hsrcFits => ?_⟩
  · have hstart := checkedCommand_accepted (code := 4)
      (start := fun u => setupDecoder (u.srcCap.toInt - u.srcOff.toInt).toNat u) hb
      (badTrustArgs_eq_false hd hsrc hdst hfits he)
    rw [startCommand_srcCap, startCommand_srcOff, he, Int.toNat_natCast, setupDecoder_startCommand hd] at hstart
    exact hstart
  · have hstart := checkedCommand_accepted (code := 5) (start := fun u => setupDecoder u.srcLen.toInt.toNat u) hb
      (badSafeArgs_eq_false hd hsrc hdst hfits he hsrcFits)
    rw [startCommand_srcLen, he, Int.toNat_natCast, setupDecoder_startCommand hd] at hstart
    exact hstart

end Sys2Proof.Machine
end

section
/-! PROOFS. What the contents of DST decide (44_host_commands.md R221): two outcomes `Agree` where they are equal but
for DST bytes. Every operation of the units agrees on `s` and on `s.holding bytes ranges`, and so does a core step. -/

namespace Sys2Proof.Machine

/-! ## Agreement -/

/-- `s` with other DST bytes. -/
def State.holding (s : State) (bytes : Memory) (ranges : List OpenRange) : State :=
  { s with dst := bytes, dstOpen := ranges }

/-- The outcomes are the same but for DST bytes. -/
inductive Agree : Result → Result → Prop where
  | next {s t : State} : DstOnly s t → Agree (.next s) (.next t)
  | fault (r : Fault) : Agree (.fault r) (.fault r)
  | refused (r : Refusal) : Agree (.refused r) (.refused r)

theorem Agree.refl (r : Result) : Agree r r := by
  cases r with
  | next s => exact .next (.refl s)
  | fault r => exact .fault r
  | refused r => exact .refused r

/-- The computations come to the same but for DST bytes. -/
inductive Flow.Agree : Flow State → Flow State → Prop where
  | go {s t : State} : DstOnly s t → Flow.Agree (.go s) (.go t)
  | stop {r q : Result} : Machine.Agree r q → Flow.Agree (.stop r) (.stop q)

theorem Flow.Agree.finish {x y : Flow State} (h : x.Agree y) : Machine.Agree x.finish y.finish := by
  cases h with
  | go h => exact .next h
  | stop h => exact h

/-- The rule of sequence. -/
theorem Flow.Agree.andThen {x y : Flow State} {f g : State → Flow State} (h : x.Agree y)
    (hf : ∀ s bytes ranges, (f s).Agree (g (s.holding bytes ranges))) : (x.andThen f).Agree (y.andThen g) := by
  cases h with
  | go h =>
    rw [h]
    exact hf _ _ _
  | stop h => exact .stop h

/-- After a read of anything but DST. -/
theorem Flow.Agree.read {α : Type} {x y : Flow α} {f g : α → Flow State} (h : y = x)
    (hf : ∀ a, (f a).Agree (g a)) : (x.andThen f).Agree (y.andThen g) := by
  subst h
  cases y with
  | go a => exact hf a
  | stop r => exact .stop (.refl r)

theorem DstOnly.ite {c : Prop} [Decidable c] {s s' t t' : State} (hs : DstOnly s s') (ht : DstOnly t t') :
    DstOnly (if c then s else t) (if c then s' else t') := by
  split
  · exact hs
  · exact ht

theorem Flow.Agree.ite {c : Prop} [Decidable c] {x x' y y' : Flow State} (hx : x.Agree x') (hy : y.Agree y') :
    (if c then x else y).Agree (if c then x' else y') := by
  split
  · exact hx
  · exact hy

section

variable (s : State) (bytes : Memory) (ranges : List OpenRange)

@[simp] theorem State.holding_mf : (s.holding bytes ranges).mf = s.mf := rfl

@[simp] theorem State.holding_hc : (s.holding bytes ranges).hc = s.hc := rfl

@[simp] theorem State.holding_bd : (s.holding bytes ranges).bd = s.bd := rfl

@[simp] theorem State.holding_cmd : (s.holding bytes ranges).cmd = s.cmd := rfl

@[simp] theorem State.holding_isBusy : (s.holding bytes ranges).isBusy = s.isBusy := rfl

/-! ## Faults and completion -/

theorem openDst_holding (lo hi : Nat) : DstOnly (openDst lo hi s) (openDst lo hi (s.holding bytes ranges)) :=
  .ite rfl rfl

theorem openRegionFrom_holding (q : Nat) :
    DstOnly (openRegionFrom q s) (openRegionFrom q (s.holding bytes ranges)) := openDst_holding s bytes ranges _ _

theorem raiseDestinationTooSmall_agree :
    Agree (raiseDestinationTooSmall s) (raiseDestinationTooSmall (s.holding bytes ranges)) :=
  .next (openRegionFrom_holding _ bytes ranges 0)

theorem raiseCorruptInput_agree (p : Nat) :
    Agree (raiseCorruptInput p s) (raiseCorruptInput p (s.holding bytes ranges)) :=
  .next (openRegionFrom_holding _ bytes ranges 0)

theorem completeRegion_holding (result : Nat) :
    DstOnly (completeRegion result s) (completeRegion result (s.holding bytes ranges)) :=
  openRegionFrom_holding (complete result s) bytes ranges s.dPos

/-! ## Writes to DST -/

/-- The byte written may differ; whether it can be written does not. -/
theorem dstPut_agree (q : Nat) (b b' : Byte) : (dstPut q b s).Agree (dstPut q b' (s.holding bytes ranges)) :=
  .ite (.go rfl) (.stop (.fault _))

/-- The byte read may differ; whether it can be read does not. -/
theorem dstGet_andThen_agree (q : Nat) {f g : Byte → Flow State} (hf : ∀ b b', (f b).Agree (g b')) :
    ((dstGet q s).andThen f).Agree ((dstGet q (s.holding bytes ranges)).andThen g) := by
  have hreach : dstReachable q (s.holding bytes ranges) = dstReachable q s := rfl
  rw [dstGet, dstGet, hreach]
  split
  · exact hf _ _
  · exact .stop (.fault _)

theorem dstPutList_agree (q : Nat) (bs : List Byte) :
    (dstPutList q bs s).Agree (dstPutList q bs (s.holding bytes ranges)) := by
  induction bs generalizing q s bytes ranges with
  | nil => exact .go rfl
  | cons b bs ih => exact (dstPut_agree s bytes ranges q b b).andThen fun t bytes ranges => ih t bytes ranges (q + 1)

theorem copyBytes_agree (source target count : Nat) :
    (copyBytes source target count s).Agree (copyBytes source target count (s.holding bytes ranges)) := by
  induction count generalizing source target s bytes ranges with
  | zero => exact .go rfl
  | succ count ih =>
    exact dstGet_andThen_agree s bytes ranges source fun b b' =>
      (dstPut_agree s bytes ranges target b b').andThen fun t bytes ranges => ih t bytes ranges _ _

/-! ## The sequence encoder -/

theorem srcBytes_holding (limit p k : Nat) : srcBytes limit (s.holding bytes ranges) p k = srcBytes limit s p k := by
  induction k generalizing p with
  | zero => rfl
  | succ k ih =>
    rw [srcBytes, ih]
    rfl

theorem emitBytes_agree (bs : List Byte) : (emitBytes bs s).Agree (emitBytes bs (s.holding bytes ranges)) :=
  .ite (.stop (raiseDestinationTooSmall_agree s bytes ranges))
    ((dstPutList_agree s bytes ranges s.dPos bs).andThen fun _ _ _ => .go rfl)

theorem emitSeq_agree (start ref len : Nat) :
    (emitSeq start ref len s).Agree (emitSeq start ref len (s.holding bytes ranges)) :=
  .read (srcBytes_holding s bytes ranges _ _ _) fun _ => emitBytes_agree s bytes ranges _

theorem finishCompress_agree : Agree (finishCompress s) (finishCompress (s.holding bytes ranges)) := by
  have hlast : (emitLast s).Agree (emitLast (s.holding bytes ranges)) :=
    .read (srcBytes_holding s bytes ranges _ _ _) fun _ => emitBytes_agree s bytes ranges _
  exact Flow.Agree.finish (hlast.andThen fun t bytes ranges => .go (completeRegion_holding t bytes ranges t.dPos))

/-! ## The hash-table match finder -/

/-- A state on its own destination, moved to one that differs in its bytes only. -/
theorem onto_holding {t : State} (h : t.onto s = t) : t.onto (s.holding bytes ranges) = t.holding bytes ranges := by
  rw [← h]
  rfl

/-- After an operation that only carries the destination along in its answer, as `put` says. -/
theorem Flow.Agree.carried {α : Type} {op : State → Flow α} {put : α → State → α} {f g : α → Flow State}
    (hop : ∀ d, op (s.onto d) = (op s).andThen fun a => .go (put a d))
    (hf : ∀ a, put a s = a → (f a).Agree (g (put a (s.holding bytes ranges)))) :
    ((op s).andThen f).Agree ((op (s.holding bytes ranges)).andThen g) := by
  have hself := hop s
  rw [show op (s.holding bytes ranges) = _ from hop (s.holding bytes ranges), Flow.andThen_assoc]
  cases hx : op s with
  | stop r => exact .stop (.refl r)
  | go a =>
    rw [State.onto_self, hx, Flow.andThen_go, Flow.go.injEq] at hself
    exact hf a hself.symm

/-- After PROBE, which reads and writes no DST byte. -/
theorem probe_andThen_agree (p : Nat) {f g : Option Nat × State → Flow State}
    (hf : ∀ found t, (f (found, t)).Agree (g (found, t.holding bytes ranges))) :
    ((probe p s).andThen f).Agree ((probe p (s.holding bytes ranges)).andThen g) :=
  .carried s bytes ranges (probe_onto p s) fun a ha => by
    rw [onto_holding s bytes ranges (congrArg Prod.snd ha)]
    exact hf a.1 a.2

theorem searchPass_agree : (searchPass s).Agree (searchPass (s.holding bytes ranges)) := by
  refine .ite (.go rfl) (probe_andThen_agree s bytes ranges s.mf.ip fun found t => ?_)
  cases found <;> exact .go rfl

theorem reprobe_agree : (reprobe s).Agree (reprobe (s.holding bytes ranges)) := by
  refine probe_andThen_agree s bytes ranges s.mf.ip fun found t => ?_
  cases found <;> exact .go rfl

theorem catchup_agree : (catchup s).Agree (catchup (s.holding bytes ranges)) := by
  rw [catchup, catchup, State.holding_mf]
  cases s.mf.cand with
  | none => exact .stop (.fault _)
  | some c => exact .read (catchupFrom_onto _ s (s.holding bytes ranges) _ c) fun _ => .go rfl

theorem extend_agree : (extend s).Agree (extend (s.holding bytes ranges)) := by
  rw [extend, extend, State.holding_mf]
  cases s.mf.cand with
  | none => exact .stop (.fault _)
  | some c => exact .read (commonFwd_onto _ _ _ s (s.holding bytes ranges)) fun _ => .go rfl

theorem emit_agree : (emit s).Agree (emit (s.holding bytes ranges)) := by
  rw [emit, emit, State.holding_mf]
  cases s.mf.cand with
  | none => exact .stop (.fault _)
  | some c => exact (emitSeq_agree s bytes ranges _ c _).andThen fun _ _ _ => .go rfl

theorem fastFlow_agree : (fastFlow s).Agree (fastFlow (s.holding bytes ranges)) := by
  rw [fastFlow, fastFlow, State.holding_mf]
  cases s.mf.htState with
  | search => exact .go rfl
  | searchLoop => exact searchPass_agree s bytes ranges
  | catchup => exact catchup_agree s bytes ranges
  | extend => exact extend_agree s bytes ranges
  | emit => exact emit_agree s bytes ranges
  | reprobe => exact reprobe_agree s bytes ranges
  | tail => exact .stop (finishCompress_agree s bytes ranges)

/-! ## The hash-chain match finder -/

/-- After FIND_BEST, which reads and writes no DST byte. -/
theorem findBest_andThen_agree (off : Int) {f g : State × MatchReg → Flow State}
    (hf : ∀ t m, (f (t, m)).Agree (g (t.holding bytes ranges, m))) :
    ((findBest off s).andThen f).Agree ((findBest off (s.holding bytes ranges)).andThen g) :=
  .carried s bytes ranges (findBest_onto off s) fun a ha => by
    rw [onto_holding s bytes ranges (congrArg Prod.fst ha)]
    exact hf a.1 a.2

/-- After FIND_WIDER, which reads and writes no DST byte. -/
theorem findWider_andThen_agree (off startLimit minLen : Int) (m : MatchReg) {f g : State × MatchReg → Flow State}
    (hf : ∀ t m, (f (t, m)).Agree (g (t.holding bytes ranges, m))) :
    ((findWider off startLimit minLen m s).andThen f).Agree
      ((findWider off startLimit minLen m (s.holding bytes ranges)).andThen g) :=
  .carried s bytes ranges (findWider_onto off startLimit minLen m s) fun a ha => by
    rw [onto_holding s bytes ranges (congrArg Prod.fst ha)]
    exact hf a.1 a.2

theorem encodeMatch_agree (m : MatchReg) : (encodeMatch m s).Agree (encodeMatch m (s.holding bytes ranges)) :=
  .ite (.go rfl) ((emitSeq_agree s bytes ranges _ _ _).andThen fun _ _ _ => .go rfl)

theorem chainMain_agree : (chainMain s).Agree (chainMain (s.holding bytes ranges)) :=
  .ite (.go rfl) (findBest_andThen_agree s bytes ranges s.mf.ip fun _ _ => .ite (.go rfl) (.go rfl))

theorem takeM1_agree : (takeM1 s).Agree (takeM1 (s.holding bytes ranges)) :=
  (encodeMatch_agree s bytes ranges s.hc.m1).andThen fun _ _ _ => .go rfl

theorem weighM2_holding : DstOnly (weighM2 s) (weighM2 (s.holding bytes ranges)) := .ite rfl rfl

theorem chainSearch2_agree : (chainSearch2 s).Agree (chainSearch2 (s.holding bytes ranges)) :=
  .ite (takeM1_agree s bytes ranges) (findWider_andThen_agree s bytes ranges _ _ _ _ fun t m2 =>
    .ite (.go (weighM2_holding _ bytes ranges))
      (takeM1_agree { t with hc := { t.hc with m2 := m2 } } bytes ranges))

theorem takeBoth_agree : (takeBoth s).Agree (takeBoth (s.holding bytes ranges)) :=
  (encodeMatch_agree { s with hc := { s.hc with m1 := cutM1 s.hc.m1 s.hc.m2 } } bytes ranges _).andThen
    fun t bytes ranges => (encodeMatch_agree t bytes ranges s.hc.m2).andThen fun _ _ _ => .go rfl

theorem dropM2_agree : (dropM2 s).Agree (dropM2 (s.holding bytes ranges)) :=
  (encodeMatch_agree { s with hc := { s.hc with m2 := savedM2 s.hc.m1 s.hc.m2 s.hc.m3 } } bytes ranges _).andThen
    fun _ _ _ => .go rfl

theorem shiftDown_agree : (shiftDown s).Agree (shiftDown (s.holding bytes ranges)) :=
  (encodeMatch_agree { s with hc := { s.hc with
    m1 := (trimAscending s.hc.m1 s.hc.m2).1, m2 := (trimAscending s.hc.m1 s.hc.m2).2 } } bytes ranges _).andThen
    fun _ _ _ => .go rfl

theorem weighM3_agree : (weighM3 s).Agree (weighM3 (s.holding bytes ranges)) :=
  .ite (.ite (dropM2_agree s bytes ranges) (.go rfl)) (shiftDown_agree s bytes ranges)

theorem search3From_agree : (search3From s).Agree (search3From (s.holding bytes ranges)) :=
  .ite (takeBoth_agree s bytes ranges) (findWider_andThen_agree s bytes ranges _ _ _ _ fun t m3 =>
    .ite (weighM3_agree { t with hc := { t.hc with m3 := m3 } } bytes ranges)
      (takeBoth_agree { t with hc := { t.hc with m3 := m3 } } bytes ranges))

theorem chainFlow_agree : (chainFlow s).Agree (chainFlow (s.holding bytes ranges)) := by
  rw [chainFlow, chainFlow, State.holding_hc]
  cases s.hc.hcState with
  | main => exact chainMain_agree s bytes ranges
  | search2 => exact chainSearch2_agree s bytes ranges
  | search3 =>
    exact search3From_agree { s with hc := { s.hc with m2 := trimM2 s.hc.m1 s.hc.m2 } } bytes ranges
  | tail => exact .stop (finishCompress_agree s bytes ranges)

/-! ## The states of the block decoder -/

theorem fetchGuard_agree : (fetchGuard s).Agree (fetchGuard (s.holding bytes ranges)) :=
  .ite (.stop (raiseCorruptInput_agree s bytes ranges s.bd.sPos)) (.go rfl)

/-- After a peek, which reads no DST byte. -/
theorem peek_andThen_agree {f g : Byte → Flow State} (hf : ∀ b, (f b).Agree (g b)) :
    ((peek s).andThen f).Agree ((peek (s.holding bytes ranges)).andThen g) := by
  rw [peek, peek, Flow.andThen_assoc, Flow.andThen_assoc]
  exact (fetchGuard_agree s bytes ranges).andThen fun t bytes ranges => .read (x := bdByte t.bd.sPos t) rfl hf

theorem takeToken_agree (t : Byte) : (takeToken t s).Agree (takeToken t (s.holding bytes ranges)) :=
  (fetchGuard_agree s bytes ranges).andThen fun _ _ _ => .go rfl

theorem addExtension_agree (b : Byte) : (addExtension b s).Agree (addExtension b (s.holding bytes ranges)) := by
  rw [addExtension, addExtension, State.holding_bd]
  cases s.bd.bdState with
  | readLiteralLenExtension => exact .go rfl
  | readMatchLenExtension => exact .go rfl
  | _ => exact .stop (.refused _)

theorem takeExtension_agree (b : Byte) : (takeExtension b s).Agree (takeExtension b (s.holding bytes ranges)) :=
  (fetchGuard_agree s bytes ranges).andThen fun t bytes ranges => addExtension_agree t bytes ranges b

theorem runExtension_agree (budget : Nat) :
    (runExtension budget s).Agree (runExtension budget (s.holding bytes ranges)) := by
  induction budget generalizing s bytes ranges with
  | zero => exact .stop (raiseCorruptInput_agree s bytes ranges s.bd.sPos)
  | succ budget ih =>
    exact peek_andThen_agree s bytes ranges fun b => (takeExtension_agree s bytes ranges b).andThen
      fun t bytes ranges => .ite (ih t bytes ranges) (.go rfl)

theorem readExtensionAt_agree : (readExtensionAt s).Agree (readExtensionAt (s.holding bytes ranges)) :=
  runExtension_agree s bytes ranges _

theorem copyLiterals_agree : (copyLiterals s).Agree (copyLiterals (s.holding bytes ranges)) :=
  have hraise := raiseCorruptInput_agree s bytes ranges s.bd.sPos
  .ite (.stop hraise) (.ite (.stop hraise) (.read (srcBytes_holding s bytes ranges _ _ _) fun lits =>
    (dstPutList_agree s bytes ranges s.dPos lits).andThen fun _ _ _ => .go rfl))

theorem readOffset_agree : (readOffset s).Agree (readOffset (s.holding bytes ranges)) := by
  refine .ite (.stop (raiseCorruptInput_agree s bytes ranges s.bd.sPos)) (.read (x := bdByte s.bd.sPos s) rfl fun lo =>
    .read (x := bdByte (s.bd.sPos + 1) s) rfl fun hi => ?_)
  have hraise := raiseCorruptInput_agree (takeOffset (offsetOf lo hi) s) bytes ranges s.bd.sPos
  exact .ite (.stop hraise) (.ite (.stop hraise) (.go rfl))

theorem copyMatch_agree : (copyMatch s).Agree (copyMatch (s.holding bytes ranges)) :=
  .ite (.stop (raiseCorruptInput_agree s bytes ranges s.bd.offAt))
    ((copyBytes_agree s bytes ranges _ _ _).andThen fun _ _ _ => .go rfl)

theorem finishDecode_holding : DstOnly (finishDecode s) (finishDecode (s.holding bytes ranges)) :=
  completeRegion_holding { s with bd := { s.bd with bdState := .done } } bytes ranges _

theorem decoderUnitStep_agree : Agree (decoderUnitStep s) (decoderUnitStep (s.holding bytes ranges)) := by
  have hextension := peek_andThen_agree s bytes ranges (takeExtension_agree s bytes ranges)
  rw [decoderUnitStep, decoderUnitStep, State.holding_bd]
  cases s.bd.bdState with
  | readToken => exact (peek_andThen_agree s bytes ranges (takeToken_agree s bytes ranges)).finish
  | readLiteralLenExtension => exact hextension.finish
  | copyLiterals =>
    refine Flow.Agree.finish ((copyLiterals_agree s bytes ranges).andThen fun t bytes ranges => ?_)
    have hterminal : terminal (t.holding bytes ranges) = terminal t := rfl
    rw [hterminal]
    split
    · exact .go (finishDecode_holding t bytes ranges)
    · exact .go rfl
  | readOffset => exact (readOffset_agree s bytes ranges).finish
  | readMatchLenExtension => exact hextension.finish
  | copyMatch => exact (copyMatch_agree s bytes ranges).finish
  | done => exact .next (finishDecode_holding s bytes ranges)
  | faulted => exact .fault _

/-! ## Stream instructions -/

theorem literalLength_agree (t : Byte) : (literalLength t s).Agree (literalLength t (s.holding bytes ranges)) :=
  (takeToken_agree s bytes ranges t).andThen fun u bytes ranges => .ite (readExtensionAt_agree u bytes ranges) (.go rfl)

theorem literalsThenOffset_agree : (literalsThenOffset s).Agree (literalsThenOffset (s.holding bytes ranges)) :=
  (copyLiterals_agree s bytes ranges).andThen fun t bytes ranges => readOffset_agree (toReadOffset t) bytes ranges

theorem literalsThenDone_agree : (literalsThenDone s).Agree (literalsThenDone (s.holding bytes ranges)) :=
  (copyLiterals_agree s bytes ranges).andThen fun t bytes ranges => .go (finishDecode_holding t bytes ranges)

/-- The choice at the token is the same. -/
theorem isFinal_holding (t : Byte) : isFinal t (s.holding bytes ranges) = isFinal t s := by
  have hagree := literalLength_agree s bytes ranges t
  unfold isFinal
  generalize literalLength t s = x, literalLength t (s.holding bytes ranges) = y at hagree
  cases hagree with
  | go h =>
    rw [h]
    rfl
  | stop _ => rfl

theorem exec_token_agree (final : Bool) (t : Byte) :
    Agree (exec (decodeToken final t) s) (exec (decodeToken final t) (s.holding bytes ranges)) := by
  have hlength := literalLength_agree s bytes ranges t
  cases final with
  | true =>
    rw [exec_last_eq, exec_last_eq]
    exact (hlength.andThen literalsThenDone_agree).finish
  | false =>
    rw [exec_seq_eq, exec_seq_eq]
    refine Flow.Agree.finish (hlength.andThen fun u bytes ranges =>
      (literalsThenOffset_agree u bytes ranges).andThen fun v bytes ranges => ?_)
    have hsame : (Flow.go v).Agree (.go (v.holding bytes ranges)) := .go rfl
    exact (Flow.Agree.ite (readExtensionAt_agree v bytes ranges) hsame).andThen copyMatch_agree

theorem exec_extension_agree (b : Byte) :
    Agree (exec (decodeExtension b) s) (exec (decodeExtension b) (s.holding bytes ranges)) := by
  unfold decodeExtension
  split <;> exact (takeExtension_agree s bytes ranges _).finish

/-! ## Steps -/

/-- A peek gives the same byte, or faults that agree. -/
theorem peek_holding :
    (∃ b, peek s = .go b ∧ peek (s.holding bytes ranges) = .go b) ∨
      ∃ r q, peek s = .stop r ∧ peek (s.holding bytes ranges) = .stop q ∧ Agree r q := by
  rcases Nat.lt_or_ge s.bd.sPos s.bd.sEnd with hp | hp
  · have hsame : peek (s.holding bytes ranges) = peek s := by
      rw [peek, peek, fetchGuard_inside hp, fetchGuard_inside (s := s.holding bytes ranges) hp]
      rfl
    cases hx : peek s with
    | go b => exact .inl ⟨b, rfl, hsame.trans hx⟩
    | stop r => exact .inr ⟨r, r, rfl, hsame.trans hx, .refl r⟩
  · exact .inr ⟨_, _, peek_exhausted hp, peek_exhausted (s := s.holding bytes ranges) hp,
      raiseCorruptInput_agree s bytes ranges _⟩

theorem decoderFetch_agree : Agree (decoderFetch s).result (decoderFetch (s.holding bytes ranges)).result := by
  have hunit := decoderUnitStep_agree s bytes ranges
  obtain ⟨b, hb, hb'⟩ | ⟨r, q, hr, hq, hfault⟩ := peek_holding s bytes ranges
  · simp only [decoderFetch, hb, hb', State.holding_bd, isFinal_holding]
    cases s.bd.bdState with
    | readToken => exact exec_token_agree s bytes ranges _ b
    | readLiteralLenExtension => exact exec_extension_agree s bytes ranges b
    | readMatchLenExtension => exact exec_extension_agree s bytes ranges b
    | _ => exact hunit
  · simp only [decoderFetch, hr, hq, State.holding_bd]
    cases s.bd.bdState with
    | readToken => exact hfault
    | readLiteralLenExtension => exact hfault
    | readMatchLenExtension => exact hfault
    | _ => exact hunit

/-- A core step agrees, whichever unit makes it. -/
theorem coreStep_agree : Agree (coreStep s) (coreStep (s.holding bytes ranges)) := by
  cases hb : s.isBusy with
  | false =>
    rw [coreStep_waits hb, coreStep_waits (s := s.holding bytes ranges) hb]
    exact .next rfl
  | true =>
    simp only [coreStep, coreFetch, State.holding_isBusy, State.holding_cmd, hb, if_true]
    split
    · rw [fastStep_eq, fastStep_eq]
      exact (fastFlow_agree s bytes ranges).finish
    · rw [chainStep_eq, chainStep_eq]
      exact (chainFlow_agree s bytes ranges).finish
    · exact decoderFetch_agree s bytes ranges
    · exact decoderFetch_agree s bytes ranges
    · exact .fault _

end

/-- Settles O56: a core step agrees on two states that differ in DST bytes only. -/
theorem dstContentsDoNotSteer : Obligations.DstContentsDoNotSteer := by
  intro s t hblind hquiet s' hstep
  have ht : t = s.holding t.dst t.dstOpen := (congrArg (State.holding · t.dst t.dstOpen) hblind).symm
  have hagree := coreStep_agree s t.dst t.dstOpen
  rw [← step_quiet hquiet, hstep] at hagree
  rw [ht, step_quiet (s := s.holding t.dst t.dstOpen) hquiet]
  generalize coreStep (s.holding t.dst t.dstOpen) = r at hagree
  cases hagree with
  | next h =>
    refine ⟨_, rfl, ?_⟩
    rw [h]
    rfl

end Sys2Proof.Machine
end

section
/-! PROOFS. The host commands that end in the step of their CMD write (44_host_commands.md R211, R212, R217, R219):
CLEAR, MAXLEN, the illegal command, and a command that its checks refuse. -/

namespace Sys2Proof.Machine

/-! ## The columns of the argument checks (R211) -/

theorem badMaxlenArgs_iff (s : State) :
    badMaxlenArgs s = true ↔ s.srcLen.toInt < 0 ∨ s.srcLen.toInt > 2113929216 := by
  simp [badMaxlenArgs, checkK3, checkK7]

theorem badCompressArgs_iff (s : State) :
    badCompressArgs s = true ↔
      (s.srcCap.toInt < 0 ∨ s.dstCap.toInt < 0) ∨
        (s.srcOff.toInt < 0 ∨ s.dstOff.toInt < 0 ∨ s.dstLen.toInt < 0) ∨ s.srcLen.toInt < 0 ∨
        s.srcOff.toInt + s.srcLen.toInt > s.srcCap.toInt ∨ s.dstOff.toInt + s.dstLen.toInt > s.dstCap.toInt ∨
        s.srcLen.toInt > 2113929216 := by
  simp [badCompressArgs, checkK1, checkK2, checkK3, checkK4, checkK6, checkK7, or_assoc]

theorem badTrustArgs_iff (s : State) :
    badTrustArgs s = true ↔
      (s.srcCap.toInt < 0 ∨ s.dstCap.toInt < 0) ∨
        (s.srcOff.toInt < 0 ∨ s.dstOff.toInt < 0 ∨ s.dstLen.toInt < 0) ∨ s.srcOff.toInt > s.srcCap.toInt ∨
        s.dstOff.toInt + s.dstLen.toInt > s.dstCap.toInt := by
  simp [badTrustArgs, checkK1, checkK2, checkK5, checkK6, or_assoc]

theorem badSafeArgs_iff (s : State) :
    badSafeArgs s = true ↔
      (s.srcCap.toInt < 0 ∨ s.dstCap.toInt < 0) ∨
        (s.srcOff.toInt < 0 ∨ s.dstOff.toInt < 0 ∨ s.dstLen.toInt < 0) ∨ s.srcLen.toInt < 0 ∨
        s.srcOff.toInt + s.srcLen.toInt > s.srcCap.toInt ∨ s.dstOff.toInt + s.dstLen.toInt > s.dstCap.toInt := by
  simp [badSafeArgs, checkK1, checkK2, checkK3, checkK4, checkK6, or_assoc]

/-! ## Refusal -/

/-- The state in which a command ends that is refused at its start (R211, R236). -/
def State.refusing (s : State) (code : Word) : State :=
  { s with cmd := code, status := .faulted .invalidArgument, result := 0, faultOff := 0 }

section

variable {code : Word} {bad : State → Bool} {start : State → State} {s : State}

theorem checkedCommand_refused (hb : s.isBusy = false) (hbad : bad (startCommand code s) = true) :
    hostCommand code (fun u => if bad u then raiseInvalidArgument u else .next (start u)) s =
      .next (s.refusing code) := by
  rw [hostCommand_start hb, hbad]
  rfl

/-- A command whose start is no fault ends in InvalidArgument exactly where a check fails. -/
theorem checkedCommand_refused_iff (hb : s.isBusy = false)
    (hstart : (start (startCommand code s)).status.cause = .none) :
    hostCommand code (fun u => if bad u then raiseInvalidArgument u else .next (start u)) s =
      .next (s.refusing code) ↔ bad (startCommand code s) = true := by
  refine ⟨fun h => ?_, checkedCommand_refused hb⟩
  by_contra hbad
  rw [checkedCommand_accepted hb (Bool.eq_false_iff.mpr hbad), Host.Outcome.next.injEq] at h
  rw [h] at hstart
  cases hstart

end

/-- The completion of MAXLEN with an accepted length (R212, R218). -/
def maxlenDone (s : State) : State := complete (maxCompressedLength s.srcLen.toInt.toNat) s

/-- Settles O24: each command is refused exactly where its column fails, since its start is no fault. -/
theorem argumentChecks : Obligations.ArgumentChecks := by
  intro s hb
  refine ⟨?_, ?_, ?_, ?_, ?_⟩
  · exact (checkedCommand_refused_iff (code := 1) (start := maxlenDone) hb rfl).trans (badMaxlenArgs_iff s)
  · exact (checkedCommand_refused_iff (code := 2) (start := setupFast) hb rfl).trans (badCompressArgs_iff s)
  · exact (checkedCommand_refused_iff (code := 3) (start := setupChain) hb rfl).trans (badCompressArgs_iff s)
  · exact (checkedCommand_refused_iff (code := 4)
      (start := fun u => setupDecoder (u.srcCap.toInt - u.srcOff.toInt).toNat u) hb rfl).trans (badTrustArgs_iff s)
  · exact (checkedCommand_refused_iff (code := 5) (start := fun u => setupDecoder u.srcLen.toInt.toNat u) hb rfl).trans
      (badSafeArgs_iff s)

/-! ## CLEAR, MAXLEN and the illegal command -/

/-- Settles O20: the command start, then STATUS idle. -/
theorem clearReturnsToIdle : Obligations.ClearReturnsToIdle := fun _ hb =>
  hostCommand_start (code := 0) (body := fun u => .next { u with status := .idle }) hb

/-- The bound of an accepted length is a non-negative signed word (R8, R212). -/
theorem maxCompressedLength_word {n : Nat} (hn : n ≤ 2113929216) :
    (BitVec.ofNat 32 (maxCompressedLength n)).toInt = n + n / 255 + 16 ∧
      (BitVec.ofNat 32 (maxCompressedLength n)).toNat = n + n / 255 + 16 := by
  have hnat : (BitVec.ofNat 32 (maxCompressedLength n)).toNat = n + n / 255 + 16 := by
    rw [BitVec.toNat_ofNat, maxCompressedLength]
    omega
  refine ⟨?_, hnat⟩
  rw [BitVec.toInt_eq_toNat_of_lt (by omega), hnat]
  push_cast
  rfl

/-- Settles O21: the check passes and the bound fits, or the check fails. -/
theorem maxlenResult : Obligations.MaxlenResult := by
  intro s hb
  refine ⟨fun n hlen hn => ?_, fun hout => ?_⟩
  · obtain ⟨hint, hnat⟩ := maxCompressedLength_word hn
    have hok : badMaxlenArgs s = false := by
      rw [Bool.eq_false_iff, ne_eq, badMaxlenArgs_iff]
      omega
    refine ⟨_, hint, hnat, (checkedCommand_accepted (code := 1) (start := maxlenDone) hb hok).trans ?_⟩
    rw [maxlenDone, startCommand_srcLen, hlen, Int.toNat_natCast]
    rfl
  · exact checkedCommand_refused (code := 1) (start := maxlenDone) hb ((badMaxlenArgs_iff s).mpr hout)

/-- Settles O25: every code from 6 on is the illegal command, which raises at its start. -/
theorem illegalCommandFaults : Obligations.IllegalCommandFaults := by
  intro s c hb hc
  rw [decodeCommand_illegal hc]
  exact ⟨hostCommand_start hb, rfl⟩

end Sys2Proof.Machine
end

section
/-! PROOFS. Exceptions and waiting: the two faults of a unit leave the destination region at any value
(60_exceptions.md R237, R238), and outside BUSY the block waits and a poll ends (70_reset_and_hazards.md R248, R262). -/

namespace Sys2Proof.Machine

/-! ## The destination region at any value -/

/-- From position `q` on, each byte of the destination region is a free value (R33). -/
theorem dstRead_openRegionFrom_inside {q a : Nat} {s : State} (hlo : dstBase s + q ≤ a) (hhi : a < dstLimit s) :
    dstRead (openRegionFrom q s) a = Config.freeByte s.draws a := dstRead_openDst_inside ⟨hlo, hhi⟩

/-- The writes to STATUS, FAULT_OFF and BD_STATE that take a fault, and then the whole destination region at any value
(R33 (d), R239). -/
def State.faultedOpen (s : State) (cause : Cause) (faultOff : Word) (x : BdState) : State :=
  openRegionFrom 0
    { s with status := .faulted cause, faultOff := faultOff, bd := { s.bd with bdState := x } }

section

variable (s : State) (cause : Cause) (faultOff : Word) (x : BdState)

theorem State.faultedOpen_eq :
    s.faultedOpen cause faultOff x = { s with
      status := .faulted cause, faultOff := faultOff, bd := { s.bd with bdState := x }
      dst := (s.faultedOpen cause faultOff x).dst, dstOpen := (s.faultedOpen cause faultOff x).dstOpen
      draws := (s.faultedOpen cause faultOff x).draws } := openRegionFrom_eq 0 _

theorem State.faultedOpen_status : (s.faultedOpen cause faultOff x).status = .faulted cause :=
  openRegionFrom_status _ _

/-- The register writes do not move the region, so its bytes are free and the others are as they were. -/
theorem dstRead_faultedOpen :
    (∀ a, dstBase s ≤ a → a < dstLimit s →
      ∃ k, dstRead (s.faultedOpen cause faultOff x) a = Config.freeByte k a) ∧
    ∀ a, a < dstBase s ∨ dstLimit s ≤ a → dstRead (s.faultedOpen cause faultOff x) a = dstRead s a :=
  ⟨fun _ hlo hhi => ⟨s.draws, dstRead_openRegionFrom_inside hlo hhi⟩,
    fun _ hout => dstRead_openRegionFrom_outside hout⟩

end

theorem raiseCorruptInput_eq (p : Nat) (s : State) :
    raiseCorruptInput p s =
      .next (s.faultedOpen .corruptInput (s.srcOff + BitVec.ofNat 32 p) .faulted) := rfl

theorem raiseDestinationTooSmall_eq (s : State) :
    raiseDestinationTooSmall s = .next (s.faultedOpen .destinationTooSmall s.faultOff s.bd.bdState) := rfl

/-- Settles O33: each fault is its register writes and the opening of the region. That the working registers stay
as they were is the choice of log 19 (R239 leaves them open). -/
theorem faultsLeaveRegionOpen : Obligations.FaultsLeaveRegionOpen := by
  intro s p
  constructor
  · have hstatus := s.faultedOpen_status .corruptInput (s.srcOff + BitVec.ofNat 32 p) .faulted
    refine ⟨_, raiseCorruptInput_eq p s, openRegionFrom_faultOff _ _, congrArg Status.cause hstatus,
      congrArg Status.run hstatus, ?_, dstRead_faultedOpen s _ _ _⟩
    rw [State.faultedOpen_eq]
  · have hstatus := s.faultedOpen_status .destinationTooSmall s.faultOff s.bd.bdState
    refine ⟨_, raiseDestinationTooSmall_eq s, congrArg Status.cause hstatus, congrArg Status.run hstatus, ?_,
      dstRead_faultedOpen s _ _ _⟩
    rw [State.faultedOpen_eq]

/-! ## Waiting -/

/-- A step with a host move pending makes the move. -/
theorem step_hostMove {s : State} {m : HostMove} {rest : List HostMove} (h : s.host = m :: rest) :
    step s = (hostMove m { s with host := rest }).result := by
  rw [step_eq, fetch, h]

/-- Outside BUSY a poll is a read of STATUS (R262). -/
theorem hostMove_poll_idle {s : State} (hb : s.isBusy = false) :
    hostMove .poll s = .outcome (.next { s with hostData := s.status.word }) := by
  rw [hostMove, hb]
  rfl

/-- Settles O17: the core has no step outside BUSY, and a poll reads STATUS. -/
theorem idleWaitsAndPollEnds : Obligations.IdleWaitsAndPollEnds := by
  intro s hb
  refine ⟨fun hquiet => (step_quiet hquiet).trans (coreStep_waits hb), fun rest hpoll => ?_⟩
  rw [step_hostMove hpoll, hostMove_poll_idle (s := { s with host := rest }) hb]
  rfl

end Sys2Proof.Machine
end

section
/-! PROOFS. Reset and hazards (70_reset_and_hazards.md): a reset at any time (R260, R261), register accesses while BUSY
and to the read-only registers (R265), and the host's own access to SRC and DST (R264). -/

namespace Sys2Proof.Machine

/-! ## Reset (R260, R261) -/

/-- The registers are those of the reset state. -/
theorem readRegister_applyReset (offset : Nat) (s : State) :
    readRegister offset (applyReset s) = readRegister offset State.reset := rfl

@[simp] theorem applyReset_src (s : State) : (applyReset s).src = s.src := by
  unfold applyReset
  split
  · exact openRegionFrom_src 0 s
  · rfl

@[simp] theorem applyReset_host (s : State) : (applyReset s).host = s.host := by
  unfold applyReset
  split
  · exact openRegionFrom_host 0 s
  · rfl

/-- Outside BUSY a reset keeps DST. -/
theorem dstRead_applyReset_idle {s : State} (hb : s.isBusy = false) (a : Nat) :
    dstRead (applyReset s) a = dstRead s a := by
  unfold applyReset
  rw [hb]
  rfl

/-- While BUSY a reset does to DST what opening the whole destination region does. -/
theorem dstRead_applyReset_busy {s : State} (hb : s.isBusy = true) (a : Nat) :
    dstRead (applyReset s) a = dstRead (openRegionFrom 0 s) a := by
  unfold applyReset
  rw [hb]
  rfl

theorem dstRead_applyReset_inside {s : State} {a : Nat} (hb : s.isBusy = true) (hlo : dstBase s ≤ a)
    (hhi : a < dstLimit s) : dstRead (applyReset s) a = Config.freeByte s.draws a := by
  rw [dstRead_applyReset_busy hb]
  exact dstRead_openRegionFrom_inside hlo hhi

theorem dstRead_applyReset_outside {s : State} {a : Nat}
    (h : ¬(s.isBusy = true ∧ dstBase s ≤ a ∧ a < dstLimit s)) : dstRead (applyReset s) a = dstRead s a := by
  cases hb : s.isBusy with
  | false => exact dstRead_applyReset_idle hb a
  | true =>
    have hout : ¬(dstBase s ≤ a ∧ a < dstLimit s) := fun hin => h ⟨hb, hin⟩
    rw [dstRead_applyReset_busy hb, dstRead_openRegionFrom_outside (by omega)]

/-- Settles O12: the reset state's registers and tables, and the destination region opened if the block was BUSY. -/
theorem resetAtAnyTime : Obligations.ResetAtAnyTime := by
  intro s rest hhost
  obtain ⟨hregs, hht, hhead⟩ := resetState
  refine ⟨_, step_hostMove hhost, applyReset_host _, fun offset hmem => ?_, hht, hhead, applyReset_src _,
    fun a => ⟨fun ⟨hb, hlo, hhi⟩ => ⟨s.draws, dstRead_applyReset_inside hb hlo hhi⟩,
      fun hout => dstRead_applyReset_outside hout⟩⟩
  rw [readRegister_applyReset, hregs offset hmem]

/-! ## Register accesses (R265) -/

/-- While BUSY a host command has no other next state than the one it started from. -/
theorem CommandFrom.eq_of_busy {s t : State} (h : CommandFrom s t) (hb : s.isBusy = true) : t = s := by
  cases h with
  | ignored => rfl
  | clear hidle | maxlen hidle | refused _ hidle | compressFast hidle | compressHc hidle | decompressTrust hidle
  | decompressSafe hidle => simp [hb] at hidle

/-- A write to CMD while BUSY is ignored, whatever its value. -/
theorem exec_command_busy {s : State} (hb : s.isBusy = true) (v : Word) : exec (decodeCommand v) s = .next s := by
  obtain ⟨t, ht⟩ := exec_command_answers v s
  rw [ht, (exec_command_cases ht).eq_of_busy hb]

theorem writeRegister_argument_busy {s : State} (hb : s.isBusy = true) {offset : Nat}
    (hmem : offset ∈ [0x08, 0x0C, 0x10, 0x14, 0x18, 0x1C]) (v : Word) : writeRegister offset v s = some s := by
  simp only [List.mem_cons, List.not_mem_nil, or_false] at hmem
  rcases hmem with rfl | rfl | rfl | rfl | rfl | rfl <;> simp [writeRegister, hb]

theorem writeRegister_readOnly {offset : Nat} (hmem : offset ∈ [0x04, 0x20, 0x24]) (v : Word) (s : State) :
    writeRegister offset v s = some s := by
  simp only [List.mem_cons, List.not_mem_nil, or_false] at hmem
  rcases hmem with rfl | rfl | rfl <;> rfl

theorem exists_readRegister {offset : Nat}
    (hmem : offset ∈ [0x00, 0x04, 0x08, 0x0C, 0x10, 0x14, 0x18, 0x1C, 0x20, 0x24]) (s : State) :
    ∃ v, readRegister offset s = some v := by
  simp only [List.mem_cons, List.not_mem_nil, or_false] at hmem
  rcases hmem with rfl | rfl | rfl | rfl | rfl | rfl | rfl | rfl | rfl | rfl <;> exact ⟨_, rfl⟩

/-- A host read of a register hands over its value and changes nothing else. -/
theorem step_readRegister {s : State} {offset : Nat} {v : Word} {rest : List HostMove}
    (h : s.host = .readReg offset :: rest) (hv : readRegister offset s = some v) :
    step s = .next { s with host := rest, hostData := v } := by
  have hv' : readRegister offset { s with host := rest } = some v := hv
  rw [step_hostMove h, hostMove, Fetched.result, readMove, hv']

/-- While BUSY there is no cause, for a cause goes with FAULT (R25). -/
theorem StatusRules.status_of_busy {s : State} (h : StatusRules s) (hb : s.isBusy = true) : s.status = .busy := by
  have hrun : s.status.run = .busy := by simpa [State.isBusy] using hb
  have hcause : s.status.cause = .none := by
    by_contra hne
    simpa [hrun] using h.cause_iff_fault.mp hne
  exact congrArg₂ Status.mk hrun hcause

/-- STATUS reads BUSY with no cause, and RESULT and FAULT_OFF read 0 (R25, R26). -/
theorem StatusRules.readRegister_busy {s : State} (h : StatusRules s) (hb : s.isBusy = true) :
    readRegister 0x04 s = some 1 ∧ readRegister 0x20 s = some 0 ∧ readRegister 0x24 s = some 0 := by
  obtain ⟨hresult, hfault⟩ := h.of_busy hb
  exact ⟨congrArg (fun st => some (Status.word st)) (h.status_of_busy hb), congrArg some hresult, congrArg some hfault⟩

/-- Settles O15: what each register port answers, in the step that makes the access. -/
theorem registerAccessWhileBusy : Obligations.RegisterAccessWhileBusy := by
  intro s rest
  refine ⟨fun offset v hhost hmem hb => ?_, fun offset v hhost hmem => ?_, fun offset hhost hmem => ?_,
    fun hb hrules => hrules.readRegister_busy hb⟩
  · have hbusy : State.isBusy { s with host := rest } = true := hb
    rcases List.mem_cons.mp hmem with rfl | harg
    · rw [step_writeCmd hhost, exec_command_busy hbusy]
    · exact step_writeRegister hhost (by rintro rfl; simp at harg) (writeRegister_argument_busy hbusy harg v)
  · exact step_writeRegister hhost (by rintro rfl; simp at hmem) (writeRegister_readOnly hmem v _)
  · obtain ⟨v, hv⟩ := exists_readRegister hmem s
    exact ⟨v, hv, step_readRegister hhost hv⟩

/-! ## The host's own access to the buffers (R264) -/

theorem hostMemory_busy {s : State} (hb : s.isBusy = true) (a : Nat) (access : State) :
    hostMemory a s access = .refused .hostMemoryWhileBusy := by
  rw [hostMemory, if_pos hb]

theorem hostMemory_idle {s : State} (hb : s.isBusy = false) {a : Nat} (ha : a < hostAddressLimit) (access : State) :
    hostMemory a s access = .next access := by
  rw [hostMemory, if_neg (by simp [hb]), if_pos ha]

/-- Every byte of a memory after a write. -/
theorem Memory.read_write {m : Memory} (hm : Memory.wf m = true) (a : Nat) (b : Byte) (x : Nat) :
    Memory.read (Memory.write m a b) x = if x = a then b else Memory.read m x := storeGet_storeSet hm a b x

/-- Every byte of DST after a write. -/
theorem dstRead_dstWrite {s : State} (hwf : Memory.wf s.dst = true) (a : Nat) (b : Byte) (x : Nat) :
    dstRead (dstWrite s a b) x = if x = a then b else dstRead s x := by
  split
  · next heq => rw [heq, dstRead_dstWrite_same hwf]
  · next hne => exact dstRead_dstWrite_ne hne

/-- Settles O16: each access is `hostMemory`, which while BUSY refuses (log 14) and else makes the access to an address
that a capacity can cover. -/
theorem hostMemoryAccess : Obligations.HostMemoryAccess := by
  intro s rest a b ha
  refine ⟨fun hb hhost => ?_, fun hb hwf hhost => ?_, fun hb hwf hhost => ?_, fun hb hhost => ?_, fun hb hhost => ?_⟩
  · rcases hhost with hhost | hhost | hhost | hhost <;> rw [step_hostMove hhost] <;> exact hostMemory_busy hb a _
  · have hbuffers := (storageWf_iff.mp hwf).buffers
    exact ⟨_, (step_hostMove hhost).trans (hostMemory_idle hb ha _), rfl, Memory.read_write hbuffers.src_wf a b⟩
  · have hbuffers := (storageWf_iff.mp hwf).buffers
    exact ⟨_, (step_hostMove hhost).trans (hostMemory_idle hb ha _), rfl, dstRead_dstWrite hbuffers.dst_wf a b⟩
  · exact (step_hostMove hhost).trans (hostMemory_idle hb ha _)
  · exact (step_hostMove hhost).trans (hostMemory_idle hb ha _)

end Sys2Proof.Machine
end
